-- ==== Sys2Proof/Word.lean ====
section
/-! DEFINITION. The word types of HUFFCORE, at the widths of 00_scope.md rule R7 and 10_state.md. -/

namespace Sys2Proof

/-- A host data word: 32 bits (R7, R101). -/
abbrev Word := BitVec 32

/-- One byte of an artifact (R107). -/
abbrev Byte := BitVec 8

/-- A symbol: an 8-bit code (R7). -/
abbrev Symbol := BitVec 8

/-- An index into the node memory: 9 bits (R7, R47). -/
abbrev NodeIndex := BitVec 9

/-- A node weight: 40 bits unsigned (R7, R224). -/
abbrev Weight := BitVec 40

/-- A byte address of the host register space: 12 bits (R101). -/
abbrev Address := BitVec 12

end Sys2Proof
end

