-- ==== Sys2Proof/Syntax.lean ====
section
/-! DEFINITION. The commands of HUFFCORE: one constructor for each row of the opcode map (30_encoding.md R154). -/

namespace Sys2Proof

/-- A command. CNT and SENC carry the only operand a command word has, the 8-bit symbol (R152). -/
inductive Instr where
  | nop
  | clrfreq
  | cnt (sym : Symbol)
  | build
  | clrtrie
  | genlut
  | tenc
  | tdec
  | lenc
  | ldec
  | senc (sym : Symbol)
  | sdec
  | menc
  | mdec
  | close
  deriving DecidableEq, Repr

end Sys2Proof
end

