-- ==== Sys2Proof/WellFormed.lean ====
section
/-! DEFINITION. Which command words are well formed (30_encoding.md R153, R156). An `Instr` carries its operand at
its own width, so every term of `Instr` is well formed; the checks are on the 32-bit words the host writes. -/

namespace Sys2Proof.CommandWord

/-- The opcode is one of the map's 15 (R154): `OP` is at most `0x0E`. -/
def opAssigned (w : Word) : Bool := w.toNat % 256 ≤ 14

/-- `RSV = cmd[31:16]` is 0 (R153). -/
def reservedClear (w : Word) : Bool := w.toNat / 65536 == 0

/-- `SYM` is 0 unless the opcode is CNT (`0x02`) or SENC (`0x0A`) (R153). -/
def symbolClear (w : Word) : Bool :=
  w.toNat % 256 == 2 || w.toNat % 256 == 10 || w.toNat / 256 % 256 == 0

/-- A legal command word: one that breaks none of the requirements of R153 and R156. -/
def wf (w : Word) : Bool := opAssigned w && reservedClear w && symbolClear w

end Sys2Proof.CommandWord
end

