-- ==== Sys2Proof/Decode.lean ====
section
/-! DEFINITION. The decoder of 30_encoding.md R155 and the encoder of R154. -/

namespace Sys2Proof

/-- Why a command word is illegal (R156); each is a sub-cause of ILLEGAL_COMMAND (60_exceptions.md R401). -/
inductive Reject where
  /-- `OP > 0x0E`. -/
  | badOpcode
  /-- A field that must be 0 is not. -/
  | reservedBits
  deriving DecidableEq, Repr

/-- What the decoder answers: a command, or a word rejected by name. -/
inductive Decoded where
  | legal (i : Instr)
  | illegal (r : Reject)
  deriving DecidableEq, Repr

/-- `OP = cmd[7:0]` (R151). -/
def opField (w : Word) : BitVec 8 := w.extractLsb' 0 8

/-- `SYM = cmd[15:8]` (R152). -/
def symField (w : Word) : Symbol := w.extractLsb' 8 8

/-- `RSV = cmd[31:16]` (R153). -/
def rsvField (w : Word) : BitVec 16 := w.extractLsb' 16 16

/-- The opcode map (R154): row `op`, with the operand for CNT and SENC; none for `0x0F..0xFF`. -/
def opcodeRow (op : BitVec 8) (sym : Symbol) : Option Instr :=
  match op.toNat with
  | 0x00 => some .nop
  | 0x01 => some .clrfreq
  | 0x02 => some (.cnt sym)
  | 0x03 => some .build
  | 0x04 => some .clrtrie
  | 0x05 => some .genlut
  | 0x06 => some .tenc
  | 0x07 => some .tdec
  | 0x08 => some .lenc
  | 0x09 => some .ldec
  | 0x0A => some (.senc sym)
  | 0x0B => some .sdec
  | 0x0C => some .menc
  | 0x0D => some .mdec
  | 0x0E => some .close
  | _ => none

/-- The decode procedure (R155): the opcode first, then the reserved bits, then the symbol field. -/
def decode (cmd : Word) : Decoded :=
  match opcodeRow (opField cmd) (symField cmd) with
  | none => .illegal .badOpcode
  | some i =>
    if rsvField cmd ≠ 0 then .illegal .reservedBits
    else if opField cmd ≠ 0x02 ∧ opField cmd ≠ 0x0A ∧ symField cmd ≠ 0 then .illegal .reservedBits
    else .legal i

/-- A command word from its opcode and symbol fields, with `RSV = 0` (R150). -/
def commandWord (op : BitVec 8) (sym : Symbol) : Word := (0 : BitVec 16) ++ sym ++ op

/-- The word of a command (R154). -/
def encode : Instr → Word
  | .nop => commandWord 0x00 0
  | .clrfreq => commandWord 0x01 0
  | .cnt sym => commandWord 0x02 sym
  | .build => commandWord 0x03 0
  | .clrtrie => commandWord 0x04 0
  | .genlut => commandWord 0x05 0
  | .tenc => commandWord 0x06 0
  | .tdec => commandWord 0x07 0
  | .lenc => commandWord 0x08 0
  | .ldec => commandWord 0x09 0
  | .senc sym => commandWord 0x0A sym
  | .sdec => commandWord 0x0B 0
  | .menc => commandWord 0x0C 0
  | .mdec => commandWord 0x0D 0
  | .close => commandWord 0x0E 0

/-- The command whose bits are `w`, numbered as spec/opcode_table.json numbers them. Every command is exactly one
32-bit word (R157), so bits above `nbits` are 0 and more than 32 bits are no command. -/
def decodeTableWord (nbits w : Nat) : Option Instr :=
  if w % 2 ^ nbits < 2 ^ 32 then
    match decode (BitVec.ofNat 32 (w % 2 ^ nbits)) with
    | .legal i => some i
    | .illegal _ => none
  else none

end Sys2Proof
end

