-- ==== Sys2Proof/Config.lean ====
section
/-! DEFINITION. The fixed parameters of HUFFCORE (00_scope.md rule R7) and the one free value of the model. -/

namespace Sys2Proof.Config

/-- `ID` reads "HUFF" in ASCII (10_state.md R31). -/
def idValue : Word := 0x48554646#32

/-- `VERSION` (R31). -/
def versionValue : Word := 0x00000001#32

/-- `NSYM`, the number of symbol codes (R7). -/
def nsym : Nat := 256

/-- `NODE_CAP`, the entries of the node memory (R7, R47). -/
def nodeCap : Nat := 511

/-- `STACK_CAP`, the entries of the traversal stack (R7, R54; 90_conflicts.md C10). -/
def stackCap : Nat := 512

/-- `MAXCODE`, the longest code word in bits (R7). -/
def maxCode : Nat := 255

/-- The reset value of `ALLOW`, word 0 in the low bits: the default alphabet (10_state.md R52). -/
def defaultAllow : BitVec 256 :=
  0x00000000000000000000000000000000_07FFFFFE_00000000_00006802_00000000#256

/-- How many steps the core may make in one full turn (`Pace.full`).
DESIGN CHOICE (log 3): safe; it is above what any command needs (70_reset_and_hazards.md R481), and a command
that is not finished at the end of a turn goes on in the next. -/
def turnLength : Nat := 281474976710656

/-- FREE VALUE (log 4): what the n-th unspecified read made while BUSY = 1 returns (10_state.md R58,
93_implementation_defined.md item 9). It has no body, so nothing can be proved about its value. -/
opaque busyRead : Nat → Word

end Sys2Proof.Config
end

