-- ==== Sys2Proof/Machine/State.lean ====
section
/-! DEFINITION. Everything the spec gives HUFFCORE as state (10_state.md), with the environments of its four ports
and the host's pending accesses, all as plain data; and the state right after reset. -/

namespace Sys2Proof.Machine

/-- `STATUS.TRIE_STATE` (R37). -/
inductive TrieState where
  | none
  | empty
  | valid
  deriving DecidableEq, Repr

/-- The result codes (60_exceptions.md R400). -/
inductive ResultCode where
  | ok
  | inputError
  | formatError
  | encodingError
  | sequenceError
  | illegalCommand
  deriving DecidableEq, Repr

/-- The sub-causes (60_exceptions.md R401). -/
inductive Subcause where
  | none
  | emptyInput
  | freqSaturated
  | negLen
  | truncTrie
  | truncLen
  | truncMsg
  | nodeOverflow
  | noCode
  | noTrie
  | noLut
  | emptyTrie
  | badOpcode
  | reservedBits
  deriving DecidableEq, Repr

/-- One entry of the node memory (R47). -/
structure Node where
  inuse : Bool
  leaf : Bool
  sym : Symbol
  left : NodeIndex
  right : NodeIndex
  weight : Weight
  deriving DecidableEq, Repr

/-- The all-zero entry of the node memory. -/
def Node.zero : Node :=
  { inuse := false, leaf := false, sym := 0, left := 0, right := 0, weight := 0 }

/-- One entry of the code table (R49): `bits.getLsbD j` is `BITS[j]`, the j-th bit of the code word in stream order. -/
structure LutEntry where
  present : Bool
  len : BitVec 8
  bits : BitVec 255
  deriving DecidableEq, Repr

/-- The all-zero entry of the code table. -/
def LutEntry.zero : LutEntry := { present := false, len := 0, bits := 0 }

/-- A table held sparsely: (index, entry) pairs, indices strictly rising, no entry equal to the table's reset entry
(log 7). -/
abbrev Table (α : Type) := List (Nat × α)

/-- One entry of BUILD's priority queue (R53). -/
structure PqEntry where
  weight : Weight
  seq : BitVec 9
  node : NodeIndex
  deriving DecidableEq, Repr

/-- A pending slot of TDEC: where the next node read goes (43_trie_codec.md R265). -/
inductive Slot where
  | root
  | left (parent : NodeIndex)
  | right (parent : NodeIndex)
  deriving DecidableEq, Repr

/-- The sequencer (R56) and its hidden state (R53 to R55). Each constructor is the point in a command's pseudocode
that the core has reached. `STATUS.BUSY` is 0 exactly in `idle` (log 2). -/
inductive Task where
  /-- No command runs. -/
  | idle
  /-- The word in `CMD` has been accepted and not yet decoded (60_exceptions.md R403). -/
  | issued
  /-- BUILD's merge loop: the next node index `n`, the next `seq`, the number of leaves, the queue. -/
  | build (n seq leaves : Nat) (pq : List PqEntry)
  /-- GENLUT's loop: a stack of node indices and paths. -/
  | genlut (stack : List (NodeIndex × List Bool))
  /-- TENC's loop: bits of the current node still to be sent, and the stack of node indices. -/
  | tenc (out : List Bool) (stack : List NodeIndex)
  /-- TDEC before a tag bit: the pending slots, the nodes and leaves so far. -/
  | tdecTag (pending : List Slot) (n leaves : Nat)
  /-- TDEC inside the symbol of leaf `i`: the symbol bits read so far, in order. -/
  | tdecSym (pending : List Slot) (n leaves : Nat) (i : NodeIndex) (got : List Bool)
  /-- LENC: length bits still to be sent. -/
  | lenc (out : List Bool)
  /-- LDEC: length bits read so far, in order. -/
  | ldec (got : List Bool)
  /-- SENC: code bits still to be sent. -/
  | senc (out : List Bool)
  /-- SDEC's walk: the current node. -/
  | sdec (i : NodeIndex)
  /-- MENC at the head of iteration `k`. -/
  | mencSym (k : Nat)
  /-- MENC in iteration `k`: code bits still to be sent. -/
  | mencOut (k : Nat) (out : List Bool)
  /-- MDEC at the head of iteration `k`. -/
  | mdecNext (k : Nat)
  /-- MDEC's walk in iteration `k`: the current node. -/
  | mdecWalk (k : Nat) (i : NodeIndex)
  /-- MDEC in iteration `k`: a symbol offered on symbol-out. -/
  | mdecOut (k : Nat) (sym : Symbol)
  /-- CLOSE before its Close event. -/
  | close
  deriving DecidableEq, Repr

/-- An event on the bit sink (20_memory.md R105). -/
inductive SinkEvent where
  | bit (b : Bool)
  | close
  deriving DecidableEq, Repr

/-- How many more transfers the far side of an output port accepts before it holds its ready signal at 0
(R105, R112; 30_encoding.md R183). -/
inductive Ready where
  | always
  | count (n : Nat)
  deriving DecidableEq, Repr

/-- How far the core goes after an event: a full turn, or that many steps. No timing is specified
(70_reset_and_hazards.md R480), so a host access may land after any number of the core's steps (log 3). -/
inductive Pace where
  | full
  | only (n : Nat)
  deriving DecidableEq, Repr

/-- What the world outside the core can do (00_scope.md R15). -/
inductive Event where
  /-- A host write of a 32-bit word (20_memory.md R101). -/
  | write (addr : Address) (value : Word)
  /-- A host read (R101). -/
  | read (addr : Address)
  /-- The host polls `STATUS` until it reads `BUSY = 0` (30_encoding.md R182). -/
  | wait
  /-- `rst_n` goes to 0 and back to 1 (70_reset_and_hazards.md R450). -/
  | resetPin
  /-- The sink's readiness changes (R105). -/
  | sinkReady (r : Ready)
  /-- Symbol-out's readiness changes (R112). -/
  | symOutReady (r : Ready)
  /-- A new source stream, there as a whole: these bytes, MSB first, then END (30_encoding.md R183, `SRC`; log 18). -/
  | srcStream (bytes : List Byte)
  /-- A new source stream that has answered nothing yet: its bits and its END come by beats, as slowly as the
  environment likes (R108, R109). That a stream starts so is the model's choice (DESIGN CHOICE, log 18). -/
  | srcOpen
  /-- One beat of the source's signals `src_valid`, `src_bit`, `src_end` (R108). -/
  | srcBeat (valid bit ended : Bool)
  /-- Symbols offered on symbol-in, in order (R111, R183 `SIN`). -/
  | symOffer (syms : List Symbol)
  deriving DecidableEq, Repr

/-- An event and how far the core goes after it. -/
structure Turn where
  event : Event
  pace : Pace
  deriving DecidableEq, Repr

/-- The state of HUFFCORE, its port environments and its host. -/
structure State where
  /-- `CMD` (R34): the last accepted command word. -/
  cmd : Word
  /-- The sequencer and its hidden state (R53 to R56). -/
  task : Task
  /-- `STATUS.TRIE_STATE` (R37). -/
  trieState : TrieState
  /-- `STATUS.LUT_VALID` (R38). -/
  lutValid : Bool
  /-- `STATUS.ERR`, sticky (R39). -/
  err : Bool
  /-- `STATUS.DROP`, sticky (R39). -/
  drop : Bool
  /-- `STATUS.RESULT` (R40). -/
  result : ResultCode
  /-- `STATUS.SUBCAUSE` (R40). -/
  subcause : Subcause
  /-- `MSGLEN`, signed (R41). -/
  msglen : Word
  /-- `SYMOUT` (R43): none is 0, some s is VALID=1, SYM=s. -/
  symout : Option Symbol
  /-- `SYMCNT` (R44). -/
  symcnt : Word
  /-- `ROOT` (R45). -/
  root : NodeIndex
  /-- `NODECNT` (R45). -/
  nodecnt : BitVec 10
  /-- `LEAFCNT` (R45). -/
  leafcnt : BitVec 9
  /-- `BITCNT_OUT` (R42). -/
  bitcntOut : Word
  /-- `BITCNT_IN` (R42). -/
  bitcntIn : Word
  /-- `NODE_SEL` (R46). -/
  nodeSel : NodeIndex
  /-- `LUT_SEL` (R50). -/
  lutSel : Symbol
  /-- `ALLOW[255:0]` (R52). -/
  allow : BitVec 256
  /-- `FREQ[0..255]` (R51). -/
  freq : Table Word
  /-- `NODE[0..510]` (R47). -/
  nodes : Table Node
  /-- `LUT[0..255]` (R49). -/
  lut : Table LutEntry
  /-- Environment: the events the bit sink has received, oldest first (R16, R105). -/
  sink : List SinkEvent
  /-- Environment: the sink's readiness (R105). -/
  sinkReady : Ready
  /-- Environment: the bits the source answers next (R108). -/
  srcBits : List Bool
  /-- Environment: after `srcBits` the source answers END (R109); if false it does not answer yet. -/
  srcEnded : Bool
  /-- Environment: bits consumed from the source (R16). -/
  srcTaken : Nat
  /-- Environment: the symbols symbol-in offers, in order (R111). -/
  symIn : List Symbol
  /-- Environment: the symbols delivered on symbol-out, oldest first (R16, R112). -/
  symOut : List Symbol
  /-- Environment: symbol-out's readiness (R112). -/
  symOutReady : Ready
  /-- The model's own: what is still to happen, in bus order (log 1). -/
  agenda : List Turn
  /-- The model's own: the words the host's reads returned, oldest first (log 1). -/
  reads : List Word
  /-- The model's own: how many free values have been drawn (log 4). -/
  draws : Nat
  deriving DecidableEq, Repr

/-- HUFFCORE has no fault: no trap (60_exceptions.md R405), no access fault and no bus error (R421). Errors are
completion codes in `STATUS`. So nothing raises a fault, and this type has no constructor (log 10). Safe. -/
inductive Fault where
  deriving DecidableEq, Repr

/-- Why the model itself has no meaning for an instruction. -/
inductive Refusal where
  /-- Raised by an arm of `exec` whose instruction has no meaning yet. Safe: the model stops. No arm raises it. -/
  | notModelled (mnemonic : String)
  deriving DecidableEq, Repr

/-- The state right after reset (R57). The environment and the model's own fields, which the spec's reset list does
not name, start empty and ready (DESIGN CHOICE, log 5 and log 9). -/
def State.reset : State where
  cmd := 0
  task := .idle
  trieState := .none
  lutValid := false
  err := false
  drop := false
  result := .ok
  subcause := .none
  msglen := 0
  symout := none
  symcnt := 0
  root := 0
  nodecnt := 0
  leafcnt := 0
  bitcntOut := 0
  bitcntIn := 0
  nodeSel := 0
  lutSel := 0
  allow := Config.defaultAllow
  freq := []
  nodes := []
  lut := []
  sink := []
  sinkReady := .always
  srcBits := []
  srcEnded := false
  srcTaken := 0
  symIn := []
  symOut := []
  symOutReady := .always
  agenda := []
  reads := []
  draws := 0

end Sys2Proof.Machine
end

