-- ==== Sys2Proof/Machine/Bits.lean ====
section
/-! DEFINITION. Bit strings in stream order, and the artifact bytes of a sink's events (00_scope.md R16,
20_memory.md R106, R107). -/

namespace Sys2Proof.Machine

/-- The bits of `v`, most significant first: what `PutBits(v, w)` sends (R12, R106). -/
def bitsMsb {w : Nat} (v : BitVec w) : List Bool := (List.range w).map v.getMsbD

/-- The number whose bits are `l`, most significant first. -/
def natOfBits (l : List Bool) : Nat := l.foldl (fun a b => 2 * a + b.toNat) 0

/-- The `w`-bit value whose bits are `l`, most significant first: what `GetBits(w)` assembles (R12). -/
def ofBitsMsb (w : Nat) (l : List Bool) : BitVec w := BitVec.ofNat w (natOfBits l)

/-- The number whose bit `j` is the j-th bit of the path. -/
def natOfPath : List Bool → Nat
  | [] => 0
  | b :: p => b.toNat + 2 * natOfPath p

/-- A path as the BITS vector of a code-table entry: `BITS[j] = p[j]` (R49, 42_code_table.md R240). -/
def pathBits (p : List Bool) : BitVec 255 := BitVec.ofNat 255 (natOfPath p)

/-- Bits grouped 8 at a time, the first bit the MSB of its byte, with zero bits up to the next multiple of 8
(R16, R107). -/
def packBytes : List Bool → List Byte
  | b7 :: b6 :: b5 :: b4 :: b3 :: b2 :: b1 :: b0 :: rest =>
    ofBitsMsb 8 [b7, b6, b5, b4, b3, b2, b1, b0] :: packBytes rest
  | [] => []
  | l => [ofBitsMsb 8 (l ++ List.replicate (8 - l.length) false)]

/-- The bits of a byte stream, each byte MSB first (R107, R108). -/
def bytesBits (bytes : List Byte) : List Bool := bytes.flatMap bitsMsb

/-- The artifacts the sink has released, one for each Close: `cur` is the bits received since the last one (R107). -/
def artifactsFrom (cur : List Bool) : List SinkEvent → List (List Byte)
  | [] => []
  | .bit b :: es => artifactsFrom (cur ++ [b]) es
  | .close :: es => packBytes cur :: artifactsFrom [] es

/-- The artifacts in a sink's events (R16). -/
def artifacts (es : List SinkEvent) : List (List Byte) := artifactsFrom [] es

end Sys2Proof.Machine
end

