-- ==== Sys2Proof/Machine/Table.lean ====
section
/-! DEFINITION. Reading and writing a sparse table (log 7). A read of an unlisted index gives the table's reset entry;
a write keeps the indices rising and lists no entry equal to the reset entry, so equal tables are equal lists. -/

namespace Sys2Proof.Machine.Table

variable {α : Type}

/-- Entry `i`; `d` is what an unlisted index reads as. -/
def read (d : α) : Table α → Nat → α
  | [], _ => d
  | (k, v) :: t, i => if k = i then v else read d t i

/-- The table without an entry at `i` listed. -/
def erase : Table α → Nat → Table α
  | [], _ => []
  | (k, v) :: t, i => if k = i then t else (k, v) :: erase t i

/-- The table with `v` listed at `i`. -/
def insert : Table α → Nat → α → Table α
  | [], i, v => [(i, v)]
  | (k, w) :: t, i, v =>
    if i < k then (i, v) :: (k, w) :: t
    else if k = i then (i, v) :: t
    else (k, w) :: insert t i v

/-- Entry `i` becomes `v`. -/
def write [DecidableEq α] (d : α) (t : Table α) (i : Nat) (v : α) : Table α :=
  if v = d then erase t i else insert t i v

/-- The canonical form, for a table of `bound` entries: from index `lo` on, indices rise strictly and stay below
`bound`, and no listed entry is the reset entry. -/
def wfFrom [DecidableEq α] (d : α) (bound : Nat) : Nat → Table α → Bool
  | _, [] => true
  | lo, (k, v) :: t => decide (lo ≤ k) && decide (k < bound) && decide (v ≠ d) && wfFrom d bound (k + 1) t

/-- The canonical form of a whole table. -/
def wf [DecidableEq α] (d : α) (bound : Nat) (t : Table α) : Bool := wfFrom d bound 0 t

end Sys2Proof.Machine.Table
end

