-- ==== Sys2Proof/Machine/Operands.lean ====
section
/-! DEFINITION. The operands a command reads: table entries by index, and the code word of a table entry
(30_encoding.md R152; 10_state.md R47, R49, R51, R52). -/

namespace Sys2Proof.Machine

/-- `ALLOW[s]` (R52). -/
def allowed (x : Symbol) (s : State) : Bool := s.allow.getLsbD x.toNat

/-- `FREQ[s]` (R51). -/
def freqAt (x : Symbol) (s : State) : Word := Table.read 0 s.freq x.toNat

/-- `NODE[i]` (R47). -/
def nodeAt (i : NodeIndex) (s : State) : Node := Table.read Node.zero s.nodes i.toNat

/-- `LUT[s]` (R49). -/
def lutAt (x : Symbol) (s : State) : LutEntry := Table.read LutEntry.zero s.lut x.toNat

/-- The bits `BITS[0], ..., BITS[LEN-1]` of an entry, in that order (44_message_codec.md R306). -/
def LutEntry.code (e : LutEntry) : List Bool := (List.range e.len.toNat).map e.bits.getLsbD

/-- The entry GENLUT writes for a leaf at the end of path `p` (42_code_table.md R240). -/
def LutEntry.ofPath (p : List Bool) : LutEntry :=
  { present := true, len := BitVec.ofNat 8 p.length, bits := pathBits p }

/-- A leaf of the node memory (41_trie_builder.md R220, 43_trie_codec.md R265). -/
def Node.mkLeaf (x : Symbol) (w : Weight) : Node :=
  { inuse := true, leaf := true, sym := x, left := 0, right := 0, weight := w }

/-- An internal node. -/
def Node.mkInternal (l r : NodeIndex) (w : Weight) : Node :=
  { inuse := true, leaf := false, sym := 0, left := l, right := r, weight := w }

/-- The symbols BUILD makes leaves for, in ascending code (41_trie_builder.md R221). -/
def leafSymbols (s : State) : List Symbol :=
  ((List.range Config.nsym).map (BitVec.ofNat 8)).filter (fun x => allowed x s && freqAt x s != 0)

end Sys2Proof.Machine
end

