-- ==== Sys2Proof/Machine/Flags.lean ====
section
/-! DEFINITION. The fields of `STATUS` and their codes (10_state.md R35; 60_exceptions.md R400, R401). -/

namespace Sys2Proof.Machine

/-- `STATUS.BUSY` (R36): 1 while the sequencer runs a command. -/
def State.busy (s : State) : Bool :=
  match s.task with
  | .idle => false
  | _ => true

/-- The code of `TRIE_STATE` (R35). -/
def TrieState.code : TrieState → BitVec 2
  | .none => 0
  | .empty => 1
  | .valid => 2

/-- The code of a result (R400). -/
def ResultCode.code : ResultCode → BitVec 4
  | .ok => 0
  | .inputError => 1
  | .formatError => 2
  | .encodingError => 3
  | .sequenceError => 4
  | .illegalCommand => 5

/-- The code of a sub-cause (R401). -/
def Subcause.code : Subcause → BitVec 4
  | .none => 0
  | .emptyInput => 1
  | .freqSaturated => 2
  | .negLen => 3
  | .truncTrie => 4
  | .truncLen => 5
  | .truncMsg => 6
  | .nodeOverflow => 7
  | .noCode => 8
  | .noTrie => 9
  | .noLut => 10
  | .emptyTrie => 11
  | .badOpcode => 12
  | .reservedBits => 13

/-- The `STATUS` word (R35): BUSY 0, TRIE_STATE 2:1, LUT_VALID 3, ERR 4, DROP 5, RESULT 11:8, SUBCAUSE 15:12, the
rest 0. -/
def statusWord (s : State) : Word :=
  (0 : BitVec 16) ++ s.subcause.code ++ s.result.code ++ (0 : BitVec 2) ++ BitVec.ofBool s.drop
    ++ BitVec.ofBool s.err ++ BitVec.ofBool s.lutValid ++ s.trieState.code ++ BitVec.ofBool s.busy

/-- What a read of `STATUS` returns while busy: BUSY and DROP true, every other bit of `draw` (R58). -/
def busyStatusWord (draw : Word) (s : State) : Word :=
  draw.extractLsb' 6 26 ++ BitVec.ofBool s.drop ++ draw.extractLsb' 1 4 ++ BitVec.ofBool s.busy

end Sys2Proof.Machine
end

