-- ==== Sys2Proof/Machine/Ops.lean ====
section
/-! DEFINITION. The shared operations of the command rules: completing a command, the port primitives of
00_scope.md R12, clearing the trie, and reset. -/

namespace Sys2Proof.Machine

/-- The canonical form of the three tables (log 7). -/
def Memory.wf (s : State) : Bool :=
  Table.wf 0 Config.nsym s.freq && Table.wf Node.zero Config.nodeCap s.nodes
    && Table.wf LutEntry.zero Config.nsym s.lut

/-! ### Completion (60_exceptions.md R404) -/

/-- `finish(code, sub)`: RESULT and SUBCAUSE are written, ERR is set on any code but OK, BUSY goes to 0. This is how
every command ends and the only error mechanism (R405). -/
def finish (code : ResultCode) (sub : Subcause) (s : State) : State :=
  { s with result := code, subcause := sub, err := if code = .ok then s.err else true, task := .idle }

/-- The sub-cause of an illegal word (R401). -/
def rejectCause : Reject → Subcause
  | .badOpcode => .badOpcode
  | .reservedBits => .reservedBits

/-- An illegal word completes at once and changes nothing else (30_encoding.md R156). -/
def finishIllegal (r : Reject) (s : State) : State := finish .illegalCommand (rejectCause r) s

/-! ### Port transfers (00_scope.md R12) -/

/-- One transfer taken from an output port's readiness; none while its ready signal is 0. -/
def Ready.take : Ready → Option Ready
  | .always => some .always
  | .count 0 => none
  | .count (n + 1) => some (.count n)

/-- `PutBit(b)`: none while the sink does not accept (R105); `BITCNT_OUT` counts it (R42). -/
def putBit (b : Bool) (s : State) : Option State :=
  match s.sinkReady.take with
  | none => none
  | some r => some { s with sink := s.sink ++ [.bit b], sinkReady := r, bitcntOut := s.bitcntOut + 1 }

/-- `SinkClose()`: one Close event; nothing is counted (20_memory.md R107, 45_control.md R351). -/
def sinkClose (s : State) : Option State :=
  match s.sinkReady.take with
  | none => none
  | some r => some { s with sink := s.sink ++ [.close], sinkReady := r }

/-- `GetBit()`: none while the source does not answer, `(none, s)` for END, `(some b, s')` for a bit, which
`BITCNT_IN` counts (R108, R109, R42). -/
def getBit (s : State) : Option (Option Bool × State) :=
  match s.srcBits with
  | b :: rest =>
    some (some b, { s with srcBits := rest, srcTaken := s.srcTaken + 1, bitcntIn := s.bitcntIn + 1 })
  | [] => if s.srcEnded then some (none, s) else none

/-- `SymIn()`: none while no symbol is offered (R111). -/
def takeSymbol (s : State) : Option (Symbol × State) :=
  match s.symIn with
  | x :: rest => some (x, { s with symIn := rest })
  | [] => none

/-- `SymOut(x)`: none while symbol-out does not accept (R112). -/
def sendSymbol (x : Symbol) (s : State) : Option State :=
  match s.symOutReady.take with
  | none => none
  | some r => some { s with symOut := s.symOut ++ [x], symOutReady := r }

/-! ### Tables and trie registers -/

/-- `NODE[n] <- v`. -/
def writeNode (n : Nat) (v : Node) (s : State) : State := { s with nodes := Table.write Node.zero s.nodes n v }

/-- `LUT[x] <- e`. -/
def writeLut (x : Symbol) (e : LutEntry) (s : State) : State :=
  { s with lut := Table.write LutEntry.zero s.lut x.toNat e }

/-- `FREQ[x] <- v`. -/
def writeFreq (x : Symbol) (v : Word) (s : State) : State := { s with freq := Table.write 0 s.freq x.toNat v }

/-- `NODE[0..510] <- all zero; LUT[0..255] <- all zero; LUT_VALID <- 0` (41_trie_builder.md R220, R230;
43_trie_codec.md R265). -/
def clearTables (s : State) : State := { s with nodes := [], lut := [], lutValid := false }

/-- The registers that describe the trie (10_state.md R45, R37). -/
def setTrie (t : TrieState) (root : NodeIndex) (nodecnt : BitVec 10) (leafcnt : BitVec 9) (s : State) : State :=
  { s with trieState := t, root := root, nodecnt := nodecnt, leafcnt := leafcnt }

/-- No trie: TRIE_STATE NONE and the three registers 0. -/
def clearTrie (s : State) : State := setTrie .none 0 0 0 s

/-! ### Reset (70_reset_and_hazards.md R450 to R452) -/

/-- Hardware or soft reset: every register and memory of the core takes its reset value (10_state.md R57), whatever
runs; the environments, the host's pending accesses and what the host has read stay (R452). -/
def resetCore (s : State) : State :=
  { State.reset with
    sink := s.sink, sinkReady := s.sinkReady, srcBits := s.srcBits, srcEnded := s.srcEnded,
    srcTaken := s.srcTaken, symIn := s.symIn, symOut := s.symOut, symOutReady := s.symOutReady,
    agenda := s.agenda, reads := s.reads, draws := s.draws }

end Sys2Proof.Machine
end

