-- ==== Sys2Proof/Machine/Builder.lean ====
section
/-! DEFINITION. The trie builder: BUILD and CLRTRIE (41_trie_builder.md). -/

namespace Sys2Proof.Machine

/-- Entry `x` comes before entry `y`: the key `(weight, seq)`, compared lexicographically, unsigned (R222). -/
def PqEntry.before (x y : PqEntry) : Bool :=
  x.weight.toNat < y.weight.toNat || (x.weight == y.weight && x.seq.toNat < y.seq.toNat)

/-- `PQ.extractMin()`: the entry that comes first, and the queue without it (R222). -/
def extractMin : List PqEntry → Option (PqEntry × List PqEntry)
  | [] => none
  | e :: q =>
    match extractMin q with
    | none => some (e, [])
    | some (m, q') => if m.before e then some (m, e :: q') else some (e, q)

/-- BUILD's first loop (R220, R221): one leaf and one queue entry for each symbol, at index and `seq` `n, n+1, ...`. -/
def seedLeaves : List Symbol → Nat → State × List PqEntry → State × List PqEntry
  | [], _, acc => acc
  | x :: xs, n, (s, pq) =>
    let w : Weight := (freqAt x s).setWidth 40
    seedLeaves xs (n + 1)
      (writeNode n (Node.mkLeaf x w) s, pq ++ [⟨w, BitVec.ofNat 9 n, BitVec.ofNat 9 n⟩])

/-- BUILD up to its merge loop (R220). -/
def beginBuild (s : State) : State :=
  let xs := leafSymbols s
  let (s1, pq) := seedLeaves xs 0 (clearTables s, [])
  { s1 with task := .build xs.length xs.length xs.length pq }

/-- One merge (R223, R224), or the end of BUILD: the root is the last entry (R225, R226), or there was no leaf
(R228). -/
def buildStep (n seq leaves : Nat) (pq : List PqEntry) (s : State) : State :=
  match extractMin pq with
  | none => finish .inputError .emptyInput (setTrie .empty 0 0 0 s)
  | some (a, pq1) =>
    match extractMin pq1 with
    | none => finish .ok .none (setTrie .valid a.node (BitVec.ofNat 10 n) (BitVec.ofNat 9 leaves) s)
    | some (b, pq2) =>
      let w := a.weight + b.weight
      { writeNode n (Node.mkInternal a.node b.node w) s with
        task := .build (n + 1) (seq + 1) leaves (pq2 ++ [⟨w, BitVec.ofNat 9 seq, BitVec.ofNat 9 n⟩]) }

/-- CLRTRIE (R230). -/
def beginClrtrie (s : State) : State := finish .ok .none (clearTrie (clearTables s))

end Sys2Proof.Machine
end

