-- ==== Sys2Proof/Machine/CodeTable.lean ====
section
/-! DEFINITION. The code-table generator GENLUT (42_code_table.md R240). -/

namespace Sys2Proof.Machine

/-- GENLUT up to its loop: needs a trie (NO_TRIE otherwise); the LUT is cleared; the stack holds the root of a VALID
trie and nothing for an EMPTY one. -/
def beginGenlut (s : State) : State :=
  match s.trieState with
  | .none => finish .sequenceError .noTrie s
  | .empty => { s with lut := [], task := .genlut [] }
  | .valid => { s with lut := [], task := .genlut [(s.root, [])] }

/-- One pop of GENLUT's stack, or its end. -/
def genlutStep (stack : List (NodeIndex × List Bool)) (s : State) : State :=
  match stack with
  | [] => finish .ok .none { s with lutValid := true }
  | (i, p) :: rest =>
    let node := nodeAt i s
    if node.leaf then { writeLut node.sym (LutEntry.ofPath p) s with task := .genlut rest }
    else { s with task := .genlut ((node.left, p ++ [false]) :: (node.right, p ++ [true]) :: rest) }

end Sys2Proof.Machine
end

