-- ==== Sys2Proof/Machine/Control.lean ====
section
/-! DEFINITION. The control commands NOP and CLOSE (45_control.md R350, R351). -/

namespace Sys2Proof.Machine

/-- NOP (R350). -/
def beginNop (s : State) : State := finish .ok .none s

/-- CLOSE (R351) before its Close event. -/
def beginClose (s : State) : State := { s with task := .close }

/-- CLOSE's Close event and its end. -/
def closeStep (s : State) : Option State := (sinkClose s).map (finish .ok .none)

end Sys2Proof.Machine
end

