-- ==== Sys2Proof/Machine/Frequency.lean ====
section
/-! DEFINITION. The frequency table commands CLRFREQ and CNT (40_frequency.md). Each is one step of the core; nothing
between its first and last line can be observed (10_state.md R55, log 11). -/

namespace Sys2Proof.Machine

/-- CLRFREQ (R201): every count becomes 0, also those of symbols with `ALLOW[s] = 0`. -/
def beginClrfreq (s : State) : State := finish .ok .none { s with freq := [] }

/-- CNT x (R202). -/
def beginCnt (x : Symbol) (s : State) : State :=
  if allowed x s = false then finish .ok .none s
  else if freqAt x s = 0xFFFFFFFF then finish .inputError .freqSaturated s
  else finish .ok .none (writeFreq x (freqAt x s + 1) s)

end Sys2Proof.Machine
end

