-- ==== Sys2Proof/Machine/MessageCodec.lean ====
section
/-! DEFINITION. The length field and the message codec: LENC, LDEC, SENC, SDEC, MENC, MDEC (44_message_codec.md). -/

namespace Sys2Proof.Machine

/-! ### Length field -/

/-- LENC (R300). -/
def beginLenc (s : State) : State := { s with task := .lenc (bitsMsb s.msglen) }

/-- One bit of LENC, or its end. -/
def lencStep (out : List Bool) (s : State) : Option State :=
  match out with
  | b :: out' => (putBit b s).map fun t => { t with task := .lenc out' }
  | [] => some (finish .ok .none s)

/-- LDEC (R301). -/
def beginLdec (s : State) : State := { s with task := .ldec [] }

/-- LDEC after its 32 bits: a negative length is rejected and `MSGLEN` kept (R301). -/
def ldecEnd (v : Word) (s : State) : State :=
  if v.msb then finish .formatError .negLen s else finish .ok .none { s with msglen := v }

/-- One bit of LDEC (R301). -/
def ldecStep (got : List Bool) (s : State) : Option State :=
  match getBit s with
  | none => none
  | some (none, t) => some (finish .formatError .truncLen t)
  | some (some b, t) =>
    let got' := got ++ [b]
    if got'.length < 32 then some { t with task := .ldec got' }
    else some (ldecEnd (ofBitsMsb 32 got') t)

/-! ### Bit-stream encoder -/

/-- SENC x (R305): needs a LUT, then an entry for `x`. -/
def beginSenc (x : Symbol) (s : State) : State :=
  let t := { s with symcnt := 0 }
  if t.lutValid = false then finish .sequenceError .noLut t
  else if (lutAt x t).present = false then finish .encodingError .noCode t
  else { t with task := .senc (lutAt x t).code }

/-- One code bit of SENC (R306), or its end. -/
def sencStep (out : List Bool) (s : State) : Option State :=
  match out with
  | b :: out' => (putBit b s).map fun t => { t with task := .senc out' }
  | [] => some (finish .ok .none { s with symcnt := 1 })

/-- MENC (R315): needs a LUT, then a non-negative `MSGLEN`. -/
def beginMenc (s : State) : State :=
  let t := { s with symcnt := 0 }
  if t.lutValid = false then finish .sequenceError .noLut t
  else if t.msglen.msb then finish .inputError .negLen t
  else { t with task := .mencSym 0 }

/-- MENC at the head of iteration `k`: takes a symbol, or ends after `MSGLEN` of them (R315). -/
def mencSymStep (k : Nat) (s : State) : Option State :=
  if k < s.msglen.toNat then
    match takeSymbol s with
    | none => none
    | some (x, t) =>
      if (lutAt x t).present = false then some (finish .encodingError .noCode t)
      else some { t with task := .mencOut k (lutAt x t).code }
  else some (finish .ok .none s)

/-- One code bit of MENC's iteration `k`, or its end. -/
def mencOutStep (k : Nat) (out : List Bool) (s : State) : Option State :=
  match out with
  | b :: out' => (putBit b s).map fun t => { t with task := .mencOut k out' }
  | [] => some { s with symcnt := BitVec.ofNat 32 (k + 1), task := .mencSym (k + 1) }

/-! ### Bit-stream decoder -/

/-- One step of the trie walk (R311): none while the source does not answer; otherwise END, or the child the bit
selects. -/
def walkStep (i : NodeIndex) (s : State) : Option (Option NodeIndex × State) :=
  match getBit s with
  | none => none
  | some (none, t) => some (none, t)
  | some (some b, t) => some (some (if b then (nodeAt i s).right else (nodeAt i s).left), t)

/-- SDEC (R310): needs a VALID trie. -/
def beginSdec (s : State) : State :=
  let t := { s with symcnt := 0, symout := none }
  match t.trieState with
  | .none => finish .sequenceError .noTrie t
  | .empty => finish .sequenceError .emptyTrie t
  | .valid => { t with task := .sdec t.root }

/-- SDEC at node `i` of its walk (R310, R311). -/
def sdecStep (i : NodeIndex) (s : State) : Option State :=
  if (nodeAt i s).leaf then
    some (finish .ok .none { s with symout := some (nodeAt i s).sym, symcnt := 1 })
  else
    match walkStep i s with
    | none => none
    | some (none, t) => some (finish .formatError .truncMsg t)
    | some (some j, t) => some { t with task := .sdec j }

/-- MDEC (R320): NO_TRIE, then the EMPTY trie, then a negative `MSGLEN`. -/
def beginMdec (s : State) : State :=
  let t := { s with symcnt := 0, symout := none }
  match t.trieState with
  | .none => finish .sequenceError .noTrie t
  | .empty => if t.msglen = 0 then finish .ok .none t else finish .sequenceError .emptyTrie t
  | .valid => if t.msglen.msb then finish .inputError .negLen t else { t with task := .mdecNext 0 }

/-- MDEC at the head of iteration `k` (R320). -/
def mdecNextStep (k : Nat) (s : State) : State :=
  if k < s.msglen.toNat then { s with task := .mdecWalk k s.root } else finish .ok .none s

/-- MDEC at node `i` of iteration `k`'s walk (R311, R320). -/
def mdecWalkStep (k : Nat) (i : NodeIndex) (s : State) : Option State :=
  if (nodeAt i s).leaf then
    some { s with symout := some (nodeAt i s).sym, task := .mdecOut k (nodeAt i s).sym }
  else
    match walkStep i s with
    | none => none
    | some (none, t) => some (finish .formatError .truncMsg t)
    | some (some j, t) => some { t with task := .mdecWalk k j }

/-- MDEC's delivery of iteration `k`'s symbol (R320). -/
def mdecOutStep (k : Nat) (x : Symbol) (s : State) : Option State :=
  (sendSymbol x s).map fun t => { t with symcnt := BitVec.ofNat 32 (k + 1), task := .mdecNext (k + 1) }

end Sys2Proof.Machine
end

