-- ==== Sys2Proof/Machine/TrieCodec.lean ====
section
/-! DEFINITION. The trie encoder TENC and the trie decoder TDEC (43_trie_codec.md R260, R265). -/

namespace Sys2Proof.Machine

/-- TENC up to its loop: needs a trie; an EMPTY trie is written as the trivial trie (R262). -/
def beginTenc (s : State) : State :=
  match s.trieState with
  | .none => finish .sequenceError .noTrie s
  | .empty => { s with task := .tenc (true :: bitsMsb (0x00 : Symbol)) [] }
  | .valid => { s with task := .tenc [] [s.root] }

/-- One bit sent, or one pop of TENC's stack, or its end. -/
def tencStep (out : List Bool) (stack : List NodeIndex) (s : State) : Option State :=
  match out with
  | b :: out' => (putBit b s).map fun t => { t with task := .tenc out' stack }
  | [] =>
    match stack with
    | [] => some (finish .ok .none s)
    | i :: rest =>
      let node := nodeAt i s
      if node.leaf then some { s with task := .tenc (true :: bitsMsb node.sym) rest }
      else some { s with task := .tenc [false] (node.left :: node.right :: rest) }

/-- TDEC up to its loop (R265): everything the trie and LUT held is cleared. -/
def beginTdec (s : State) : State := { clearTrie (clearTables s) with task := .tdecTag [.root] 0 0 }

/-- TDEC's failure (R269): no partial trie. -/
def tdecFail (sub : Subcause) (s : State) : State := finish .formatError sub (clearTrie { s with nodes := [] })

/-- The child link of a slot is set to `i` (R265). -/
def linkSlot (slot : Slot) (i : NodeIndex) (s : State) : State :=
  match slot with
  | .root => s
  | .left p => writeNode p.toNat { nodeAt p s with left := i } s
  | .right p => writeNode p.toNat { nodeAt p s with right := i } s

/-- TDEC at a tag bit (R265 to R268), or its end when no slot is pending. -/
def tdecTagStep (pending : List Slot) (n leaves : Nat) (s : State) : Option State :=
  match pending with
  | [] => some (finish .ok .none (setTrie .valid 0 (BitVec.ofNat 10 n) (BitVec.ofNat 9 leaves) s))
  | slot :: rest =>
    match getBit s with
    | none => none
    | some (none, t) => some (tdecFail .truncTrie t)
    | some (some b, t) =>
      if n = Config.nodeCap then some (tdecFail .nodeOverflow t)
      else
        let i := BitVec.ofNat 9 n
        let t1 := linkSlot slot i t
        if b then some { t1 with task := .tdecSym rest (n + 1) leaves i [] }
        else some { writeNode n (Node.mkInternal 0 0 0) t1 with
          task := .tdecTag (.left i :: .right i :: rest) (n + 1) leaves }

/-- TDEC at one of the 8 symbol bits of leaf `i` (R266). -/
def tdecSymStep (pending : List Slot) (n leaves : Nat) (i : NodeIndex) (got : List Bool) (s : State) : Option State :=
  match getBit s with
  | none => none
  | some (none, t) => some (tdecFail .truncTrie t)
  | some (some b, t) =>
    let got' := got ++ [b]
    if got'.length < 8 then some { t with task := .tdecSym pending n leaves i got' }
    else some { writeNode i.toNat (Node.mkLeaf (ofBitsMsb 8 got') 0) t with
      task := .tdecTag pending n (leaves + 1) }

end Sys2Proof.Machine
end

