-- ==== Sys2Proof/Machine/Sequencer.lean ====
section
/-! DEFINITION. The core sequencer (10_state.md R56, 20_memory.md R118): it runs one command at a time, one step of its
pseudocode after another, and waits only for a port (70_reset_and_hazards.md R471). -/

namespace Sys2Proof.Machine

/-- The first step of a legal command: its preconditions, and whatever it does before its first loop or transfer. -/
def begin : Instr → State → State
  | .nop => beginNop
  | .clrfreq => beginClrfreq
  | .cnt x => beginCnt x
  | .build => beginBuild
  | .clrtrie => beginClrtrie
  | .genlut => beginGenlut
  | .tenc => beginTenc
  | .tdec => beginTdec
  | .lenc => beginLenc
  | .ldec => beginLdec
  | .senc x => beginSenc x
  | .sdec => beginSdec
  | .menc => beginMenc
  | .mdec => beginMdec
  | .close => beginClose

/-- The word latched in `CMD` is decoded and its command begins, or it completes as illegal (30_encoding.md R155). -/
def issue (s : State) : State :=
  match decode s.cmd with
  | .legal i => begin i s
  | .illegal r => finishIllegal r s

/-- One step of the core: none when it is idle or waits for a port. -/
def coreStep (s : State) : Option State :=
  match s.task with
  | .idle => none
  | .issued => some (issue s)
  | .build n seq leaves pq => some (buildStep n seq leaves pq s)
  | .genlut stack => some (genlutStep stack s)
  | .tenc out stack => tencStep out stack s
  | .tdecTag pending n leaves => tdecTagStep pending n leaves s
  | .tdecSym pending n leaves i got => tdecSymStep pending n leaves i got s
  | .lenc out => lencStep out s
  | .ldec got => ldecStep got s
  | .senc out => sencStep out s
  | .sdec i => sdecStep i s
  | .mencSym k => mencSymStep k s
  | .mencOut k out => mencOutStep k out s
  | .mdecNext k => some (mdecNextStep k s)
  | .mdecWalk k i => mdecWalkStep k i s
  | .mdecOut k x => mdecOutStep k x s
  | .close => closeStep s

/-- At most `n` steps of the core, fewer if it becomes idle or waits. -/
def runCore : Nat → State → State
  | 0, s => s
  | n + 1, s =>
    match coreStep s with
    | none => s
    | some t => runCore n t

/-- A full turn of the core: until the command completes or waits for a port. -/
def runTurn (s : State) : State := runCore Config.turnLength s

end Sys2Proof.Machine
end

