-- ==== Sys2Proof/Machine/Commands.lean ====
section
/-! DEFINITION. The meaning of each command: its first step, then the core's steps until it completes or waits for a
port. A command that waits is a next state with `BUSY = 1` and the rest of the command in `task`; it goes on in a later
step, when the port's environment answers (70_reset_and_hazards.md R471, 92_eei_decisions.md D44). -/

namespace Sys2Proof.Machine

/-- A command that has begun, run for a full turn of the core. No command stops the machine: every outcome of the spec
is a completion code (60_exceptions.md R404, R405). -/
def complete (s : State) : Host.Outcome State Fault Refusal := .next (runTurn s)

/-- NOP: it completes OK and writes nothing else (45_control.md R350). -/
def execNop (s : State) : Host.Outcome State Fault Refusal := complete (beginNop s)

/-- CLRFREQ: every count becomes 0 (40_frequency.md R201). -/
def execClrfreq (s : State) : Host.Outcome State Fault Refusal := complete (beginClrfreq s)

/-- CNT x: one more occurrence of `x` (40_frequency.md R202). -/
def execCnt (x : Symbol) (s : State) : Host.Outcome State Fault Refusal := complete (beginCnt x s)

/-- BUILD: the Huffman trie of the frequency table (41_trie_builder.md R220). -/
def execBuild (s : State) : Host.Outcome State Fault Refusal := complete (beginBuild s)

/-- CLRTRIE: no trie, no code table (41_trie_builder.md R230). -/
def execClrtrie (s : State) : Host.Outcome State Fault Refusal := complete (beginClrtrie s)

/-- GENLUT: the code table of the current trie (42_code_table.md R240). -/
def execGenlut (s : State) : Host.Outcome State Fault Refusal := complete (beginGenlut s)

/-- TENC: the current trie to the bit sink, pre-order (43_trie_codec.md R260). -/
def execTenc (s : State) : Host.Outcome State Fault Refusal := complete (beginTenc s)

/-- TDEC: one serialized trie from the bit source (43_trie_codec.md R265). -/
def execTdec (s : State) : Host.Outcome State Fault Refusal := complete (beginTdec s)

/-- LENC: `MSGLEN` to the bit sink (44_message_codec.md R300). -/
def execLenc (s : State) : Host.Outcome State Fault Refusal := complete (beginLenc s)

/-- LDEC: `MSGLEN` from the bit source (44_message_codec.md R301). -/
def execLdec (s : State) : Host.Outcome State Fault Refusal := complete (beginLdec s)

/-- SENC x: the code word of `x` to the bit sink (44_message_codec.md R305). -/
def execSenc (x : Symbol) (s : State) : Host.Outcome State Fault Refusal := complete (beginSenc x s)

/-- SDEC: one symbol from the bit source into `SYMOUT` (44_message_codec.md R310). -/
def execSdec (s : State) : Host.Outcome State Fault Refusal := complete (beginSdec s)

/-- MENC: `MSGLEN` symbols from symbol-in, encoded to the bit sink (44_message_codec.md R315). -/
def execMenc (s : State) : Host.Outcome State Fault Refusal := complete (beginMenc s)

/-- MDEC: `MSGLEN` symbols decoded from the bit source to symbol-out (44_message_codec.md R320). -/
def execMdec (s : State) : Host.Outcome State Fault Refusal := complete (beginMdec s)

/-- CLOSE: one Close event on the bit sink (45_control.md R351). -/
def execClose (s : State) : Host.Outcome State Fault Refusal := complete (beginClose s)

end Sys2Proof.Machine
end

