-- ==== Sys2Proof/Machine/Dispatch.lean ====
section
/-! DEFINITION. One arm for each command: one direct call of its meaning. -/

namespace Sys2Proof.Machine

def exec (i : Instr) (s : State) : Host.Outcome State Fault Refusal :=
  match i with
  | .nop => Sys2Proof.Machine.execNop s
  | .clrfreq => Sys2Proof.Machine.execClrfreq s
  | .cnt x => Sys2Proof.Machine.execCnt x s
  | .build => Sys2Proof.Machine.execBuild s
  | .clrtrie => Sys2Proof.Machine.execClrtrie s
  | .genlut => Sys2Proof.Machine.execGenlut s
  | .tenc => Sys2Proof.Machine.execTenc s
  | .tdec => Sys2Proof.Machine.execTdec s
  | .lenc => Sys2Proof.Machine.execLenc s
  | .ldec => Sys2Proof.Machine.execLdec s
  | .senc x => Sys2Proof.Machine.execSenc x s
  | .sdec => Sys2Proof.Machine.execSdec s
  | .menc => Sys2Proof.Machine.execMenc s
  | .mdec => Sys2Proof.Machine.execMdec s
  | .close => Sys2Proof.Machine.execClose s

end Sys2Proof.Machine
end

