-- ==== Sys2Proof/Machine/Host.lean ====
section
/-! DEFINITION. The host register port (10_state.md R31 to R52, R58, R59; 20_memory.md R101, R102), the events of the
environments (R105 to R112), and the port outputs as a view of the sequencer. -/

namespace Sys2Proof.Machine

/-- The registers of the map (10_state.md R32). -/
inductive Reg where
  | id
  | version
  | ctrl
  | cmd
  | status
  | msglen
  | symout
  | symcnt
  | root
  | nodecnt
  | leafcnt
  | bitcntOut
  | bitcntIn
  | nodeSel
  | nodeInfo
  | nodeWlo
  | nodeWhi
  | lutSel
  | lutLen
  | lutBits (k : Fin 8)
  | allow (k : Fin 8)
  | freq (x : Symbol)
  deriving DecidableEq, Repr

/-- The offsets of the single registers, as the table of R32 lists them. -/
def singleRegs : List (Nat × Reg) :=
  [(0x000, .id), (0x004, .version), (0x008, .ctrl), (0x00C, .cmd), (0x010, .status), (0x014, .msglen),
   (0x018, .symout), (0x01C, .symcnt), (0x020, .root), (0x024, .nodecnt), (0x028, .leafcnt),
   (0x02C, .bitcntOut), (0x030, .bitcntIn), (0x034, .nodeSel), (0x038, .nodeInfo), (0x03C, .nodeWlo),
   (0x040, .nodeWhi), (0x044, .lutSel), (0x048, .lutLen)]

/-- The register at a byte address; none for a misaligned or reserved address (R32, R102). -/
def regAt (addr : Address) : Option Reg :=
  let a := addr.toNat
  if a % 4 ≠ 0 then none
  else if 0x050 ≤ a ∧ a < 0x070 then some (.lutBits (Fin.ofNat 8 ((a - 0x050) / 4)))
  else if 0x080 ≤ a ∧ a < 0x0A0 then some (.allow (Fin.ofNat 8 ((a - 0x080) / 4)))
  else if 0x400 ≤ a ∧ a < 0x800 then some (.freq (BitVec.ofNat 8 ((a - 0x400) / 4)))
  else singleRegs.lookup a

/-! ### Reads -/

/-- The node the window shows: the selected one, or all zero at or beyond `NODECNT` (R46). -/
def windowNode (s : State) : Node :=
  if s.nodeSel.toNat < s.nodecnt.toNat then nodeAt s.nodeSel s else Node.zero

/-- `NODE_INFO`: LEFT 8:0, RIGHT 17:9, SYM 25:18, LEAF 30, INUSE 31 (R46). -/
def nodeInfoWord (n : Node) : Word :=
  BitVec.ofBool n.inuse ++ BitVec.ofBool n.leaf ++ (0 : BitVec 4) ++ n.sym ++ n.right ++ n.left

/-- `LUT_BITSk`: at bit position 31 - j the code bit 32k + j if it is below LEN, else 0 (R50). -/
def lutBitsWord (k : Nat) (e : LutEntry) : Word :=
  ofBitsMsb 32 ((List.range 32).map fun j => decide (32 * k + j < e.len.toNat) && e.bits.getLsbD (32 * k + j))

/-- `SYMOUT` (R43): SYM 7:0, VALID 8. -/
def symoutWord : Option Symbol → Word
  | none => 0
  | some x => (0 : BitVec 23) ++ BitVec.ofBool true ++ x

/-- The value of a register while idle. -/
def regValue (r : Reg) (s : State) : Word :=
  match r with
  | .id => Config.idValue
  | .version => Config.versionValue
  | .ctrl => 0
  | .cmd => s.cmd
  | .status => statusWord s
  | .msglen => s.msglen
  | .symout => symoutWord s.symout
  | .symcnt => s.symcnt
  | .root => s.root.setWidth 32
  | .nodecnt => s.nodecnt.setWidth 32
  | .leafcnt => s.leafcnt.setWidth 32
  | .bitcntOut => s.bitcntOut
  | .bitcntIn => s.bitcntIn
  | .nodeSel => s.nodeSel.setWidth 32
  | .nodeInfo => nodeInfoWord (windowNode s)
  | .nodeWlo => (windowNode s).weight.extractLsb' 0 32
  | .nodeWhi => ((windowNode s).weight.extractLsb' 32 8).setWidth 32
  | .lutSel => s.lutSel.setWidth 32
  | .lutLen => BitVec.ofBool (lutAt s.lutSel s).present ++ (0 : BitVec 23) ++ (lutAt s.lutSel s).len
  | .lutBits k => lutBitsWord k.val (lutAt s.lutSel s)
  | .allow k => s.allow.extractLsb' (32 * k.val) 32
  | .freq x => freqAt x s

/-- The value the host reads is recorded. -/
def answerRead (v : Word) (s : State) : State := { s with reads := s.reads ++ [v] }

/-- A read while busy (R58): `ID` and `VERSION` true, of `STATUS` only BUSY and DROP, everything else the next free
value (log 4). -/
def busyRead (r : Reg) (s : State) : State :=
  match r with
  | .id => answerRead Config.idValue s
  | .version => answerRead Config.versionValue s
  | .status => answerRead (busyStatusWord (Config.busyRead s.draws) s) { s with draws := s.draws + 1 }
  | _ => answerRead (Config.busyRead s.draws) { s with draws := s.draws + 1 }

/-- A host read (20_memory.md R101): a misaligned or reserved address reads 0 (R102, R421). -/
def hostRead (addr : Address) (s : State) : State :=
  match regAt addr with
  | none => answerRead 0 s
  | some r => if s.busy then busyRead r s else answerRead (regValue r s) s

/-! ### Writes -/

/-- A write of `CTRL` while idle (R33): SRST, else CLRSTICKY and CLRCNT. -/
def writeCtrl (v : Word) (s : State) : State :=
  if v.getLsbD 0 then resetCore s
  else
    let t := if v.getLsbD 1 then { s with err := false, drop := false } else s
    if v.getLsbD 2 then { t with bitcntOut := 0, bitcntIn := 0 } else t

/-- `ALLOWk <- v`: all 32 bits are writable, the other words stay (R52). -/
def writeAllow (k : Fin 8) (v : Word) (s : State) : State :=
  { s with allow := (s.allow &&& ~~~((BitVec.allOnes 32).setWidth 256 <<< (32 * k.val)))
      ||| (v.setWidth 256 <<< (32 * k.val)) }

/-- A write while idle. A read-only register ignores it (R32). -/
def idleWrite (r : Reg) (v : Word) (s : State) : State :=
  match r with
  | .ctrl => writeCtrl v s
  | .cmd => { s with cmd := v, task := .issued }
  | .msglen => { s with msglen := v }
  | .nodeSel => { s with nodeSel := v.setWidth 9 }
  | .lutSel => { s with lutSel := v.setWidth 8 }
  | .allow k => writeAllow k v s
  | .freq x => if allowed x s then writeFreq x v s else s
  | .id | .version | .status | .symout | .symcnt | .root | .nodecnt | .leafcnt | .bitcntOut | .bitcntIn
  | .nodeInfo | .nodeWlo | .nodeWhi | .lutLen | .lutBits _ => s

/-- A write while busy (R58): a command is dropped, `CTRL` honours only SRST, everything else is ignored. -/
def busyWrite (r : Reg) (v : Word) (s : State) : State :=
  match r with
  | .ctrl => if v.getLsbD 0 then resetCore s else s
  | .cmd => { s with drop := true }
  | .id | .version | .status | .msglen | .symout | .symcnt | .root | .nodecnt | .leafcnt | .bitcntOut | .bitcntIn
  | .nodeSel | .nodeInfo | .nodeWlo | .nodeWhi | .lutSel | .lutLen | .lutBits _ | .allow _ | .freq _ => s

/-- A host write (R101): ignored at a misaligned or reserved address (R102, R421). -/
def hostWrite (addr : Address) (v : Word) (s : State) : State :=
  match regAt addr with
  | none => s
  | some r => if s.busy then busyWrite r v s else idleWrite r v s

/-- `ISSUE <command>` (30_encoding.md R181): the host write of the command's word to `CMD`. -/
def issueEvent (i : Instr) : Event := .write 0x00C (encode i)

/-! ### Events -/

/-- A new source stream starts (R109): `bits` come next, and then END if `ended`, else nothing yet. What was left of the
old stream, its END too, is gone. R109 and 93_implementation_defined.md item 20 say only that the environment starts a
new stream; how it does is the model's choice (DESIGN CHOICE, log 18). -/
def newStream (bits : List Bool) (ended : Bool) (s : State) : State := { s with srcBits := bits, srcEnded := ended }

/-- One beat of the source's signals (R108): END wins over a bit; both low change nothing; after END the stream
delivers no more bits (R109, log 6), until a new one starts. -/
def sourceBeat (valid bit ended : Bool) (s : State) : State :=
  if ended then { s with srcEnded := true }
  else if valid && !s.srcEnded then { s with srcBits := s.srcBits ++ [bit] }
  else s

/-- What an event does, before the core goes on. A new source stream is either there as a whole (`srcStream`) or starts
empty and open (`srcOpen`): DESIGN CHOICE, log 18. -/
def perform (e : Event) (s : State) : State :=
  match e with
  | .write addr v => hostWrite addr v s
  | .read addr => hostRead addr s
  | .wait => hostRead 0x010 s
  | .resetPin => resetCore s
  | .sinkReady r => { s with sinkReady := r }
  | .symOutReady r => { s with symOutReady := r }
  | .srcStream bytes => newStream (bytesBits bytes) true s
  | .srcOpen => newStream [] false s
  | .srcBeat valid bit ended => sourceBeat valid bit ended s
  | .symOffer xs => { s with symIn := s.symIn ++ xs }

/-- A turn's event. A WAIT that read `BUSY = 1` polls again (30_encoding.md R182). -/
def serve (t : Turn) (s : State) : State :=
  if t.event = .wait ∧ s.busy = true then { perform t.event s with agenda := t :: s.agenda }
  else perform t.event s

/-! ### Port outputs -/

/-- The core's port outputs (20_memory.md R113): the event offered on the bit sink with `snk_valid = 1`, `src_req`,
`sin_ready`, and the symbol offered on symbol-out with `sout_valid = 1`. A data signal has no value while its valid
signal is 0 (log 8). -/
structure PortOutputs where
  snk : Option SinkEvent
  srcReq : Bool
  sinReady : Bool
  sout : Option Symbol
  deriving DecidableEq, Repr

/-- All outputs inactive (70_reset_and_hazards.md R450). -/
def PortOutputs.inactive : PortOutputs := { snk := none, srcReq := false, sinReady := false, sout := none }

/-- The event a list of bits still to be sent offers on the sink. -/
def offerBit : List Bool → PortOutputs
  | b :: _ => { PortOutputs.inactive with snk := some (.bit b) }
  | [] => PortOutputs.inactive

/-- What the core drives: a port's valid, request or ready signal only inside its primitive (R105, R108, R111,
R112). -/
def portOutputs (s : State) : PortOutputs :=
  match s.task with
  | .tenc out _ => offerBit out
  | .lenc out => offerBit out
  | .senc out => offerBit out
  | .mencOut _ out => offerBit out
  | .close => { PortOutputs.inactive with snk := some .close }
  | .tdecTag pending _ _ => { PortOutputs.inactive with srcReq := !pending.isEmpty }
  | .tdecSym _ _ _ _ _ => { PortOutputs.inactive with srcReq := true }
  | .ldec _ => { PortOutputs.inactive with srcReq := true }
  | .sdec i => { PortOutputs.inactive with srcReq := !(nodeAt i s).leaf }
  | .mdecWalk _ i => { PortOutputs.inactive with srcReq := !(nodeAt i s).leaf }
  | .mencSym k => { PortOutputs.inactive with sinReady := decide (k < s.msglen.toNat) }
  | .mdecOut _ x => { PortOutputs.inactive with sout := some x }
  | .idle | .issued | .build _ _ _ _ | .genlut _ | .mdecNext _ => PortOutputs.inactive

end Sys2Proof.Machine
end

