-- ==== Sys2Proof/Machine/Step.lean ====
section
/-! DEFINITION. One step of the machine: the next event of the agenda, then the core's turn. -/

namespace Sys2Proof.Machine

/-- The core's turn. A full turn runs the command in `CMD` by its meaning, or goes on with a command that waited; a
limited turn makes at most that many steps of it. -/
def coreTurn (p : Pace) (s : State) : Host.Outcome State Fault Refusal :=
  match p with
  | .only n => .next (runCore n s)
  | .full =>
    match s.task with
    | .issued =>
      match decode s.cmd with
      | .legal i => exec i s
      | .illegal r => .next (finishIllegal r s)
    | _ => .next (runTurn s)

/-- One step. With nothing on the agenda the core goes on if it can; an idle core keeps its state
(60_exceptions.md R429), and a core that waits for a port keeps waiting (70_reset_and_hazards.md R471). -/
def step (s : State) : Host.Outcome State Fault Refusal :=
  match s.agenda with
  | [] => coreTurn .full s
  | t :: rest => coreTurn t.pace (serve t { s with agenda := rest })

/-- The host's write of command word `w` to `CMD` is put first on the agenda, with a full turn, and the sequencer is
idle, so that it accepts the word (60_exceptions.md R403, log 1). -/
def State.withFetchWord (s : State) (nbits w : Nat) : State :=
  { s with
    task := .idle
    agenda := { event := .write 0x00C (BitVec.ofNat 32 (w % 2 ^ nbits)), pace := .full } :: s.agenda }

end Sys2Proof.Machine
end

