-- ==== Sys2Proof/Safety.lean ====
section
/-! DEFINITION. The terms claims use: tries and their bit strings and code words, what it means for the node memory to
hold a trie, what an environment must still accept or offer, the observation of a run, and the invariant of the
machine. -/

namespace Sys2Proof.Machine

/-! ### Tries (00_scope.md R14, 30_encoding.md R171) -/

/-- A full binary tree whose leaves are symbols (R14). -/
inductive Trie where
  | leaf (x : Symbol)
  | node (l r : Trie)
  deriving DecidableEq, Repr

namespace Trie

/-- The number of leaves. -/
def leaves : Trie → Nat
  | leaf _ => 1
  | node l r => l.leaves + r.leaves

/-- The number of nodes. -/
def size : Trie → Nat
  | leaf _ => 1
  | node l r => l.size + r.size + 1

/-- The length of the longest path. -/
def depth : Trie → Nat
  | leaf _ => 0
  | node l r => max l.depth r.depth + 1

/-- `ser(n)` (R171). -/
def ser : Trie → List Bool
  | leaf x => true :: bitsMsb x
  | node l r => false :: (l.ser ++ r.ser)

/-- The bits of each node, in pre-order (30_encoding.md R171): `ser` is all of them. -/
def nodeBits : Trie → List (List Bool)
  | leaf x => [true :: bitsMsb x]
  | node l r => [false] :: (l.nodeBits ++ r.nodeBits)

/-- Each leaf's symbol and its path, `p` being the path to this node; in pre-order (42_code_table.md R241). -/
def pathsFrom (p : List Bool) : Trie → List (Symbol × List Bool)
  | leaf x => [(x, p)]
  | node l r => l.pathsFrom (p ++ [false]) ++ r.pathsFrom (p ++ [true])

/-- Each leaf's symbol and code word, in pre-order. -/
def paths (t : Trie) : List (Symbol × List Bool) := t.pathsFrom []

/-- What a walk that reads `bits` finds: the leaf's symbol and the bits left over, or none if they end inside the
walk (44_message_codec.md R311). -/
def walk : Trie → List Bool → Option (Symbol × List Bool)
  | leaf x, bits => some (x, bits)
  | node _ _, [] => none
  | node l r, b :: bits => if b then r.walk bits else l.walk bits

end Trie

/-- Node memory `nodes` holds trie `t` with its root at index `i` (10_state.md R47, R48). -/
def TrieAt (nodes : Table Node) : NodeIndex → Trie → Prop
  | i, .leaf x =>
    let n := Table.read Node.zero nodes i.toNat
    n.inuse = true ∧ n.leaf = true ∧ n.sym = x
  | i, .node l r =>
    let n := Table.read Node.zero nodes i.toNat
    n.inuse = true ∧ n.leaf = false ∧ TrieAt nodes n.left l ∧ TrieAt nodes n.right r

/-- The indices of the nodes of a trie in node memory, in pre-order. -/
def trieIndices (nodes : Table Node) : NodeIndex → Trie → List Nat
  | i, .leaf _ => [i.toNat]
  | i, .node l r =>
    let n := Table.read Node.zero nodes i.toNat
    i.toNat :: (trieIndices nodes n.left l ++ trieIndices nodes n.right r)

/-- R48: the entries in use form one full binary tree rooted at `ROOT`. Each of `0 .. NODECNT-1` is in the tree exactly
once, so there is no sharing and no cycle; `LEAFCNT` counts its leaves. -/
def HoldsTrie (s : State) (t : Trie) : Prop :=
  TrieAt s.nodes s.root t ∧ (trieIndices s.nodes s.root t).Perm (List.range s.nodecnt.toNat)
    ∧ t.leaves = s.leafcnt.toNat

/-- The code table with these symbols' code words written in this order: the last one of a symbol stays
(42_code_table.md R240, R245). -/
def lutWith (lut : Table LutEntry) (ps : List (Symbol × List Bool)) : Table LutEntry :=
  ps.foldl (fun l p => Table.write LutEntry.zero l p.1.toNat (LutEntry.ofPath p.2)) lut

/-! ### Environments -/

/-- The far side accepts at least `n` more transfers. -/
def Ready.allows : Ready → Nat → Bool
  | .always, _ => true
  | .count m, n => n ≤ m

/-- Its readiness after `n` transfers. -/
def Ready.after : Ready → Nat → Ready
  | .always, _ => .always
  | .count m, n => .count (m - n)

/-- The core is idle, or it waits for a port whose other side does not accept or answer (70_reset_and_hazards.md R471):
an event offered on the sink, a bit requested, a symbol awaited or a symbol offered. -/
def RestsOrWaits (s : State) : Prop :=
  s.busy = false
    ∨ ((portOutputs s).snk ≠ none ∧ s.sinkReady = .count 0)
    ∨ ((portOutputs s).srcReq = true ∧ s.srcBits = [] ∧ s.srcEnded = false)
    ∨ ((portOutputs s).sinReady = true ∧ s.symIn = [])
    ∨ ((portOutputs s).sout ≠ none ∧ s.symOutReady = .count 0)

/-- The observation of a run (00_scope.md R16): sink events, symbols delivered, bits consumed, and the register state
as the host reads it, one word for each word-aligned offset. -/
structure Observation where
  sink : List SinkEvent
  symOut : List Symbol
  consumed : Nat
  registers : List Word
  deriving DecidableEq, Repr

/-- The word an idle read of byte address `a` returns. -/
def idleWord (s : State) (a : Address) : Word :=
  match regAt a with
  | none => 0
  | some r => regValue r s

/-- The observation of an idle state (R16). -/
def observe (s : State) : Observation :=
  { sink := s.sink
    symOut := s.symOut
    consumed := s.srcTaken
    registers := (List.range 1024).map fun k => idleWord s (BitVec.ofNat 12 (4 * k)) }

/-- Commands run one after another, each by its meaning. -/
def execAll : List Instr → State → Host.Outcome State Fault Refusal
  | [], s => .next s
  | i :: is, s =>
    match exec i s with
    | .next t => execAll is t
    | .fault r => .fault r
    | .refused r => .refused r

/-- A bare command line of a host program: ISSUE, then WAIT (30_encoding.md R182, 70_reset_and_hazards.md R461). -/
def commandLine (i : Instr) : List Turn := [⟨issueEvent i, .full⟩, ⟨.wait, .full⟩]

/-- The host sequence that compresses `m` (70_reset_and_hazards.md R462). -/
def compressScript (m : List Symbol) : List Turn :=
  commandLine .clrfreq ++ (m.flatMap fun x => commandLine (.cnt x)) ++ commandLine .build ++ commandLine .genlut
    ++ commandLine .tenc ++ [⟨.write 0x014 (BitVec.ofNat 32 m.length), .full⟩] ++ commandLine .lenc
    ++ commandLine .menc ++ commandLine .close

/-- The host sequence that decompresses an artifact (R462). -/
def decompressScript : List Turn := commandLine .tdec ++ commandLine .ldec ++ commandLine .mdec

/-- RESULT of a `STATUS` word (10_state.md R35). -/
def resultField (w : Word) : BitVec 4 := w.extractLsb' 8 4

/-- SUBCAUSE of a `STATUS` word (R35). -/
def subcauseField (w : Word) : BitVec 4 := w.extractLsb' 12 4

/-! ### Legal completions (60_exceptions.md R401, R402) -/

/-- The (RESULT, SUBCAUSE) pairs of R401. -/
def legalPairs : List (ResultCode × Subcause) :=
  [(.ok, .none), (.inputError, .emptyInput), (.inputError, .freqSaturated), (.inputError, .negLen),
   (.formatError, .negLen), (.formatError, .truncTrie), (.formatError, .truncLen), (.formatError, .truncMsg),
   (.formatError, .nodeOverflow), (.encodingError, .noCode), (.sequenceError, .noTrie), (.sequenceError, .noLut),
   (.sequenceError, .emptyTrie), (.illegalCommand, .badOpcode), (.illegalCommand, .reservedBits)]

/-- The completions R402 lists for a legal command. -/
def completions : Instr → List (ResultCode × Subcause)
  | .nop | .clrfreq | .clrtrie | .lenc | .close => [(.ok, .none)]
  | .cnt _ => [(.ok, .none), (.inputError, .freqSaturated)]
  | .build => [(.ok, .none), (.inputError, .emptyInput)]
  | .genlut | .tenc => [(.ok, .none), (.sequenceError, .noTrie)]
  | .tdec => [(.ok, .none), (.formatError, .truncTrie), (.formatError, .nodeOverflow)]
  | .ldec => [(.ok, .none), (.formatError, .truncLen), (.formatError, .negLen)]
  | .senc _ => [(.ok, .none), (.sequenceError, .noLut), (.encodingError, .noCode)]
  | .sdec => [(.ok, .none), (.sequenceError, .noTrie), (.sequenceError, .emptyTrie), (.formatError, .truncMsg)]
  | .menc => [(.ok, .none), (.sequenceError, .noLut), (.inputError, .negLen), (.encodingError, .noCode)]
  | .mdec => [(.ok, .none), (.sequenceError, .noTrie), (.sequenceError, .emptyTrie), (.inputError, .negLen),
      (.formatError, .truncMsg)]

/-! ### The invariant -/

/-- R47: an entry in use has SYM only if it is a leaf, and LEFT and RIGHT only if it is not. -/
def Node.wf (n : Node) : Prop :=
  n.inuse = true ∧ (n.leaf = true → n.left = 0 ∧ n.right = 0) ∧ (n.leaf = false → n.sym = 0)

/-- R49: a listed entry is present, and its bits at positions from LEN on are 0. -/
def LutEntry.wf (e : LutEntry) : Prop :=
  e.present = true ∧ ∀ j, e.len.toNat ≤ j → e.bits.getLsbD j = false

/-- No trie and no trie registers: what TRIE_STATE NONE and EMPTY mean (R37, R45, R47). -/
def NoTrie (s : State) : Prop := s.nodes = [] ∧ s.root = 0 ∧ s.nodecnt = 0 ∧ s.leafcnt = 0

/-- R37, R45 to R48: the trie registers and the node memory agree, and entries from `NODECNT` on are zero. -/
def TrieStateOk (s : State) : Prop :=
  match s.trieState with
  | .none | .empty => NoTrie s
  | .valid => (∃ t, HoldsTrie s t) ∧ ∀ k, s.nodecnt.toNat ≤ k → Table.read Node.zero s.nodes k = Node.zero

/-- R38: `LUT_VALID` says whether the LUT is the code table of the current trie; if not, it is empty. -/
def LutStateOk (s : State) : Prop :=
  if s.lutValid then
    match s.trieState with
    | .none => False
    | .empty => s.lut = []
    | .valid => ∃ t, HoldsTrie s t ∧ s.lut = lutWith [] t.paths
  else s.lut = []

/-- BUILD's merge loop (41_trie_builder.md R220 to R226): the queue's nodes are the roots of tries that share no node
and use exactly the entries below `n`. -/
def BuildOk (n seq leaves : Nat) (pq : List PqEntry) (s : State) : Prop :=
  s.lutValid = false ∧ s.lut = [] ∧ seq = n ∧ leaves ≤ 256 ∧ n + pq.length = 2 * leaves
    ∧ (∀ k, n ≤ k → Table.read Node.zero s.nodes k = Node.zero)
    ∧ ∃ roots : List (PqEntry × Trie),
        roots.map Prod.fst = pq ∧ (∀ r ∈ roots, TrieAt s.nodes r.1.node r.2)
        ∧ (roots.flatMap fun r => trieIndices s.nodes r.1.node r.2).Perm (List.range n)
        ∧ (roots.map fun r => r.2.leaves).sum = leaves

/-- GENLUT's stack (42_code_table.md R240): each entry is a trie of the node memory with the path to it; the writes
still to come complete the code table of the root; at most 256 entries (10_state.md R54). -/
def GenlutOk (stack : List (NodeIndex × List Bool)) (s : State) : Prop :=
  (s.trieState = .empty ∧ stack = [] ∧ s.lut = []) ∨
  (s.trieState = .valid ∧ ∃ subs : List ((NodeIndex × List Bool) × Trie),
    subs.map Prod.fst = stack
      ∧ (∀ r ∈ subs, TrieAt s.nodes r.1.1 r.2 ∧ r.1.2.length + r.2.depth ≤ Config.maxCode)
      ∧ (subs.map fun r => r.2.leaves).sum ≤ 256
      ∧ ∃ t, HoldsTrie s t ∧ lutWith s.lut (subs.flatMap fun r => r.2.pathsFrom r.1.2) = lutWith [] t.paths)

/-- TENC's stack (43_trie_codec.md R260): tries of the node memory, at most 256 of them (10_state.md R54). -/
def TencOk (stack : List NodeIndex) (s : State) : Prop :=
  ∃ subs : List (NodeIndex × Trie), subs.map Prod.fst = stack
    ∧ (∀ r ∈ subs, TrieAt s.nodes r.1 r.2) ∧ (subs.map fun r => r.2.leaves).sum ≤ 256

/-- Slot `slot` of node memory `nodes` leads to index `i` (43_trie_codec.md R265). -/
def slotLeads (nodes : Table Node) (slot : Slot) (i : NodeIndex) : Prop :=
  match slot with
  | .root => i = 0
  | .left p => (Table.read Node.zero nodes p.toNat).left = i
  | .right p => (Table.read Node.zero nodes p.toNat).right = i

/-- Entry `k` is the same in both node memories but for the child links that are pending. -/
def agreesBut (pending : List Slot) (nodes nodes' : Table Node) (k : Nat) : Prop :=
  let a := Table.read Node.zero nodes k
  let b := Table.read Node.zero nodes' k
  a.inuse = b.inuse ∧ a.leaf = b.leaf ∧ a.sym = b.sym
    ∧ (a.left = b.left ∨ ∃ p : NodeIndex, p.toNat = k ∧ Slot.left p ∈ pending)
    ∧ (a.right = b.right ∨ ∃ p : NodeIndex, p.toNat = k ∧ Slot.right p ∈ pending)

/-- The part of a trie TDEC has read (43_trie_codec.md R265, R270): whatever tries fill the pending slots, the whole is
one trie, its nodes being the entries below `n` and those of the tries put in. -/
def PartialTrie (nodes : Table Node) (pending : List Slot) (n leaves : Nat) : Prop :=
  ∀ (nodes' : Table Node) (fills : List (Slot × NodeIndex × Trie)),
    fills.map Prod.fst = pending →
    (∀ k, k < n → agreesBut pending nodes nodes' k) →
    (∀ f ∈ fills, slotLeads nodes' f.1 f.2.1 ∧ TrieAt nodes' f.2.1 f.2.2) →
    ∃ t, TrieAt nodes' 0 t
      ∧ (trieIndices nodes' 0 t).Perm
          (List.range n ++ fills.flatMap fun f => trieIndices nodes' f.2.1 f.2.2)
      ∧ t.leaves = leaves + (fills.map fun f => f.2.2.leaves).sum

/-- What holds of TDEC between a node and the next (43_trie_codec.md R265 to R270; 10_state.md R54). -/
def TdecOk (pending : List Slot) (n leaves : Nat) (nodes : Table Node) : Prop :=
  n ≤ Config.nodeCap ∧ pending.length + 2 * leaves = n + 1 ∧ pending.Nodup
    ∧ (Slot.root ∈ pending → n = 0)
    ∧ (∀ p, (Slot.left p ∈ pending ∨ Slot.right p ∈ pending) →
        p.toNat < n ∧ (Table.read Node.zero nodes p.toNat).inuse = true
          ∧ (Table.read Node.zero nodes p.toNat).leaf = false)
    ∧ (∀ k, n ≤ k → Table.read Node.zero nodes k = Node.zero)
    ∧ PartialTrie nodes pending n leaves

/-- While TDEC runs there is no trie and no LUT (43_trie_codec.md R265). -/
def TdecCleared (s : State) : Prop :=
  s.lutValid = false ∧ s.lut = [] ∧ s.trieState = .none ∧ s.root = 0 ∧ s.nodecnt = 0 ∧ s.leafcnt = 0

/-- What holds at each point of a command. The bits still to be sent are those of one field (10_state.md R55), and a walk
has at most MAXCODE bits to go (44_message_codec.md R311). -/
def TaskOk (s : State) : Prop :=
  match s.task with
  | .build n seq leaves pq => BuildOk n seq leaves pq s
  | .tdecTag pending n leaves => TdecCleared s ∧ TdecOk pending n leaves s.nodes
  | .tdecSym pending n leaves i got =>
    TdecCleared s ∧ got.length < 8 ∧ i.toNat + 1 = n ∧ Table.read Node.zero s.nodes i.toNat = Node.zero
      ∧ ∀ x, TdecOk pending n (leaves + 1) (Table.write Node.zero s.nodes i.toNat (Node.mkLeaf x 0))
  | .genlut stack => TrieStateOk s ∧ GenlutOk stack s
  | .tenc out stack => TrieStateOk s ∧ LutStateOk s ∧ TencOk stack s ∧ out.length ≤ 9
  | .ldec got => TrieStateOk s ∧ LutStateOk s ∧ got.length < 32
  | .sdec i | .mdecWalk _ i =>
    TrieStateOk s ∧ LutStateOk s ∧ s.trieState = .valid ∧ ∃ t, TrieAt s.nodes i t ∧ t.depth ≤ Config.maxCode
  | .mdecNext _ | .mdecOut _ _ => TrieStateOk s ∧ LutStateOk s ∧ s.trieState = .valid
  | .mencSym _ => TrieStateOk s ∧ LutStateOk s ∧ s.lutValid = true
  | .mencOut _ out | .senc out => TrieStateOk s ∧ LutStateOk s ∧ s.lutValid = true ∧ out.length ≤ Config.maxCode
  | .lenc out => TrieStateOk s ∧ LutStateOk s ∧ out.length ≤ 32
  | .idle | .issued | .close => TrieStateOk s ∧ LutStateOk s

/-- The invariant of the machine: the tables are in canonical form (log 7) and their entries as R47 and R49 say; RESULT
and SUBCAUSE are a pair of R401; and the trie, the LUT and the hidden state are as the rules of the command that runs
say. -/
structure Inv (s : State) : Prop where
  tables : Memory.wf s = true
  nodes : ∀ p ∈ s.nodes, p.2.wf
  lut : ∀ p ∈ s.lut, p.2.wf
  status : (s.result, s.subcause) ∈ legalPairs
  task : TaskOk s

end Sys2Proof.Machine
end

