-- ==== Sys2Proof/Certificates/Slice0/Obligations.lean ====
section
/-! DEFINITION. The statements about HUFFCORE for the provers, from the numbered rules of spec/. -/

open Sys2Proof Sys2Proof.Machine

/-! ### Encoding (30_encoding.md) -/

/-- R154: the word of every command, what each such word decodes to, and the reserved opcodes. -/
def Obligations.OpcodeMapGivesEveryWord : Prop :=
  encode .nop = 0x00000000#32 ∧ encode .clrfreq = 0x00000001#32
    ∧ (∀ x : Symbol, encode (.cnt x) = (0x0000#16 ++ x) ++ 0x02#8) ∧ encode .build = 0x00000003#32
    ∧ encode .clrtrie = 0x00000004#32 ∧ encode .genlut = 0x00000005#32 ∧ encode .tenc = 0x00000006#32
    ∧ encode .tdec = 0x00000007#32 ∧ encode .lenc = 0x00000008#32 ∧ encode .ldec = 0x00000009#32
    ∧ (∀ x : Symbol, encode (.senc x) = (0x0000#16 ++ x) ++ 0x0A#8) ∧ encode .sdec = 0x0000000B#32
    ∧ encode .menc = 0x0000000C#32 ∧ encode .mdec = 0x0000000D#32 ∧ encode .close = 0x0000000E#32
    ∧ (∀ i : Instr, decode (encode i) = .legal i)
    ∧ ∀ w : Word, 0x0F ≤ (w.extractLsb' 0 8).toNat → decode w = .illegal .badOpcode

/-- R180's examples, the first and the last opcode, and one word of each kind that is rejected: a sanity check of the
decoder against words written out from R154. -/
def Obligations.WrittenOutWordsDecode : Prop :=
  decode 0x00006102#32 = .legal (.cnt 0x61) ∧ decode 0x0000720A#32 = .legal (.senc 0x72)
    ∧ decode 0x00000003#32 = .legal .build ∧ decode 0x00000000#32 = .legal .nop
    ∧ decode 0x0000000E#32 = .legal .close ∧ decode 0x0000000F#32 = .illegal .badOpcode
    ∧ decode 0x00010003#32 = .illegal .reservedBits ∧ decode 0x00006103#32 = .illegal .reservedBits

/-- R155: the order of the checks on the accepted word and the rule it selects. -/
def Obligations.DecodeProcedureRunsInOrder : Prop :=
  ∀ s : State,
    let op := s.cmd.extractLsb' 0 8
    let sym : Symbol := s.cmd.extractLsb' 8 8
    let rsv := s.cmd.extractLsb' 16 16
    (op.toNat > 0x0E → issue s = finish .illegalCommand .badOpcode s)
      ∧ (op.toNat ≤ 0x0E → rsv ≠ 0 → issue s = finish .illegalCommand .reservedBits s)
      ∧ (op.toNat ≤ 0x0E → rsv = 0 → op ≠ 0x02 → op ≠ 0x0A → sym ≠ 0 →
          issue s = finish .illegalCommand .reservedBits s)
      ∧ (op.toNat ≤ 0x0E → rsv = 0 → (op = 0x02 ∨ op = 0x0A ∨ sym = 0) →
          ∃ i, opcodeRow op sym = some i ∧ issue s = begin i s)

/-- Decoding and encoding agree: a word decodes to a command exactly if it is that command's word (R154, R155, R157). -/
def Obligations.DecodeAndEncodeAgree : Prop :=
  ∀ (i : Instr) (w : Word), decode w = .legal i ↔ w = encode i

/-- R153: a word is legal exactly if its opcode is assigned, its reserved bits are 0, and its symbol field is 0 unless
the opcode is CNT's or SENC's; and that is what the model's well-formedness check says. -/
def Obligations.LegalWordsAreTheWellFormedOnes : Prop :=
  ∀ w : Word, ((∃ i, decode w = .legal i) ↔
      (w.extractLsb' 0 8).toNat ≤ 0x0E ∧ w.extractLsb' 16 16 = 0
        ∧ (w.extractLsb' 8 8 = 0 ∨ w.extractLsb' 0 8 = 0x02 ∨ w.extractLsb' 0 8 = 0x0A))
    ∧ (CommandWord.wf w = true ↔ ∃ i, decode w = .legal i)

/-- R156: an illegal word, issued to an idle core, completes at once and changes nothing but what the rule lists. The
agenda is the model's choice (log 1). -/
def Obligations.IllegalWordCompletesAtOnce : Prop :=
  ∀ (s : State) (w : Word) (rest : List Turn), s.busy = false → s.agenda = ⟨.write 0x00C w, .full⟩ :: rest →
    (0x0F ≤ (w.extractLsb' 0 8).toNat →
      step s = .next { s with agenda := rest, cmd := w, result := .illegalCommand, subcause := .badOpcode, err := true })
    ∧ ((w.extractLsb' 0 8).toNat < 0x0F →
        (w.extractLsb' 16 16 ≠ 0 ∨
          (w.extractLsb' 8 8 ≠ 0 ∧ w.extractLsb' 0 8 ≠ 0x02 ∧ w.extractLsb' 0 8 ≠ 0x0A)) →
        step s = .next { s with agenda := rest, cmd := w, result := .illegalCommand, subcause := .reservedBits,
                                err := true })

/-! ### Issue and step -/

/-- A step whose event is the issue of a legal word to an idle core is that command's meaning, on the state with the
word latched and the event taken from the agenda (R34, R403). A command that was issued and has made no step yet runs
by its meaning too. The host's `withFetchWord` is such an issue. With nothing on the agenda an idle core keeps its
state (R429). Any other access to an idle core is `hostRead` or `hostWrite`, and nothing more. On a busy core the
access comes first and the core then goes on (R101, R117), step by step, as far as the turn says; with nothing on the
agenda it goes on for a full turn. The agenda and the pace are the model's choice (log 1, log 3). -/
def Obligations.StepRunsTheDecodedCommand : Prop :=
  (∀ (s : State) (w : Word) (i : Instr) (rest : List Turn), s.busy = false →
    s.agenda = ⟨.write 0x00C w, .full⟩ :: rest → decode w = .legal i →
    step s = exec i { s with agenda := rest, cmd := w, task := .issued })
  ∧ (∀ (s : State) (i : Instr), s.task = .issued → s.agenda = [] → decode s.cmd = .legal i → step s = exec i s)
  ∧ (∀ (s : State) (i : Instr), step (s.withFetchWord 32 (encode i).toNat)
      = exec i { s with cmd := encode i, task := .issued })
  ∧ (∀ s : State, s.busy = false → s.agenda = [] → step s = .next s)
  ∧ (∀ (s : State) (p : Pace) (a : Address) (rest : List Turn), s.busy = false → s.agenda = ⟨.read a, p⟩ :: rest →
    step s = .next (hostRead a { s with agenda := rest }))
  ∧ (∀ (s : State) (p : Pace) (a : Address) (v : Word) (rest : List Turn), s.busy = false → a ≠ 0x00C →
    s.agenda = ⟨.write a v, p⟩ :: rest → step s = .next (hostWrite a v { s with agenda := rest }))
  ∧ (∀ (s : State) (p : Pace) (a : Address) (rest : List Turn), s.busy = true → s.agenda = ⟨.read a, p⟩ :: rest →
    step s = coreTurn p (hostRead a { s with agenda := rest }))
  ∧ (∀ (s : State) (p : Pace) (a : Address) (v : Word) (rest : List Turn), s.busy = true →
    s.agenda = ⟨.write a v, p⟩ :: rest → step s = coreTurn p (hostWrite a v { s with agenda := rest }))
  ∧ (∀ s : State, s.busy = true → s.agenda = [] → step s = coreTurn .full s)
  ∧ (∀ s : State, (∀ n, coreTurn (.only n) s = .next (runCore n s))
    ∧ (∀ i, s.task = .issued → decode s.cmd = .legal i → coreTurn .full s = exec i s)
    ∧ (s.task ≠ .issued → coreTurn .full s = .next (runTurn s)))
  ∧ ∀ (s : State) (n : Nat), runCore 0 s = s ∧ (coreStep s = none → runCore n s = s)
    ∧ ∀ t, coreStep s = some t → runCore (n + 1) s = runCore n t

/-- R403: a `CMD` write. BUSY is read from the sequencer's task (log 2). -/
def Obligations.CommandWriteIsAcceptedOrDropped : Prop :=
  ∀ (s : State) (w : Word),
    (s.busy = false → hostWrite 0x00C w s = { s with cmd := w, task := .issued }
      ∧ (hostWrite 0x00C w s).busy = true ∧ coreStep (hostWrite 0x00C w s) = some (issue (hostWrite 0x00C w s)))
    ∧ (s.busy = true → hostWrite 0x00C w s = { s with drop := true })

/-- R404, R408: what a step of the core can do to BUSY, RESULT, SUBCAUSE and ERR. It ends the command only by `finish`,
whose (RESULT, SUBCAUSE) pair is one of R401; otherwise the command goes on and the three are unchanged. -/
def Obligations.CommandsEndOnlyByFinish : Prop :=
  ∀ s t : State, coreStep s = some t →
    (t.busy = false → (t.result, t.subcause) ∈ legalPairs ∧ t.err = (s.err || decide (t.result ≠ .ok)))
    ∧ (t.busy = true → t.result = s.result ∧ t.subcause = s.subcause ∧ t.err = s.err)
    ∧ t.drop = s.drop

/-- R182: the WAIT pseudo-instruction of a host program polls until it reads `BUSY = 0`: while the core is busy the
turn stays on the agenda, one word is read and its bit 0 is 1; once idle it reads the `STATUS` word and goes on. WAIT
as one event is the model's choice (log 12). -/
def Obligations.WaitPollsUntilIdle : Prop :=
  ∀ (s : State) (p : Pace),
    (s.busy = false → serve ⟨.wait, p⟩ s = { s with reads := s.reads ++ [statusWord s] })
    ∧ (s.busy = true → ∃ v : Word, v.getLsbD 0 = true
        ∧ serve ⟨.wait, p⟩ s = { s with reads := s.reads ++ [v], draws := s.draws + 1, agenda := ⟨.wait, p⟩ :: s.agenda })

/-! ### Host registers (10_state.md, 20_memory.md) -/

/-- R32, R114: while idle, a read of each offset returns the register the map lists there and changes nothing but the
record of the words read. R43: the word of `SYMOUT`, which is held as none or a symbol (log 17). -/
def Obligations.IdleReadsFollowTheMap : Prop :=
  ∀ s : State, s.busy = false →
    (∀ p ∈ [((0x000 : Address), (0x48554646#32 : Word)), (0x004, 0x00000001#32), (0x008, 0), (0x00C, s.cmd),
        (0x010, statusWord s), (0x014, s.msglen), (0x018, symoutWord s.symout), (0x01C, s.symcnt),
        (0x020, s.root.setWidth 32), (0x024, s.nodecnt.setWidth 32), (0x028, s.leafcnt.setWidth 32),
        (0x02C, s.bitcntOut), (0x030, s.bitcntIn), (0x034, s.nodeSel.setWidth 32),
        (0x038, nodeInfoWord (windowNode s)), (0x03C, (windowNode s).weight.extractLsb' 0 32),
        (0x040, ((windowNode s).weight.extractLsb' 32 8).setWidth 32), (0x044, s.lutSel.setWidth 32),
        (0x048, regValue .lutLen s), (0x04C, 0)],
      hostRead p.1 s = { s with reads := s.reads ++ [p.2] })
    ∧ (∀ k : Fin 8, hostRead (BitVec.ofNat 12 (0x050 + 4 * k.val)) s
        = { s with reads := s.reads ++ [lutBitsWord k.val (lutAt s.lutSel s)] })
    ∧ (∀ k : Fin 8, hostRead (BitVec.ofNat 12 (0x080 + 4 * k.val)) s
        = { s with reads := s.reads ++ [s.allow.extractLsb' (32 * k.val) 32] })
    ∧ (∀ x : Symbol, hostRead (BitVec.ofNat 12 (0x400 + 4 * x.toNat)) s
        = { s with reads := s.reads ++ [freqAt x s] })
    ∧ (∀ a : Address, ((0x070 ≤ a.toNat ∧ a.toNat < 0x080) ∨ (0x0A0 ≤ a.toNat ∧ a.toNat < 0x400) ∨ 0x800 ≤ a.toNat) →
        hostRead a s = { s with reads := s.reads ++ [0] })
    ∧ symoutWord none = 0
    ∧ ∀ x : Symbol, (symoutWord (some x)).extractLsb' 0 8 = x ∧ (symoutWord (some x)).getLsbD 8 = true
        ∧ (symoutWord (some x)).extractLsb' 9 23 = 0

/-- R31: `ID` and `VERSION` read their values and ignore writes at all times, idle or busy. -/
def Obligations.IdentityReadsAtAllTimes : Prop :=
  ∀ (s : State) (v : Word),
    hostRead 0x000 s = { s with reads := s.reads ++ [0x48554646#32] }
      ∧ hostRead 0x004 s = { s with reads := s.reads ++ [0x00000001#32] }
      ∧ hostWrite 0x000 v s = s ∧ hostWrite 0x004 v s = s

/-- R35, R400, R401: the fields of `STATUS` and the codes they hold. -/
def Obligations.StatusWordHoldsItsFields : Prop :=
  (∀ s : State,
    let w := statusWord s
    w.getLsbD 0 = s.busy ∧ w.extractLsb' 1 2 = s.trieState.code ∧ w.getLsbD 3 = s.lutValid ∧ w.getLsbD 4 = s.err
      ∧ w.getLsbD 5 = s.drop ∧ w.extractLsb' 6 2 = 0 ∧ w.extractLsb' 8 4 = s.result.code
      ∧ w.extractLsb' 12 4 = s.subcause.code ∧ w.extractLsb' 16 16 = 0)
  ∧ TrieState.none.code = 0 ∧ TrieState.empty.code = 1 ∧ TrieState.valid.code = 2
  ∧ [ResultCode.ok, .inputError, .formatError, .encodingError, .sequenceError, .illegalCommand].map ResultCode.code
      = [0, 1, 2, 3, 4, 5]
  ∧ [Subcause.none, .emptyInput, .freqSaturated, .negLen, .truncTrie, .truncLen, .truncMsg, .nodeOverflow, .noCode,
      .noTrie, .noLut, .emptyTrie, .badOpcode, .reservedBits].map Subcause.code
      = [0, 1, 2, 3, 4, 5, 6, 7, 8, 9, 10, 11, 12, 13]

/-- R46: the node window. -/
def Obligations.NodeWindowShowsTheSelectedNode : Prop :=
  ∀ (s : State) (v : Word), s.busy = false →
    hostWrite 0x034 v s = { s with nodeSel := v.extractLsb' 0 9 }
    ∧ (regValue .nodeSel s).extractLsb' 0 9 = s.nodeSel ∧ (regValue .nodeSel s).extractLsb' 9 23 = 0
    ∧ (s.nodeSel.toNat < s.nodecnt.toNat →
        let n := nodeAt s.nodeSel s
        let w := regValue .nodeInfo s
        w.extractLsb' 0 9 = n.left ∧ w.extractLsb' 9 9 = n.right ∧ w.extractLsb' 18 8 = n.sym
          ∧ w.extractLsb' 26 4 = 0 ∧ w.getLsbD 30 = n.leaf ∧ w.getLsbD 31 = n.inuse
          ∧ regValue .nodeWlo s = n.weight.extractLsb' 0 32
          ∧ (regValue .nodeWhi s).extractLsb' 0 8 = n.weight.extractLsb' 32 8
          ∧ (regValue .nodeWhi s).extractLsb' 8 24 = 0)
    ∧ (s.nodecnt.toNat ≤ s.nodeSel.toNat →
        regValue .nodeInfo s = 0 ∧ regValue .nodeWlo s = 0 ∧ regValue .nodeWhi s = 0)

/-- R50: the LUT window. -/
def Obligations.LutWindowShowsTheSelectedEntry : Prop :=
  ∀ (s : State) (v : Word), s.busy = false →
    let e := lutAt s.lutSel s
    hostWrite 0x044 v s = { s with lutSel := v.extractLsb' 0 8 }
    ∧ (regValue .lutSel s).extractLsb' 0 8 = s.lutSel ∧ (regValue .lutSel s).extractLsb' 8 24 = 0
    ∧ (regValue .lutLen s).getLsbD 31 = e.present ∧ (regValue .lutLen s).extractLsb' 8 23 = 0
    ∧ (regValue .lutLen s).extractLsb' 0 8 = e.len
    ∧ (∀ (k : Fin 8) (j : Nat), j < 32 →
        (regValue (.lutBits k) s).getLsbD (31 - j)
          = (decide (32 * k.val + j < e.len.toNat) && e.bits.getLsbD (32 * k.val + j)))
    ∧ (regValue (.lutBits 7) s).getLsbD 0 = false

/-- R51: a host write of `FREQ[s]` stores if the symbol is allowed and is ignored if not; every other count stays. The
canonical form `Memory.wf` is the model's (log 7), an invariant of every step. -/
def Obligations.FreqWriteNeedsAnAllowedSymbol : Prop :=
  ∀ (s : State) (x : Symbol) (v : Word), s.busy = false → Memory.wf s = true →
    (allowed x s = false → hostWrite (BitVec.ofNat 12 (0x400 + 4 * x.toNat)) v s = s)
    ∧ (allowed x s = true → ∃ f, hostWrite (BitVec.ofNat 12 (0x400 + 4 * x.toNat)) v s = { s with freq := f }
        ∧ ∀ k, Table.read 0 f k = if k = x.toNat then v else Table.read 0 s.freq k)

/-- R114, R41: the writes that only store: MSGLEN takes the word, and repeating a write of MSGLEN, NODE_SEL, LUT_SEL,
an ALLOW word or a FREQ count changes nothing more. The canonical form `Memory.wf` is the model's (log 7). -/
def Obligations.StoringWritesAreIdempotent : Prop :=
  ∀ (s : State) (v : Word), s.busy = false → Memory.wf s = true →
    hostWrite 0x014 v s = { s with msglen := v }
    ∧ ∀ a : Address, (a = 0x014 ∨ a = 0x034 ∨ a = 0x044 ∨ (0x080 ≤ a.toNat ∧ a.toNat < 0x0A0)
        ∨ (0x400 ≤ a.toNat ∧ a.toNat < 0x800)) →
      hostWrite a v (hostWrite a v s) = hostWrite a v s

/-- R52: the allowed-set bitmap: its reset value, its place in the registers, and a write of one word. -/
def Obligations.AllowWordsAreTheBitmap : Prop :=
  ((List.range 8).map (fun k => State.reset.allow.extractLsb' (32 * k) 32)
      = [0x00000000#32, 0x00006802#32, 0x00000000#32, 0x07FFFFFE#32, 0#32, 0#32, 0#32, 0#32])
  ∧ (∀ x : Symbol, allowed x State.reset = true ↔
      (0x61 ≤ x.toNat ∧ x.toNat ≤ 0x7A) ∨ x = 0x2D ∨ x = 0x21 ∨ x = 0x2E ∨ x = 0x2B)
  ∧ (∀ (s : State) (x : Symbol), (s.allow.extractLsb' (32 * (x.toNat / 32)) 32).getLsbD (x.toNat % 32) = allowed x s)
  ∧ ∀ (s : State) (k : Fin 8) (v : Word), s.busy = false →
      ∃ a, hostWrite (BitVec.ofNat 12 (0x080 + 4 * k.val)) v s = { s with allow := a }
        ∧ ∀ x : Symbol, a.getLsbD x.toNat = if x.toNat / 32 = k.val then v.getLsbD (x.toNat % 32) else allowed x s

/-- R33: `CTRL`. -/
def Obligations.ControlBitsAct : Prop :=
  ∀ (s : State) (v : Word),
    (v.getLsbD 0 = true → hostWrite 0x008 v s = resetCore s)
    ∧ (v.getLsbD 0 = false → s.busy = true → hostWrite 0x008 v s = s)
    ∧ (v.getLsbD 0 = false → s.busy = false → hostWrite 0x008 v s =
        { s with err := s.err && !v.getLsbD 1, drop := s.drop && !v.getLsbD 1
                 bitcntOut := if v.getLsbD 2 then 0 else s.bitcntOut
                 bitcntIn := if v.getLsbD 2 then 0 else s.bitcntIn })
    ∧ (s.busy = false → hostRead 0x008 s = { s with reads := s.reads ++ [0] })

/-- R102, R421: misaligned and reserved addresses, and the read-only registers, while idle and while busy. That
reserved and misaligned addresses read 0 also while busy is an inference (log 4). -/
def Obligations.NoAccessFaults : Prop :=
  ∀ (s : State) (a : Address) (v : Word),
    (a.toNat % 4 ≠ 0 ∨ a.toNat = 0x04C ∨ (0x070 ≤ a.toNat ∧ a.toNat < 0x080) ∨ (0x0A0 ≤ a.toNat ∧ a.toNat < 0x400)
        ∨ 0x800 ≤ a.toNat →
      hostWrite a v s = s ∧ hostRead a s = { s with reads := s.reads ++ [0] })
    ∧ (a ∈ [(0x000 : Address), 0x004, 0x010, 0x018, 0x01C, 0x020, 0x024, 0x028, 0x02C, 0x030, 0x038, 0x03C, 0x040,
          0x048] ∨ (a.toNat % 4 = 0 ∧ 0x050 ≤ a.toNat ∧ a.toNat < 0x070) →
      hostWrite a v s = s)

/-- R58: access while busy. What is unspecified is the next free value of the model (log 4): nothing is known of it. -/
def Obligations.BusyAccessIsRestricted : Prop :=
  ∀ (s : State) (a : Address) (v : Word),
    (s.busy = true →
      (a ≠ 0x00C → a ≠ 0x008 → hostWrite a v s = s)
      ∧ hostWrite 0x00C v s = { s with drop := true }
      ∧ hostWrite 0x008 v s = (if v.getLsbD 0 then resetCore s else s)
      ∧ hostRead 0x000 s = { s with reads := s.reads ++ [0x48554646#32] }
      ∧ hostRead 0x004 s = { s with reads := s.reads ++ [0x00000001#32] }
      ∧ (∃ w : Word, w.getLsbD 0 = true ∧ w.getLsbD 5 = s.drop
          ∧ (∀ j, 0 < j → j < 32 → j ≠ 5 → w.getLsbD j = (Config.busyRead s.draws).getLsbD j)
          ∧ hostRead 0x010 s = { s with reads := s.reads ++ [w], draws := s.draws + 1 })
      ∧ (∀ r, regAt a = some r → r ≠ .id → r ≠ .version → r ≠ .status →
          hostRead a s = { s with reads := s.reads ++ [Config.busyRead s.draws], draws := s.draws + 1 }))
    ∧ (s.busy = false → hostRead a s = { s with reads := s.reads ++ [idleWord s a] })

/-! ### Reset (10_state.md R57, 70_reset_and_hazards.md) -/

/-- R57, R454: every register and memory after a hardware or a soft reset, from any state, and in the model's reset
state. -/
def Obligations.ResetLeavesEveryFieldAtItsValue : Prop :=
  ∀ (s : State) (v : Word), v.getLsbD 0 = true →
    ∀ t ∈ [State.reset, perform .resetPin s, hostWrite 0x008 v s],
      t.cmd = 0 ∧ statusWord t = 0 ∧ t.busy = false ∧ t.trieState = .none ∧ t.lutValid = false ∧ t.err = false
        ∧ t.drop = false ∧ t.result = .ok ∧ t.subcause = .none ∧ t.msglen = 0 ∧ t.symout = none ∧ t.symcnt = 0
        ∧ t.root = 0 ∧ t.nodecnt = 0 ∧ t.leafcnt = 0 ∧ t.bitcntOut = 0 ∧ t.bitcntIn = 0 ∧ t.nodeSel = 0
        ∧ t.lutSel = 0 ∧ (∀ i, nodeAt i t = Node.zero) ∧ (∀ x, lutAt x t = LutEntry.zero) ∧ (∀ x, freqAt x t = 0)
        ∧ t.allow = Config.defaultAllow ∧ t.task = .idle

/-- R451, R452: a reset acts at any time, idle or busy, ends whatever runs without `finish`, drives the ports
inactive, and leaves the environments and the host's pending accesses as they are. That the host's accesses still to
come stay is an inference of the model (DEDUCED, log 15; the agenda is log 1). -/
def Obligations.ResetActsOnTheCoreOnly : Prop :=
  ∀ (s : State) (v : Word), v.getLsbD 0 = true →
    hostWrite 0x008 v s = perform .resetPin s
    ∧ ∀ t, t = hostWrite 0x008 v s →
      portOutputs t = PortOutputs.inactive ∧ coreStep t = none
      ∧ t.sink = s.sink ∧ t.sinkReady = s.sinkReady ∧ t.srcBits = s.srcBits ∧ t.srcEnded = s.srcEnded
      ∧ t.srcTaken = s.srcTaken ∧ t.symIn = s.symIn ∧ t.symOut = s.symOut ∧ t.symOutReady = s.symOutReady
      ∧ t.agenda = s.agenda ∧ t.reads = s.reads

/-! ### Control and frequency table (45_control.md, 40_frequency.md) -/

/-- R350: NOP. -/
def Obligations.NopOnlyCompletes : Prop :=
  encode .nop = 0x00000000#32
    ∧ ∀ s : State, exec .nop s = .next { s with result := .ok, subcause := .none, task := .idle }

/-- R351: CLOSE, when the sink accepts the Close event; and the artifact it releases is the bits since the last one,
padded (20_memory.md R107). -/
def Obligations.CloseSendsOneCloseEvent : Prop :=
  encode .close = 0x0000000E#32
    ∧ ∀ s : State, s.sinkReady.allows 1 = true →
      exec .close s = .next { s with sink := s.sink ++ [.close], sinkReady := s.sinkReady.after 1,
                                     result := .ok, subcause := .none, task := .idle }

/-- R201: CLRFREQ. -/
def Obligations.ClrfreqZeroesEveryCount : Prop :=
  encode .clrfreq = 0x00000001#32
    ∧ ∀ s : State, ∃ f, exec .clrfreq s = .next { s with freq := f, result := .ok, subcause := .none, task := .idle }
      ∧ ∀ k, Table.read 0 f k = 0

/-- R202: CNT. -/
def Obligations.CntCountsOneOccurrence : Prop :=
  ∀ (x : Symbol) (s : State),
    encode (.cnt x) = (0x0000#16 ++ x) ++ 0x02#8
    ∧ (allowed x s = false → exec (.cnt x) s = .next { s with result := .ok, subcause := .none, task := .idle })
    ∧ (allowed x s = true → freqAt x s = 0xFFFFFFFF#32 →
        exec (.cnt x) s = .next { s with result := .inputError, subcause := .freqSaturated, err := true, task := .idle })
    ∧ (allowed x s = true → freqAt x s ≠ 0xFFFFFFFF#32 →
        ∃ f, exec (.cnt x) s = .next { s with freq := f, result := .ok, subcause := .none, task := .idle }
          ∧ ∀ k, Table.read 0 f k = if k = x.toNat then freqAt x s + 1 else Table.read 0 s.freq k)

/-- R203: the totals of the counts, and each count. -/
def Obligations.CountsTotalTheAllowedSymbols : Prop :=
  ∀ (xs : List Symbol) (s : State), (∀ x, allowed x s = true → xs.count x < 0xFFFFFFFF) →
    ∃ t, execAll (.clrfreq :: xs.map .cnt) s = .next t ∧ t.result = .ok
      ∧ (∀ x, (freqAt x t).toNat = if allowed x s then xs.count x else 0)
      ∧ ((List.range 256).map fun k => (freqAt (BitVec.ofNat 8 k) t).toNat).sum
          = (xs.filter fun x => allowed x s).length

/-! ### Trie builder (41_trie_builder.md) -/

/-- R230: CLRTRIE. -/
def Obligations.ClrtrieDiscardsTrieAndLut : Prop :=
  encode .clrtrie = 0x00000004#32
    ∧ ∀ s : State, ∃ nodes lut, exec .clrtrie s = .next { s with
        nodes := nodes, lut := lut, lutValid := false, trieState := .none, root := 0, nodecnt := 0, leafcnt := 0
        result := .ok, subcause := .none, task := .idle }
      ∧ (∀ k, Table.read Node.zero nodes k = Node.zero) ∧ (∀ k, Table.read LutEntry.zero lut k = LutEntry.zero)

/-- R228: BUILD with no leaf. -/
def Obligations.BuildOfNoSymbolIsEmpty : Prop :=
  ∀ s : State, (∀ x, allowed x s = true → freqAt x s = 0) →
    ∃ nodes lut, exec .build s = .next { s with
        nodes := nodes, lut := lut, lutValid := false, trieState := .empty, root := 0, nodecnt := 0, leafcnt := 0
        result := .inputError, subcause := .emptyInput, err := true, task := .idle }
      ∧ (∀ k, Table.read Node.zero nodes k = Node.zero) ∧ (∀ k, Table.read LutEntry.zero lut k = LutEntry.zero)

/-- R221, R225, R226: BUILD with at least one leaf: the leaves, the internal nodes, the registers, and the full binary
tree they make; and nothing else changes. -/
def Obligations.BuildMakesTheTrie : Prop :=
  ∀ s : State, (∃ x, allowed x s = true ∧ freqAt x s ≠ 0) →
    ∃ (xs : List Symbol) (t : Trie) (nodes : Table Node) (lut : Table LutEntry),
      let L := xs.length
      (∀ x, x ∈ xs ↔ allowed x s = true ∧ freqAt x s ≠ 0) ∧ xs.Pairwise (fun x y => x.toNat < y.toNat)
      ∧ 1 ≤ L ∧ L ≤ 256
      ∧ exec .build s = .next { s with
          nodes := nodes, lut := lut, lutValid := false, trieState := .valid, root := BitVec.ofNat 9 (2 * L - 2)
          nodecnt := BitVec.ofNat 10 (2 * L - 1), leafcnt := BitVec.ofNat 9 L
          result := .ok, subcause := .none, task := .idle }
      ∧ (∀ k, Table.read LutEntry.zero lut k = LutEntry.zero)
      ∧ (∀ k (h : k < L), Table.read Node.zero nodes k = Node.mkLeaf xs[k] ((freqAt xs[k] s).setWidth 40))
      ∧ (∀ k, L ≤ k → k < 2 * L - 1 → ∃ l r w, Table.read Node.zero nodes k = Node.mkInternal l r w
          ∧ l.toNat < k ∧ r.toNat < k)
      ∧ (∀ k, 2 * L - 1 ≤ k → Table.read Node.zero nodes k = Node.zero)
      ∧ TrieAt nodes (BitVec.ofNat 9 (2 * L - 2)) t ∧ t.leaves = L ∧ t.depth ≤ L - 1
      ∧ (trieIndices nodes (BitVec.ofNat 9 (2 * L - 2)) t).Perm (List.range (2 * L - 1))

/-- R224: the weights BUILD leaves are exact sums, and the root's is the total frequency. -/
def Obligations.BuildWeightsAreExactSums : Prop :=
  ∀ s : State, (∃ x, allowed x s = true ∧ freqAt x s ≠ 0) →
    ∃ t, exec .build s = .next t
      ∧ (∀ k, k < t.nodecnt.toNat → (Table.read Node.zero t.nodes k).leaf = false →
          (Table.read Node.zero t.nodes k).weight.toNat
            = (nodeAt (Table.read Node.zero t.nodes k).left t).weight.toNat
              + (nodeAt (Table.read Node.zero t.nodes k).right t).weight.toNat)
      ∧ (nodeAt t.root t).weight.toNat
          = ((List.range 256).map fun k =>
              if allowed (BitVec.ofNat 8 k) s then (freqAt (BitVec.ofNat 8 k) s).toNat else 0).sum

/-- R222, R223: the queue gives its least entry by (weight, seq), compared lexicographically, and keeps the others;
while two entries are left, a step of BUILD merges the least and the next least, in that left and right order, into
one entry with the next sequence number, and changes nothing else. The queue as a list is the model's choice (log 14).
-/
def Obligations.BuildMergesTheTwoLeastEntries : Prop :=
  (∀ (q q' : List PqEntry) (m : PqEntry), extractMin q = some (m, q') →
    q.Perm (m :: q')
      ∧ ∀ e ∈ q', m.weight.toNat < e.weight.toNat
          ∨ (m.weight.toNat = e.weight.toNat ∧ m.seq.toNat ≤ e.seq.toNat))
  ∧ ∀ (s : State) (n seq leaves : Nat) (pq : List PqEntry), s.task = .build n seq leaves pq → 2 ≤ pq.length →
    ∃ a b pq1 pq2 nodes, extractMin pq = some (a, pq1) ∧ extractMin pq1 = some (b, pq2)
      ∧ coreStep s = some { s with
          nodes := nodes
          task := .build (n + 1) (seq + 1) leaves
            (pq2 ++ [⟨a.weight + b.weight, BitVec.ofNat 9 seq, BitVec.ofNat 9 n⟩]) }
      ∧ ∀ k, Table.read Node.zero nodes k
          = if k = n then Node.mkInternal a.node b.node (a.weight + b.weight) else Table.read Node.zero s.nodes k

/-- R229: the result of BUILD depends on `FREQ` and `ALLOW` only. -/
def Obligations.BuildIsDeterminedByItsTable : Prop :=
  ∀ s s' t t' : State, s.freq = s'.freq → s.allow = s'.allow → exec .build s = .next t → exec .build s' = .next t' →
    t.nodes = t'.nodes ∧ t.lut = t'.lut ∧ t.lutValid = t'.lutValid ∧ t.trieState = t'.trieState ∧ t.root = t'.root
      ∧ t.nodecnt = t'.nodecnt ∧ t.leafcnt = t'.leafcnt ∧ t.result = t'.result ∧ t.subcause = t'.subcause
      ∧ t.task = t'.task

/-! ### Code table (42_code_table.md) -/

/-- R240, R241, R244, R245: GENLUT without a trie, of the EMPTY trie, and of a VALID one. `p` is the code word of `x`
if the last leaf of `x` in pre-order is at the end of path `p`; a symbol without a leaf has no entry. The canonical
form `Memory.wf` is the model's (log 7). -/
def Obligations.GenlutWritesTheCodeWords : Prop :=
  encode .genlut = 0x00000005#32 ∧ ∀ s : State,
    (s.trieState = .none →
      exec .genlut s = .next { s with result := .sequenceError, subcause := .noTrie, err := true, task := .idle })
    ∧ (s.trieState = .empty → ∃ lut,
        exec .genlut s = .next { s with lut := lut, lutValid := true, result := .ok, subcause := .none, task := .idle }
        ∧ ∀ k, Table.read LutEntry.zero lut k = LutEntry.zero)
    ∧ ∀ t : Trie, s.trieState = .valid → HoldsTrie s t → Memory.wf s = true →
      ∃ lut, exec .genlut s
          = .next { s with lut := lut, lutValid := true, result := .ok, subcause := .none, task := .idle }
        ∧ (∀ x p before after, t.paths = before ++ (x, p) :: after → (∀ q ∈ after, q.1 ≠ x) →
            Table.read LutEntry.zero lut x.toNat = LutEntry.ofPath p
              ∧ (LutEntry.ofPath p).code = p ∧ (LutEntry.ofPath p).len.toNat = p.length ∧ p.length ≤ 255)
        ∧ (∀ x : Symbol, (∀ q ∈ t.paths, q.1 ≠ x) → Table.read LutEntry.zero lut x.toNat = LutEntry.zero)

/-- R242: the code table of a trie with distinct leaf symbols is prefix-free. -/
def Obligations.CodeWordsArePrefixFree : Prop :=
  ∀ (s : State) (t : Trie), s.trieState = .valid → HoldsTrie s t → Memory.wf s = true →
    (t.paths.map Prod.fst).Nodup →
    ∃ u, exec .genlut s = .next u ∧ ∀ x y, (lutAt x u).present = true → (lutAt y u).present = true → x ≠ y →
      ¬ (lutAt x u).code <+: (lutAt y u).code

/-- R246: the lengths of the code words, their Kraft sum (multiplied by 2^255) and their number. -/
def Obligations.CodeLengthsFillTheTree : Prop :=
  ∀ (s : State) (t : Trie), s.trieState = .valid → HoldsTrie s t → Memory.wf s = true →
    ∃ u, exec .genlut s = .next u ∧ (∀ x, (lutAt x u).present = true → (lutAt x u).len.toNat ≤ 255)
      ∧ ((t.paths.map Prod.fst).Nodup →
          ((List.range 256).filter fun k => (lutAt (BitVec.ofNat 8 k) u).present).length = s.leafcnt.toNat
          ∧ (2 ≤ t.leaves →
              (∀ x, (lutAt x u).present = true → 1 ≤ (lutAt x u).len.toNat)
              ∧ ((List.range 256).map fun k =>
                  if (lutAt (BitVec.ofNat 8 k) u).present then 2 ^ (255 - (lutAt (BitVec.ofNat 8 k) u).len.toNat)
                  else 0).sum = 2 ^ 255))

/-- R329: after BUILD and GENLUT the symbols without a code word, which SENC and MENC refuse, are exactly those not
allowed or with count 0 when BUILD ran. -/
def Obligations.BuildAndGenlutCodeExactlyTheLeafSet : Prop :=
  ∀ s : State, ∃ t, execAll [.build, .genlut] s = .next t ∧ t.lutValid = true ∧
    ∀ x, (lutAt x t).present = true ↔ (allowed x s = true ∧ freqAt x s ≠ 0)

/-- R227: the code BUILD and GENLUT give is optimal. No prefix-free code of the leaf set has a smaller sum of frequency
times length, and a symbol strictly more frequent than every other has a code word no longer than any other. -/
def Obligations.BuildAndGenlutCodeIsOptimal : Prop :=
  ∀ s : State, (∃ x, allowed x s = true ∧ freqAt x s ≠ 0) →
    let leaf := fun x : Symbol => allowed x s = true ∧ freqAt x s ≠ 0
    let cost := fun len : Symbol → Nat => ((List.range 256).map fun k =>
      if allowed (BitVec.ofNat 8 k) s then (freqAt (BitVec.ofNat 8 k) s).toNat * len (BitVec.ofNat 8 k) else 0).sum
    ∃ t, execAll [.build, .genlut] s = .next t
      ∧ (∀ c : Symbol → List Bool, (∀ x y, leaf x → leaf y → x ≠ y → ¬ c x <+: c y) →
          cost (fun x => (lutAt x t).len.toNat) ≤ cost (fun x => (c x).length))
      ∧ ∀ x, leaf x → (∀ y, leaf y → y ≠ x → (freqAt y s).toNat < (freqAt x s).toNat) →
          ∀ y, leaf y → (lutAt x t).len.toNat ≤ (lutAt y t).len.toNat

/-! ### Trie codec (43_trie_codec.md) -/

/-- R260 to R263: TENC of a VALID trie, of the EMPTY trie, and without a trie. -/
def Obligations.TencWritesTheTrie : Prop :=
  encode .tenc = 0x00000006#32 ∧ ∀ s : State,
    (s.trieState = .none →
      exec .tenc s = .next { s with result := .sequenceError, subcause := .noTrie, err := true, task := .idle })
    ∧ (s.trieState = .empty → s.sinkReady.allows 9 = true →
        exec .tenc s = .next { s with
          sink := s.sink ++ [true, false, false, false, false, false, false, false, false].map .bit
          sinkReady := s.sinkReady.after 9, bitcntOut := s.bitcntOut + 9
          result := .ok, subcause := .none, task := .idle })
    ∧ (∀ t, s.trieState = .valid → HoldsTrie s t → s.sinkReady.allows (10 * s.leafcnt.toNat - 1) = true →
        t.ser.length = 10 * s.leafcnt.toNat - 1
        ∧ exec .tenc s = .next { s with
            sink := s.sink ++ t.ser.map .bit, sinkReady := s.sinkReady.after t.ser.length
            bitcntOut := s.bitcntOut + BitVec.ofNat 32 (10 * s.leafcnt.toNat - 1)
            result := .ok, subcause := .none, task := .idle })

/-- R265, R266, R270, R272: TDEC of the bits of a trie of at most 511 nodes. -/
def Obligations.TdecReadsTheTrie : Prop :=
  encode .tdec = 0x00000007#32 ∧ ∀ (s : State) (t : Trie) (rest : List Bool), s.srcBits = t.ser ++ rest → t.size ≤ 511 →
    ∃ nodes lut, exec .tdec s = .next { s with
        nodes := nodes, lut := lut, lutValid := false, trieState := .valid, root := 0
        nodecnt := BitVec.ofNat 10 t.size, leafcnt := BitVec.ofNat 9 t.leaves
        srcBits := rest, srcTaken := s.srcTaken + t.ser.length
        bitcntIn := s.bitcntIn + BitVec.ofNat 32 t.ser.length
        result := .ok, subcause := .none, task := .idle }
      ∧ (∀ k, Table.read LutEntry.zero lut k = LutEntry.zero)
      ∧ TrieAt nodes 0 t ∧ trieIndices nodes 0 t = List.range t.size
      ∧ (∀ k, t.size ≤ k → Table.read Node.zero nodes k = Node.zero)
      ∧ (∀ k, (Table.read Node.zero nodes k).weight = 0)
      ∧ t.size = 2 * t.leaves - 1 ∧ 1 ≤ t.leaves ∧ t.leaves ≤ 256

/-- R267, R268, R269: TDEC of a stream that ends inside a trie `t` (within its first 511 nodes), and of one that goes on
to the tag bit of a 512th node, of which at most 2552 bits are consumed (70_reset_and_hazards.md R481). -/
def Obligations.FailedTdecLeavesNoTrie : Prop :=
  ∀ (s : State) (t : Trie),
    (∀ c : List Bool, t.ser = s.srcBits ++ c → c ≠ [] → s.srcEnded = true →
      s.srcBits.length ≤ (t.nodeBits.take 511).flatten.length →
      ∃ nodes lut, exec .tdec s = .next { s with
          nodes := nodes, lut := lut, lutValid := false, trieState := .none, root := 0, nodecnt := 0, leafcnt := 0
          srcBits := [], srcTaken := s.srcTaken + s.srcBits.length
          bitcntIn := s.bitcntIn + BitVec.ofNat 32 s.srcBits.length
          result := .formatError, subcause := .truncTrie, err := true, task := .idle }
        ∧ (∀ k, Table.read Node.zero nodes k = Node.zero) ∧ (∀ k, Table.read LutEntry.zero lut k = LutEntry.zero))
    ∧ (∀ (b : Bool) (rest : List Bool), 511 < t.size → s.srcBits = (t.nodeBits.take 511).flatten ++ b :: rest →
      let k := (t.nodeBits.take 511).flatten.length + 1
      k ≤ 2552 ∧ ∃ nodes lut, exec .tdec s = .next { s with
          nodes := nodes, lut := lut, lutValid := false, trieState := .none, root := 0, nodecnt := 0, leafcnt := 0
          srcBits := rest, srcTaken := s.srcTaken + k, bitcntIn := s.bitcntIn + BitVec.ofNat 32 k
          result := .formatError, subcause := .nodeOverflow, err := true, task := .idle }
        ∧ (∀ k, Table.read Node.zero nodes k = Node.zero) ∧ (∀ k, Table.read LutEntry.zero lut k = LutEntry.zero))

/-- R271: TDEC of the bits TENC wrote for a VALID trie gives the same trie, and GENLUT then the same code table. -/
def Obligations.TrieRoundTrip : Prop :=
  ∀ (s : State) (t : Trie), s.trieState = .valid → HoldsTrie s t → Memory.wf s = true →
    s.sinkReady.allows (10 * s.leafcnt.toNat - 1) = true →
    ∃ s1 bits, exec .tenc s = .next s1 ∧ s1.sink = s.sink ++ bits.map .bit
      ∧ ∀ (u : State) (rest : List Bool), u.srcBits = bits ++ rest →
        ∃ u1, exec .tdec u = .next u1 ∧ u1.result = .ok ∧ u1.trieState = .valid ∧ u1.srcBits = rest ∧ HoldsTrie u1 t
          ∧ u1.nodecnt = s.nodecnt ∧ u1.leafcnt = s.leafcnt
          ∧ ∃ s2 u2, exec .genlut s = .next s2 ∧ exec .genlut u1 = .next u2 ∧ s2.lut = u2.lut

/-! ### Length field and message codec (44_message_codec.md) -/

/-- R300: LENC. -/
def Obligations.LencWritesTheLength : Prop :=
  encode .lenc = 0x00000008#32 ∧ ∀ s : State, s.sinkReady.allows 32 = true →
    exec .lenc s = .next { s with
      sink := s.sink ++ ((List.range 32).map fun j => SinkEvent.bit (s.msglen.getLsbD (31 - j)))
      sinkReady := s.sinkReady.after 32, bitcntOut := s.bitcntOut + 32
      result := .ok, subcause := .none, task := .idle }

/-- R301: LDEC: 32 bits there and the value not negative, negative, or fewer than 32 bits before END. -/
def Obligations.LdecReadsTheLength : Prop :=
  encode .ldec = 0x00000009#32 ∧ ∀ s : State,
    (∀ (v : Word) (rest : List Bool), s.srcBits = ((List.range 32).map fun j => v.getLsbD (31 - j)) ++ rest →
      (v.getLsbD 31 = false → exec .ldec s = .next { s with
          msglen := v, srcBits := rest, srcTaken := s.srcTaken + 32, bitcntIn := s.bitcntIn + 32
          result := .ok, subcause := .none, task := .idle })
      ∧ (v.getLsbD 31 = true → exec .ldec s = .next { s with
          srcBits := rest, srcTaken := s.srcTaken + 32, bitcntIn := s.bitcntIn + 32
          result := .formatError, subcause := .negLen, err := true, task := .idle }))
    ∧ (s.srcBits.length < 32 → s.srcEnded = true → exec .ldec s = .next { s with
          srcBits := [], srcTaken := s.srcTaken + s.srcBits.length
          bitcntIn := s.bitcntIn + BitVec.ofNat 32 s.srcBits.length
          result := .formatError, subcause := .truncLen, err := true, task := .idle })

/-- R305, R306: SENC. -/
def Obligations.SencWritesTheCodeWord : Prop :=
  ∀ (x : Symbol) (s : State),
    encode (.senc x) = (0x0000#16 ++ x) ++ 0x0A#8
    ∧ (s.lutValid = false → exec (.senc x) s = .next { s with
        symcnt := 0, result := .sequenceError, subcause := .noLut, err := true, task := .idle })
    ∧ (s.lutValid = true → (lutAt x s).present = false → exec (.senc x) s = .next { s with
        symcnt := 0, result := .encodingError, subcause := .noCode, err := true, task := .idle })
    ∧ (s.lutValid = true → (lutAt x s).present = true → s.sinkReady.allows (lutAt x s).len.toNat = true →
        exec (.senc x) s = .next { s with
          symcnt := 1
          sink := s.sink ++ (List.range (lutAt x s).len.toNat).map fun j => SinkEvent.bit ((lutAt x s).bits.getLsbD j)
          sinkReady := s.sinkReady.after (lutAt x s).len.toNat
          bitcntOut := s.bitcntOut + BitVec.ofNat 32 (lutAt x s).len.toNat
          result := .ok, subcause := .none, task := .idle })

/-- R310, R311: SDEC. With a VALID trie: the stream starts with a code word, or ends inside one. -/
def Obligations.SdecReadsOneCodeWord : Prop :=
  encode .sdec = 0x0000000B#32 ∧ ∀ s : State,
    (s.trieState = .none → exec .sdec s = .next { s with
        symcnt := 0, symout := none, result := .sequenceError, subcause := .noTrie, err := true, task := .idle })
    ∧ (s.trieState = .empty → exec .sdec s = .next { s with
        symcnt := 0, symout := none, result := .sequenceError, subcause := .emptyTrie, err := true, task := .idle })
    ∧ ∀ t, s.trieState = .valid → HoldsTrie s t →
        (∀ (x : Symbol) (p rest : List Bool), (x, p) ∈ t.paths → s.srcBits = p ++ rest →
          exec .sdec s = .next { s with
            symcnt := 1, symout := some x, srcBits := rest, srcTaken := s.srcTaken + p.length
            bitcntIn := s.bitcntIn + BitVec.ofNat 32 p.length
            result := .ok, subcause := .none, task := .idle })
        ∧ (t.walk s.srcBits = none → s.srcEnded = true →
          exec .sdec s = .next { s with
            symcnt := 0, symout := none, srcBits := [], srcTaken := s.srcTaken + s.srcBits.length
            bitcntIn := s.bitcntIn + BitVec.ofNat 32 s.srcBits.length
            result := .formatError, subcause := .truncMsg, err := true, task := .idle })

/-- R315: MENC. Its preconditions in the order they are tested; then a message `xs` of `MSGLEN` symbols that all have
code words; one whose next symbol has none; and while symbol-in has not offered all of it, where MENC stays busy
(70_reset_and_hazards.md R471). -/
def Obligations.MencWritesTheMessage : Prop :=
  encode .menc = 0x0000000C#32 ∧ ∀ s : State,
    (s.lutValid = false → exec .menc s = .next { s with
        symcnt := 0, result := .sequenceError, subcause := .noLut, err := true, task := .idle })
    ∧ (s.lutValid = true → s.msglen.getLsbD 31 = true → exec .menc s = .next { s with
        symcnt := 0, result := .inputError, subcause := .negLen, err := true, task := .idle })
    ∧ ∀ xs rest : List Symbol, s.lutValid = true → s.msglen.getLsbD 31 = false →
      s.symIn = xs ++ rest → (∀ x ∈ xs, (lutAt x s).present = true) →
      let bits := xs.flatMap fun x => (lutAt x s).code
      s.sinkReady.allows bits.length = true →
      (xs.length = s.msglen.toNat → exec .menc s = .next { s with
          symcnt := s.msglen, symIn := rest, sink := s.sink ++ bits.map .bit, sinkReady := s.sinkReady.after bits.length
          bitcntOut := s.bitcntOut + BitVec.ofNat 32 bits.length
          result := .ok, subcause := .none, task := .idle })
      ∧ (∀ y rest', xs.length < s.msglen.toNat → rest = y :: rest' → (lutAt y s).present = false →
          exec .menc s = .next { s with
            symcnt := BitVec.ofNat 32 xs.length, symIn := rest', sink := s.sink ++ bits.map .bit
            sinkReady := s.sinkReady.after bits.length, bitcntOut := s.bitcntOut + BitVec.ofNat 32 bits.length
            result := .encodingError, subcause := .noCode, err := true, task := .idle })
      ∧ (xs.length < s.msglen.toNat → rest = [] → exec .menc s = .next { s with
            symcnt := BitVec.ofNat 32 xs.length, symIn := [], sink := s.sink ++ bits.map .bit
            sinkReady := s.sinkReady.after bits.length, bitcntOut := s.bitcntOut + BitVec.ofNat 32 bits.length
            task := .mencSym xs.length })

/-- R320, R311, R328: MDEC. Its preconditions in the order they are tested; then, with a VALID trie, `msg` is the list
of the leaves whose code words the stream starts with: all `MSGLEN` of them, or fewer and then the stream ends inside a
code word. -/
def Obligations.MdecReadsTheMessage : Prop :=
  encode .mdec = 0x0000000D#32 ∧ ∀ s : State,
    (s.trieState = .none → exec .mdec s = .next { s with
        symcnt := 0, symout := none, result := .sequenceError, subcause := .noTrie, err := true, task := .idle })
    ∧ (s.trieState = .empty → s.msglen ≠ 0 → exec .mdec s = .next { s with
        symcnt := 0, symout := none, result := .sequenceError, subcause := .emptyTrie, err := true, task := .idle })
    ∧ (s.trieState = .empty → s.msglen = 0 → exec .mdec s = .next { s with
        symcnt := 0, symout := none, result := .ok, subcause := .none, task := .idle })
    ∧ (s.trieState = .valid → s.msglen.getLsbD 31 = true → exec .mdec s = .next { s with
        symcnt := 0, symout := none, result := .inputError, subcause := .negLen, err := true, task := .idle })
    ∧ ∀ (t : Trie) (msg : List (Symbol × List Bool)) (rest : List Bool), s.trieState = .valid →
      HoldsTrie s t → Memory.wf s = true → s.msglen.getLsbD 31 = false → (∀ q ∈ msg, q ∈ t.paths) →
      s.srcBits = msg.flatMap Prod.snd ++ rest → s.symOutReady.allows msg.length = true →
      let k := (msg.flatMap Prod.snd).length
      (msg.length = s.msglen.toNat → exec .mdec s = .next { s with
          symcnt := s.msglen, symout := (msg.map Prod.fst).getLast?, symOut := s.symOut ++ msg.map Prod.fst
          symOutReady := s.symOutReady.after msg.length, srcBits := rest, srcTaken := s.srcTaken + k
          bitcntIn := s.bitcntIn + BitVec.ofNat 32 k
          result := .ok, subcause := .none, task := .idle })
      ∧ (msg.length < s.msglen.toNat → t.walk rest = none → s.srcEnded = true → exec .mdec s = .next { s with
          symcnt := BitVec.ofNat 32 msg.length, symout := (msg.map Prod.fst).getLast?
          symOut := s.symOut ++ msg.map Prod.fst, symOutReady := s.symOutReady.after msg.length
          srcBits := [], srcTaken := s.srcTaken + (k + rest.length)
          bitcntIn := s.bitcntIn + BitVec.ofNat 32 (k + rest.length)
          result := .formatError, subcause := .truncMsg, err := true, task := .idle })

/-! ### Whole-machine rules -/

/-- R402, R39, R40: a legal command that completes does so with a pair its row lists, and ERR is set exactly on a result
other than OK; one that waits leaves RESULT, SUBCAUSE and ERR. -/
def Obligations.CompletionsAreThoseListed : Prop :=
  ∀ (i : Instr) (s t : State), exec i s = .next t →
    (t.busy = false → (t.result, t.subcause) ∈ completions i ∧ t.err = (s.err || decide (t.result ≠ .ok)))
    ∧ (t.busy = true → t.result = s.result ∧ t.subcause = s.subcause ∧ t.err = s.err)

/-- R200, R37, R38, R41, R43, R44, R45, R49: which commands write which state. No command writes the registers of the
last line. -/
def Obligations.CommandsWriteOnlyTheirState : Prop :=
  ∀ (i : Instr) (s t : State), exec i s = .next t →
    (i ≠ .clrfreq → (∀ x, i ≠ .cnt x) → t.freq = s.freq)
    ∧ (i ≠ .build → i ≠ .clrtrie → i ≠ .tdec →
        t.nodes = s.nodes ∧ t.trieState = s.trieState ∧ t.root = s.root ∧ t.nodecnt = s.nodecnt ∧ t.leafcnt = s.leafcnt
        ∧ (i ≠ .genlut → t.lut = s.lut ∧ t.lutValid = s.lutValid))
    ∧ (i ≠ .ldec → t.msglen = s.msglen)
    ∧ (i ≠ .sdec → i ≠ .mdec → t.symout = s.symout ∧
        ((∀ x, i ≠ .senc x) → i ≠ .menc → t.symcnt = s.symcnt))
    ∧ t.cmd = s.cmd ∧ t.drop = s.drop ∧ t.nodeSel = s.nodeSel ∧ t.lutSel = s.lutSel ∧ t.allow = s.allow
    ∧ t.agenda = s.agenda ∧ t.reads = s.reads

/-- R471, R272, R42: which commands use which port, and the bit counters count exactly the bits moved. -/
def Obligations.CommandsUseOnlyTheirPorts : Prop :=
  ∀ (i : Instr) (s t : State), exec i s = .next t →
    ((∀ x, i ≠ .senc x) → i ≠ .tenc → i ≠ .lenc → i ≠ .menc → i ≠ .close →
        t.sink = s.sink ∧ t.sinkReady = s.sinkReady ∧ t.bitcntOut = s.bitcntOut)
    ∧ (i ≠ .tdec → i ≠ .ldec → i ≠ .sdec → i ≠ .mdec →
        t.srcBits = s.srcBits ∧ t.srcTaken = s.srcTaken ∧ t.bitcntIn = s.bitcntIn)
    ∧ (i ≠ .menc → t.symIn = s.symIn) ∧ (i ≠ .mdec → t.symOut = s.symOut ∧ t.symOutReady = s.symOutReady)
    ∧ (∃ n, s.srcTaken + n = t.srcTaken ∧ s.srcBits.drop n = t.srcBits ∧ n ≤ s.srcBits.length
        ∧ t.bitcntIn = s.bitcntIn + BitVec.ofNat 32 n)
    ∧ (i ≠ .close → ∃ bits : List Bool, t.sink = s.sink ++ bits.map .bit
        ∧ t.bitcntOut = s.bitcntOut + BitVec.ofNat 32 bits.length)

/-- R105, R108, R111, R112: a step of the core makes exactly the transfers its port outputs offer, and while a port's
other side does not accept or answer, the core keeps its state and so holds its outputs steady. What the other sides
do: a beat of the source gives END even with `src_valid`, nothing when both signals are low, else one more bit, and
after END nothing until a new stream starts (R108, R109). Ports as transfers, END's persistence, and how a new stream
starts and drops the old one are the model's choice (log 5, log 8, log 6, log 18). -/
def Obligations.TransfersFollowThePortOutputs : Prop :=
  (∀ s t : State, coreStep s = some t →
    t.sink = s.sink ++ (portOutputs s).snk.toList ∧ t.symOut = s.symOut ++ (portOutputs s).sout.toList
    ∧ ((portOutputs s).srcReq = false → t.srcBits = s.srcBits)
    ∧ ((portOutputs s).srcReq = true →
        (∃ b, s.srcBits = b :: t.srcBits) ∨ (s.srcBits = [] ∧ s.srcEnded = true ∧ t.srcBits = []))
    ∧ ((portOutputs s).sinReady = false → t.symIn = s.symIn)
    ∧ ((portOutputs s).sinReady = true → ∃ x, s.symIn = x :: t.symIn))
  ∧ (∀ s : State,
    (((portOutputs s).snk ≠ none ∧ s.sinkReady = .count 0) ∨ ((portOutputs s).sout ≠ none ∧ s.symOutReady = .count 0)
      ∨ ((portOutputs s).srcReq = true ∧ s.srcBits = [] ∧ s.srcEnded = false)
      ∨ ((portOutputs s).sinReady = true ∧ s.symIn = [])) →
    coreStep s = none)
  ∧ ∀ (s : State) (valid bit : Bool),
    perform (.srcBeat valid bit true) s = { s with srcEnded := true }
    ∧ perform (.srcBeat false bit false) s = s
    ∧ (s.srcEnded = false → perform (.srcBeat true bit false) s = { s with srcBits := s.srcBits ++ [bit] })
    ∧ (s.srcEnded = true → ∀ ended, perform (.srcBeat valid bit ended) s = s)
    ∧ perform .srcOpen s = { s with srcBits := [], srcEnded := false }
    ∧ (∀ bytes, perform (.srcStream bytes) s = { s with srcBits := bytesBits bytes, srcEnded := true })
    ∧ (∀ xs, perform (.symOffer xs) s = { s with symIn := s.symIn ++ xs })
    ∧ ∀ r, perform (.sinkReady r) s = { s with sinkReady := r }
        ∧ perform (.symOutReady r) s = { s with symOutReady := r }

/-- R352: no event but the CLOSE command's step puts a Close on the sink: no other command, no error, no reset. -/
def Obligations.OnlyCloseClosesTheSink : Prop :=
  (∀ (i : Instr) (s t : State), exec i s = .next t → i ≠ .close →
    ∃ bits : List Bool, t.sink = s.sink ++ bits.map .bit)
  ∧ (∀ (s t : State), coreStep s = some t → s.task ≠ .close → ∃ bits : List Bool, t.sink = s.sink ++ bits.map .bit)
  ∧ (∀ (i : Instr) (s : State), i ≠ .close → (begin i s).task ≠ .close)
  ∧ ∀ (e : Event) (s : State), (perform e s).sink = s.sink

/-- R16, R107, R177: the artifact of a bit string: its bits, then zero bits up to the next byte boundary. A Close
releases the bits since the Close before it, the first Close those since the start; bits no Close follows are no
artifact yet. That a reset in between does not begin a new artifact is the model's reading of R16 against R107 and
R452 (DEDUCED, unsafe, log 13). -/
def Obligations.ArtifactPadsToAByte : Prop :=
  ∀ (l : List Bool) (es : List SinkEvent),
    bytesBits (packBytes l) = l ++ List.replicate ((8 - l.length % 8) % 8) false
    ∧ (packBytes l).length = (l.length + (8 - l.length % 8) % 8) / 8
    ∧ artifacts (es ++ [.close] ++ l.map .bit ++ [.close]) = artifacts (es ++ [.close]) ++ [packBytes l]
    ∧ artifacts (l.map .bit ++ [.close]) = [packBytes l] ∧ artifacts (l.map .bit) = []

/-- R471, R481: from every state of the invariant, a command completes, or it waits for a port whose other side does
not answer; and a step with a full turn, or with nothing on the agenda, from every state of the invariant, also one
inside a command that waited or was cut off, ends so too: a waiting command goes on as soon as its port answers. A
full turn as one step is the model's choice (log 3). -/
def Obligations.CommandsCompleteOrWaitForAPort : Prop :=
  (∀ (i : Instr) (s : State), Inv s → (s.task = .idle ∨ s.task = .issued) → ∃ t, exec i s = .next t ∧ RestsOrWaits t)
  ∧ ∀ s : State, Inv s → (∀ e rest, s.agenda = e :: rest → e.pace = .full) → ∃ t, step s = .next t ∧ RestsOrWaits t

/-- R327: an artifact of a nonempty message field, cut at a byte boundary before its last byte: TDEC, LDEC, MDEC fail
in the field the cut falls in. -/
def Obligations.CutArtifactFailsInItsField : Prop :=
  ∀ (t : Trie) (v : Word) (msg : List (Symbol × List Bool)) (j : Nat) (u : State), t.size ≤ 511 →
    v.getLsbD 31 = false → msg.length = v.toNat → (∀ q ∈ msg, q ∈ t.paths) → msg.flatMap Prod.snd ≠ [] →
    let bytes := packBytes (t.ser ++ bitsMsb v ++ msg.flatMap Prod.snd)
    j < bytes.length → u.srcBits = bytesBits (bytes.take j) → u.srcEnded = true → u.symOutReady = .always →
    (8 * j < t.ser.length →
      ∃ u1, exec .tdec u = .next u1 ∧ u1.result = .formatError ∧ u1.subcause = .truncTrie)
    ∧ (t.ser.length ≤ 8 * j → 8 * j < t.ser.length + 32 →
      ∃ u1 u2, exec .tdec u = .next u1 ∧ u1.result = .ok ∧ exec .ldec u1 = .next u2 ∧ u2.result = .formatError
        ∧ u2.subcause = .truncLen)
    ∧ (t.ser.length + 32 ≤ 8 * j →
      ∃ u1 u2 u3, exec .tdec u = .next u1 ∧ u1.result = .ok ∧ exec .ldec u1 = .next u2 ∧ u2.result = .ok
        ∧ exec .mdec u2 = .next u3 ∧ u3.result = .formatError ∧ u3.subcause = .truncMsg)

/-- The invariant holds right after reset. -/
def Obligations.InvariantHoldsAtReset : Prop := Inv State.reset

/-- R47, R48, R49, R37, R38, R45, R401: every step of the machine keeps the invariant, whatever event it serves and
however far the core goes. The agenda, the pace and the canonical tables are the model's choice (log 1, log 3, log 7).
-/
def Obligations.EveryStepKeepsTheInvariant : Prop :=
  ∀ s t : State, Inv s → step s = .next t → Inv t

/-- R325, R326: compressing a message by the host sequence of R462 and decompressing the artifact it makes gives the
message back. Every WAIT reads RESULT OK, but BUILD's of the empty message. A message of one repeated symbol, or of
none, makes an artifact of 6 bytes. The host's sequence as an agenda is the model's choice (log 1), and so is WAIT as
one event (log 12). That the new source stream drops what was left of an old one, bits and END, is the model's choice
(DESIGN CHOICE, unsafe, log 18). -/
def Obligations.CompressThenDecompressGivesTheMessage : Prop :=
  ∀ (s : State) (m rest : List Symbol) (later : List Turn), s.busy = false → m.length < 2 ^ 31 →
    (∀ x ∈ m, allowed x s = true) → s.sinkReady = .always → s.symIn = m ++ rest →
    (s.sink = [] ∨ ∃ es, s.sink = es ++ [.close]) → s.agenda = compressScript m ++ later →
    ∃ t ws bytes, Host.Core.run core (compressScript m).length s = .next t ∧ t.agenda = later ∧ t.busy = false
      ∧ t.symIn = rest ∧ t.reads = s.reads ++ ws ∧ ws.length = m.length + 7
      ∧ (∀ k (h : k < ws.length), if k = m.length + 1 ∧ m = [] then resultField ws[k] = 1 ∧ subcauseField ws[k] = 1
          else resultField ws[k] = 0)
      ∧ artifacts t.sink = artifacts s.sink ++ [bytes] ∧ (∀ x, (∀ y ∈ m, y = x) → bytes.length = 6)
      ∧ ∀ (u : State) (later' : List Turn), u.busy = false → u.symOutReady = .always →
          u.agenda = ⟨.srcStream bytes, .full⟩ :: decompressScript ++ later' →
          ∃ v vs, Host.Core.run core (1 + decompressScript.length) u = .next v ∧ v.agenda = later' ∧ v.busy = false
            ∧ v.symOut = u.symOut ++ m ∧ v.reads = u.reads ++ vs ∧ vs.length = 3 ∧ ∀ w ∈ vs, resultField w = 0
end

