-- ==== Sys2Proof/Laws/State.lean ====
section
/-! SUPPORT. One lemma for each field of State under each named update: what the update leaves and what it writes. -/

namespace Sys2Proof.Machine

/-! ### finish -/

@[simp] theorem finish_cmd (c : ResultCode) (u : Subcause) (s : State) : (finish c u s).cmd = s.cmd := rfl
@[simp] theorem finish_task (c : ResultCode) (u : Subcause) (s : State) : (finish c u s).task = (.idle) := rfl
@[simp] theorem finish_trieState (c : ResultCode) (u : Subcause) (s : State) : (finish c u s).trieState = s.trieState := rfl
@[simp] theorem finish_lutValid (c : ResultCode) (u : Subcause) (s : State) : (finish c u s).lutValid = s.lutValid := rfl
@[simp] theorem finish_err (c : ResultCode) (u : Subcause) (s : State) : (finish c u s).err = (if c = .ok then s.err else true) := rfl
@[simp] theorem finish_drop (c : ResultCode) (u : Subcause) (s : State) : (finish c u s).drop = s.drop := rfl
@[simp] theorem finish_result (c : ResultCode) (u : Subcause) (s : State) : (finish c u s).result = (c) := rfl
@[simp] theorem finish_subcause (c : ResultCode) (u : Subcause) (s : State) : (finish c u s).subcause = (u) := rfl
@[simp] theorem finish_msglen (c : ResultCode) (u : Subcause) (s : State) : (finish c u s).msglen = s.msglen := rfl
@[simp] theorem finish_symout (c : ResultCode) (u : Subcause) (s : State) : (finish c u s).symout = s.symout := rfl
@[simp] theorem finish_symcnt (c : ResultCode) (u : Subcause) (s : State) : (finish c u s).symcnt = s.symcnt := rfl
@[simp] theorem finish_root (c : ResultCode) (u : Subcause) (s : State) : (finish c u s).root = s.root := rfl
@[simp] theorem finish_nodecnt (c : ResultCode) (u : Subcause) (s : State) : (finish c u s).nodecnt = s.nodecnt := rfl
@[simp] theorem finish_leafcnt (c : ResultCode) (u : Subcause) (s : State) : (finish c u s).leafcnt = s.leafcnt := rfl
@[simp] theorem finish_bitcntOut (c : ResultCode) (u : Subcause) (s : State) : (finish c u s).bitcntOut = s.bitcntOut := rfl
@[simp] theorem finish_bitcntIn (c : ResultCode) (u : Subcause) (s : State) : (finish c u s).bitcntIn = s.bitcntIn := rfl
@[simp] theorem finish_nodeSel (c : ResultCode) (u : Subcause) (s : State) : (finish c u s).nodeSel = s.nodeSel := rfl
@[simp] theorem finish_lutSel (c : ResultCode) (u : Subcause) (s : State) : (finish c u s).lutSel = s.lutSel := rfl
@[simp] theorem finish_allow (c : ResultCode) (u : Subcause) (s : State) : (finish c u s).allow = s.allow := rfl
@[simp] theorem finish_freq (c : ResultCode) (u : Subcause) (s : State) : (finish c u s).freq = s.freq := rfl
@[simp] theorem finish_nodes (c : ResultCode) (u : Subcause) (s : State) : (finish c u s).nodes = s.nodes := rfl
@[simp] theorem finish_lut (c : ResultCode) (u : Subcause) (s : State) : (finish c u s).lut = s.lut := rfl
@[simp] theorem finish_sink (c : ResultCode) (u : Subcause) (s : State) : (finish c u s).sink = s.sink := rfl
@[simp] theorem finish_sinkReady (c : ResultCode) (u : Subcause) (s : State) : (finish c u s).sinkReady = s.sinkReady := rfl
@[simp] theorem finish_srcBits (c : ResultCode) (u : Subcause) (s : State) : (finish c u s).srcBits = s.srcBits := rfl
@[simp] theorem finish_srcEnded (c : ResultCode) (u : Subcause) (s : State) : (finish c u s).srcEnded = s.srcEnded := rfl
@[simp] theorem finish_srcTaken (c : ResultCode) (u : Subcause) (s : State) : (finish c u s).srcTaken = s.srcTaken := rfl
@[simp] theorem finish_symIn (c : ResultCode) (u : Subcause) (s : State) : (finish c u s).symIn = s.symIn := rfl
@[simp] theorem finish_symOut (c : ResultCode) (u : Subcause) (s : State) : (finish c u s).symOut = s.symOut := rfl
@[simp] theorem finish_symOutReady (c : ResultCode) (u : Subcause) (s : State) : (finish c u s).symOutReady = s.symOutReady := rfl
@[simp] theorem finish_agenda (c : ResultCode) (u : Subcause) (s : State) : (finish c u s).agenda = s.agenda := rfl
@[simp] theorem finish_reads (c : ResultCode) (u : Subcause) (s : State) : (finish c u s).reads = s.reads := rfl
@[simp] theorem finish_draws (c : ResultCode) (u : Subcause) (s : State) : (finish c u s).draws = s.draws := rfl

/-! ### setTrie -/

@[simp] theorem setTrie_cmd (ts : TrieState) (r : NodeIndex) (n : BitVec 10) (l : BitVec 9) (s : State) : (setTrie ts r n l s).cmd = s.cmd := rfl
@[simp] theorem setTrie_task (ts : TrieState) (r : NodeIndex) (n : BitVec 10) (l : BitVec 9) (s : State) : (setTrie ts r n l s).task = s.task := rfl
@[simp] theorem setTrie_trieState (ts : TrieState) (r : NodeIndex) (n : BitVec 10) (l : BitVec 9) (s : State) : (setTrie ts r n l s).trieState = (ts) := rfl
@[simp] theorem setTrie_lutValid (ts : TrieState) (r : NodeIndex) (n : BitVec 10) (l : BitVec 9) (s : State) : (setTrie ts r n l s).lutValid = s.lutValid := rfl
@[simp] theorem setTrie_err (ts : TrieState) (r : NodeIndex) (n : BitVec 10) (l : BitVec 9) (s : State) : (setTrie ts r n l s).err = s.err := rfl
@[simp] theorem setTrie_drop (ts : TrieState) (r : NodeIndex) (n : BitVec 10) (l : BitVec 9) (s : State) : (setTrie ts r n l s).drop = s.drop := rfl
@[simp] theorem setTrie_result (ts : TrieState) (r : NodeIndex) (n : BitVec 10) (l : BitVec 9) (s : State) : (setTrie ts r n l s).result = s.result := rfl
@[simp] theorem setTrie_subcause (ts : TrieState) (r : NodeIndex) (n : BitVec 10) (l : BitVec 9) (s : State) : (setTrie ts r n l s).subcause = s.subcause := rfl
@[simp] theorem setTrie_msglen (ts : TrieState) (r : NodeIndex) (n : BitVec 10) (l : BitVec 9) (s : State) : (setTrie ts r n l s).msglen = s.msglen := rfl
@[simp] theorem setTrie_symout (ts : TrieState) (r : NodeIndex) (n : BitVec 10) (l : BitVec 9) (s : State) : (setTrie ts r n l s).symout = s.symout := rfl
@[simp] theorem setTrie_symcnt (ts : TrieState) (r : NodeIndex) (n : BitVec 10) (l : BitVec 9) (s : State) : (setTrie ts r n l s).symcnt = s.symcnt := rfl
@[simp] theorem setTrie_root (ts : TrieState) (r : NodeIndex) (n : BitVec 10) (l : BitVec 9) (s : State) : (setTrie ts r n l s).root = (r) := rfl
@[simp] theorem setTrie_nodecnt (ts : TrieState) (r : NodeIndex) (n : BitVec 10) (l : BitVec 9) (s : State) : (setTrie ts r n l s).nodecnt = (n) := rfl
@[simp] theorem setTrie_leafcnt (ts : TrieState) (r : NodeIndex) (n : BitVec 10) (l : BitVec 9) (s : State) : (setTrie ts r n l s).leafcnt = (l) := rfl
@[simp] theorem setTrie_bitcntOut (ts : TrieState) (r : NodeIndex) (n : BitVec 10) (l : BitVec 9) (s : State) : (setTrie ts r n l s).bitcntOut = s.bitcntOut := rfl
@[simp] theorem setTrie_bitcntIn (ts : TrieState) (r : NodeIndex) (n : BitVec 10) (l : BitVec 9) (s : State) : (setTrie ts r n l s).bitcntIn = s.bitcntIn := rfl
@[simp] theorem setTrie_nodeSel (ts : TrieState) (r : NodeIndex) (n : BitVec 10) (l : BitVec 9) (s : State) : (setTrie ts r n l s).nodeSel = s.nodeSel := rfl
@[simp] theorem setTrie_lutSel (ts : TrieState) (r : NodeIndex) (n : BitVec 10) (l : BitVec 9) (s : State) : (setTrie ts r n l s).lutSel = s.lutSel := rfl
@[simp] theorem setTrie_allow (ts : TrieState) (r : NodeIndex) (n : BitVec 10) (l : BitVec 9) (s : State) : (setTrie ts r n l s).allow = s.allow := rfl
@[simp] theorem setTrie_freq (ts : TrieState) (r : NodeIndex) (n : BitVec 10) (l : BitVec 9) (s : State) : (setTrie ts r n l s).freq = s.freq := rfl
@[simp] theorem setTrie_nodes (ts : TrieState) (r : NodeIndex) (n : BitVec 10) (l : BitVec 9) (s : State) : (setTrie ts r n l s).nodes = s.nodes := rfl
@[simp] theorem setTrie_lut (ts : TrieState) (r : NodeIndex) (n : BitVec 10) (l : BitVec 9) (s : State) : (setTrie ts r n l s).lut = s.lut := rfl
@[simp] theorem setTrie_sink (ts : TrieState) (r : NodeIndex) (n : BitVec 10) (l : BitVec 9) (s : State) : (setTrie ts r n l s).sink = s.sink := rfl
@[simp] theorem setTrie_sinkReady (ts : TrieState) (r : NodeIndex) (n : BitVec 10) (l : BitVec 9) (s : State) : (setTrie ts r n l s).sinkReady = s.sinkReady := rfl
@[simp] theorem setTrie_srcBits (ts : TrieState) (r : NodeIndex) (n : BitVec 10) (l : BitVec 9) (s : State) : (setTrie ts r n l s).srcBits = s.srcBits := rfl
@[simp] theorem setTrie_srcEnded (ts : TrieState) (r : NodeIndex) (n : BitVec 10) (l : BitVec 9) (s : State) : (setTrie ts r n l s).srcEnded = s.srcEnded := rfl
@[simp] theorem setTrie_srcTaken (ts : TrieState) (r : NodeIndex) (n : BitVec 10) (l : BitVec 9) (s : State) : (setTrie ts r n l s).srcTaken = s.srcTaken := rfl
@[simp] theorem setTrie_symIn (ts : TrieState) (r : NodeIndex) (n : BitVec 10) (l : BitVec 9) (s : State) : (setTrie ts r n l s).symIn = s.symIn := rfl
@[simp] theorem setTrie_symOut (ts : TrieState) (r : NodeIndex) (n : BitVec 10) (l : BitVec 9) (s : State) : (setTrie ts r n l s).symOut = s.symOut := rfl
@[simp] theorem setTrie_symOutReady (ts : TrieState) (r : NodeIndex) (n : BitVec 10) (l : BitVec 9) (s : State) : (setTrie ts r n l s).symOutReady = s.symOutReady := rfl
@[simp] theorem setTrie_agenda (ts : TrieState) (r : NodeIndex) (n : BitVec 10) (l : BitVec 9) (s : State) : (setTrie ts r n l s).agenda = s.agenda := rfl
@[simp] theorem setTrie_reads (ts : TrieState) (r : NodeIndex) (n : BitVec 10) (l : BitVec 9) (s : State) : (setTrie ts r n l s).reads = s.reads := rfl
@[simp] theorem setTrie_draws (ts : TrieState) (r : NodeIndex) (n : BitVec 10) (l : BitVec 9) (s : State) : (setTrie ts r n l s).draws = s.draws := rfl

/-! ### clearTrie -/

@[simp] theorem clearTrie_cmd (s : State) : (clearTrie s).cmd = s.cmd := rfl
@[simp] theorem clearTrie_task (s : State) : (clearTrie s).task = s.task := rfl
@[simp] theorem clearTrie_trieState (s : State) : (clearTrie s).trieState = (.none) := rfl
@[simp] theorem clearTrie_lutValid (s : State) : (clearTrie s).lutValid = s.lutValid := rfl
@[simp] theorem clearTrie_err (s : State) : (clearTrie s).err = s.err := rfl
@[simp] theorem clearTrie_drop (s : State) : (clearTrie s).drop = s.drop := rfl
@[simp] theorem clearTrie_result (s : State) : (clearTrie s).result = s.result := rfl
@[simp] theorem clearTrie_subcause (s : State) : (clearTrie s).subcause = s.subcause := rfl
@[simp] theorem clearTrie_msglen (s : State) : (clearTrie s).msglen = s.msglen := rfl
@[simp] theorem clearTrie_symout (s : State) : (clearTrie s).symout = s.symout := rfl
@[simp] theorem clearTrie_symcnt (s : State) : (clearTrie s).symcnt = s.symcnt := rfl
@[simp] theorem clearTrie_root (s : State) : (clearTrie s).root = (0) := rfl
@[simp] theorem clearTrie_nodecnt (s : State) : (clearTrie s).nodecnt = (0) := rfl
@[simp] theorem clearTrie_leafcnt (s : State) : (clearTrie s).leafcnt = (0) := rfl
@[simp] theorem clearTrie_bitcntOut (s : State) : (clearTrie s).bitcntOut = s.bitcntOut := rfl
@[simp] theorem clearTrie_bitcntIn (s : State) : (clearTrie s).bitcntIn = s.bitcntIn := rfl
@[simp] theorem clearTrie_nodeSel (s : State) : (clearTrie s).nodeSel = s.nodeSel := rfl
@[simp] theorem clearTrie_lutSel (s : State) : (clearTrie s).lutSel = s.lutSel := rfl
@[simp] theorem clearTrie_allow (s : State) : (clearTrie s).allow = s.allow := rfl
@[simp] theorem clearTrie_freq (s : State) : (clearTrie s).freq = s.freq := rfl
@[simp] theorem clearTrie_nodes (s : State) : (clearTrie s).nodes = s.nodes := rfl
@[simp] theorem clearTrie_lut (s : State) : (clearTrie s).lut = s.lut := rfl
@[simp] theorem clearTrie_sink (s : State) : (clearTrie s).sink = s.sink := rfl
@[simp] theorem clearTrie_sinkReady (s : State) : (clearTrie s).sinkReady = s.sinkReady := rfl
@[simp] theorem clearTrie_srcBits (s : State) : (clearTrie s).srcBits = s.srcBits := rfl
@[simp] theorem clearTrie_srcEnded (s : State) : (clearTrie s).srcEnded = s.srcEnded := rfl
@[simp] theorem clearTrie_srcTaken (s : State) : (clearTrie s).srcTaken = s.srcTaken := rfl
@[simp] theorem clearTrie_symIn (s : State) : (clearTrie s).symIn = s.symIn := rfl
@[simp] theorem clearTrie_symOut (s : State) : (clearTrie s).symOut = s.symOut := rfl
@[simp] theorem clearTrie_symOutReady (s : State) : (clearTrie s).symOutReady = s.symOutReady := rfl
@[simp] theorem clearTrie_agenda (s : State) : (clearTrie s).agenda = s.agenda := rfl
@[simp] theorem clearTrie_reads (s : State) : (clearTrie s).reads = s.reads := rfl
@[simp] theorem clearTrie_draws (s : State) : (clearTrie s).draws = s.draws := rfl

/-! ### clearTables -/

@[simp] theorem clearTables_cmd (s : State) : (clearTables s).cmd = s.cmd := rfl
@[simp] theorem clearTables_task (s : State) : (clearTables s).task = s.task := rfl
@[simp] theorem clearTables_trieState (s : State) : (clearTables s).trieState = s.trieState := rfl
@[simp] theorem clearTables_lutValid (s : State) : (clearTables s).lutValid = (false) := rfl
@[simp] theorem clearTables_err (s : State) : (clearTables s).err = s.err := rfl
@[simp] theorem clearTables_drop (s : State) : (clearTables s).drop = s.drop := rfl
@[simp] theorem clearTables_result (s : State) : (clearTables s).result = s.result := rfl
@[simp] theorem clearTables_subcause (s : State) : (clearTables s).subcause = s.subcause := rfl
@[simp] theorem clearTables_msglen (s : State) : (clearTables s).msglen = s.msglen := rfl
@[simp] theorem clearTables_symout (s : State) : (clearTables s).symout = s.symout := rfl
@[simp] theorem clearTables_symcnt (s : State) : (clearTables s).symcnt = s.symcnt := rfl
@[simp] theorem clearTables_root (s : State) : (clearTables s).root = s.root := rfl
@[simp] theorem clearTables_nodecnt (s : State) : (clearTables s).nodecnt = s.nodecnt := rfl
@[simp] theorem clearTables_leafcnt (s : State) : (clearTables s).leafcnt = s.leafcnt := rfl
@[simp] theorem clearTables_bitcntOut (s : State) : (clearTables s).bitcntOut = s.bitcntOut := rfl
@[simp] theorem clearTables_bitcntIn (s : State) : (clearTables s).bitcntIn = s.bitcntIn := rfl
@[simp] theorem clearTables_nodeSel (s : State) : (clearTables s).nodeSel = s.nodeSel := rfl
@[simp] theorem clearTables_lutSel (s : State) : (clearTables s).lutSel = s.lutSel := rfl
@[simp] theorem clearTables_allow (s : State) : (clearTables s).allow = s.allow := rfl
@[simp] theorem clearTables_freq (s : State) : (clearTables s).freq = s.freq := rfl
@[simp] theorem clearTables_nodes (s : State) : (clearTables s).nodes = ([]) := rfl
@[simp] theorem clearTables_lut (s : State) : (clearTables s).lut = ([]) := rfl
@[simp] theorem clearTables_sink (s : State) : (clearTables s).sink = s.sink := rfl
@[simp] theorem clearTables_sinkReady (s : State) : (clearTables s).sinkReady = s.sinkReady := rfl
@[simp] theorem clearTables_srcBits (s : State) : (clearTables s).srcBits = s.srcBits := rfl
@[simp] theorem clearTables_srcEnded (s : State) : (clearTables s).srcEnded = s.srcEnded := rfl
@[simp] theorem clearTables_srcTaken (s : State) : (clearTables s).srcTaken = s.srcTaken := rfl
@[simp] theorem clearTables_symIn (s : State) : (clearTables s).symIn = s.symIn := rfl
@[simp] theorem clearTables_symOut (s : State) : (clearTables s).symOut = s.symOut := rfl
@[simp] theorem clearTables_symOutReady (s : State) : (clearTables s).symOutReady = s.symOutReady := rfl
@[simp] theorem clearTables_agenda (s : State) : (clearTables s).agenda = s.agenda := rfl
@[simp] theorem clearTables_reads (s : State) : (clearTables s).reads = s.reads := rfl
@[simp] theorem clearTables_draws (s : State) : (clearTables s).draws = s.draws := rfl

/-! ### writeNode -/

@[simp] theorem writeNode_cmd (n : Nat) (v : Node) (s : State) : (writeNode n v s).cmd = s.cmd := rfl
@[simp] theorem writeNode_task (n : Nat) (v : Node) (s : State) : (writeNode n v s).task = s.task := rfl
@[simp] theorem writeNode_trieState (n : Nat) (v : Node) (s : State) : (writeNode n v s).trieState = s.trieState := rfl
@[simp] theorem writeNode_lutValid (n : Nat) (v : Node) (s : State) : (writeNode n v s).lutValid = s.lutValid := rfl
@[simp] theorem writeNode_err (n : Nat) (v : Node) (s : State) : (writeNode n v s).err = s.err := rfl
@[simp] theorem writeNode_drop (n : Nat) (v : Node) (s : State) : (writeNode n v s).drop = s.drop := rfl
@[simp] theorem writeNode_result (n : Nat) (v : Node) (s : State) : (writeNode n v s).result = s.result := rfl
@[simp] theorem writeNode_subcause (n : Nat) (v : Node) (s : State) : (writeNode n v s).subcause = s.subcause := rfl
@[simp] theorem writeNode_msglen (n : Nat) (v : Node) (s : State) : (writeNode n v s).msglen = s.msglen := rfl
@[simp] theorem writeNode_symout (n : Nat) (v : Node) (s : State) : (writeNode n v s).symout = s.symout := rfl
@[simp] theorem writeNode_symcnt (n : Nat) (v : Node) (s : State) : (writeNode n v s).symcnt = s.symcnt := rfl
@[simp] theorem writeNode_root (n : Nat) (v : Node) (s : State) : (writeNode n v s).root = s.root := rfl
@[simp] theorem writeNode_nodecnt (n : Nat) (v : Node) (s : State) : (writeNode n v s).nodecnt = s.nodecnt := rfl
@[simp] theorem writeNode_leafcnt (n : Nat) (v : Node) (s : State) : (writeNode n v s).leafcnt = s.leafcnt := rfl
@[simp] theorem writeNode_bitcntOut (n : Nat) (v : Node) (s : State) : (writeNode n v s).bitcntOut = s.bitcntOut := rfl
@[simp] theorem writeNode_bitcntIn (n : Nat) (v : Node) (s : State) : (writeNode n v s).bitcntIn = s.bitcntIn := rfl
@[simp] theorem writeNode_nodeSel (n : Nat) (v : Node) (s : State) : (writeNode n v s).nodeSel = s.nodeSel := rfl
@[simp] theorem writeNode_lutSel (n : Nat) (v : Node) (s : State) : (writeNode n v s).lutSel = s.lutSel := rfl
@[simp] theorem writeNode_allow (n : Nat) (v : Node) (s : State) : (writeNode n v s).allow = s.allow := rfl
@[simp] theorem writeNode_freq (n : Nat) (v : Node) (s : State) : (writeNode n v s).freq = s.freq := rfl
@[simp] theorem writeNode_nodes (n : Nat) (v : Node) (s : State) : (writeNode n v s).nodes = (Table.write Node.zero s.nodes n v) := rfl
@[simp] theorem writeNode_lut (n : Nat) (v : Node) (s : State) : (writeNode n v s).lut = s.lut := rfl
@[simp] theorem writeNode_sink (n : Nat) (v : Node) (s : State) : (writeNode n v s).sink = s.sink := rfl
@[simp] theorem writeNode_sinkReady (n : Nat) (v : Node) (s : State) : (writeNode n v s).sinkReady = s.sinkReady := rfl
@[simp] theorem writeNode_srcBits (n : Nat) (v : Node) (s : State) : (writeNode n v s).srcBits = s.srcBits := rfl
@[simp] theorem writeNode_srcEnded (n : Nat) (v : Node) (s : State) : (writeNode n v s).srcEnded = s.srcEnded := rfl
@[simp] theorem writeNode_srcTaken (n : Nat) (v : Node) (s : State) : (writeNode n v s).srcTaken = s.srcTaken := rfl
@[simp] theorem writeNode_symIn (n : Nat) (v : Node) (s : State) : (writeNode n v s).symIn = s.symIn := rfl
@[simp] theorem writeNode_symOut (n : Nat) (v : Node) (s : State) : (writeNode n v s).symOut = s.symOut := rfl
@[simp] theorem writeNode_symOutReady (n : Nat) (v : Node) (s : State) : (writeNode n v s).symOutReady = s.symOutReady := rfl
@[simp] theorem writeNode_agenda (n : Nat) (v : Node) (s : State) : (writeNode n v s).agenda = s.agenda := rfl
@[simp] theorem writeNode_reads (n : Nat) (v : Node) (s : State) : (writeNode n v s).reads = s.reads := rfl
@[simp] theorem writeNode_draws (n : Nat) (v : Node) (s : State) : (writeNode n v s).draws = s.draws := rfl

/-! ### writeLut -/

@[simp] theorem writeLut_cmd (x : Symbol) (e : LutEntry) (s : State) : (writeLut x e s).cmd = s.cmd := rfl
@[simp] theorem writeLut_task (x : Symbol) (e : LutEntry) (s : State) : (writeLut x e s).task = s.task := rfl
@[simp] theorem writeLut_trieState (x : Symbol) (e : LutEntry) (s : State) : (writeLut x e s).trieState = s.trieState := rfl
@[simp] theorem writeLut_lutValid (x : Symbol) (e : LutEntry) (s : State) : (writeLut x e s).lutValid = s.lutValid := rfl
@[simp] theorem writeLut_err (x : Symbol) (e : LutEntry) (s : State) : (writeLut x e s).err = s.err := rfl
@[simp] theorem writeLut_drop (x : Symbol) (e : LutEntry) (s : State) : (writeLut x e s).drop = s.drop := rfl
@[simp] theorem writeLut_result (x : Symbol) (e : LutEntry) (s : State) : (writeLut x e s).result = s.result := rfl
@[simp] theorem writeLut_subcause (x : Symbol) (e : LutEntry) (s : State) : (writeLut x e s).subcause = s.subcause := rfl
@[simp] theorem writeLut_msglen (x : Symbol) (e : LutEntry) (s : State) : (writeLut x e s).msglen = s.msglen := rfl
@[simp] theorem writeLut_symout (x : Symbol) (e : LutEntry) (s : State) : (writeLut x e s).symout = s.symout := rfl
@[simp] theorem writeLut_symcnt (x : Symbol) (e : LutEntry) (s : State) : (writeLut x e s).symcnt = s.symcnt := rfl
@[simp] theorem writeLut_root (x : Symbol) (e : LutEntry) (s : State) : (writeLut x e s).root = s.root := rfl
@[simp] theorem writeLut_nodecnt (x : Symbol) (e : LutEntry) (s : State) : (writeLut x e s).nodecnt = s.nodecnt := rfl
@[simp] theorem writeLut_leafcnt (x : Symbol) (e : LutEntry) (s : State) : (writeLut x e s).leafcnt = s.leafcnt := rfl
@[simp] theorem writeLut_bitcntOut (x : Symbol) (e : LutEntry) (s : State) : (writeLut x e s).bitcntOut = s.bitcntOut := rfl
@[simp] theorem writeLut_bitcntIn (x : Symbol) (e : LutEntry) (s : State) : (writeLut x e s).bitcntIn = s.bitcntIn := rfl
@[simp] theorem writeLut_nodeSel (x : Symbol) (e : LutEntry) (s : State) : (writeLut x e s).nodeSel = s.nodeSel := rfl
@[simp] theorem writeLut_lutSel (x : Symbol) (e : LutEntry) (s : State) : (writeLut x e s).lutSel = s.lutSel := rfl
@[simp] theorem writeLut_allow (x : Symbol) (e : LutEntry) (s : State) : (writeLut x e s).allow = s.allow := rfl
@[simp] theorem writeLut_freq (x : Symbol) (e : LutEntry) (s : State) : (writeLut x e s).freq = s.freq := rfl
@[simp] theorem writeLut_nodes (x : Symbol) (e : LutEntry) (s : State) : (writeLut x e s).nodes = s.nodes := rfl
@[simp] theorem writeLut_lut (x : Symbol) (e : LutEntry) (s : State) : (writeLut x e s).lut = (Table.write LutEntry.zero s.lut x.toNat e) := rfl
@[simp] theorem writeLut_sink (x : Symbol) (e : LutEntry) (s : State) : (writeLut x e s).sink = s.sink := rfl
@[simp] theorem writeLut_sinkReady (x : Symbol) (e : LutEntry) (s : State) : (writeLut x e s).sinkReady = s.sinkReady := rfl
@[simp] theorem writeLut_srcBits (x : Symbol) (e : LutEntry) (s : State) : (writeLut x e s).srcBits = s.srcBits := rfl
@[simp] theorem writeLut_srcEnded (x : Symbol) (e : LutEntry) (s : State) : (writeLut x e s).srcEnded = s.srcEnded := rfl
@[simp] theorem writeLut_srcTaken (x : Symbol) (e : LutEntry) (s : State) : (writeLut x e s).srcTaken = s.srcTaken := rfl
@[simp] theorem writeLut_symIn (x : Symbol) (e : LutEntry) (s : State) : (writeLut x e s).symIn = s.symIn := rfl
@[simp] theorem writeLut_symOut (x : Symbol) (e : LutEntry) (s : State) : (writeLut x e s).symOut = s.symOut := rfl
@[simp] theorem writeLut_symOutReady (x : Symbol) (e : LutEntry) (s : State) : (writeLut x e s).symOutReady = s.symOutReady := rfl
@[simp] theorem writeLut_agenda (x : Symbol) (e : LutEntry) (s : State) : (writeLut x e s).agenda = s.agenda := rfl
@[simp] theorem writeLut_reads (x : Symbol) (e : LutEntry) (s : State) : (writeLut x e s).reads = s.reads := rfl
@[simp] theorem writeLut_draws (x : Symbol) (e : LutEntry) (s : State) : (writeLut x e s).draws = s.draws := rfl

/-! ### writeFreq -/

@[simp] theorem writeFreq_cmd (x : Symbol) (v : Word) (s : State) : (writeFreq x v s).cmd = s.cmd := rfl
@[simp] theorem writeFreq_task (x : Symbol) (v : Word) (s : State) : (writeFreq x v s).task = s.task := rfl
@[simp] theorem writeFreq_trieState (x : Symbol) (v : Word) (s : State) : (writeFreq x v s).trieState = s.trieState := rfl
@[simp] theorem writeFreq_lutValid (x : Symbol) (v : Word) (s : State) : (writeFreq x v s).lutValid = s.lutValid := rfl
@[simp] theorem writeFreq_err (x : Symbol) (v : Word) (s : State) : (writeFreq x v s).err = s.err := rfl
@[simp] theorem writeFreq_drop (x : Symbol) (v : Word) (s : State) : (writeFreq x v s).drop = s.drop := rfl
@[simp] theorem writeFreq_result (x : Symbol) (v : Word) (s : State) : (writeFreq x v s).result = s.result := rfl
@[simp] theorem writeFreq_subcause (x : Symbol) (v : Word) (s : State) : (writeFreq x v s).subcause = s.subcause := rfl
@[simp] theorem writeFreq_msglen (x : Symbol) (v : Word) (s : State) : (writeFreq x v s).msglen = s.msglen := rfl
@[simp] theorem writeFreq_symout (x : Symbol) (v : Word) (s : State) : (writeFreq x v s).symout = s.symout := rfl
@[simp] theorem writeFreq_symcnt (x : Symbol) (v : Word) (s : State) : (writeFreq x v s).symcnt = s.symcnt := rfl
@[simp] theorem writeFreq_root (x : Symbol) (v : Word) (s : State) : (writeFreq x v s).root = s.root := rfl
@[simp] theorem writeFreq_nodecnt (x : Symbol) (v : Word) (s : State) : (writeFreq x v s).nodecnt = s.nodecnt := rfl
@[simp] theorem writeFreq_leafcnt (x : Symbol) (v : Word) (s : State) : (writeFreq x v s).leafcnt = s.leafcnt := rfl
@[simp] theorem writeFreq_bitcntOut (x : Symbol) (v : Word) (s : State) : (writeFreq x v s).bitcntOut = s.bitcntOut := rfl
@[simp] theorem writeFreq_bitcntIn (x : Symbol) (v : Word) (s : State) : (writeFreq x v s).bitcntIn = s.bitcntIn := rfl
@[simp] theorem writeFreq_nodeSel (x : Symbol) (v : Word) (s : State) : (writeFreq x v s).nodeSel = s.nodeSel := rfl
@[simp] theorem writeFreq_lutSel (x : Symbol) (v : Word) (s : State) : (writeFreq x v s).lutSel = s.lutSel := rfl
@[simp] theorem writeFreq_allow (x : Symbol) (v : Word) (s : State) : (writeFreq x v s).allow = s.allow := rfl
@[simp] theorem writeFreq_freq (x : Symbol) (v : Word) (s : State) : (writeFreq x v s).freq = (Table.write 0 s.freq x.toNat v) := rfl
@[simp] theorem writeFreq_nodes (x : Symbol) (v : Word) (s : State) : (writeFreq x v s).nodes = s.nodes := rfl
@[simp] theorem writeFreq_lut (x : Symbol) (v : Word) (s : State) : (writeFreq x v s).lut = s.lut := rfl
@[simp] theorem writeFreq_sink (x : Symbol) (v : Word) (s : State) : (writeFreq x v s).sink = s.sink := rfl
@[simp] theorem writeFreq_sinkReady (x : Symbol) (v : Word) (s : State) : (writeFreq x v s).sinkReady = s.sinkReady := rfl
@[simp] theorem writeFreq_srcBits (x : Symbol) (v : Word) (s : State) : (writeFreq x v s).srcBits = s.srcBits := rfl
@[simp] theorem writeFreq_srcEnded (x : Symbol) (v : Word) (s : State) : (writeFreq x v s).srcEnded = s.srcEnded := rfl
@[simp] theorem writeFreq_srcTaken (x : Symbol) (v : Word) (s : State) : (writeFreq x v s).srcTaken = s.srcTaken := rfl
@[simp] theorem writeFreq_symIn (x : Symbol) (v : Word) (s : State) : (writeFreq x v s).symIn = s.symIn := rfl
@[simp] theorem writeFreq_symOut (x : Symbol) (v : Word) (s : State) : (writeFreq x v s).symOut = s.symOut := rfl
@[simp] theorem writeFreq_symOutReady (x : Symbol) (v : Word) (s : State) : (writeFreq x v s).symOutReady = s.symOutReady := rfl
@[simp] theorem writeFreq_agenda (x : Symbol) (v : Word) (s : State) : (writeFreq x v s).agenda = s.agenda := rfl
@[simp] theorem writeFreq_reads (x : Symbol) (v : Word) (s : State) : (writeFreq x v s).reads = s.reads := rfl
@[simp] theorem writeFreq_draws (x : Symbol) (v : Word) (s : State) : (writeFreq x v s).draws = s.draws := rfl

/-! ### answerRead -/

@[simp] theorem answerRead_cmd (v : Word) (s : State) : (answerRead v s).cmd = s.cmd := rfl
@[simp] theorem answerRead_task (v : Word) (s : State) : (answerRead v s).task = s.task := rfl
@[simp] theorem answerRead_trieState (v : Word) (s : State) : (answerRead v s).trieState = s.trieState := rfl
@[simp] theorem answerRead_lutValid (v : Word) (s : State) : (answerRead v s).lutValid = s.lutValid := rfl
@[simp] theorem answerRead_err (v : Word) (s : State) : (answerRead v s).err = s.err := rfl
@[simp] theorem answerRead_drop (v : Word) (s : State) : (answerRead v s).drop = s.drop := rfl
@[simp] theorem answerRead_result (v : Word) (s : State) : (answerRead v s).result = s.result := rfl
@[simp] theorem answerRead_subcause (v : Word) (s : State) : (answerRead v s).subcause = s.subcause := rfl
@[simp] theorem answerRead_msglen (v : Word) (s : State) : (answerRead v s).msglen = s.msglen := rfl
@[simp] theorem answerRead_symout (v : Word) (s : State) : (answerRead v s).symout = s.symout := rfl
@[simp] theorem answerRead_symcnt (v : Word) (s : State) : (answerRead v s).symcnt = s.symcnt := rfl
@[simp] theorem answerRead_root (v : Word) (s : State) : (answerRead v s).root = s.root := rfl
@[simp] theorem answerRead_nodecnt (v : Word) (s : State) : (answerRead v s).nodecnt = s.nodecnt := rfl
@[simp] theorem answerRead_leafcnt (v : Word) (s : State) : (answerRead v s).leafcnt = s.leafcnt := rfl
@[simp] theorem answerRead_bitcntOut (v : Word) (s : State) : (answerRead v s).bitcntOut = s.bitcntOut := rfl
@[simp] theorem answerRead_bitcntIn (v : Word) (s : State) : (answerRead v s).bitcntIn = s.bitcntIn := rfl
@[simp] theorem answerRead_nodeSel (v : Word) (s : State) : (answerRead v s).nodeSel = s.nodeSel := rfl
@[simp] theorem answerRead_lutSel (v : Word) (s : State) : (answerRead v s).lutSel = s.lutSel := rfl
@[simp] theorem answerRead_allow (v : Word) (s : State) : (answerRead v s).allow = s.allow := rfl
@[simp] theorem answerRead_freq (v : Word) (s : State) : (answerRead v s).freq = s.freq := rfl
@[simp] theorem answerRead_nodes (v : Word) (s : State) : (answerRead v s).nodes = s.nodes := rfl
@[simp] theorem answerRead_lut (v : Word) (s : State) : (answerRead v s).lut = s.lut := rfl
@[simp] theorem answerRead_sink (v : Word) (s : State) : (answerRead v s).sink = s.sink := rfl
@[simp] theorem answerRead_sinkReady (v : Word) (s : State) : (answerRead v s).sinkReady = s.sinkReady := rfl
@[simp] theorem answerRead_srcBits (v : Word) (s : State) : (answerRead v s).srcBits = s.srcBits := rfl
@[simp] theorem answerRead_srcEnded (v : Word) (s : State) : (answerRead v s).srcEnded = s.srcEnded := rfl
@[simp] theorem answerRead_srcTaken (v : Word) (s : State) : (answerRead v s).srcTaken = s.srcTaken := rfl
@[simp] theorem answerRead_symIn (v : Word) (s : State) : (answerRead v s).symIn = s.symIn := rfl
@[simp] theorem answerRead_symOut (v : Word) (s : State) : (answerRead v s).symOut = s.symOut := rfl
@[simp] theorem answerRead_symOutReady (v : Word) (s : State) : (answerRead v s).symOutReady = s.symOutReady := rfl
@[simp] theorem answerRead_agenda (v : Word) (s : State) : (answerRead v s).agenda = s.agenda := rfl
@[simp] theorem answerRead_reads (v : Word) (s : State) : (answerRead v s).reads = (s.reads ++ [v]) := rfl
@[simp] theorem answerRead_draws (v : Word) (s : State) : (answerRead v s).draws = s.draws := rfl

/-! ### writeAllow -/

@[simp] theorem writeAllow_cmd (k : Fin 8) (v : Word) (s : State) : (writeAllow k v s).cmd = s.cmd := rfl
@[simp] theorem writeAllow_task (k : Fin 8) (v : Word) (s : State) : (writeAllow k v s).task = s.task := rfl
@[simp] theorem writeAllow_trieState (k : Fin 8) (v : Word) (s : State) : (writeAllow k v s).trieState = s.trieState := rfl
@[simp] theorem writeAllow_lutValid (k : Fin 8) (v : Word) (s : State) : (writeAllow k v s).lutValid = s.lutValid := rfl
@[simp] theorem writeAllow_err (k : Fin 8) (v : Word) (s : State) : (writeAllow k v s).err = s.err := rfl
@[simp] theorem writeAllow_drop (k : Fin 8) (v : Word) (s : State) : (writeAllow k v s).drop = s.drop := rfl
@[simp] theorem writeAllow_result (k : Fin 8) (v : Word) (s : State) : (writeAllow k v s).result = s.result := rfl
@[simp] theorem writeAllow_subcause (k : Fin 8) (v : Word) (s : State) : (writeAllow k v s).subcause = s.subcause := rfl
@[simp] theorem writeAllow_msglen (k : Fin 8) (v : Word) (s : State) : (writeAllow k v s).msglen = s.msglen := rfl
@[simp] theorem writeAllow_symout (k : Fin 8) (v : Word) (s : State) : (writeAllow k v s).symout = s.symout := rfl
@[simp] theorem writeAllow_symcnt (k : Fin 8) (v : Word) (s : State) : (writeAllow k v s).symcnt = s.symcnt := rfl
@[simp] theorem writeAllow_root (k : Fin 8) (v : Word) (s : State) : (writeAllow k v s).root = s.root := rfl
@[simp] theorem writeAllow_nodecnt (k : Fin 8) (v : Word) (s : State) : (writeAllow k v s).nodecnt = s.nodecnt := rfl
@[simp] theorem writeAllow_leafcnt (k : Fin 8) (v : Word) (s : State) : (writeAllow k v s).leafcnt = s.leafcnt := rfl
@[simp] theorem writeAllow_bitcntOut (k : Fin 8) (v : Word) (s : State) : (writeAllow k v s).bitcntOut = s.bitcntOut := rfl
@[simp] theorem writeAllow_bitcntIn (k : Fin 8) (v : Word) (s : State) : (writeAllow k v s).bitcntIn = s.bitcntIn := rfl
@[simp] theorem writeAllow_nodeSel (k : Fin 8) (v : Word) (s : State) : (writeAllow k v s).nodeSel = s.nodeSel := rfl
@[simp] theorem writeAllow_lutSel (k : Fin 8) (v : Word) (s : State) : (writeAllow k v s).lutSel = s.lutSel := rfl
@[simp] theorem writeAllow_freq (k : Fin 8) (v : Word) (s : State) : (writeAllow k v s).freq = s.freq := rfl
@[simp] theorem writeAllow_nodes (k : Fin 8) (v : Word) (s : State) : (writeAllow k v s).nodes = s.nodes := rfl
@[simp] theorem writeAllow_lut (k : Fin 8) (v : Word) (s : State) : (writeAllow k v s).lut = s.lut := rfl
@[simp] theorem writeAllow_sink (k : Fin 8) (v : Word) (s : State) : (writeAllow k v s).sink = s.sink := rfl
@[simp] theorem writeAllow_sinkReady (k : Fin 8) (v : Word) (s : State) : (writeAllow k v s).sinkReady = s.sinkReady := rfl
@[simp] theorem writeAllow_srcBits (k : Fin 8) (v : Word) (s : State) : (writeAllow k v s).srcBits = s.srcBits := rfl
@[simp] theorem writeAllow_srcEnded (k : Fin 8) (v : Word) (s : State) : (writeAllow k v s).srcEnded = s.srcEnded := rfl
@[simp] theorem writeAllow_srcTaken (k : Fin 8) (v : Word) (s : State) : (writeAllow k v s).srcTaken = s.srcTaken := rfl
@[simp] theorem writeAllow_symIn (k : Fin 8) (v : Word) (s : State) : (writeAllow k v s).symIn = s.symIn := rfl
@[simp] theorem writeAllow_symOut (k : Fin 8) (v : Word) (s : State) : (writeAllow k v s).symOut = s.symOut := rfl
@[simp] theorem writeAllow_symOutReady (k : Fin 8) (v : Word) (s : State) : (writeAllow k v s).symOutReady = s.symOutReady := rfl
@[simp] theorem writeAllow_agenda (k : Fin 8) (v : Word) (s : State) : (writeAllow k v s).agenda = s.agenda := rfl
@[simp] theorem writeAllow_reads (k : Fin 8) (v : Word) (s : State) : (writeAllow k v s).reads = s.reads := rfl
@[simp] theorem writeAllow_draws (k : Fin 8) (v : Word) (s : State) : (writeAllow k v s).draws = s.draws := rfl

/-! ### resetCore -/

@[simp] theorem resetCore_cmd (s : State) : (resetCore s).cmd = State.reset.cmd := rfl
@[simp] theorem resetCore_task (s : State) : (resetCore s).task = State.reset.task := rfl
@[simp] theorem resetCore_trieState (s : State) : (resetCore s).trieState = State.reset.trieState := rfl
@[simp] theorem resetCore_lutValid (s : State) : (resetCore s).lutValid = State.reset.lutValid := rfl
@[simp] theorem resetCore_err (s : State) : (resetCore s).err = State.reset.err := rfl
@[simp] theorem resetCore_drop (s : State) : (resetCore s).drop = State.reset.drop := rfl
@[simp] theorem resetCore_result (s : State) : (resetCore s).result = State.reset.result := rfl
@[simp] theorem resetCore_subcause (s : State) : (resetCore s).subcause = State.reset.subcause := rfl
@[simp] theorem resetCore_msglen (s : State) : (resetCore s).msglen = State.reset.msglen := rfl
@[simp] theorem resetCore_symout (s : State) : (resetCore s).symout = State.reset.symout := rfl
@[simp] theorem resetCore_symcnt (s : State) : (resetCore s).symcnt = State.reset.symcnt := rfl
@[simp] theorem resetCore_root (s : State) : (resetCore s).root = State.reset.root := rfl
@[simp] theorem resetCore_nodecnt (s : State) : (resetCore s).nodecnt = State.reset.nodecnt := rfl
@[simp] theorem resetCore_leafcnt (s : State) : (resetCore s).leafcnt = State.reset.leafcnt := rfl
@[simp] theorem resetCore_bitcntOut (s : State) : (resetCore s).bitcntOut = State.reset.bitcntOut := rfl
@[simp] theorem resetCore_bitcntIn (s : State) : (resetCore s).bitcntIn = State.reset.bitcntIn := rfl
@[simp] theorem resetCore_nodeSel (s : State) : (resetCore s).nodeSel = State.reset.nodeSel := rfl
@[simp] theorem resetCore_lutSel (s : State) : (resetCore s).lutSel = State.reset.lutSel := rfl
@[simp] theorem resetCore_allow (s : State) : (resetCore s).allow = State.reset.allow := rfl
@[simp] theorem resetCore_freq (s : State) : (resetCore s).freq = State.reset.freq := rfl
@[simp] theorem resetCore_nodes (s : State) : (resetCore s).nodes = State.reset.nodes := rfl
@[simp] theorem resetCore_lut (s : State) : (resetCore s).lut = State.reset.lut := rfl
@[simp] theorem resetCore_sink (s : State) : (resetCore s).sink = s.sink := rfl
@[simp] theorem resetCore_sinkReady (s : State) : (resetCore s).sinkReady = s.sinkReady := rfl
@[simp] theorem resetCore_srcBits (s : State) : (resetCore s).srcBits = s.srcBits := rfl
@[simp] theorem resetCore_srcEnded (s : State) : (resetCore s).srcEnded = s.srcEnded := rfl
@[simp] theorem resetCore_srcTaken (s : State) : (resetCore s).srcTaken = s.srcTaken := rfl
@[simp] theorem resetCore_symIn (s : State) : (resetCore s).symIn = s.symIn := rfl
@[simp] theorem resetCore_symOut (s : State) : (resetCore s).symOut = s.symOut := rfl
@[simp] theorem resetCore_symOutReady (s : State) : (resetCore s).symOutReady = s.symOutReady := rfl
@[simp] theorem resetCore_agenda (s : State) : (resetCore s).agenda = s.agenda := rfl
@[simp] theorem resetCore_reads (s : State) : (resetCore s).reads = s.reads := rfl
@[simp] theorem resetCore_draws (s : State) : (resetCore s).draws = s.draws := rfl

/-! ### newStream -/

@[simp] theorem newStream_cmd (bits : List Bool) (ended : Bool) (s : State) : (newStream bits ended s).cmd = s.cmd := rfl
@[simp] theorem newStream_task (bits : List Bool) (ended : Bool) (s : State) : (newStream bits ended s).task = s.task := rfl
@[simp] theorem newStream_trieState (bits : List Bool) (ended : Bool) (s : State) : (newStream bits ended s).trieState = s.trieState := rfl
@[simp] theorem newStream_lutValid (bits : List Bool) (ended : Bool) (s : State) : (newStream bits ended s).lutValid = s.lutValid := rfl
@[simp] theorem newStream_err (bits : List Bool) (ended : Bool) (s : State) : (newStream bits ended s).err = s.err := rfl
@[simp] theorem newStream_drop (bits : List Bool) (ended : Bool) (s : State) : (newStream bits ended s).drop = s.drop := rfl
@[simp] theorem newStream_result (bits : List Bool) (ended : Bool) (s : State) : (newStream bits ended s).result = s.result := rfl
@[simp] theorem newStream_subcause (bits : List Bool) (ended : Bool) (s : State) : (newStream bits ended s).subcause = s.subcause := rfl
@[simp] theorem newStream_msglen (bits : List Bool) (ended : Bool) (s : State) : (newStream bits ended s).msglen = s.msglen := rfl
@[simp] theorem newStream_symout (bits : List Bool) (ended : Bool) (s : State) : (newStream bits ended s).symout = s.symout := rfl
@[simp] theorem newStream_symcnt (bits : List Bool) (ended : Bool) (s : State) : (newStream bits ended s).symcnt = s.symcnt := rfl
@[simp] theorem newStream_root (bits : List Bool) (ended : Bool) (s : State) : (newStream bits ended s).root = s.root := rfl
@[simp] theorem newStream_nodecnt (bits : List Bool) (ended : Bool) (s : State) : (newStream bits ended s).nodecnt = s.nodecnt := rfl
@[simp] theorem newStream_leafcnt (bits : List Bool) (ended : Bool) (s : State) : (newStream bits ended s).leafcnt = s.leafcnt := rfl
@[simp] theorem newStream_bitcntOut (bits : List Bool) (ended : Bool) (s : State) : (newStream bits ended s).bitcntOut = s.bitcntOut := rfl
@[simp] theorem newStream_bitcntIn (bits : List Bool) (ended : Bool) (s : State) : (newStream bits ended s).bitcntIn = s.bitcntIn := rfl
@[simp] theorem newStream_nodeSel (bits : List Bool) (ended : Bool) (s : State) : (newStream bits ended s).nodeSel = s.nodeSel := rfl
@[simp] theorem newStream_lutSel (bits : List Bool) (ended : Bool) (s : State) : (newStream bits ended s).lutSel = s.lutSel := rfl
@[simp] theorem newStream_allow (bits : List Bool) (ended : Bool) (s : State) : (newStream bits ended s).allow = s.allow := rfl
@[simp] theorem newStream_freq (bits : List Bool) (ended : Bool) (s : State) : (newStream bits ended s).freq = s.freq := rfl
@[simp] theorem newStream_nodes (bits : List Bool) (ended : Bool) (s : State) : (newStream bits ended s).nodes = s.nodes := rfl
@[simp] theorem newStream_lut (bits : List Bool) (ended : Bool) (s : State) : (newStream bits ended s).lut = s.lut := rfl
@[simp] theorem newStream_sink (bits : List Bool) (ended : Bool) (s : State) : (newStream bits ended s).sink = s.sink := rfl
@[simp] theorem newStream_sinkReady (bits : List Bool) (ended : Bool) (s : State) : (newStream bits ended s).sinkReady = s.sinkReady := rfl
@[simp] theorem newStream_srcBits (bits : List Bool) (ended : Bool) (s : State) : (newStream bits ended s).srcBits = bits := rfl
@[simp] theorem newStream_srcEnded (bits : List Bool) (ended : Bool) (s : State) : (newStream bits ended s).srcEnded = ended := rfl
@[simp] theorem newStream_srcTaken (bits : List Bool) (ended : Bool) (s : State) : (newStream bits ended s).srcTaken = s.srcTaken := rfl
@[simp] theorem newStream_symIn (bits : List Bool) (ended : Bool) (s : State) : (newStream bits ended s).symIn = s.symIn := rfl
@[simp] theorem newStream_symOut (bits : List Bool) (ended : Bool) (s : State) : (newStream bits ended s).symOut = s.symOut := rfl
@[simp] theorem newStream_symOutReady (bits : List Bool) (ended : Bool) (s : State) : (newStream bits ended s).symOutReady = s.symOutReady := rfl
@[simp] theorem newStream_agenda (bits : List Bool) (ended : Bool) (s : State) : (newStream bits ended s).agenda = s.agenda := rfl
@[simp] theorem newStream_reads (bits : List Bool) (ended : Bool) (s : State) : (newStream bits ended s).reads = s.reads := rfl
@[simp] theorem newStream_draws (bits : List Bool) (ended : Bool) (s : State) : (newStream bits ended s).draws = s.draws := rfl

/-! ### Busy -/

theorem busy_iff (s : State) : s.busy = true ↔ s.task ≠ .idle := by
  unfold State.busy
  split <;> simp_all

@[simp] theorem finish_busy (c : ResultCode) (u : Subcause) (s : State) : (finish c u s).busy = false := rfl

/-- Completion with OK leaves ERR. -/
theorem finish_ok (u : Subcause) (s : State) :
    finish .ok u s = { s with result := .ok, subcause := u, task := .idle } := rfl

end Sys2Proof.Machine
end

