-- ==== Sys2Proof/Laws/Bits.lean ====
section
/-! SUPPORT. Laws of bit strings: most significant bit first there and back, and a path as the BITS of an entry. -/

namespace Sys2Proof.Machine

@[simp] theorem bitsMsb_length {w : Nat} (v : BitVec w) : (bitsMsb v).length = w := by simp [bitsMsb]

theorem natOfBits_append (l : List Bool) (b : Bool) : natOfBits (l ++ [b]) = 2 * natOfBits l + b.toNat := by
  simp [natOfBits]

theorem natOfBits_lt (l : List Bool) : natOfBits l < 2 ^ l.length := by
  induction l using List.reverseRecOn with
  | nil => simp [natOfBits]
  | append_singleton l b ih =>
    rw [natOfBits_append, List.length_append, List.length_singleton, Nat.pow_succ]
    have := b.toNat_le
    omega

theorem natOfBits_testBit (l : List Bool) (j : Nat) (h : j < l.length) :
    (natOfBits l).testBit j = l[l.length - 1 - j] := by
  induction l using List.reverseRecOn generalizing j with
  | nil => simp at h
  | append_singleton l b ih =>
    rw [natOfBits_append]
    cases j with
    | zero => cases b <;> simp [Nat.testBit_zero, Nat.add_mod]
    | succ j =>
      simp only [List.length_append, List.length_singleton] at h
      have hdiv : (2 * natOfBits l + b.toNat) / 2 = natOfBits l := by
        have := b.toNat_le; have := Bool.toNat_lt b; omega
      rw [Nat.testBit_succ, hdiv, ih j (by omega)]
      rw [List.getElem_append_left (by simp; omega)]
      congr 1
      simp; omega

/-- Assembling the bits of a value gives the value (R12). -/
@[simp] theorem ofBitsMsb_bitsMsb {w : Nat} (v : BitVec w) : ofBitsMsb w (bitsMsb v) = v := by
  apply BitVec.eq_of_getLsbD_eq
  intro i hi
  unfold ofBitsMsb
  rw [BitVec.getLsbD_ofNat]
  simp only [hi, decide_true, Bool.true_and]
  rw [natOfBits_testBit _ _ (by simpa using hi)]
  simp only [bitsMsb, List.getElem_map, List.getElem_range, BitVec.getMsbD]
  have h1 : w - 1 - i < w := by omega
  have h2 : w - 1 - (w - 1 - i) = i := by omega
  simp [h1, h2]

/-- The bits of a value assembled from `w` bits are those bits. -/
theorem bitsMsb_ofBitsMsb {w : Nat} (l : List Bool) (h : l.length = w) : bitsMsb (ofBitsMsb w l) = l := by
  apply List.ext_getElem (by simp [h])
  intro i h1 h2
  simp only [bitsMsb_length] at h1
  simp only [bitsMsb, List.getElem_map, List.getElem_range]
  rw [BitVec.getMsbD_eq_getLsbD]
  unfold ofBitsMsb
  rw [BitVec.getLsbD_ofNat, natOfBits_testBit _ _ (by omega)]
  have h3 : w - 1 - i < w := by omega
  have h4 : l.length - 1 - (w - 1 - i) = i := by omega
  simp [h1, h3, h4]

theorem natOfPath_testBit (p : List Bool) (j : Nat) : (natOfPath p).testBit j = p[j]?.getD false := by
  induction p generalizing j with
  | nil => simp [natOfPath]
  | cons b p ih =>
    cases j with
    | zero => cases b <;> simp [natOfPath, Nat.testBit_zero, Nat.add_mod]
    | succ j =>
      have hdiv : (b.toNat + 2 * natOfPath p) / 2 = natOfPath p := by
        have := Bool.toNat_lt b; omega
      rw [natOfPath, Nat.testBit_succ, hdiv, ih]
      simp

/-- `BITS[j] = p[j]` (42_code_table.md R240). -/
theorem pathBits_getLsbD (p : List Bool) (j : Nat) (h : j < 255) :
    (pathBits p).getLsbD j = p[j]?.getD false := by
  rw [pathBits, BitVec.getLsbD_ofNat, natOfPath_testBit]
  simp [h]

/-- The code word of the entry GENLUT writes is the path (42_code_table.md R241). -/
theorem code_ofPath (p : List Bool) (h : p.length ≤ 255) : (LutEntry.ofPath p).code = p := by
  have hl : (BitVec.ofNat 8 p.length).toNat = p.length := by simp; omega
  unfold LutEntry.code LutEntry.ofPath
  simp only [hl]
  apply List.ext_getElem (by simp)
  intro i h1 h2
  simp only [List.getElem_map, List.getElem_range]
  rw [pathBits_getLsbD _ _ (by omega)]
  simp [h2]

theorem ofPath_wf (p : List Bool) (h : p.length ≤ 255) : (LutEntry.ofPath p).wf := by
  have hl : (BitVec.ofNat 8 p.length).toNat = p.length := by simp; omega
  refine ⟨rfl, fun j hj => ?_⟩
  simp only [LutEntry.ofPath, hl] at hj ⊢
  by_cases h255 : j < 255
  · rw [pathBits_getLsbD _ _ h255]
    simp [List.getElem?_eq_none hj]
  · exact BitVec.getLsbD_of_ge _ _ (by omega)

theorem ofPath_ne_zero (p : List Bool) : LutEntry.ofPath p ≠ LutEntry.zero := by
  intro h
  have := congrArg LutEntry.present h
  simp [LutEntry.ofPath, LutEntry.zero] at this

end Sys2Proof.Machine
end

