-- ==== Sys2Proof/Laws/Table.lean ====
section
/-! SUPPORT. The laws of sparse tables: read after write, the canonical form kept, and equal reads give equal tables. -/

namespace Sys2Proof.Machine.Table

variable {α : Type} {d : α} {t : Table α} {i j : Nat} {v : α}

@[simp] theorem read_nil (d : α) (i : Nat) : read d [] i = d := rfl

/-- Below the first possible index nothing is listed. -/
theorem read_below [DecidableEq α] {bound lo : Nat} (h : wfFrom d bound lo t = true) (hi : i < lo) :
    read d t i = d := by
  induction t generalizing lo with
  | nil => rfl
  | cons e t ih =>
    obtain ⟨k, w⟩ := e
    simp only [wfFrom, Bool.and_eq_true, decide_eq_true_eq] at h
    simp only [read]
    rw [if_neg (by omega), ih h.2 (by omega)]

theorem wfFrom_mono [DecidableEq α] {bound lo lo' : Nat} (h : wfFrom d bound lo t = true) (hl : lo' ≤ lo) :
    wfFrom d bound lo' t = true := by
  cases t with
  | nil => rfl
  | cons e t =>
    obtain ⟨k, w⟩ := e
    simp only [wfFrom, Bool.and_eq_true, decide_eq_true_eq] at h ⊢
    exact ⟨⟨⟨by omega, h.1.1.2⟩, h.1.2⟩, h.2⟩

theorem erase_wf [DecidableEq α] {bound lo : Nat} (h : wfFrom d bound lo t = true) :
    wfFrom d bound lo (erase t i) = true := by
  induction t generalizing lo with
  | nil => rfl
  | cons e t ih =>
    obtain ⟨k, w⟩ := e
    have h' := h
    simp only [wfFrom, Bool.and_eq_true, decide_eq_true_eq] at h'
    simp only [erase]
    split
    · exact wfFrom_mono h'.2 (by omega)
    · simp only [wfFrom, Bool.and_eq_true, decide_eq_true_eq]
      exact ⟨h'.1, ih h'.2⟩

theorem insert_wf [DecidableEq α] {bound lo : Nat} (h : wfFrom d bound lo t = true) (hl : lo ≤ i)
    (hb : i < bound) (hv : v ≠ d) : wfFrom d bound lo (insert t i v) = true := by
  induction t generalizing lo with
  | nil => simp [insert, wfFrom, *]
  | cons e t ih =>
    obtain ⟨k, w⟩ := e
    simp only [wfFrom, Bool.and_eq_true, decide_eq_true_eq] at h
    simp only [insert]
    split
    · simp only [wfFrom, Bool.and_eq_true, decide_eq_true_eq]
      exact ⟨⟨⟨hl, hb⟩, hv⟩, ⟨⟨by omega, h.1.1.2⟩, h.1.2⟩, h.2⟩
    · split
      · subst i
        simp only [wfFrom, Bool.and_eq_true, decide_eq_true_eq]
        exact ⟨⟨⟨hl, hb⟩, hv⟩, h.2⟩
      · simp only [wfFrom, Bool.and_eq_true, decide_eq_true_eq]
        exact ⟨h.1, ih h.2 (by omega)⟩

/-- A write below the bound keeps the canonical form. -/
theorem write_wf [DecidableEq α] {bound : Nat} (h : wf d bound t = true) (hb : i < bound) :
    wf d bound (write d t i v) = true := by
  unfold wf write
  split
  · exact erase_wf h
  · exact insert_wf h (Nat.zero_le _) hb ‹_›

theorem read_insert (d : α) (t : Table α) (i j : Nat) (v : α) :
    read d (insert t i v) j = if i = j then v else read d t j := by
  induction t with
  | nil => simp [insert, read]
  | cons e t ih =>
    obtain ⟨k, w⟩ := e
    by_cases h1 : i < k
    · simp [insert, h1, read]
    · by_cases h2 : k = i
      · subst h2; simp only [insert, h1, read, if_true, if_false]; split <;> rfl
      · simp only [insert, h1, h2, read, if_false, ih]
        split
        · subst j; rw [if_neg (by omega)]
        · rfl

theorem read_erase [DecidableEq α] {bound lo : Nat} (h : wfFrom d bound lo t = true) :
    read d (erase t i) j = if i = j then d else read d t j := by
  induction t generalizing lo with
  | nil => simp [erase]
  | cons e t ih =>
    obtain ⟨k, w⟩ := e
    simp only [wfFrom, Bool.and_eq_true, decide_eq_true_eq] at h
    by_cases h2 : k = i
    · subst h2
      simp only [erase, read, if_true]
      split
      · subst j; exact read_below h.2 (by omega)
      · rfl
    · simp only [erase, h2, read, if_false, ih h.2]
      split
      · subst j; rw [if_neg (by omega)]
      · rfl

/-- A read after a write: the value written there, every other entry as before. -/
theorem read_write [DecidableEq α] {bound : Nat} (h : wf d bound t = true) :
    read d (write d t i v) j = if i = j then v else read d t j := by
  unfold write
  split
  · subst v; exact read_erase h
  · exact read_insert d t i j v

/-- Without the canonical form: a write of a value other than the reset entry. -/
theorem read_write_of_ne [DecidableEq α] (h : v ≠ d) :
    read d (write d t i v) j = if i = j then v else read d t j := by
  unfold write
  rw [if_neg h]
  exact read_insert d t i j v

/-- A canonical table lists nothing at or beyond its bound. -/
theorem read_beyond [DecidableEq α] {bound lo : Nat} (h : wfFrom d bound lo t = true) (hi : bound ≤ i) :
    read d t i = d := by
  induction t generalizing lo with
  | nil => rfl
  | cons e t ih =>
    obtain ⟨k, w⟩ := e
    simp only [wfFrom, Bool.and_eq_true, decide_eq_true_eq] at h
    simp only [read]
    rw [if_neg (by omega), ih h.2]

theorem eq_of_read_eq_from [DecidableEq α] {bound lo : Nat} {t u : Table α} (ht : wfFrom d bound lo t = true)
    (hu : wfFrom d bound lo u = true) (h : ∀ i, read d t i = read d u i) : t = u := by
  induction t generalizing lo u with
  | nil =>
    cases u with
    | nil => rfl
    | cons e u =>
      obtain ⟨k, w⟩ := e
      simp only [wfFrom, Bool.and_eq_true, decide_eq_true_eq] at hu
      have := h k
      simp [read] at this
      exact absurd this.symm hu.1.2
  | cons e t ih =>
    obtain ⟨k, w⟩ := e
    have ht' := ht
    simp only [wfFrom, Bool.and_eq_true, decide_eq_true_eq] at ht'
    cases u with
    | nil =>
      have := h k
      simp [read] at this
      exact absurd this ht'.1.2
    | cons f u =>
      obtain ⟨k', w'⟩ := f
      have hu' := hu
      simp only [wfFrom, Bool.and_eq_true, decide_eq_true_eq] at hu'
      have hk : k = k' := by
        rcases Nat.lt_trichotomy k k' with hlt | heq | hgt
        · have := h k
          rw [read, if_pos rfl, read, if_neg (by omega), read_below hu'.2 (by omega)] at this
          exact absurd this ht'.1.2
        · exact heq
        · have := h k'
          rw [read, if_neg (by omega), read_below ht'.2 (by omega), read, if_pos rfl] at this
          exact absurd this.symm hu'.1.2
      subst hk
      have hw : w = w' := by simpa [read] using h k
      subst hw
      congr 1
      refine ih ht'.2 hu'.2 fun i => ?_
      by_cases hi : k = i
      · subst hi
        rw [read_below ht'.2 (by omega), read_below hu'.2 (by omega)]
      · simpa [read, hi] using h i

/-- Two canonical tables with the same entries are the same table. -/
theorem eq_of_read_eq [DecidableEq α] {bound : Nat} {t u : Table α} (ht : wf d bound t = true)
    (hu : wf d bound u = true) (h : ∀ i, read d t i = read d u i) : t = u :=
  eq_of_read_eq_from ht hu h

/-- What a listed entry of a written table is. -/
theorem mem_write [DecidableEq α] {p : Nat × α} (h : p ∈ write d t i v) : p ∈ t ∨ (p = (i, v) ∧ v ≠ d) := by
  unfold write at h
  split at h
  · left
    induction t with
    | nil => simp [erase] at h
    | cons e t ih =>
      simp only [erase] at h
      split at h
      · exact List.mem_cons_of_mem _ h
      · rcases List.mem_cons.1 h with rfl | h
        · exact List.mem_cons_self
        · exact List.mem_cons_of_mem _ (ih h)
  · induction t with
    | nil => simp [insert] at h; exact .inr ⟨h, ‹_›⟩
    | cons e t ih =>
      simp only [insert] at h
      split at h
      · rcases List.mem_cons.1 h with rfl | h
        · exact .inr ⟨rfl, ‹_›⟩
        · exact .inl h
      · split at h
        · rcases List.mem_cons.1 h with rfl | h
          · exact .inr ⟨rfl, ‹_›⟩
          · exact .inl (List.mem_cons_of_mem _ h)
        · rcases List.mem_cons.1 h with rfl | h
          · exact .inl List.mem_cons_self
          · rcases ih h with h | h
            · exact .inl (List.mem_cons_of_mem _ h)
            · exact .inr h

/-- A read gives the reset entry or a listed one. -/
theorem read_mem (d : α) (t : Table α) (i : Nat) : read d t i = d ∨ (i, read d t i) ∈ t := by
  induction t with
  | nil => exact .inl rfl
  | cons e t ih =>
    obtain ⟨k, w⟩ := e
    simp only [read]
    split
    · subst k; exact .inr List.mem_cons_self
    · exact ih.imp id (List.mem_cons_of_mem _)

end Sys2Proof.Machine.Table
end

