-- ==== Sys2Proof/Laws/Run.lean ====
section
/-! SUPPORT. Running the core: chains of core steps, where they end, and what the port primitives do. -/

namespace Sys2Proof.Machine

/-- Exactly `k` steps of the core, if it can make them. -/
def coreSteps : Nat → State → Option State
  | 0, s => some s
  | n + 1, s => (coreStep s).bind (coreSteps n)

@[simp] theorem coreSteps_zero (s : State) : coreSteps 0 s = some s := rfl

theorem coreSteps_succ {s t : State} (h : coreStep s = some t) (n : Nat) :
    coreSteps (n + 1) s = coreSteps n t := by
  simp [coreSteps, h]

/-- Chains of steps compose. -/
theorem coreSteps_trans {j k : Nat} {s t u : State} (h1 : coreSteps j s = some t) (h2 : coreSteps k t = some u) :
    coreSteps (j + k) s = some u := by
  induction j generalizing s with
  | zero => simp at h1; subst h1; simpa using h2
  | succ j ih =>
    rw [Nat.succ_add]
    cases hs : coreStep s with
    | none => simp [coreSteps, hs] at h1
    | some v =>
      rw [coreSteps_succ hs] at h1 ⊢
      exact ih h1

theorem coreSteps_one {s t : State} (h : coreStep s = some t) : coreSteps 1 s = some t := by
  rw [coreSteps_succ h]; rfl

theorem runCore_stuck {s : State} (h : coreStep s = none) (n : Nat) : runCore n s = s := by
  cases n <;> simp [runCore, h]

theorem runCore_succ {s t : State} (h : coreStep s = some t) (n : Nat) : runCore (n + 1) s = runCore n t := by
  simp [runCore, h]

theorem runCore_add (m n : Nat) (s : State) : runCore (m + n) s = runCore n (runCore m s) := by
  induction m generalizing s with
  | zero => simp [runCore]
  | succ m ih =>
    rw [Nat.succ_add]
    cases h : coreStep s with
    | none => rw [runCore_stuck h, runCore_stuck h, runCore_stuck h]
    | some t => rw [runCore_succ h, runCore_succ h, ih]

theorem runCore_of_coreSteps {k : Nat} {s t : State} (h : coreSteps k s = some t) (n : Nat) :
    runCore (k + n) s = runCore n t := by
  induction k generalizing s with
  | zero => simp at h; subst h; simp
  | succ k ih =>
    rw [Nat.succ_add]
    cases hs : coreStep s with
    | none => simp [coreSteps, hs] at h
    | some v =>
      rw [coreSteps_succ hs] at h
      rw [runCore_succ hs, ih h]

/-- A turn that reaches, within its length, a state where the core makes no more steps ends there. -/
theorem runTurn_of_coreSteps {k : Nat} {s t : State} (h : coreSteps k s = some t) (hk : k ≤ Config.turnLength)
    (ht : coreStep t = none) : runTurn s = t := by
  unfold runTurn
  obtain ⟨n, hn⟩ := Nat.exists_eq_add_of_le hk
  rw [hn, runCore_of_coreSteps h, runCore_stuck ht]

/-- An idle core makes no step. -/
theorem coreStep_idle {s : State} (h : s.task = .idle) : coreStep s = none := by simp [coreStep, h]

@[simp] theorem coreStep_finish (c : ResultCode) (u : Subcause) (s : State) : coreStep (finish c u s) = none :=
  coreStep_idle rfl

@[simp] theorem runCore_finish (n : Nat) (c : ResultCode) (u : Subcause) (s : State) :
    runCore n (finish c u s) = finish c u s := runCore_stuck (coreStep_finish c u s) n

@[simp] theorem complete_finish (c : ResultCode) (u : Subcause) (s : State) :
    complete (finish c u s) = .next (finish c u s) := by
  simp [complete, runTurn]

/-- The meaning of a command: its first step, then a turn of the core. -/
theorem exec_eq (i : Instr) (s : State) : exec i s = .next (runTurn (begin i s)) := by
  cases i <;> rfl

/-- A command that begins, makes `k` steps and completes. -/
theorem exec_of_coreSteps {i : Instr} {s t : State} {k : Nat} (h : coreSteps k (begin i s) = some t)
    (hk : k ≤ Config.turnLength) (ht : coreStep t = none) : exec i s = .next t := by
  rw [exec_eq, runTurn_of_coreSteps h hk ht]

/-- What a run of the core leaves: any property its steps keep. -/
theorem runCore_keeps {P : State → Prop} (hstep : ∀ s t, P s → coreStep s = some t → P t) (n : Nat) {s : State}
    (h : P s) : P (runCore n s) := by
  induction n generalizing s with
  | zero => exact h
  | succ n ih =>
    cases hs : coreStep s with
    | none => rw [runCore_stuck hs]; exact h
    | some t => rw [runCore_succ hs]; exact ih (hstep s t h hs)

/-! ### Readiness -/

@[simp] theorem after_zero (r : Ready) : r.after 0 = r := by cases r <;> simp [Ready.after]

theorem allows_succ {r : Ready} {n : Nat} (h : r.allows (n + 1) = true) :
    ∃ r', r.take = some r' ∧ r'.allows n = true ∧ r'.after n = r.after (n + 1) := by
  cases r with
  | always => exact ⟨.always, rfl, rfl, rfl⟩
  | count m =>
    simp only [Ready.allows, decide_eq_true_eq] at h
    cases m with
    | zero => omega
    | succ m =>
      refine ⟨.count m, rfl, ?_, ?_⟩
      · simp [Ready.allows]; omega
      · simp [Ready.after]

theorem allows_mono {r : Ready} {m n : Nat} (h : r.allows n = true) (hmn : m ≤ n) : r.allows m = true := by
  cases r with
  | always => rfl
  | count k => simp [Ready.allows] at *; omega

theorem allows_after {r : Ready} {m n : Nat} (h : r.allows (m + n) = true) : (r.after m).allows n = true := by
  cases r with
  | always => rfl
  | count k => simp [Ready.allows, Ready.after] at *; omega

theorem after_after (r : Ready) (m n : Nat) : (r.after m).after n = r.after (m + n) := by
  cases r with
  | always => rfl
  | count k => simp [Ready.after]; omega

/-! ### Sending bits -/

/-- A state after the sink has taken these bits. -/
def sentBits (l : List Bool) (s : State) : State :=
  { s with sink := s.sink ++ l.map .bit, sinkReady := s.sinkReady.after l.length,
           bitcntOut := s.bitcntOut + BitVec.ofNat 32 l.length }

@[simp] theorem sentBits_nil (s : State) : sentBits [] s = s := by simp [sentBits]

theorem sentBits_append (l m : List Bool) (s : State) : sentBits m (sentBits l s) = sentBits (l ++ m) s := by
  simp [sentBits, after_after, BitVec.add_assoc, BitVec.ofNat_add]

theorem putBit_eq {b : Bool} {s : State} {n : Nat} (h : s.sinkReady.allows (n + 1) = true) :
    ∃ t, putBit b s = some t ∧ t = sentBits [b] s ∧ t.sinkReady.allows n = true := by
  obtain ⟨r, h1, h2, h3⟩ := allows_succ h
  obtain ⟨r', h1', _, h3'⟩ := allows_succ (allows_mono h (show 0 + 1 ≤ n + 1 by omega))
  rw [h1] at h1'
  obtain rfl : r = r' := by simpa using h1'
  refine ⟨_, by simp only [putBit, h1]; rfl, ?_, h2⟩
  simp [sentBits]
  simpa using h3'

/-- A task that is a list of bits still to send sends them one by one, whatever command it belongs to: after the
bits `l` the bits `m` are left (R105). -/
theorem coreSteps_send_part {mk : List Bool → Task}
    (hmk : ∀ b out s, s.task = mk (b :: out) → coreStep s = (putBit b s).map fun t => { t with task := mk out })
    (l m : List Bool) (s : State) (ht : s.task = mk (l ++ m)) (hr : s.sinkReady.allows l.length = true) :
    coreSteps l.length s = some { sentBits l s with task := mk m } := by
  induction l generalizing s with
  | nil =>
    rw [List.nil_append] at ht
    simp [← ht]
  | cons b l ih =>
    obtain ⟨t, h1, h2, h3⟩ := putBit_eq (b := b) hr
    have hs : coreStep s = some { t with task := mk (l ++ m) } := by rw [hmk b (l ++ m) s ht, h1]; rfl
    rw [List.length_cons, coreSteps_succ hs, ih { t with task := mk (l ++ m) } rfl h3, h2]
    congr 1
    have := sentBits_append [b] l s
    simp only [sentBits] at this ⊢
    simp_all

/-- All the bits are sent. -/
theorem coreSteps_send {mk : List Bool → Task}
    (hmk : ∀ b out s, s.task = mk (b :: out) → coreStep s = (putBit b s).map fun t => { t with task := mk out })
    (l : List Bool) (s : State) (ht : s.task = mk l) (hr : s.sinkReady.allows l.length = true) :
    coreSteps l.length s = some { sentBits l s with task := mk [] } :=
  coreSteps_send_part hmk l [] s (by rwa [List.append_nil]) hr

/-! ### Reading bits -/

/-- A state after the source has delivered `n` bits and `rest` is left. -/
def tookBits (n : Nat) (rest : List Bool) (s : State) : State :=
  { s with srcBits := rest, srcTaken := s.srcTaken + n, bitcntIn := s.bitcntIn + BitVec.ofNat 32 n }

theorem tookBits_zero {s : State} {rest : List Bool} (h : s.srcBits = rest) : tookBits 0 rest s = s := by
  subst h; simp [tookBits]

theorem tookBits_tookBits (m n : Nat) (r r' : List Bool) (s : State) :
    tookBits n r' (tookBits m r s) = tookBits (m + n) r' s := by
  simp [tookBits, Nat.add_assoc, BitVec.add_assoc, BitVec.ofNat_add]

theorem getBit_cons {s : State} {b : Bool} {rest : List Bool} (h : s.srcBits = b :: rest) :
    getBit s = some (some b, tookBits 1 rest s) := by
  simp [getBit, h, tookBits]

theorem getBit_end {s : State} (h : s.srcBits = []) (he : s.srcEnded = true) : getBit s = some (none, s) := by
  simp [getBit, h, he]

theorem getBit_wait {s : State} (h : s.srcBits = []) (he : s.srcEnded = false) : getBit s = none := by
  simp [getBit, h, he]

/-! ### What a port primitive can do -/

theorem putBit_cases {b : Bool} {s t : State} (h : putBit b s = some t) :
    ∃ r, s.sinkReady.take = some r
      ∧ t = { s with sink := s.sink ++ [.bit b], sinkReady := r, bitcntOut := s.bitcntOut + 1 } := by
  unfold putBit at h
  split at h
  · simp at h
  · rename_i r hr
    exact ⟨r, hr, by simpa using h.symm⟩

theorem sinkClose_cases {s t : State} (h : sinkClose s = some t) :
    ∃ r, s.sinkReady.take = some r ∧ t = { s with sink := s.sink ++ [.close], sinkReady := r } := by
  unfold sinkClose at h
  split at h
  · simp at h
  · rename_i r hr
    exact ⟨r, hr, by simpa using h.symm⟩

theorem getBit_cases {s t : State} {r : Option Bool} (h : getBit s = some (r, t)) :
    (r = none ∧ t = s ∧ s.srcBits = [] ∧ s.srcEnded = true) ∨
    ∃ b rest, r = some b ∧ s.srcBits = b :: rest ∧ t = tookBits 1 rest s := by
  unfold getBit at h
  split at h
  · rename_i b rest hb
    simp only [Option.some.injEq, Prod.mk.injEq] at h
    exact .inr ⟨b, rest, h.1.symm, hb, by rw [← h.2]; rfl⟩
  · rename_i hb
    split at h
    · simp only [Option.some.injEq, Prod.mk.injEq] at h
      exact .inl ⟨h.1.symm, h.2.symm, hb, ‹_›⟩
    · simp at h

theorem takeSymbol_cases {s t : State} {x : Symbol} (h : takeSymbol s = some (x, t)) :
    ∃ rest, s.symIn = x :: rest ∧ t = { s with symIn := rest } := by
  unfold takeSymbol at h
  split at h
  · rename_i y rest hy
    simp only [Option.some.injEq, Prod.mk.injEq] at h
    exact ⟨rest, by rw [hy, h.1], h.2.symm⟩
  · simp at h

theorem sendSymbol_cases {s t : State} {x : Symbol} (h : sendSymbol x s = some t) :
    ∃ r, s.symOutReady.take = some r ∧ t = { s with symOut := s.symOut ++ [x], symOutReady := r } := by
  unfold sendSymbol at h
  split at h
  · simp at h
  · rename_i r hr
    exact ⟨r, hr, by simpa using h.symm⟩

end Sys2Proof.Machine
end

