-- ==== Sys2Proof/Laws/Trie.lean ====
section
/-! SUPPORT. Laws of tries and of tries in node memory. -/

namespace Sys2Proof.Machine

namespace Trie

theorem leaves_pos (t : Trie) : 1 ≤ t.leaves := by
  induction t with
  | leaf x => simp [leaves]
  | node l r ihl ihr => simp [leaves]; omega

/-- A full binary tree of L leaves has 2L - 1 nodes (43_trie_codec.md R270). -/
theorem size_add_one (t : Trie) : t.size + 1 = 2 * t.leaves := by
  induction t with
  | leaf x => rfl
  | node l r ihl ihr => simp [size, leaves]; omega

/-- The trie field of L leaves has 10L - 1 bits (30_encoding.md R173). -/
theorem ser_length (t : Trie) : t.ser.length + 1 = 10 * t.leaves := by
  induction t with
  | leaf x => simp [ser, leaves]
  | node l r ihl ihr => simp [ser, leaves]; omega

theorem depth_lt_leaves (t : Trie) : t.depth + 1 ≤ t.leaves := by
  induction t with
  | leaf x => simp [depth, leaves]
  | node l r ihl ihr =>
    have := l.leaves_pos; have := r.leaves_pos
    simp [depth, leaves]; omega

theorem pathsFrom_length (t : Trie) (p : List Bool) : (t.pathsFrom p).length = t.leaves := by
  induction t generalizing p with
  | leaf x => rfl
  | node l r ihl ihr => simp [pathsFrom, leaves, ihl, ihr]

/-- Every path from here extends the path to here, by at most the depth. -/
theorem pathsFrom_bound {t : Trie} {p : List Bool} {q : Symbol × List Bool} (h : q ∈ t.pathsFrom p) :
    q.2.length ≤ p.length + t.depth := by
  induction t generalizing p with
  | leaf x => simp [pathsFrom] at h; subst h; simp [depth]
  | node l r ihl ihr =>
    simp only [pathsFrom, List.mem_append] at h
    rcases h with h | h
    · have := ihl h; simp [depth] at *; omega
    · have := ihr h; simp [depth] at *; omega

/-- Paths from here are the paths of the trie, after the path to here. -/
theorem pathsFrom_eq (t : Trie) (p : List Bool) : t.pathsFrom p = t.paths.map fun q => (q.1, p ++ q.2) := by
  have key : ∀ (t : Trie) (p r : List Bool),
      t.pathsFrom (p ++ r) = (t.pathsFrom r).map fun q => (q.1, p ++ q.2) := by
    intro t
    induction t with
    | leaf x => intro p r; simp [pathsFrom]
    | node l r ihl ihr => intro p q; simp [pathsFrom, List.append_assoc, ihl, ihr]
  simpa [paths] using key t p []

/-- A walk along a leaf's path finds the leaf and leaves the bits after it (44_message_codec.md R311). -/
theorem walk_path {t : Trie} {q : Symbol × List Bool} (h : q ∈ t.paths) (rest : List Bool) :
    t.walk (q.2 ++ rest) = some (q.1, rest) := by
  induction t generalizing q with
  | leaf x => simp [paths, pathsFrom] at h; subst h; rfl
  | node l r ihl ihr =>
    simp only [paths, pathsFrom, List.nil_append, List.mem_append] at h
    rcases h with h | h
    · rw [pathsFrom_eq] at h
      obtain ⟨q', hq', rfl⟩ := List.mem_map.1 h
      simpa [walk] using ihl hq'
    · rw [pathsFrom_eq] at h
      obtain ⟨q', hq', rfl⟩ := List.mem_map.1 h
      simpa [walk] using ihr hq'

/-- A walk that finds a leaf has read that leaf's path. -/
theorem walk_some {t : Trie} {bits rest : List Bool} {x : Symbol} (h : t.walk bits = some (x, rest)) :
    ∃ p, (x, p) ∈ t.paths ∧ bits = p ++ rest := by
  induction t generalizing bits with
  | leaf y => simp [walk] at h; exact ⟨[], by simp [paths, pathsFrom, h.1], by simp [h.2]⟩
  | node l r ihl ihr =>
    cases bits with
    | nil => simp [walk] at h
    | cons b bits =>
      cases b with
      | false =>
        obtain ⟨p, hp, rfl⟩ := ihl (by simpa [walk] using h)
        refine ⟨false :: p, ?_, rfl⟩
        simp only [paths, pathsFrom, List.nil_append, List.mem_append]
        left
        rw [pathsFrom_eq]
        exact List.mem_map.2 ⟨_, hp, rfl⟩
      | true =>
        obtain ⟨p, hp, rfl⟩ := ihr (by simpa [walk] using h)
        refine ⟨true :: p, ?_, rfl⟩
        simp only [paths, pathsFrom, List.nil_append, List.mem_append]
        right
        rw [pathsFrom_eq]
        exact List.mem_map.2 ⟨_, hp, rfl⟩

theorem paths_length (t : Trie) : t.paths.length = t.leaves := pathsFrom_length t []

theorem walk_length {t : Trie} {bits rest : List Bool} {x : Symbol} (h : t.walk bits = some (x, rest)) :
    rest.length ≤ bits.length ∧ bits.length - rest.length ≤ t.depth := by
  obtain ⟨p, hp, rfl⟩ := walk_some h
  have := pathsFrom_bound hp
  simp at *; omega

end Trie

@[simp] theorem trieIndices_length (nodes : Table Node) (i : NodeIndex) (t : Trie) :
    (trieIndices nodes i t).length = t.size := by
  induction t generalizing i with
  | leaf x => rfl
  | node l r ihl ihr => simp [trieIndices, Trie.size, ihl, ihr]

/-- Only the entries of a trie matter to it. -/
theorem TrieAt.congr {nodes nodes' : Table Node} {i : NodeIndex} {t : Trie} (h : TrieAt nodes i t)
    (heq : ∀ k ∈ trieIndices nodes i t, Table.read Node.zero nodes' k = Table.read Node.zero nodes k) :
    TrieAt nodes' i t ∧ trieIndices nodes' i t = trieIndices nodes i t := by
  induction t generalizing i with
  | leaf x =>
    have := heq i.toNat (by simp [trieIndices])
    refine ⟨?_, rfl⟩
    simpa [TrieAt, this] using h
  | node l r ihl ihr =>
    simp only [trieIndices, List.mem_cons, List.mem_append] at heq
    have hi := heq i.toNat (.inl rfl)
    obtain ⟨h1, h2, hl, hr⟩ := h
    obtain ⟨hl', hlx⟩ := ihl hl fun k hk => heq k (.inr (.inl hk))
    obtain ⟨hr', hrx⟩ := ihr hr fun k hk => heq k (.inr (.inr hk))
    refine ⟨?_, ?_⟩
    · simp only [TrieAt, hi]
      exact ⟨h1, h2, hl', hr'⟩
    · simp only [trieIndices, hi, hlx, hrx]

/-- Every entry of a trie is in use. -/
theorem TrieAt.inuse {nodes : Table Node} {i : NodeIndex} {t : Trie} (h : TrieAt nodes i t) :
    ∀ k ∈ trieIndices nodes i t, (Table.read Node.zero nodes k).inuse = true := by
  induction t generalizing i with
  | leaf x => intro k hk; simp [trieIndices] at hk; subst hk; exact h.1
  | node l r ihl ihr =>
    intro k hk
    simp only [trieIndices, List.mem_cons, List.mem_append] at hk
    rcases hk with rfl | hk | hk
    · exact h.1
    · exact ihl h.2.2.1 k hk
    · exact ihr h.2.2.2 k hk

/-- The trie at an index is the only one there. -/
theorem TrieAt.unique {nodes : Table Node} {i : NodeIndex} {t u : Trie} (h : TrieAt nodes i t)
    (h' : TrieAt nodes i u) : t = u := by
  induction t generalizing i u with
  | leaf x =>
    cases u with
    | leaf y => rw [← h.2.2, ← h'.2.2]
    | node l r => have := h.2.1; have := h'.2.1; simp_all
  | node l r ihl ihr =>
    cases u with
    | leaf y => have := h.2.1; have := h'.2.1; simp_all
    | node l' r' => rw [ihl h.2.2.1 h'.2.2.1, ihr h.2.2.2 h'.2.2.2]

theorem node_zero_inuse : Node.zero.inuse = false := rfl

/-- A trie of a canonical node memory: at most 511 nodes and 256 leaves (10_state.md R47, R54). -/
theorem HoldsTrie.bounds {s : State} {t : Trie} (h : HoldsTrie s t) (hw : Memory.wf s = true) :
    s.nodecnt.toNat = t.size ∧ t.size ≤ 511 ∧ t.leaves ≤ 256 ∧ t.depth ≤ 255 := by
  obtain ⟨hat, hperm, hleaf⟩ := h
  have hlen : s.nodecnt.toNat = t.size := by
    have := hperm.length_eq
    simpa using this.symm
  have hpos : 1 ≤ t.size := by have := t.size_add_one; have := t.leaves_pos; omega
  have hmem : t.size - 1 ∈ trieIndices s.nodes s.root t := by
    rw [hperm.mem_iff, List.mem_range]; omega
  have huse := hat.inuse _ hmem
  have hb : t.size - 1 < 511 := by
    by_contra hge
    simp only [Memory.wf, Bool.and_eq_true] at hw
    rw [Table.read_beyond (bound := Config.nodeCap) hw.1.2 (by simp [Config.nodeCap]; omega)] at huse
    simp [Node.zero] at huse
  have := t.size_add_one
  have := t.depth_lt_leaves
  omega

end Sys2Proof.Machine
end

