-- ==== Sys2Proof/Laws/Build.lean ====
section
/-! SUPPORT. What BUILD does: its queue, its leaves, and its merge loop. -/

namespace Sys2Proof.Machine

/-! ### The queue (41_trie_builder.md R222) -/

theorem extractMin_none {q : List PqEntry} : extractMin q = none ↔ q = [] := by
  cases q with
  | nil => simp [extractMin]
  | cons e q =>
    simp only [extractMin, reduceCtorEq, iff_false]
    split
    · simp
    · split <;> simp

/-- The queue without the extracted entry, for a queue whose entries carry data. -/
theorem extractMin_lift {β : Type} (fs : List (PqEntry × β)) {m : PqEntry} {q : List PqEntry}
    (h : extractMin (fs.map Prod.fst) = some (m, q)) :
    ∃ f fs', fs.Perm (f :: fs') ∧ f.1 = m ∧ fs'.map Prod.fst = q := by
  induction fs generalizing m q with
  | nil => simp [extractMin] at h
  | cons f fs ih =>
    rw [List.map_cons, extractMin] at h
    split at h
    · rename_i hnone
      obtain rfl : fs = [] := by simpa using extractMin_none.1 hnone
      simp only [Option.some.injEq, Prod.mk.injEq] at h
      exact ⟨f, [], List.Perm.refl _, h.1, by simpa using h.2⟩
    · rename_i m' q' hsome
      obtain ⟨g, gs, hperm, hg, hgs⟩ := ih hsome
      split at h
      · simp only [Option.some.injEq, Prod.mk.injEq] at h
        refine ⟨g, f :: gs, ?_, by rw [hg]; exact h.1, by rw [List.map_cons, hgs]; exact h.2⟩
        exact (hperm.cons f).trans (List.Perm.swap g f gs)
      · simp only [Option.some.injEq, Prod.mk.injEq] at h
        exact ⟨f, fs, List.Perm.refl _, h.1, h.2⟩

theorem extractMin_perm {q q' : List PqEntry} {m : PqEntry} (h : extractMin q = some (m, q')) :
    q.Perm (m :: q') := by
  have hq : (q.map fun e => (e, ())).map Prod.fst = q := by
    rw [List.map_map]; exact List.map_id q
  obtain ⟨f, fs', hp, hf, hfs⟩ := extractMin_lift (q.map fun e => (e, ())) (by rw [hq]; exact h)
  have := hp.map Prod.fst
  rwa [hq, List.map_cons, hf, hfs] at this

theorem extractMin_length {q q' : List PqEntry} {m : PqEntry} (h : extractMin q = some (m, q')) :
    q.length = q'.length + 1 := by simpa using (extractMin_perm h).length_eq

theorem before_iff (x y : PqEntry) : x.before y = true ↔
    x.weight.toNat < y.weight.toNat ∨ (x.weight.toNat = y.weight.toNat ∧ x.seq.toNat < y.seq.toNat) := by
  simp only [PqEntry.before, Bool.or_eq_true, decide_eq_true_eq, Bool.and_eq_true, beq_iff_eq]
  constructor
  · rintro (h | ⟨h, h'⟩)
    · exact .inl h
    · exact .inr ⟨by rw [h], h'⟩
  · rintro (h | ⟨h, h'⟩)
    · exact .inl h
    · exact .inr ⟨BitVec.eq_of_toNat_eq h, h'⟩

/-- No entry left in the queue comes before the extracted one (R222). -/
theorem extractMin_least {q q' : List PqEntry} {m : PqEntry} (h : extractMin q = some (m, q')) :
    ∀ e ∈ q', e.before m = false := by
  induction q generalizing m q' with
  | nil => simp [extractMin] at h
  | cons f fs ih =>
    rw [extractMin] at h
    split at h
    · simp only [Option.some.injEq, Prod.mk.injEq] at h
      intro e he
      simp [← h.2] at he
    · rename_i m' r hsome
      have hl := ih hsome
      have hp := extractMin_perm hsome
      split at h
      · rename_i hb
        simp only [Option.some.injEq, Prod.mk.injEq] at h
        obtain ⟨rfl, rfl⟩ := h
        intro e he
        rcases List.mem_cons.1 he with rfl | he
        · rw [Bool.eq_false_iff, Ne, before_iff]
          rw [before_iff] at hb
          omega
        · exact hl e he
      · rename_i hb
        simp only [Option.some.injEq, Prod.mk.injEq] at h
        obtain ⟨rfl, rfl⟩ := h
        intro e he
        rw [Bool.eq_false_iff, Ne, before_iff]
        rw [before_iff] at hb
        rcases List.mem_cons.1 (hp.mem_iff.1 he) with rfl | he'
        · omega
        · have := hl e he'
          rw [Bool.eq_false_iff, Ne, before_iff] at this
          omega

/-! ### The leaves (R221) -/

/-- The queue entries of BUILD's leaves, the first at index and `seq` `n`. -/
def leafEntries (s : State) : List Symbol → Nat → List PqEntry
  | [], _ => []
  | x :: xs, n => ⟨(freqAt x s).setWidth 40, BitVec.ofNat 9 n, BitVec.ofNat 9 n⟩ :: leafEntries s xs (n + 1)

/-- The node memory with BUILD's leaves, the first at index `n`. -/
def leafNodes (s : State) : List Symbol → Nat → Table Node → Table Node
  | [], _, nodes => nodes
  | x :: xs, n, nodes =>
    leafNodes s xs (n + 1) (Table.write Node.zero nodes n (Node.mkLeaf x ((freqAt x s).setWidth 40)))

theorem seedLeaves_eq (s0 : State) (xs : List Symbol) (n : Nat) (s : State) (pq : List PqEntry)
    (hf : s.freq = s0.freq) :
    seedLeaves xs n (s, pq) = ({ s with nodes := leafNodes s0 xs n s.nodes }, pq ++ leafEntries s0 xs n) := by
  induction xs generalizing n s pq with
  | nil => simp [seedLeaves, leafNodes, leafEntries]
  | cons x xs ih =>
    have hx : freqAt x s = freqAt x s0 := by simp [freqAt, hf]
    rw [seedLeaves, ih (n + 1) (writeNode n (Node.mkLeaf x ((freqAt x s).setWidth 40)) s) _ hf]
    simp [leafNodes, leafEntries, hx, writeNode]

@[simp] theorem leafEntries_length (s : State) (xs : List Symbol) (n : Nat) :
    (leafEntries s xs n).length = xs.length := by
  induction xs generalizing n with
  | nil => rfl
  | cons x xs ih => simp [leafEntries, ih]

theorem mkLeaf_ne_zero (x : Symbol) (w : Weight) : Node.mkLeaf x w ≠ Node.zero := by
  intro h; simpa [Node.mkLeaf, Node.zero] using congrArg Node.inuse h

theorem mkInternal_ne_zero (l r : NodeIndex) (w : Weight) : Node.mkInternal l r w ≠ Node.zero := by
  intro h; simpa [Node.mkInternal, Node.zero] using congrArg Node.inuse h

/-- The entries of the node memory with BUILD's leaves. -/
theorem leafNodes_read (s : State) (xs : List Symbol) (n : Nat) (nodes : Table Node) (k : Nat) :
    Table.read Node.zero (leafNodes s xs n nodes) k =
      if h : n ≤ k ∧ k - n < xs.length then
        Node.mkLeaf (xs[k - n]'h.2) ((freqAt (xs[k - n]'h.2) s).setWidth 40)
      else Table.read Node.zero nodes k := by
  induction xs generalizing n nodes with
  | nil => simp [leafNodes]
  | cons x xs ih =>
    rw [leafNodes, ih, Table.read_write_of_ne (mkLeaf_ne_zero _ _)]
    by_cases hk : n = k
    · subst hk; simp
    · by_cases h1 : n + 1 ≤ k ∧ k - (n + 1) < xs.length
      · rw [dif_pos h1, dif_pos (by simp; omega)]
        have : k - n = k - (n + 1) + 1 := by omega
        simp [this]
      · rw [dif_neg h1, if_neg hk, dif_neg (by simp; omega)]

theorem leafNodes_wf (s : State) (xs : List Symbol) (n : Nat) (nodes : Table Node)
    (h : Table.wf Node.zero Config.nodeCap nodes = true) (hb : n + xs.length ≤ 511) :
    Table.wf Node.zero Config.nodeCap (leafNodes s xs n nodes) = true := by
  induction xs generalizing n nodes with
  | nil => exact h
  | cons x xs ih =>
    simp only [List.length_cons] at hb
    exact ih _ _ (Table.write_wf h (by simp [Config.nodeCap]; omega)) (by omega)

theorem leafNodes_mem (s : State) (xs : List Symbol) (n : Nat) (nodes : Table Node) (p : Nat × Node)
    (h : p ∈ leafNodes s xs n nodes) : p ∈ nodes ∨ ∃ x w, p.2 = Node.mkLeaf x w := by
  induction xs generalizing n nodes with
  | nil => exact .inl h
  | cons x xs ih =>
    rcases ih _ _ h with h | h
    · rcases Table.mem_write h with h | ⟨rfl, _⟩
      · exact .inl h
      · exact .inr ⟨_, _, rfl⟩
    · exact .inr h

theorem leafSymbols_length (s : State) : (leafSymbols s).length ≤ 256 := by
  unfold leafSymbols
  refine (List.length_filter_le _ _).trans ?_
  simp [Config.nsym]

/-- Which symbols get a leaf (R221). -/
theorem mem_leafSymbols (s : State) (x : Symbol) :
    x ∈ leafSymbols s ↔ allowed x s = true ∧ freqAt x s ≠ 0 := by
  unfold leafSymbols
  rw [List.mem_filter]
  have hx : x ∈ (List.range Config.nsym).map (BitVec.ofNat 8) :=
    List.mem_map.2 ⟨x.toNat, by simp [Config.nsym]; exact x.isLt, by simp⟩
  simp [hx]

/-- Leaves are in ascending symbol code (R221). -/
theorem leafSymbols_sorted (s : State) : (leafSymbols s).Pairwise fun x y => x.toNat < y.toNat := by
  unfold leafSymbols
  refine List.Pairwise.filter _ ?_
  rw [List.pairwise_map]
  refine List.Pairwise.imp_of_mem ?_ List.pairwise_lt_range
  intro a b ha hb hab
  simp [Config.nsym] at ha hb
  simp; omega

theorem beginBuild_eq (s : State) :
    beginBuild s = { clearTables s with
      nodes := leafNodes s (leafSymbols s) 0 []
      task := .build (leafSymbols s).length (leafSymbols s).length (leafSymbols s).length
        (leafEntries s (leafSymbols s) 0) } := by
  unfold beginBuild
  simp only [seedLeaves_eq s _ 0 (clearTables s) [] rfl]
  simp

/-! ### The merge loop (R223 to R226) -/

/-- What holds at each head of BUILD's merge loop, started on the frequency table of `s0`. -/
structure BuildLoop (s0 : State) (n : Nat) (pq : List PqEntry) (nodes : Table Node) : Prop where
  wf : Table.wf Node.zero Config.nodeCap nodes = true
  count : n + pq.length = 2 * (leafSymbols s0).length
  pos : 1 ≤ pq.length
  ge : (leafSymbols s0).length ≤ n
  leaves : ∀ k (h : k < (leafSymbols s0).length),
    Table.read Node.zero nodes k
      = Node.mkLeaf (leafSymbols s0)[k] ((freqAt (leafSymbols s0)[k] s0).setWidth 40)
  internal : ∀ k, (leafSymbols s0).length ≤ k → k < n →
    ∃ l r w, Table.read Node.zero nodes k = Node.mkInternal l r w ∧ l.toNat < k ∧ r.toNat < k
      ∧ w.toNat = (Table.read Node.zero nodes l.toNat).weight.toNat
          + (Table.read Node.zero nodes r.toNat).weight.toNat
  beyond : ∀ k, n ≤ k → Table.read Node.zero nodes k = Node.zero
  last : ∃ e ∈ pq, e.node.toNat + 1 = n
  queue : ∀ e ∈ pq, e.node.toNat < n ∧ (Table.read Node.zero nodes e.node.toNat).weight = e.weight
  weights : (pq.map fun e => e.weight.toNat).sum = ((leafSymbols s0).map fun x => (freqAt x s0).toNat).sum
  roots : ∃ roots : List (PqEntry × Trie), roots.map Prod.fst = pq ∧ (∀ r ∈ roots, TrieAt nodes r.1.node r.2)
    ∧ (roots.flatMap fun r => trieIndices nodes r.1.node r.2).Perm (List.range n)
    ∧ (roots.map fun r => r.2.leaves).sum = (leafSymbols s0).length

/-- A merge of two tries whose entries are all below `n`, put at entry `n`. -/
theorem merge_trie {nodes : Table Node} {a b : NodeIndex} {ta tb : Trie} {n : Nat} (w : Weight) (hn : n < 512)
    (ha : TrieAt nodes a ta) (hb : TrieAt nodes b tb)
    (hai : ∀ k ∈ trieIndices nodes a ta, k < n) (hbi : ∀ k ∈ trieIndices nodes b tb, k < n) :
    let nodes' := Table.write Node.zero nodes n (Node.mkInternal a b w)
    TrieAt nodes' (BitVec.ofNat 9 n) (.node ta tb) ∧
      trieIndices nodes' (BitVec.ofNat 9 n) (.node ta tb)
        = n :: (trieIndices nodes a ta ++ trieIndices nodes b tb) := by
  intro nodes'
  have hread : ∀ k, k < n → Table.read Node.zero nodes' k = Table.read Node.zero nodes k := by
    intro k hk
    simp only [nodes', Table.read_write_of_ne (mkInternal_ne_zero _ _ _)]
    rw [if_neg (by omega)]
  have hself : Table.read Node.zero nodes' n = Node.mkInternal a b w := by
    simp [nodes', Table.read_write_of_ne (mkInternal_ne_zero _ _ _)]
  have hnn : (BitVec.ofNat 9 n).toNat = n := by simp; omega
  obtain ⟨ha', hax⟩ := ha.congr (nodes' := nodes') fun k hk => hread k (hai k hk)
  obtain ⟨hb', hbx⟩ := hb.congr (nodes' := nodes') fun k hk => hread k (hbi k hk)
  constructor
  · simp only [TrieAt, hnn, hself]
    exact ⟨rfl, rfl, ha', hb'⟩
  · simp only [trieIndices, hnn, hself]
    simp [Node.mkInternal, hax, hbx]

/-- One merge on the roots of a forest: the two taken out are replaced by their parent. -/
theorem merge_roots {nodes : Table Node} {roots : List (PqEntry × Trie)} {n leaves : Nat} {a b : PqEntry}
    {q1 q2 : List PqEntry} (w : Weight) (seq : BitVec 9) (hn : n < 512)
    (ha : extractMin (roots.map Prod.fst) = some (a, q1)) (hb : extractMin q1 = some (b, q2))
    (hat : ∀ r ∈ roots, TrieAt nodes r.1.node r.2)
    (hperm : (roots.flatMap fun r => trieIndices nodes r.1.node r.2).Perm (List.range n))
    (hleaves : (roots.map fun r => r.2.leaves).sum = leaves) :
    let nodes' := Table.write Node.zero nodes n (Node.mkInternal a.node b.node w)
    ∃ roots' : List (PqEntry × Trie),
      roots'.map Prod.fst = q2 ++ [⟨w, seq, BitVec.ofNat 9 n⟩] ∧ (∀ r ∈ roots', TrieAt nodes' r.1.node r.2)
      ∧ (roots'.flatMap fun r => trieIndices nodes' r.1.node r.2).Perm (List.range (n + 1))
      ∧ (roots'.map fun r => r.2.leaves).sum = leaves := by
  intro nodes'
  obtain ⟨fa, f1, hp1, rfl, hf1⟩ := extractMin_lift roots ha
  rw [← hf1] at hb
  obtain ⟨fb, f2, hp2, rfl, hf2⟩ := extractMin_lift f1 hb
  have hp : roots.Perm (fa :: fb :: f2) := hp1.trans (hp2.cons fa)
  have hmem : ∀ r, r ∈ fa :: fb :: f2 → TrieAt nodes r.1.node r.2 ∧
      ∀ k ∈ trieIndices nodes r.1.node r.2, k < n := by
    intro r hr
    have hr' := hp.mem_iff.2 hr
    refine ⟨hat r hr', fun k hk => ?_⟩
    exact List.mem_range.1 (hperm.mem_iff.1 (List.mem_flatMap.2 ⟨r, hr', hk⟩))
  obtain ⟨hta, hai⟩ := hmem fa (by simp)
  obtain ⟨htb, hbi⟩ := hmem fb (by simp)
  obtain ⟨hnew, hnewx⟩ := merge_trie w hn hta htb hai hbi
  have hold : ∀ r ∈ f2, TrieAt nodes' r.1.node r.2 ∧
      trieIndices nodes' r.1.node r.2 = trieIndices nodes r.1.node r.2 := by
    intro r hr
    obtain ⟨h1, h2⟩ := hmem r (by simp [hr])
    refine h1.congr fun k hk => ?_
    simp only [nodes', Table.read_write_of_ne (mkInternal_ne_zero _ _ _)]
    rw [if_neg (by have := h2 k hk; omega)]
  refine ⟨f2 ++ [(⟨w, seq, BitVec.ofNat 9 n⟩, .node fa.2 fb.2)], by simp [hf2], ?_, ?_, ?_⟩
  · intro r hr
    rcases List.mem_append.1 hr with hr | hr
    · exact (hold r hr).1
    · obtain rfl := List.mem_singleton.1 hr
      exact hnew
  · have e1 : (f2.flatMap fun r => trieIndices nodes' r.1.node r.2)
        = f2.flatMap fun r => trieIndices nodes r.1.node r.2 := by
      simp only [List.flatMap_def]
      rw [List.map_congr_left fun r hr => (hold r hr).2]
    have e2 := hp.flatMap_right fun r => trieIndices nodes r.1.node r.2
    rw [List.flatMap_append, List.flatMap_singleton, e1, hnewx, List.range_succ]
    have e3 := (e2.symm.trans hperm)
    simp only [List.flatMap_cons] at e3
    refine List.Perm.trans ?_ (e3.append_right [n])
    refine List.Perm.trans List.perm_append_comm ?_
    refine List.Perm.trans ?_ List.perm_append_comm
    simp only [List.cons_append, List.nil_append, List.append_assoc]
    exact List.Perm.refl _
  · have e1 := (hp.map fun r => r.2.leaves).sum_nat
    simp only [List.map_cons, List.sum_cons] at e1
    simp [Trie.leaves]; omega

/-- The forest of BUILD's leaves. -/
def leafRoots (s : State) (xs : List Symbol) (n : Nat) : List (PqEntry × Trie) :=
  (leafEntries s xs n).zip (xs.map Trie.leaf)

theorem leafEntries_getElem (s : State) (xs : List Symbol) (n k : Nat) (h : k < (leafEntries s xs n).length) :
    (leafEntries s xs n)[k] = ⟨(freqAt (xs[k]'(by simpa using h)) s).setWidth 40, BitVec.ofNat 9 (n + k),
      BitVec.ofNat 9 (n + k)⟩ := by
  induction xs generalizing n k with
  | nil => simp at h
  | cons x xs ih =>
    cases k with
    | zero => simp [leafEntries]
    | succ k =>
      simp only [leafEntries, List.getElem_cons_succ]
      rw [ih (n + 1) k (by simpa using h)]
      have : n + 1 + k = n + (k + 1) := by omega
      rw [this]

theorem leafEntries_weights (s : State) (xs : List Symbol) (n : Nat) :
    ((leafEntries s xs n).map fun e => e.weight.toNat).sum = (xs.map fun x => (freqAt x s).toNat).sum := by
  induction xs generalizing n with
  | nil => rfl
  | cons x xs ih =>
    simp only [leafEntries, List.map_cons, List.sum_cons, ih]
    rw [BitVec.toNat_setWidth, Nat.mod_eq_of_lt (by have := (freqAt x s).isLt; omega)]

theorem leafRoots_fst (s : State) (xs : List Symbol) (n : Nat) :
    (leafRoots s xs n).map Prod.fst = leafEntries s xs n := by
  simp [leafRoots, List.map_fst_zip]

theorem leafRoots_mem {s : State} {xs : List Symbol} {n : Nat} {r : PqEntry × Trie} (h : r ∈ leafRoots s xs n) :
    ∃ k, ∃ hk : k < xs.length, r = (⟨(freqAt xs[k] s).setWidth 40, BitVec.ofNat 9 (n + k), BitVec.ofNat 9 (n + k)⟩,
      Trie.leaf xs[k]) := by
  obtain ⟨k, hk, rfl⟩ := List.getElem_of_mem h
  simp only [leafRoots, List.length_zip, leafEntries_length, List.length_map, Nat.min_self] at hk
  refine ⟨k, hk, ?_⟩
  simp only [leafRoots, List.getElem_zip, leafEntries_getElem, List.getElem_map]

theorem leafRoots_indices (s : State) (xs : List Symbol) (n : Nat) (nodes : Table Node) (hb : n + xs.length ≤ 512) :
    ((leafRoots s xs n).flatMap fun r => trieIndices nodes r.1.node r.2) = List.range' n xs.length := by
  induction xs generalizing n with
  | nil => rfl
  | cons x xs ih =>
    simp only [List.length_cons] at hb
    have := ih (n + 1) (by omega)
    simp only [leafRoots] at this ⊢
    simp only [leafEntries, List.map_cons, List.zip_cons_cons, List.flatMap_cons, this, trieIndices,
      List.length_cons, List.range'_succ]
    simp; omega

theorem leafRoots_leaves (s : State) (xs : List Symbol) (n : Nat) :
    ((leafRoots s xs n).map fun r => r.2.leaves).sum = xs.length := by
  induction xs generalizing n with
  | nil => rfl
  | cons x xs ih =>
    have := ih (n + 1)
    simp only [leafRoots] at this ⊢
    simp [leafEntries, this, Trie.leaves]; omega

/-- The merge loop's first head. -/
theorem buildLoop_start (s : State) (hne : leafSymbols s ≠ []) :
    BuildLoop s (leafSymbols s).length (leafEntries s (leafSymbols s) 0) (leafNodes s (leafSymbols s) 0 []) := by
  have hL := leafSymbols_length s
  have hpos : 1 ≤ (leafSymbols s).length := by
    rcases hxs : leafSymbols s with _ | ⟨x, xs⟩
    · exact absurd hxs hne
    · simp
  have hread : ∀ k, Table.read Node.zero (leafNodes s (leafSymbols s) 0 []) k =
      if h : k < (leafSymbols s).length then
        Node.mkLeaf (leafSymbols s)[k] ((freqAt (leafSymbols s)[k] s).setWidth 40) else Node.zero := by
    intro k
    rw [leafNodes_read]
    simp
  have hmod : ∀ k, k < (leafSymbols s).length → (BitVec.ofNat 9 (0 + k)).toNat = k := by
    intro k hk; simp; omega
  constructor
  · exact leafNodes_wf _ _ _ _ rfl (by omega)
  · simp; omega
  · simpa using hpos
  · exact Nat.le_refl _
  · intro k hk; rw [hread, dif_pos hk]
  · intro k h1 h2; omega
  · intro k hk; rw [hread, dif_neg (by omega)]
  · have hlt : (leafSymbols s).length - 1 < (leafEntries s (leafSymbols s) 0).length := by simp; omega
    refine ⟨_, List.getElem_mem hlt, ?_⟩
    rw [leafEntries_getElem]
    simp only [hmod _ (show (leafSymbols s).length - 1 < (leafSymbols s).length by omega)]
    omega
  · intro e he
    obtain ⟨k, hk, rfl⟩ := List.getElem_of_mem he
    have hk' : k < (leafSymbols s).length := by simpa using hk
    rw [leafEntries_getElem]
    simp only [hmod k hk', hread, hk', dif_pos]
    exact ⟨trivial, rfl⟩
  · exact leafEntries_weights _ _ _
  · refine ⟨leafRoots s (leafSymbols s) 0, leafRoots_fst _ _ _, ?_, ?_, leafRoots_leaves _ _ _⟩
    · intro r hr
      obtain ⟨k, hk, rfl⟩ := leafRoots_mem hr
      simp only [TrieAt, hmod k hk, hread, hk, dif_pos]
      exact ⟨rfl, rfl, rfl⟩
    · rw [leafRoots_indices _ _ _ _ (by omega), List.range_eq_range']

theorem sum_map_toNat_le (xs : List Symbol) (s : State) :
    (xs.map fun x => (freqAt x s).toNat).sum ≤ xs.length * (2 ^ 32 - 1) := by
  induction xs with
  | nil => simp
  | cons x xs ih =>
    have := (freqAt x s).isLt
    simp only [List.map_cons, List.sum_cons, List.length_cons]
    omega

/-- One merge keeps what holds at the loop's head (R223, R224). -/
theorem buildLoop_step {s0 : State} {n : Nat} {pq q1 q2 : List PqEntry} {nodes : Table Node} {a b : PqEntry}
    (seq : Nat) (h : BuildLoop s0 n pq nodes) (ha : extractMin pq = some (a, q1)) (hb : extractMin q1 = some (b, q2)) :
    BuildLoop s0 (n + 1) (q2 ++ [⟨a.weight + b.weight, BitVec.ofNat 9 seq, BitVec.ofNat 9 n⟩])
      (Table.write Node.zero nodes n (Node.mkInternal a.node b.node (a.weight + b.weight))) := by
  have hL := leafSymbols_length s0
  have hla := extractMin_length ha
  have hlb := extractMin_length hb
  have hcount := h.count
  have hn : n < 511 := by omega
  have hp : pq.Perm (a :: b :: q2) := (extractMin_perm ha).trans ((extractMin_perm hb).cons a)
  have hmem : ∀ e, e ∈ a :: b :: q2 → e.node.toNat < n ∧
      (Table.read Node.zero nodes e.node.toNat).weight = e.weight := fun e he => h.queue e (hp.mem_iff.2 he)
  have hread : ∀ k, Table.read Node.zero
      (Table.write Node.zero nodes n (Node.mkInternal a.node b.node (a.weight + b.weight))) k
      = if n = k then Node.mkInternal a.node b.node (a.weight + b.weight) else Table.read Node.zero nodes k :=
    fun k => Table.read_write_of_ne (mkInternal_ne_zero _ _ _)
  have hsum := (hp.map fun e => e.weight.toNat).sum_nat
  rw [h.weights] at hsum
  simp only [List.map_cons, List.sum_cons] at hsum
  have hbound := sum_map_toNat_le (leafSymbols s0) s0
  have hadd : (a.weight + b.weight).toNat = a.weight.toNat + b.weight.toNat := by
    rw [BitVec.toNat_add, Nat.mod_eq_of_lt]
    omega
  have hnn : (BitVec.ofNat 9 n).toNat = n := by simp; omega
  constructor
  · exact Table.write_wf h.wf (by simp [Config.nodeCap]; omega)
  · simp; omega
  · simp
  · exact h.ge.trans (Nat.le_succ n)
  · intro k hk
    have := h.ge
    rw [hread, if_neg (by omega)]
    exact h.leaves k hk
  · intro k h1 h2
    by_cases hkn : n = k
    · subst hkn
      obtain ⟨ha1, ha2⟩ := hmem a (by simp)
      obtain ⟨hb1, hb2⟩ := hmem b (by simp)
      refine ⟨a.node, b.node, a.weight + b.weight, by rw [hread, if_pos rfl], ha1, hb1, ?_⟩
      rw [hread, hread, if_neg (by omega), if_neg (by omega), ha2, hb2, hadd]
    · obtain ⟨l, r, w, e1, e2, e3, e4⟩ := h.internal k h1 (by omega)
      refine ⟨l, r, w, by rw [hread, if_neg hkn, e1], e2, e3, ?_⟩
      rw [hread, hread, if_neg (by omega), if_neg (by omega), e4]
  · intro k hk
    rw [hread, if_neg (by omega)]
    exact h.beyond k (by omega)
  · exact ⟨⟨a.weight + b.weight, BitVec.ofNat 9 seq, BitVec.ofNat 9 n⟩, by simp, by rw [hnn]⟩
  · intro e he
    rcases List.mem_append.1 he with he | he
    · obtain ⟨h1, h2⟩ := hmem e (by simp [he])
      refine ⟨by omega, ?_⟩
      rw [hread, if_neg (by omega), h2]
    · obtain rfl := List.mem_singleton.1 he
      refine ⟨by rw [hnn]; omega, ?_⟩
      rw [hread, if_pos hnn.symm]
      rfl
  · simp only [List.map_append, List.sum_append, List.map_cons, List.map_nil, List.sum_cons, List.sum_nil, hadd]
    omega
  · obtain ⟨roots, hr1, hr2, hr3, hr4⟩ := h.roots
    exact merge_roots _ _ (by omega) (by rw [hr1]; exact ha) hb hr2 hr3 hr4

/-- The merge loop, from any head of it: `pq.length - 1` merges and the end (R223, R226). -/
theorem build_run {s0 : State} (m : Nat) {n seq : Nat} {pq : List PqEntry} (s : State)
    (hm : pq.length = m + 1) (h : BuildLoop s0 n pq s.nodes)
    (ht : s.task = .build n seq (leafSymbols s0).length pq) :
    ∃ nodes e, coreSteps (m + 1) s = some
        { s with nodes := nodes, trieState := .valid, root := BitVec.ofNat 9 (2 * (leafSymbols s0).length - 2),
                 nodecnt := BitVec.ofNat 10 (2 * (leafSymbols s0).length - 1),
                 leafcnt := BitVec.ofNat 9 (leafSymbols s0).length,
                 result := .ok, subcause := .none, task := .idle }
      ∧ BuildLoop s0 (2 * (leafSymbols s0).length - 1) [e] nodes
      ∧ e.node = BitVec.ofNat 9 (2 * (leafSymbols s0).length - 2) := by
  induction m generalizing n seq pq s with
  | zero =>
    obtain ⟨e, rfl⟩ := List.length_eq_one_iff.1 hm
    have hcount := h.count
    simp only [List.length_singleton] at hcount
    have hL := leafSymbols_length s0
    have hn : n = 2 * (leafSymbols s0).length - 1 := by omega
    obtain ⟨e', he', hlast⟩ := h.last
    obtain rfl := List.mem_singleton.1 he'
    have hnode : e'.node = BitVec.ofNat 9 (2 * (leafSymbols s0).length - 2) := by
      apply BitVec.eq_of_toNat_eq
      simp only [BitVec.toNat_ofNat]
      rw [Nat.mod_eq_of_lt (by omega)]
      omega
    refine ⟨s.nodes, e', ?_, by rw [← hn]; exact h, hnode⟩
    refine coreSteps_one ?_
    simp [coreStep, ht, buildStep, extractMin, finish, setTrie, hnode, hn]
  | succ m ih =>
    cases ha : extractMin pq with
    | none => rw [extractMin_none] at ha; subst ha; simp at hm
    | some r =>
      obtain ⟨a, q1⟩ := r
      have hla := extractMin_length ha
      cases hb : extractMin q1 with
      | none => rw [extractMin_none] at hb; subst hb; simp at hla; omega
      | some r =>
        obtain ⟨b, q2⟩ := r
        have hlb := extractMin_length hb
        let s1 : State := { writeNode n (Node.mkInternal a.node b.node (a.weight + b.weight)) s with
          task := .build (n + 1) (seq + 1) (leafSymbols s0).length
            (q2 ++ [⟨a.weight + b.weight, BitVec.ofNat 9 seq, BitVec.ofNat 9 n⟩]) }
        have hstep : coreStep s = some s1 := by simp [coreStep, ht, buildStep, ha, hb, s1]
        rw [coreSteps_succ hstep]
        have hlen : (q2 ++ [(⟨a.weight + b.weight, BitVec.ofNat 9 seq, BitVec.ofNat 9 n⟩ : PqEntry)]).length
            = m + 1 := by
          rw [List.length_append, List.length_singleton]; omega
        obtain ⟨nodes, e, h1, h2, h3⟩ := ih s1 hlen (buildLoop_step seq h ha hb) rfl
        exact ⟨nodes, e, h1, h2, h3⟩

end Sys2Proof.Machine
end

