-- ==== Sys2Proof/Laws/Host.lean ====
section
/-! SUPPORT. The register map as equations, and what a host access is, idle and busy. -/

namespace Sys2Proof.Machine

/-! ### The register at an address (10_state.md R32) -/

theorem regAt_lutBits (k : Fin 8) : regAt (BitVec.ofNat 12 (0x050 + 4 * k.val)) = some (.lutBits k) := by
  revert k; decide

theorem regAt_allow (k : Fin 8) : regAt (BitVec.ofNat 12 (0x080 + 4 * k.val)) = some (.allow k) := by
  revert k; decide

theorem regAt_freq (x : Symbol) : regAt (BitVec.ofNat 12 (0x400 + 4 * x.toNat)) = some (.freq x) := by
  have hx := x.isLt
  have e : (BitVec.ofNat 12 (0x400 + 4 * x.toNat)).toNat = 0x400 + 4 * x.toNat := by simp; omega
  unfold regAt
  simp only [e]
  rw [if_neg (by omega), if_neg (by omega), if_neg (by omega), if_pos (by omega)]
  have : (0x400 + 4 * x.toNat - 0x400) / 4 = x.toNat := by omega
  rw [this]; simp

/-- Misaligned and reserved addresses have no register (R32; 20_memory.md R102). -/
theorem regAt_none (a : Address) (h : a.toNat % 4 ≠ 0 ∨ a.toNat = 0x04C ∨ (0x070 ≤ a.toNat ∧ a.toNat < 0x080)
    ∨ (0x0A0 ≤ a.toNat ∧ a.toNat < 0x400) ∨ 0x800 ≤ a.toNat) : regAt a = none := by
  unfold regAt
  generalize a.toNat = n at h
  simp only
  by_cases h4 : n % 4 ≠ 0
  · rw [if_pos h4]
  · rw [if_neg h4, if_neg (by omega), if_neg (by omega), if_neg (by omega), List.lookup_eq_none_iff]
    intro p hp
    have hb : p.1 ≤ 0x048 := by
      revert p
      decide
    simp only [bne_iff_ne, ne_eq]
    omega

/-- A register of an address of the LUT_BITS, ALLOW or FREQ windows. -/
theorem regAt_window {a : Address} (h : a.toNat % 4 = 0) :
    (0x050 ≤ a.toNat → a.toNat < 0x070 → ∃ k, regAt a = some (.lutBits k))
    ∧ (0x080 ≤ a.toNat → a.toNat < 0x0A0 → ∃ k, regAt a = some (.allow k))
    ∧ (0x400 ≤ a.toNat → a.toNat < 0x800 → ∃ x, regAt a = some (.freq x)) := by
  unfold regAt
  simp only
  rw [if_neg (by omega)]
  refine ⟨fun h1 h2 => ?_, fun h1 h2 => ?_, fun h1 h2 => ?_⟩
  · rw [if_pos ⟨h1, h2⟩]; exact ⟨_, rfl⟩
  · rw [if_neg (by omega), if_pos ⟨h1, h2⟩]; exact ⟨_, rfl⟩
  · rw [if_neg (by omega), if_neg (by omega), if_pos ⟨h1, h2⟩]; exact ⟨_, rfl⟩

/-! ### Accesses -/

theorem idle_of_busy {s : State} (h : s.busy = false) : s.task = .idle := by
  unfold State.busy at h; split at h <;> simp_all

theorem hostRead_none {a : Address} (h : regAt a = none) (s : State) : hostRead a s = answerRead 0 s := by
  simp only [hostRead, h]

theorem hostRead_idle {a : Address} {r : Reg} (h : regAt a = some r) {s : State} (hb : s.busy = false) :
    hostRead a s = answerRead (regValue r s) s := by
  simp only [hostRead, h]; rw [if_neg (by simp [hb])]

theorem hostRead_busy {a : Address} {r : Reg} (h : regAt a = some r) {s : State} (hb : s.busy = true) :
    hostRead a s = busyRead r s := by
  simp only [hostRead, h]; rw [if_pos hb]

theorem hostWrite_none {a : Address} (h : regAt a = none) (v : Word) (s : State) : hostWrite a v s = s := by
  simp only [hostWrite, h]

theorem hostWrite_idle {a : Address} {r : Reg} (h : regAt a = some r) {s : State} (hb : s.busy = false) (v : Word) :
    hostWrite a v s = idleWrite r v s := by
  simp only [hostWrite, h]; rw [if_neg (by simp [hb])]

theorem hostWrite_busy {a : Address} {r : Reg} (h : regAt a = some r) {s : State} (hb : s.busy = true) (v : Word) :
    hostWrite a v s = busyWrite r v s := by
  simp only [hostWrite, h]; rw [if_pos hb]

theorem regAt_cmd : regAt 0x00C = some .cmd := by decide
theorem regAt_ctrl : regAt 0x008 = some .ctrl := by decide
theorem regAt_status : regAt 0x010 = some .status := by decide
theorem regAt_msglen : regAt 0x014 = some .msglen := by decide

/-- The issue of a word to an idle core (60_exceptions.md R403). -/
theorem serve_cmd {s : State} {w : Word} (p : Pace) (h : s.busy = false) :
    serve ⟨.write 0x00C w, p⟩ s = { s with cmd := w, task := .issued } := by
  unfold serve
  rw [if_neg (by simp)]
  simp only [perform]
  rw [hostWrite_idle regAt_cmd h]
  rfl

/-- A WAIT that finds the core idle (30_encoding.md R182). -/
theorem serve_wait {s : State} (p : Pace) (h : s.busy = false) :
    serve ⟨.wait, p⟩ s = answerRead (statusWord s) s := by
  unfold serve
  rw [if_neg (by simp [h])]
  simp only [perform]
  rw [hostRead_idle regAt_status h]
  rfl

end Sys2Proof.Machine
end

