-- ==== Sys2Proof/Laws/Huffman.lean ====
section
/-! SUPPORT. Why BUILD's tries are optimal (41_trie_builder.md R227): the lengths of a prefix-free code satisfy Kraft's
inequality, and a merge of the two least weights loses nothing against any such lengths. -/

namespace Sys2Proof.Machine

/-! ### Kraft's inequality -/

/-- Code lengths that satisfy Kraft's inequality, multiplied by `2^M`. -/
def Kraft (M : Nat) (l : List Nat) : Prop := (∀ k ∈ l, k ≤ M) ∧ (l.map fun k => 2 ^ (M - k)).sum ≤ 2 ^ M

theorem Kraft.perm {M : Nat} {l l' : List Nat} (h : Kraft M l) (hp : l.Perm l') : Kraft M l' :=
  ⟨fun k hk => h.1 k (hp.mem_iff.2 hk), by rw [← (hp.map fun k => 2 ^ (M - k)).sum_nat]; exact h.2⟩

/-- The words of `S` that start with bit `b`, without it. -/
def tailsOf (b : Bool) : List (List Bool) → List (List Bool)
  | [] => []
  | (c :: w) :: S => if c = b then w :: tailsOf b S else tailsOf b S
  | [] :: S => tailsOf b S

theorem mem_tailsOf {b : Bool} {w : List Bool} (S : List (List Bool)) : w ∈ tailsOf b S ↔ (b :: w) ∈ S := by
  induction S with
  | nil => simp [tailsOf]
  | cons v S ih =>
    cases v with
    | nil => simp [tailsOf, ih]
    | cons c v =>
      by_cases h : c = b
      · subst h; simp [tailsOf, ih]
      · simp [tailsOf, ih, h, Ne.symm h]

theorem tailsOf_free {b : Bool} (S : List (List Bool)) (h : S.Pairwise fun u v => ¬ u <+: v ∧ ¬ v <+: u) :
    (tailsOf b S).Pairwise fun u v => ¬ u <+: v ∧ ¬ v <+: u := by
  induction S with
  | nil => simp [tailsOf]
  | cons v S ih =>
    obtain ⟨h1, h2⟩ := List.pairwise_cons.1 h
    cases v with
    | nil => exact ih h2
    | cons c v =>
      simp only [tailsOf]
      split
      · rename_i hc
        subst hc
        refine List.pairwise_cons.2 ⟨fun w hw => ?_, ih h2⟩
        have := h1 _ ((mem_tailsOf S).1 hw)
        simpa using this
      · exact ih h2

theorem tailsOf_sum (M : Nat) (S : List (List Bool)) (h : ([] : List Bool) ∉ S) (hlen : ∀ w ∈ S, w.length ≤ M + 1) :
    ((tailsOf false S).map fun w => 2 ^ (M - w.length)).sum + ((tailsOf true S).map fun w => 2 ^ (M - w.length)).sum
      = (S.map fun w => 2 ^ (M + 1 - w.length)).sum := by
  induction S with
  | nil => rfl
  | cons v S ih =>
    have := ih (fun hh => h (by simp [hh])) fun w hw => hlen w (by simp [hw])
    cases v with
    | nil => simp at h
    | cons c v =>
      have e : M + 1 - (c :: v).length = M - v.length := by simp
      cases c <;> simp only [tailsOf, if_true, List.map_cons, List.sum_cons, e, reduceCtorEq, if_false] <;> omega

/-- The lengths of a prefix-free code satisfy Kraft's inequality. -/
theorem kraft_of_free (M : Nat) (S : List (List Bool)) (h : S.Pairwise fun u v => ¬ u <+: v ∧ ¬ v <+: u)
    (hlen : ∀ w ∈ S, w.length ≤ M) : (S.map fun w => 2 ^ (M - w.length)).sum ≤ 2 ^ M := by
  by_cases hnil : ([] : List Bool) ∈ S
  · have : S = [[]] := by
      cases S with
      | nil => simp at hnil
      | cons v S =>
        obtain ⟨h1, _⟩ := List.pairwise_cons.1 h
        rcases List.mem_cons.1 hnil with hv | hS
        · subst hv
          cases S with
          | nil => rfl
          | cons w S => exact absurd (List.nil_prefix) (h1 w (by simp)).1
        · exact absurd (List.nil_prefix) (h1 _ hS).2
    subst this
    simp
  · cases M with
    | zero =>
      cases S with
      | nil => simp
      | cons v S =>
        have := hlen v (by simp)
        have : v = [] := List.length_eq_zero_iff.1 (by omega)
        subst this
        simp at hnil
    | succ M =>
      have hl : ∀ b, ∀ w ∈ tailsOf b S, w.length ≤ M := fun b w hw => by
        have := hlen _ ((mem_tailsOf S).1 hw)
        simpa using this
      have h1 := kraft_of_free M (tailsOf false S) (tailsOf_free S h) (hl false)
      have h2 := kraft_of_free M (tailsOf true S) (tailsOf_free S h) (hl true)
      rw [← tailsOf_sum M S hnil hlen, pow_succ]
      omega
termination_by M

/-! ### One merge -/

/-- The cost of weights with code lengths. -/
def codeCost (L : List (Nat × Nat)) : Nat := (L.map fun p => p.1 * p.2).sum

theorem codeCost_perm {L L' : List (Nat × Nat)} (h : L.Perm L') : codeCost L = codeCost L' :=
  (h.map fun p : Nat × Nat => p.1 * p.2).sum_nat

@[simp] theorem codeCost_cons (p : Nat × Nat) (L : List (Nat × Nat)) : codeCost (p :: L) = p.1 * p.2 + codeCost L := rfl

/-- The weight with the longest length may as well be the least one. -/
theorem exchange_least {w m a : Nat} {R : List (Nat × Nat)} (hle : ∀ r ∈ R, r.2 ≤ m) (hmem : w ∈ a :: R.map Prod.fst)
    (hmin : w ≤ a) : ∃ R' : List (Nat × Nat), (R'.map Prod.snd).Perm (R.map Prod.snd)
      ∧ (w :: R'.map Prod.fst).Perm (a :: R.map Prod.fst) ∧ w * m + codeCost R' ≤ a * m + codeCost R := by
  rcases List.mem_cons.1 hmem with rfl | hR
  · exact ⟨R, List.Perm.refl _, List.Perm.refl _, Nat.le_refl _⟩
  · obtain ⟨⟨w', k⟩, hr, rfl⟩ := List.mem_map.1 hR
    have hp := List.perm_cons_erase hr
    have hk : k ≤ m := hle _ hr
    refine ⟨(a, k) :: R.erase (w', k), ?_, ?_, ?_⟩
    · exact (hp.map Prod.snd).symm
    · refine (List.Perm.swap _ _ _).trans ?_
      exact ((hp.map Prod.fst).symm).cons a
    · rw [codeCost_perm hp]
      simp only [codeCost_cons]
      simp only at hmin
      obtain ⟨d, rfl⟩ := Nat.exists_eq_add_of_le hmin
      obtain ⟨e, rfl⟩ := Nat.exists_eq_add_of_le hk
      simp only [Nat.add_mul, Nat.mul_add]
      omega

/-- Lengths below the only longest one leave room to shorten it. -/
theorem kraft_room {M m : Nat} {l : List Nat} (hm : m ≤ M) (h : Kraft M (m :: l)) (hlt : ∀ k ∈ l, k < m) (hne : l ≠ []) :
    Kraft M ((m - 1) :: l) := by
  have hpos : 1 ≤ m := by
    obtain ⟨k, hk⟩ := List.exists_mem_of_ne_nil _ hne
    have := hlt k hk; omega
  refine ⟨fun k hk => ?_, ?_⟩
  · rcases List.mem_cons.1 hk with rfl | hk
    · omega
    · exact h.1 k (by simp [hk])
  · have hdiv : ∃ X, (l.map fun k => 2 ^ (M - k)).sum = 2 * 2 ^ (M - m) * X := by
      have hle : ∀ k ∈ l, k ≤ M := fun k hk => h.1 k (by simp [hk])
      clear h hne
      induction l with
      | nil => exact ⟨0, rfl⟩
      | cons k l ih =>
        obtain ⟨X, hX⟩ := ih (fun k hk => hlt k (by simp [hk])) fun k hk => hle k (by simp [hk])
        have hk := hlt k (by simp)
        refine ⟨2 ^ (m - 1 - k) + X, ?_⟩
        have e : M - k = (M - m) + 1 + (m - 1 - k) := by omega
        rw [List.map_cons, List.sum_cons, hX, e, pow_add, pow_succ, Nat.mul_add]
        ring
    obtain ⟨X, hX⟩ := hdiv
    have h2 := h.2
    simp only [List.map_cons, List.sum_cons, hX] at h2 ⊢
    have e1 : 2 ^ M = 2 * 2 ^ (M - m) * 2 ^ (m - 1) := by
      rw [← pow_succ', ← pow_add]; congr 1; omega
    have e2 : 2 ^ (M - (m - 1)) = 2 * 2 ^ (M - m) := by
      rw [← pow_succ']; congr 1; omega
    rw [e1] at h2 ⊢
    rw [e2]
    generalize 2 ^ (M - m) = u at *
    generalize 2 ^ (m - 1) = Y at *
    rcases Nat.lt_or_ge X Y with hXY | hXY
    · obtain ⟨d, rfl⟩ := Nat.exists_eq_add_of_lt hXY
      simp only [Nat.mul_add, Nat.mul_one]
      omega
    · have := Nat.mul_le_mul_left (2 * u) hXY
      have : u = 0 := by omega
      subst this; simp

/-- Whatever lengths the weights have, merging the two least ones costs no more: the parent's weight is their sum, and
their lengths are one more than its (41_trie_builder.md R223). -/
theorem merge_optimal (N : Nat) {M w1 w2 : Nat} {ws : List Nat} (L : List (Nat × Nat))
    (hN : (L.map Prod.snd).sum ≤ N) (h : Kraft M (L.map Prod.snd)) (hw : (L.map Prod.fst).Perm (w1 :: w2 :: ws))
    (h1 : w1 ≤ w2) (h2 : ∀ w ∈ ws, w2 ≤ w) :
    ∃ L' : List (Nat × Nat), (L'.map Prod.fst).Perm ((w1 + w2) :: ws) ∧ Kraft M (L'.map Prod.snd)
      ∧ codeCost L' + (w1 + w2) ≤ codeCost L := by
  induction N generalizing L with
  | zero =>
    exfalso
    have hlen := hw.length_eq
    simp only [List.length_map, List.length_cons] at hlen
    match L, hlen with
    | p :: q :: R, _ =>
      have hk := h.2
      simp only [List.map_cons, List.sum_cons] at hN hk
      have e1 : p.2 = 0 := by omega
      have e2 : q.2 = 0 := by omega
      rw [e1, e2, Nat.sub_zero] at hk
      have : 0 < 2 ^ M := Nat.pos_of_ne_zero (by simp)
      omega
  | succ N ih =>
    have hlen := hw.length_eq
    simp only [List.length_map, List.length_cons] at hlen
    -- an entry with the longest length
    have hmax : ∃ p ∈ L, ∀ q ∈ L, q.2 ≤ p.2 := by
      have : ∀ L : List (Nat × Nat), L ≠ [] → ∃ p ∈ L, ∀ q ∈ L, q.2 ≤ p.2 := by
        intro L
        induction L with
        | nil => simp
        | cons p L ih =>
          intro _
          by_cases hL : L = []
          · exact ⟨p, by simp, by simp [hL]⟩
          · obtain ⟨q, hq, hmx⟩ := ih hL
            by_cases hpq : p.2 ≤ q.2
            · exact ⟨q, by simp [hq], fun r hr => by
                rcases List.mem_cons.1 hr with rfl | hr
                · exact hpq
                · exact hmx r hr⟩
            · exact ⟨p, by simp, fun r hr => by
                rcases List.mem_cons.1 hr with rfl | hr
                · exact Nat.le_refl _
                · have := hmx r hr; omega⟩
      exact this L (by intro h0; subst h0; simp at hlen)
    obtain ⟨⟨a, m⟩, hpm, hmx⟩ := hmax
    simp only at hmx
    have hpL := List.perm_cons_erase hpm
    generalize L.erase (a, m) = R at hpL
    have hmxR : ∀ r ∈ R, r.2 ≤ m := fun r hr => hmx r (hpL.mem_iff.2 (by simp [hr]))
    have hKR : Kraft M (m :: R.map Prod.snd) := h.perm (hpL.map Prod.snd)
    have hwR : (a :: R.map Prod.fst).Perm (w1 :: w2 :: ws) := ((hpL.map Prod.fst).symm).trans hw
    have hRne : R ≠ [] := by
      intro h0; subst h0
      have := hwR.length_eq
      simp at this
    have hcost := codeCost_perm hpL
    by_cases hq : ∃ q ∈ R, q.2 = m
    · -- two entries with the longest length
      obtain ⟨⟨b, m'⟩, hqR, hm'⟩ := hq
      simp only at hm'
      subst hm'
      have hall : ∀ w ∈ a :: R.map Prod.fst, w1 ≤ w := by
        intro w hmem
        have := hwR.mem_iff.1 hmem
        simp only [List.mem_cons] at this
        rcases this with rfl | rfl | hws
        · exact Nat.le_refl _
        · exact h1
        · exact h1.trans (h2 w hws)
      obtain ⟨R1, p1, p2, p3⟩ := exchange_least (w := w1) (m := m') (a := a) hmxR (hwR.mem_iff.2 (by simp))
        (hall a (by simp))
      have hw1 : (R1.map Prod.fst).Perm (w2 :: ws) := (p2.trans hwR).cons_inv
      have hm1 : m' ∈ R1.map Prod.snd := p1.mem_iff.2 (List.mem_map.2 ⟨_, hqR, rfl⟩)
      obtain ⟨⟨b', m2⟩, hb', hm2⟩ := List.mem_map.1 hm1
      simp only at hm2
      subst hm2
      have hpR1 := List.perm_cons_erase hb'
      generalize R1.erase (b', m2) = R2 at hpR1
      have hw2 : (b' :: R2.map Prod.fst).Perm (w2 :: ws) := ((hpR1.map Prod.fst).symm).trans hw1
      have hmx2 : ∀ r ∈ R2, r.2 ≤ m2 := by
        intro r hr
        have : r.2 ∈ R.map Prod.snd := p1.mem_iff.1 (List.mem_map.2 ⟨r, hpR1.mem_iff.2 (by simp [hr]), rfl⟩)
        obtain ⟨r', hr', he⟩ := List.mem_map.1 this
        rw [← he]; exact hmxR r' hr'
      have hall2 : w2 ≤ b' := by
        have := hw2.mem_iff.1 (List.mem_cons_self)
        rcases List.mem_cons.1 this with hb2 | hws
        · exact hb2 ▸ Nat.le_refl _
        · exact h2 _ hws
      obtain ⟨R3, q1, q2, q3⟩ := exchange_least (w := w2) (m := m2) (a := b') hmx2 (hw2.mem_iff.2 (by simp)) hall2
      have hK : Kraft M (m2 :: m2 :: R3.map Prod.snd) := by
        refine hKR.perm ?_
        refine List.Perm.cons _ ?_
        refine p1.symm.trans ?_
        refine (hpR1.map Prod.snd).trans ?_
        exact (q1.symm).cons _
      have hM := hK.1 m2 (by simp)
      have hpos : 1 ≤ m2 := by
        by_contra h0
        have h0 : m2 = 0 := by omega
        have hk := hK.2
        simp only [List.map_cons, List.sum_cons, h0, Nat.sub_zero] at hk
        have : 0 < 2 ^ M := Nat.pos_of_ne_zero (by simp)
        omega
      refine ⟨(w1 + w2, m2 - 1) :: R3, ((q2.trans hw2).cons_inv).cons _, ⟨?_, ?_⟩, ?_⟩
      · intro k hk
        rcases List.mem_cons.1 hk with rfl | hk
        · simp only; omega
        · exact hK.1 k (by simp [hk])
      · have hk := hK.2
        simp only [List.map_cons, List.sum_cons] at hk ⊢
        have e : M - (m2 - 1) = (M - m2) + 1 := by omega
        rw [e, pow_succ]
        omega
      · rw [hcost]
        have e4 := codeCost_perm hpR1
        simp only [codeCost_cons] at e4 ⊢
        obtain ⟨k, rfl⟩ : ∃ k, m2 = k + 1 := ⟨m2 - 1, by omega⟩
        simp only [Nat.add_sub_cancel, Nat.add_mul, Nat.mul_add, Nat.mul_one] at *
        omega
    · -- one entry alone has the longest length
      have hlt : ∀ r ∈ R, r.2 < m := fun r hr => by
        have := hmxR r hr
        have : r.2 ≠ m := fun he => hq ⟨r, hr, he⟩
        omega
      have hlt' : ∀ k ∈ R.map Prod.snd, k < m := by
        intro k hk
        obtain ⟨r, hr, rfl⟩ := List.mem_map.1 hk
        exact hlt r hr
      have hpos : 1 ≤ m := by
        obtain ⟨k, hk⟩ := List.exists_mem_of_ne_nil _ hRne
        have := hlt k hk; omega
      have hK := kraft_room (hKR.1 m (by simp)) hKR hlt' (by simpa using hRne)
      have hs := (hpL.map Prod.snd).sum_nat
      simp only [List.map_cons, List.sum_cons] at hs
      obtain ⟨L', e1, e2, e3⟩ := ih ((a, m - 1) :: R) (by simp only [List.map_cons, List.sum_cons]; omega) hK hwR
      refine ⟨L', e1, e2, e3.trans ?_⟩
      rw [hcost]
      simp only [codeCost_cons]
      have : a * (m - 1) ≤ a * m := Nat.mul_le_mul_left _ (by omega)
      omega

/-! ### BUILD's loop against any code -/

namespace Trie

/-- The leaves' symbols, in pre-order. -/
def symbols : Trie → List Symbol
  | leaf x => [x]
  | node l r => l.symbols ++ r.symbols

/-- The total of `f` over the leaves. -/
def total (f : Symbol → Nat) : Trie → Nat
  | leaf x => f x
  | node l r => l.total f + r.total f

/-- The sum of `f x` times the depth of the leaf of `x`. -/
def cost (f : Symbol → Nat) : Trie → Nat
  | leaf _ => 0
  | node l r => l.cost f + r.cost f + (l.total f + r.total f)

theorem pathsFrom_symbols (t : Trie) (p : List Bool) : (t.pathsFrom p).map Prod.fst = t.symbols := by
  induction t generalizing p with
  | leaf x => rfl
  | node l r ihl ihr => simp [pathsFrom, symbols, ihl, ihr]

theorem pathsFrom_cost (t : Trie) (f : Symbol → Nat) (p : List Bool) :
    ((t.pathsFrom p).map fun q => f q.1 * q.2.length).sum = t.cost f + t.total f * p.length := by
  induction t generalizing p with
  | leaf x => simp [pathsFrom, cost, total]
  | node l r ihl ihr =>
    simp only [pathsFrom, List.map_append, List.sum_append, ihl, ihr, cost, total, List.length_append,
      List.length_singleton]
    ring

end Trie

/-- What BUILD's merge loop keeps about the cost `C` of any code of the leaves: the tries made so far and some code
lengths of the queue's weights together cost no more. -/
def OptLoop (s0 : State) (C n : Nat) (pq : List PqEntry) (nodes : Table Node) : Prop :=
  ∃ (roots : List (PqEntry × Trie)) (M : Nat) (L : List (Nat × Nat)),
    roots.map Prod.fst = pq
      ∧ (∀ r ∈ roots, TrieAt nodes r.1.node r.2 ∧ (∀ k ∈ trieIndices nodes r.1.node r.2, k < n)
          ∧ r.1.weight.toNat = r.2.total fun x => (freqAt x s0).toNat)
      ∧ (roots.flatMap fun r => r.2.symbols).Perm (leafSymbols s0)
      ∧ (L.map Prod.fst).Perm (pq.map fun e => e.weight.toNat) ∧ Kraft M (L.map Prod.snd)
      ∧ (roots.map fun r => r.2.cost fun x => (freqAt x s0).toNat).sum + codeCost L ≤ C

theorem leafRoots_symbols (s : State) (xs : List Symbol) (n : Nat) :
    ((leafRoots s xs n).flatMap fun r => r.2.symbols) = xs := by
  induction xs generalizing n with
  | nil => rfl
  | cons x xs ih =>
    have := ih (n + 1)
    simp only [leafRoots] at this ⊢
    simp only [leafEntries, List.map_cons, List.zip_cons_cons, List.flatMap_cons, this, Trie.symbols]
    rfl

theorem leafRoots_cost (s : State) (xs : List Symbol) (n : Nat) (f : Symbol → Nat) :
    ((leafRoots s xs n).map fun r => r.2.cost f).sum = 0 := by
  induction xs generalizing n with
  | nil => rfl
  | cons x xs ih =>
    have := ih (n + 1)
    simp only [leafRoots] at this ⊢
    simp only [leafEntries, List.map_cons, List.zip_cons_cons, List.sum_cons, this, Trie.cost]

theorem leafEntries_toNat (s : State) (xs : List Symbol) (n : Nat) :
    (leafEntries s xs n).map (fun e => e.weight.toNat) = xs.map fun x => (freqAt x s).toNat := by
  induction xs generalizing n with
  | nil => rfl
  | cons x xs ih =>
    simp only [leafEntries, List.map_cons, ih]
    rw [BitVec.toNat_setWidth, Nat.mod_eq_of_lt (by have := (freqAt x s).isLt; omega)]

/-- The loop's first head, for code lengths `len` that satisfy Kraft's inequality. -/
theorem optLoop_start (s : State) (M : Nat) (len : Symbol → Nat) (hk : Kraft M ((leafSymbols s).map len)) :
    OptLoop s ((leafSymbols s).map fun x => (freqAt x s).toNat * len x).sum (leafSymbols s).length
      (leafEntries s (leafSymbols s) 0) (leafNodes s (leafSymbols s) 0 []) := by
  have hL := leafSymbols_length s
  refine ⟨leafRoots s (leafSymbols s) 0, M, (leafSymbols s).map fun x => ((freqAt x s).toNat, len x),
    leafRoots_fst _ _ _, fun r hr => ?_, by rw [leafRoots_symbols], ?_, ?_, ?_⟩
  · obtain ⟨k, hk, rfl⟩ := leafRoots_mem hr
    have hmod : (BitVec.ofNat 9 (0 + k)).toNat = k := by simp; omega
    have hread : Table.read Node.zero (leafNodes s (leafSymbols s) 0 []) k
        = Node.mkLeaf (leafSymbols s)[k] ((freqAt (leafSymbols s)[k] s).setWidth 40) := by
      rw [leafNodes_read, dif_pos (by simpa using hk)]; simp
    refine ⟨?_, ?_, ?_⟩
    · simp only [TrieAt, hmod, hread]
      exact ⟨rfl, rfl, rfl⟩
    · intro j hj
      simp only [trieIndices, List.mem_singleton, hmod] at hj
      omega
    · simp only [Trie.total]
      rw [BitVec.toNat_setWidth, Nat.mod_eq_of_lt]
      have := (freqAt (leafSymbols s)[k] s).isLt; omega
  · rw [leafEntries_toNat, List.map_map]
    exact List.Perm.refl _
  · rw [List.map_map]; exact hk
  · rw [leafRoots_cost, Nat.zero_add]
    simp [codeCost, Function.comp_def]

/-- A merge keeps it. -/
theorem optLoop_step {s0 : State} {C n : Nat} {pq q1 q2 : List PqEntry} {nodes : Table Node} {a b : PqEntry}
    (seq : Nat) (hl : BuildLoop s0 n pq nodes) (h : OptLoop s0 C n pq nodes) (ha : extractMin pq = some (a, q1))
    (hb : extractMin q1 = some (b, q2)) :
    OptLoop s0 C (n + 1) (q2 ++ [⟨a.weight + b.weight, BitVec.ofNat 9 seq, BitVec.ofNat 9 n⟩])
      (Table.write Node.zero nodes n (Node.mkInternal a.node b.node (a.weight + b.weight))) := by
  obtain ⟨roots, M, L, h1, h2, h3, h4, h5, h6⟩ := h
  have hL := leafSymbols_length s0
  have hla := extractMin_length ha
  have hlb := extractMin_length hb
  have hcount := hl.count
  have hn : n < 511 := by omega
  have hp : pq.Perm (a :: b :: q2) := (extractMin_perm ha).trans ((extractMin_perm hb).cons a)
  have hsum := (hp.map fun e => e.weight.toNat).sum_nat
  rw [hl.weights] at hsum
  simp only [List.map_cons, List.sum_cons] at hsum
  have hbound := sum_map_toNat_le (leafSymbols s0) s0
  have hadd : (a.weight + b.weight).toNat = a.weight.toNat + b.weight.toNat := by
    rw [BitVec.toNat_add, Nat.mod_eq_of_lt]; omega
  have hmin1 : ∀ e ∈ q1, a.weight.toNat ≤ e.weight.toNat := by
    intro e he
    have := extractMin_least ha e he
    rw [Bool.eq_false_iff, Ne, before_iff] at this
    omega
  have hmin2 : ∀ e ∈ q2, b.weight.toNat ≤ e.weight.toNat := by
    intro e he
    have := extractMin_least hb e he
    rw [Bool.eq_false_iff, Ne, before_iff] at this
    omega
  obtain ⟨L', l1, l2, l3⟩ := merge_optimal _ L (Nat.le_refl _) h5 (h4.trans (hp.map fun e => e.weight.toNat))
    (hmin1 b ((extractMin_perm hb).mem_iff.2 (by simp))) (by
      intro w hw
      obtain ⟨e, he, rfl⟩ := List.mem_map.1 hw
      exact hmin2 e he)
  rw [← h1] at ha
  obtain ⟨fa, f1, hp1, rfl, hf1⟩ := extractMin_lift roots ha
  rw [← hf1] at hb
  obtain ⟨fb, f2, hp2, rfl, hf2⟩ := extractMin_lift f1 hb
  have hpr : roots.Perm (fa :: fb :: f2) := hp1.trans (hp2.cons fa)
  have hmem : ∀ r, r ∈ fa :: fb :: f2 → r ∈ roots := fun r hr => hpr.mem_iff.2 hr
  obtain ⟨ta, ia, wa⟩ := h2 fa (hmem fa (by simp))
  obtain ⟨tb, ib, wb⟩ := h2 fb (hmem fb (by simp))
  obtain ⟨hnew, hnewx⟩ := merge_trie (fa.1.weight + fb.1.weight) (by omega) ta tb ia ib
  refine ⟨f2 ++ [(⟨fa.1.weight + fb.1.weight, BitVec.ofNat 9 seq, BitVec.ofNat 9 n⟩, .node fa.2 fb.2)], M, L',
    by simp [hf2], ?_, ?_, ?_, l2, ?_⟩
  · intro r hr
    rcases List.mem_append.1 hr with hr | hr
    · obtain ⟨t1, i1, w1⟩ := h2 r (hmem r (by simp [hr]))
      obtain ⟨t2, i2⟩ := t1.congr
        (nodes' := Table.write Node.zero nodes n (Node.mkInternal fa.1.node fb.1.node (fa.1.weight + fb.1.weight)))
        fun k hk => by
          rw [Table.read_write_of_ne (mkInternal_ne_zero _ _ _), if_neg (by have := i1 k hk; omega)]
      refine ⟨t2, fun k hk => ?_, w1⟩
      rw [i2] at hk
      have := i1 k hk; omega
    · obtain rfl := List.mem_singleton.1 hr
      refine ⟨hnew, fun k hk => ?_, by simp only [Trie.total, hadd, wa, wb]⟩
      simp only [hnewx, List.mem_cons, List.mem_append] at hk
      rcases hk with rfl | hk | hk
      · omega
      · have := ia k hk; omega
      · have := ib k hk; omega
  · have e2 := hpr.flatMap_right fun r => r.2.symbols
    rw [List.flatMap_append, List.flatMap_singleton]
    refine List.Perm.trans ?_ (e2.symm.trans h3)
    simp only [List.flatMap_cons, Trie.symbols]
    rw [← List.append_assoc fa.2.symbols]
    exact List.perm_append_comm
  · refine l1.trans ?_
    simp only [List.map_append, List.map_cons, List.map_nil, hadd]
    exact List.perm_append_comm (l₁ := [_])
  · have e3 := (hpr.map fun r => r.2.cost fun x => (freqAt x s0).toNat).sum_nat
    simp only [List.map_cons, List.sum_cons] at e3
    simp only [List.map_append, List.sum_append, List.map_cons, List.map_nil, List.sum_cons, List.sum_nil, Trie.cost,
      ← wa, ← wb]
    omega

/-- At the end of the loop the one trie left costs no more than the code it was compared with (R227). -/
theorem build_optimal {s0 : State} {C : Nat} (m : Nat) {n seq : Nat} {pq : List PqEntry} (s : State)
    (hm : pq.length = m + 1) (hl : BuildLoop s0 n pq s.nodes) (h : OptLoop s0 C n pq s.nodes)
    (ht : s.task = .build n seq (leafSymbols s0).length pq) :
    ∃ t' trie, coreSteps (m + 1) s = some t' ∧ TrieAt t'.nodes t'.root trie
      ∧ trie.symbols.Perm (leafSymbols s0) ∧ trie.cost (fun x => (freqAt x s0).toNat) ≤ C := by
  induction m generalizing n seq pq s with
  | zero =>
    obtain ⟨e, rfl⟩ := List.length_eq_one_iff.1 hm
    obtain ⟨roots, M, L, h1, h2, h3, _, _, h6⟩ := h
    obtain ⟨r, rfl⟩ : ∃ r, roots = [r] := by
      have := congrArg List.length h1
      simp only [List.length_map, List.length_singleton] at this
      exact List.length_eq_one_iff.1 this
    simp only [List.map_cons, List.map_nil, List.cons.injEq, and_true] at h1
    obtain ⟨hat, _, _⟩ := h2 r (by simp)
    refine ⟨_, r.2, coreSteps_one (by simp only [coreStep, ht]; rfl), ?_, by simpa using h3, ?_⟩
    · simp only [buildStep, extractMin]
      rw [← h1]; exact hat
    · simp only [List.map_cons, List.map_nil, List.sum_cons, List.sum_nil] at h6
      omega
  | succ m ih =>
    cases ha : extractMin pq with
    | none => rw [extractMin_none] at ha; subst ha; simp at hm
    | some r =>
      obtain ⟨a, q1⟩ := r
      have hla := extractMin_length ha
      cases hb : extractMin q1 with
      | none => rw [extractMin_none] at hb; subst hb; simp at hla; omega
      | some r =>
        obtain ⟨b, q2⟩ := r
        have hlb := extractMin_length hb
        let s1 : State := { writeNode n (Node.mkInternal a.node b.node (a.weight + b.weight)) s with
          task := .build (n + 1) (seq + 1) (leafSymbols s0).length
            (q2 ++ [⟨a.weight + b.weight, BitVec.ofNat 9 seq, BitVec.ofNat 9 n⟩]) }
        have hstep : coreStep s = some s1 := by simp [coreStep, ht, buildStep, ha, hb, s1]
        rw [coreSteps_succ hstep]
        exact ih s1 (by rw [List.length_append, List.length_singleton]; omega) (buildLoop_step seq hl ha hb)
          (optLoop_step seq hl h ha hb) rfl

end Sys2Proof.Machine
end

