-- ==== Sys2Proof/Laws/TrieCodec.lean ====
section
/-! SUPPORT. What TENC and GENLUT do with a trie in node memory. -/

namespace Sys2Proof.Machine

theorem coreStep_tenc {s : State} {out : List Bool} {stack : List NodeIndex} (h : s.task = .tenc out stack) :
    coreStep s = tencStep out stack s := by simp [coreStep, h]

/-- TENC with one trie on its stack sends that trie's bits (43_trie_codec.md R261). -/
theorem tenc_run (t : Trie) (i : NodeIndex) (stack : List NodeIndex) (s : State) (hat : TrieAt s.nodes i t)
    (ht : s.task = .tenc [] (i :: stack)) (hr : s.sinkReady.allows t.ser.length = true) :
    coreSteps (t.ser.length + t.size) s = some { sentBits t.ser s with task := .tenc [] stack } := by
  induction t generalizing i stack s with
  | leaf x =>
    have hstep : coreStep s = some { s with task := .tenc (true :: bitsMsb x) stack } := by
      rw [coreStep_tenc ht]
      simp [tencStep, nodeAt, hat.2.1, hat.2.2]
    have hlen : (Trie.leaf x).ser.length + (Trie.leaf x).size = (true :: bitsMsb x).length + 1 := by
      simp [Trie.ser, Trie.size]
    rw [hlen, coreSteps_succ hstep]
    exact coreSteps_send (mk := fun l => .tenc l stack) (fun b out s h => by simp [coreStep, h, tencStep])
      (true :: bitsMsb x) _ rfl hr
  | node l r ihl ihr =>
    obtain ⟨_, hleaf, hl, hrt⟩ := hat
    let nd := Table.read Node.zero s.nodes i.toNat
    have hstep : coreStep s = some { s with task := .tenc [false] (nd.left :: nd.right :: stack) } := by
      rw [coreStep_tenc ht]
      simp [tencStep, nodeAt, hleaf, nd]
    simp only [Trie.ser, List.length_cons, List.length_append] at hr
    have hsend := coreSteps_send (mk := fun o => .tenc o (nd.left :: nd.right :: stack))
      (fun b out s h => by simp [coreStep, h, tencStep]) [false]
      { s with task := .tenc [false] (nd.left :: nd.right :: stack) } rfl
      (allows_mono hr (by simp))
    let s1 : State := { sentBits [false] s with task := .tenc [] (nd.left :: nd.right :: stack) }
    have h1 : coreSteps 2 s = some s1 := (coreSteps_succ hstep 1).trans hsend
    have hr1 : s1.sinkReady.allows (l.ser.length + r.ser.length) = true := by
      have : (s.sinkReady.after 1).allows (l.ser.length + r.ser.length) = true :=
        allows_after (by rw [Nat.add_comm]; exact hr)
      exact this
    have h2 := ihl nd.left (nd.right :: stack) s1 hl rfl (allows_mono hr1 (by omega))
    let s2 : State := { sentBits l.ser s1 with task := .tenc [] (nd.right :: stack) }
    have hr2 : s2.sinkReady.allows r.ser.length = true := allows_after hr1
    have h3 := ihr nd.right stack s2 hrt rfl hr2
    have hall := coreSteps_trans h1 (coreSteps_trans h2 h3)
    have hcount : (Trie.node l r).ser.length + (Trie.node l r).size
        = 2 + (l.ser.length + l.size + (r.ser.length + r.size)) := by
      simp [Trie.ser, Trie.size]; omega
    rw [hcount, hall]
    congr 1
    have e1 := sentBits_append [false] l.ser s
    have e2 := sentBits_append ([false] ++ l.ser) r.ser s
    rw [← e1] at e2
    simp only [sentBits] at e2 ⊢
    simp_all [s1, s2, Trie.ser, sentBits]

/-- GENLUT with one trie on its stack writes its leaves' code words in pre-order (42_code_table.md R240, R241). -/
theorem genlut_run (t : Trie) (i : NodeIndex) (p : List Bool) (stack : List (NodeIndex × List Bool)) (s : State)
    (hat : TrieAt s.nodes i t) (ht : s.task = .genlut ((i, p) :: stack)) :
    coreSteps t.size s = some { s with lut := lutWith s.lut (t.pathsFrom p), task := .genlut stack } := by
  induction t generalizing i p stack s with
  | leaf x =>
    have hstep : coreStep s
        = some { s with lut := lutWith s.lut ((Trie.leaf x).pathsFrom p), task := .genlut stack } := by
      simp [coreStep, ht, genlutStep, nodeAt, hat.2.1, hat.2.2, lutWith, Trie.pathsFrom, writeLut]
    exact coreSteps_one hstep
  | node l r ihl ihr =>
    obtain ⟨_, hleaf, hl, hrt⟩ := hat
    let nd := Table.read Node.zero s.nodes i.toNat
    let s1 : State := { s with task := .genlut ((nd.left, p ++ [false]) :: (nd.right, p ++ [true]) :: stack) }
    have hstep : coreStep s = some s1 := by
      simp [coreStep, ht, genlutStep, nodeAt, hleaf, nd, s1]
    have h2 := ihl nd.left (p ++ [false]) ((nd.right, p ++ [true]) :: stack) s1 hl rfl
    let s2 : State := { s1 with lut := lutWith s1.lut (l.pathsFrom (p ++ [false])),
                                task := .genlut ((nd.right, p ++ [true]) :: stack) }
    have h3 := ihr nd.right (p ++ [true]) stack s2 hrt rfl
    have hall := coreSteps_trans (coreSteps_one hstep) (coreSteps_trans h2 h3)
    have hcount : (Trie.node l r).size = 1 + (l.size + r.size) := by simp [Trie.size]; omega
    rw [hcount, hall]
    simp [s2, s1, lutWith, Trie.pathsFrom, List.foldl_append]

/-! ### The code table's entries (42_code_table.md R245) -/

theorem lutWith_append (lut : Table LutEntry) (a b : List (Symbol × List Bool)) :
    lutWith lut (a ++ b) = lutWith (lutWith lut a) b := List.foldl_append

/-- A symbol of no pair keeps its entry. -/
theorem lutWith_read_ne (ps : List (Symbol × List Bool)) (lut : Table LutEntry) (x : Symbol)
    (h : ∀ q ∈ ps, q.1 ≠ x) :
    Table.read LutEntry.zero (lutWith lut ps) x.toNat = Table.read LutEntry.zero lut x.toNat := by
  induction ps generalizing lut with
  | nil => rfl
  | cons q ps ih =>
    have hq : q.1.toNat ≠ x.toNat := fun e => h q (by simp) (BitVec.eq_of_toNat_eq e)
    refine (ih (Table.write LutEntry.zero lut q.1.toNat (LutEntry.ofPath q.2)) fun r hr => h r (by simp [hr])).trans ?_
    rw [Table.read_write_of_ne (ofPath_ne_zero _), if_neg hq]

/-- The last pair of a symbol gives its entry. -/
theorem lutWith_read_last (before after : List (Symbol × List Bool)) (lut : Table LutEntry) (x : Symbol)
    (p : List Bool) (h : ∀ q ∈ after, q.1 ≠ x) :
    Table.read LutEntry.zero (lutWith lut (before ++ (x, p) :: after)) x.toNat = LutEntry.ofPath p := by
  rw [lutWith_append]
  refine (lutWith_read_ne after (Table.write LutEntry.zero (lutWith lut before) x.toNat (LutEntry.ofPath p)) x h).trans
    ?_
  rw [Table.read_write_of_ne (ofPath_ne_zero _), if_pos rfl]

/-- The last pair of a symbol, if it has one. -/
theorem last_pair (ps : List (Symbol × List Bool)) (x : Symbol) :
    (∀ q ∈ ps, q.1 ≠ x) ∨ ∃ before p after, ps = before ++ (x, p) :: after ∧ ∀ q ∈ after, q.1 ≠ x := by
  induction ps with
  | nil => exact .inl (by simp)
  | cons q ps ih =>
    rcases ih with h | ⟨before, p, after, rfl, h⟩
    · by_cases hq : q.1 = x
      · exact .inr ⟨[], q.2, ps, by simp [← hq], h⟩
      · exact .inl (by simpa [hq] using h)
    · exact .inr ⟨q :: before, p, after, rfl, h⟩

end Sys2Proof.Machine
end

