-- ==== Sys2Proof/Laws/Message.lean ====
section
/-! SUPPORT. What the length field and message codec commands do: LENC, LDEC, SENC, SDEC, MENC, MDEC. -/

namespace Sys2Proof.Machine

/-! ### LENC, SENC -/

theorem lenc_run (l : List Bool) (s : State) (ht : s.task = .lenc l) (hr : s.sinkReady.allows l.length = true) :
    coreSteps (l.length + 1) s = some (finish .ok .none (sentBits l s)) := by
  have h := coreSteps_send (mk := .lenc) (fun b out s h => by simp [coreStep, h, lencStep]) l s ht hr
  exact coreSteps_trans h (coreSteps_one rfl)

theorem senc_run (l : List Bool) (s : State) (ht : s.task = .senc l) (hr : s.sinkReady.allows l.length = true) :
    coreSteps (l.length + 1) s = some (finish .ok .none { sentBits l s with symcnt := 1 }) := by
  have h := coreSteps_send (mk := .senc) (fun b out s h => by simp [coreStep, h, sencStep]) l s ht hr
  exact coreSteps_trans h (coreSteps_one rfl)

/-! ### LDEC -/

/-- LDEC reads the bits that are there, short of the 32nd (44_message_codec.md R301). -/
theorem ldec_part (q : List Bool) {s : State} {got rem : List Bool} (ht : s.task = .ldec got)
    (hb : s.srcBits = q ++ rem) (hlen : got.length + q.length < 32) :
    coreSteps q.length s = some { tookBits q.length rem s with task := .ldec (got ++ q) } := by
  induction q generalizing s got with
  | nil =>
    simp only [List.nil_append] at hb
    simp [← hb, tookBits, ← ht]
  | cons b q ih =>
    simp only [List.length_cons] at hlen
    have hget := getBit_cons (rest := q ++ rem) (s := s) (b := b) (by simpa using hb)
    let s1 : State := { tookBits 1 (q ++ rem) s with task := .ldec (got ++ [b]) }
    have hstep : coreStep s = some s1 := by
      simp only [coreStep, ht, ldecStep, hget]
      rw [if_pos (by simp; omega)]
    rw [List.length_cons, coreSteps_succ hstep, ih (s := s1) (got := got ++ [b]) rfl rfl (by simp; omega)]
    have e := tookBits_tookBits 1 q.length (q ++ rem) rem s
    simp only [s1, tookBits, List.append_assoc, List.singleton_append] at e ⊢
    simp only [State.mk.injEq] at e
    simp [e, Nat.add_comm]

theorem ldec_run {v : Word} {s : State} {rem : List Bool} (ht : s.task = .ldec [])
    (hb : s.srcBits = bitsMsb v ++ rem) :
    coreSteps 32 s = some (ldecEnd v { tookBits 32 rem s with task := .idle }) := by
  obtain ⟨q, b, hq⟩ : ∃ q b, bitsMsb v = q ++ [b] := by
    have : bitsMsb v ≠ [] := by intro h; have := congrArg List.length h; simp at this
    exact ⟨_, _, (List.dropLast_append_getLast this).symm⟩
  have hql : q.length = 31 := by
    have := congrArg List.length hq
    simp at this; omega
  have h1 := ldec_part q (rem := b :: rem) ht (by rw [hb, hq]; simp) (by simp; omega)
  rw [hql] at h1
  let s1 : State := { tookBits 31 (b :: rem) s with task := .ldec ([] ++ q) }
  have hstep : coreStep s1 = some (ldecEnd v { tookBits 32 rem s with task := .idle }) := by
    have hget := getBit_cons (rest := rem) (s := s1) (b := b) rfl
    simp only [coreStep, s1, ldecStep] at hget ⊢
    rw [hget]
    simp only [List.nil_append]
    rw [if_neg (by simp; omega), ← hq]
    have e := tookBits_tookBits 31 1 (b :: rem) rem s
    simp only [tookBits, State.mk.injEq] at e
    simp only [ofBitsMsb_bitsMsb, ldecEnd, finish, tookBits, e]
  exact coreSteps_trans h1 (coreSteps_one hstep)

theorem ldec_trunc {s : State} (ht : s.task = .ldec []) (he : s.srcEnded = true) (hlen : s.srcBits.length < 32) :
    coreSteps (s.srcBits.length + 1) s
      = some (finish .formatError .truncLen (tookBits s.srcBits.length [] s)) := by
  have h1 := ldec_part s.srcBits (rem := []) ht (by simp) (by simpa using hlen)
  refine coreSteps_trans h1 (coreSteps_one ?_)
  simp only [coreStep, ldecStep]
  rw [getBit_end (s := { tookBits s.srcBits.length [] s with task := .ldec ([] ++ s.srcBits) }) rfl he]
  rfl

/-! ### The walk (44_message_codec.md R311) -/

/-- A task that walks: at an internal node it takes one bit and goes to the child that bit selects. -/
def Walks (mk : NodeIndex → Task) : Prop :=
  ∀ (i : NodeIndex) (s : State) (b : Bool) (rest : List Bool), s.task = mk i → (nodeAt i s).leaf = false →
    s.srcBits = b :: rest →
    coreStep s = some { tookBits 1 rest s with task := mk (if b then (nodeAt i s).right else (nodeAt i s).left) }

theorem walks_sdec : Walks .sdec := by
  intro i s b rest ht hl hb
  simp only [coreStep, ht, sdecStep, hl, walkStep, getBit_cons hb]
  rfl

theorem walks_mdec (k : Nat) : Walks (.mdecWalk k) := by
  intro i s b rest ht hl hb
  simp only [coreStep, ht, mdecWalkStep, hl, walkStep, getBit_cons hb]
  rfl

/-- A walk along a leaf's code word ends at that leaf. -/
theorem walk_run {mk : NodeIndex → Task} (hmk : Walks mk) {t : Trie} {i : NodeIndex} {s : State} {x : Symbol}
    {p rest : List Bool} (hat : TrieAt s.nodes i t) (hp : (x, p) ∈ t.paths) (hb : s.srcBits = p ++ rest)
    (ht : s.task = mk i) :
    ∃ j, coreSteps p.length s = some { tookBits p.length rest s with task := mk j }
      ∧ (nodeAt j s).leaf = true ∧ (nodeAt j s).sym = x := by
  induction t generalizing i s p with
  | leaf y =>
    simp only [Trie.paths, Trie.pathsFrom, List.mem_singleton, Prod.mk.injEq] at hp
    obtain ⟨rfl, rfl⟩ := hp
    refine ⟨i, ?_, hat.2.1, hat.2.2⟩
    simp only [List.nil_append] at hb
    simp [← hb, ← ht, tookBits]
  | node l r ihl ihr =>
    obtain ⟨_, hleaf, hl, hr⟩ := hat
    simp only [Trie.paths, Trie.pathsFrom, List.nil_append, List.mem_append] at hp
    obtain ⟨b, p', rfl⟩ : ∃ b p', p = b :: p' := by
      rcases hp with hp | hp <;>
      · rw [Trie.pathsFrom_eq] at hp
        obtain ⟨q, _, hq⟩ := List.mem_map.1 hp
        simp only [Prod.mk.injEq] at hq
        exact ⟨_, _, hq.2.symm⟩
    let s1 : State := { tookBits 1 (p' ++ rest) s with
      task := mk (if b then (nodeAt i s).right else (nodeAt i s).left) }
    have hstep : coreStep s = some s1 := hmk i s b (p' ++ rest) ht hleaf (by simpa using hb)
    have e := tookBits_tookBits 1 p'.length (p' ++ rest) rest s
    have hfin : ∀ j, coreSteps p'.length s1 = some { tookBits p'.length rest s1 with task := mk j } →
        coreSteps (p'.length + 1) s = some { tookBits (p'.length + 1) rest s with task := mk j } := by
      intro j hj
      rw [coreSteps_succ hstep, hj]
      simp only [tookBits, State.mk.injEq] at e
      simp [s1, tookBits, e, Nat.add_comm]
    cases b with
    | false =>
      have hp' : (x, p') ∈ l.paths := by
        rcases hp with hp | hp <;> rw [Trie.pathsFrom_eq] at hp <;> obtain ⟨⟨y, q⟩, hq, he⟩ := List.mem_map.1 hp <;>
          simp at he
        obtain ⟨rfl, rfl⟩ := he
        exact hq
      obtain ⟨j, h1, h2, h3⟩ := ihl (s := s1) hl hp' rfl rfl
      exact ⟨j, hfin j h1, h2, h3⟩
    | true =>
      have hp' : (x, p') ∈ r.paths := by
        rcases hp with hp | hp <;> rw [Trie.pathsFrom_eq] at hp <;> obtain ⟨⟨y, q⟩, hq, he⟩ := List.mem_map.1 hp <;>
          simp at he
        obtain ⟨rfl, rfl⟩ := he
        exact hq
      obtain ⟨j, h1, h2, h3⟩ := ihr (s := s1) hr hp' rfl rfl
      exact ⟨j, hfin j h1, h2, h3⟩

/-- A walk whose bits run out stands at an internal node. -/
theorem walk_out {mk : NodeIndex → Task} (hmk : Walks mk) {t : Trie} {i : NodeIndex} {s : State}
    (hat : TrieAt s.nodes i t) (hw : t.walk s.srcBits = none) (ht : s.task = mk i) :
    ∃ j, coreSteps s.srcBits.length s = some { tookBits s.srcBits.length [] s with task := mk j }
      ∧ (nodeAt j s).leaf = false := by
  induction t generalizing i s with
  | leaf y => simp [Trie.walk] at hw
  | node l r ihl ihr =>
    obtain ⟨_, hleaf, hl, hr⟩ := hat
    cases hb : s.srcBits with
    | nil =>
      refine ⟨i, ?_, hleaf⟩
      rw [List.length_nil, tookBits_zero hb, coreSteps_zero, ← ht]
    | cons b rest =>
      rw [hb, Trie.walk] at hw
      let s1 : State := { tookBits 1 rest s with
        task := mk (if b then (nodeAt i s).right else (nodeAt i s).left) }
      have hstep : coreStep s = some s1 := hmk i s b rest ht hleaf hb
      have e := tookBits_tookBits 1 rest.length rest [] s
      have hfin : ∀ j, coreSteps s1.srcBits.length s1
          = some { tookBits s1.srcBits.length [] s1 with task := mk j } →
          coreSteps (rest.length + 1) s = some { tookBits (rest.length + 1) [] s with task := mk j } := by
        intro j hj
        have hl1 : s1.srcBits.length = rest.length := rfl
        rw [hl1] at hj
        rw [coreSteps_succ hstep, hj]
        simp only [tookBits, State.mk.injEq] at e
        simp [s1, tookBits, e, Nat.add_comm]
      cases b with
      | false =>
        obtain ⟨j, h1, h2⟩ := ihl (s := s1) hl (show l.walk rest = none by simpa using hw) rfl
        exact ⟨j, hfin j h1, h2⟩
      | true =>
        obtain ⟨j, h1, h2⟩ := ihr (s := s1) hr (show r.walk rest = none by simpa using hw) rfl
        exact ⟨j, hfin j h1, h2⟩

/-! ### SDEC -/

theorem sdec_run {t : Trie} {i : NodeIndex} {s : State} {x : Symbol} {p rest : List Bool}
    (hat : TrieAt s.nodes i t) (hp : (x, p) ∈ t.paths) (hb : s.srcBits = p ++ rest) (ht : s.task = .sdec i) :
    coreSteps (p.length + 1) s
      = some (finish .ok .none { tookBits p.length rest s with symout := some x, symcnt := 1 }) := by
  obtain ⟨j, h1, h2, h3⟩ := walk_run walks_sdec hat hp hb ht
  refine coreSteps_trans h1 (coreSteps_one ?_)
  have h2' : (nodeAt j { tookBits p.length rest s with task := .sdec j }).leaf = true := h2
  have h3' : (nodeAt j { tookBits p.length rest s with task := .sdec j }).sym = x := h3
  simp only [coreStep, sdecStep]
  rw [if_pos h2', h3']
  rfl

theorem sdec_trunc {t : Trie} {i : NodeIndex} {s : State} (hat : TrieAt s.nodes i t)
    (hw : t.walk s.srcBits = none) (he : s.srcEnded = true) (ht : s.task = .sdec i) :
    coreSteps (s.srcBits.length + 1) s
      = some (finish .formatError .truncMsg (tookBits s.srcBits.length [] s)) := by
  obtain ⟨j, h1, h2⟩ := walk_out walks_sdec hat hw ht
  refine coreSteps_trans h1 (coreSteps_one ?_)
  have h2' : (nodeAt j { tookBits s.srcBits.length [] s with task := .sdec j }).leaf = false := h2
  simp only [coreStep, sdecStep, walkStep]
  rw [if_neg (by rw [h2']; simp),
    getBit_end (s := { tookBits s.srcBits.length [] s with task := .sdec j }) rfl he]
  rfl

/-! ### MENC -/

/-- The code bits of a message under a code table (44_message_codec.md R306). -/
def codesOf (s : State) (xs : List Symbol) : List Bool := xs.flatMap fun x => (lutAt x s).code

theorem code_length_le (e : LutEntry) : e.code.length ≤ 255 := by
  have := e.len.isLt
  simp [LutEntry.code]; omega

/-- MENC sends symbols that have code words (44_message_codec.md R315). -/
theorem menc_run (xs : List Symbol) {k : Nat} {s : State} {rest : List Symbol} (ht : s.task = .mencSym k)
    (hcnt : s.symcnt = BitVec.ofNat 32 k) (hin : s.symIn = xs ++ rest) (hk : k + xs.length ≤ s.msglen.toNat)
    (hpres : ∀ x ∈ xs, (lutAt x s).present = true) (hr : s.sinkReady.allows (codesOf s xs).length = true) :
    ∃ m, m ≤ xs.length * 257 ∧ coreSteps m s = some { sentBits (codesOf s xs) s with
      symIn := rest, symcnt := BitVec.ofNat 32 (k + xs.length), task := .mencSym (k + xs.length) } := by
  induction xs generalizing k s with
  | nil =>
    refine ⟨0, by simp, ?_⟩
    simp only [List.nil_append] at hin
    simp [codesOf, ← hin, ← ht, ← hcnt]
  | cons x xs ih =>
    simp only [List.length_cons] at hk
    have hx := hpres x (by simp)
    let c := (lutAt x s).code
    have hcs : codesOf s (x :: xs) = c ++ codesOf s xs := by simp [codesOf, c]
    rw [hcs] at hr
    let s1 : State := { s with symIn := xs ++ rest, task := .mencOut k c }
    have hx' : (lutAt x { s with symIn := xs ++ rest }).present = true := hx
    have h1 : coreStep s = some s1 := by
      simp only [coreStep, ht, mencSymStep]
      rw [if_pos (by omega)]
      simp only [takeSymbol, hin, List.cons_append]
      rw [if_neg (by rw [hx']; simp)]
      rfl
    have h2 := coreSteps_send (mk := .mencOut k) (fun b out s h => by simp [coreStep, h, mencOutStep]) c s1 rfl
      (allows_mono hr (by simp))
    let s2 : State := { sentBits c s1 with symcnt := BitVec.ofNat 32 (k + 1), task := .mencSym (k + 1) }
    have h3 : coreStep { sentBits c s1 with task := .mencOut k [] } = some s2 := rfl
    obtain ⟨m, hm, h4⟩ := ih (k := k + 1) (s := s2) rfl rfl rfl (by simpa [s2, s1, sentBits] using by omega)
      (fun y hy => hpres y (by simp [hy])) (by
        have : (s.sinkReady.after c.length).allows (codesOf s xs).length = true := allows_after (by simpa using hr)
        exact this)
    refine ⟨1 + (c.length + (1 + m)), ?_, ?_⟩
    · have := code_length_le (lutAt x s)
      simp only [List.length_cons, c]; omega
    · rw [coreSteps_trans (coreSteps_one h1) (coreSteps_trans h2 (coreSteps_trans (coreSteps_one h3) h4))]
      have hc2 : codesOf s2 xs = codesOf s xs := rfl
      have e := sentBits_append c (codesOf s xs) s
      have e1 : k + 1 + xs.length = k + (xs.length + 1) := by omega
      rw [hc2, hcs, List.length_cons, e1]
      simp only [sentBits, State.mk.injEq] at e
      simp only [s2, s1, sentBits, e]

/-- MENC's end: after the last symbol, at a symbol without a code word, and while no symbol is offered
(44_message_codec.md R315; 70_reset_and_hazards.md R471). -/
theorem menc_done {k : Nat} {s : State} (ht : s.task = .mencSym k) (hk : s.msglen.toNat ≤ k) :
    coreStep s = some (finish .ok .none s) := by
  simp only [coreStep, ht, mencSymStep]
  rw [if_neg (by omega)]

theorem menc_noCode {k : Nat} {s : State} {x : Symbol} {rest : List Symbol} (ht : s.task = .mencSym k)
    (hk : k < s.msglen.toNat) (hin : s.symIn = x :: rest) (hx : (lutAt x s).present = false) :
    coreStep s = some (finish .encodingError .noCode { s with symIn := rest }) := by
  have hx' : (lutAt x { s with symIn := rest }).present = false := hx
  simp only [coreStep, ht, mencSymStep]
  rw [if_pos hk]
  simp only [takeSymbol, hin]
  rw [if_pos hx', ← ht]

theorem menc_wait {k : Nat} {s : State} (ht : s.task = .mencSym k) (hk : k < s.msglen.toNat) (hin : s.symIn = []) :
    coreStep s = none := by
  simp only [coreStep, ht, mencSymStep]
  rw [if_pos hk]
  simp [takeSymbol, hin]

/-! ### MDEC -/

theorem sendSymbol_eq {x : Symbol} {s : State} {n : Nat} (h : s.symOutReady.allows (n + 1) = true) :
    sendSymbol x s = some { s with symOut := s.symOut ++ [x], symOutReady := s.symOutReady.after 1 }
      ∧ (s.symOutReady.after 1).allows n = true := by
  obtain ⟨r, h1, h2, h3⟩ := allows_succ (allows_mono h (show 0 + 1 ≤ n + 1 by omega))
  simp only [Nat.zero_add, after_zero] at h3
  refine ⟨by simp only [sendSymbol, h1, h3], allows_after (by rw [Nat.add_comm]; exact h)⟩

/-- MDEC decodes and delivers code words (44_message_codec.md R320). -/
theorem mdec_run {t : Trie} (msg : List (Symbol × List Bool)) {k : Nat} {s : State} {rest : List Bool}
    (hat : TrieAt s.nodes s.root t) (hd : t.depth ≤ 255) (ht : s.task = .mdecNext k)
    (hcnt : s.symcnt = BitVec.ofNat 32 k) (hmsg : ∀ q ∈ msg, q ∈ t.paths)
    (hb : s.srcBits = msg.flatMap Prod.snd ++ rest) (hk : k + msg.length ≤ s.msglen.toNat)
    (hr : s.symOutReady.allows msg.length = true) :
    ∃ m, m ≤ msg.length * 258 ∧ coreSteps m s = some { tookBits (msg.flatMap Prod.snd).length rest s with
      symOut := s.symOut ++ msg.map Prod.fst, symOutReady := s.symOutReady.after msg.length
      symout := (msg.map Prod.fst).getLast?.or s.symout
      symcnt := BitVec.ofNat 32 (k + msg.length), task := .mdecNext (k + msg.length) } := by
  induction msg generalizing k s with
  | nil =>
    refine ⟨0, by simp, ?_⟩
    simp only [List.flatMap_nil, List.nil_append] at hb
    simp [← hb, ← ht, ← hcnt, tookBits]
  | cons q msg ih =>
    obtain ⟨x, p⟩ := q
    simp only [List.length_cons] at hk hr
    have hxp := hmsg (x, p) (by simp)
    let s1 : State := { s with task := .mdecWalk k s.root }
    have h1 : coreStep s = some s1 := by
      simp only [coreStep, ht, mdecNextStep]
      rw [if_pos (by omega)]
    obtain ⟨j, h2, hj1, hj2⟩ := walk_run (s := s1) (walks_mdec k) hat hxp
      (rest := msg.flatMap Prod.snd ++ rest) (by simpa [s1] using hb) rfl
    let s2 : State := { tookBits p.length (msg.flatMap Prod.snd ++ rest) s1 with task := .mdecWalk k j }
    have hj1' : (nodeAt j s2).leaf = true := hj1
    have hj2' : (nodeAt j s2).sym = x := hj2
    let s3 : State := { s2 with symout := some x, task := .mdecOut k x }
    have h3 : coreStep s2 = some s3 := by
      have : s2.task = .mdecWalk k j := rfl
      simp only [coreStep, this, mdecWalkStep]
      rw [if_pos hj1', hj2']
    have hr3 : s3.symOutReady.allows (msg.length + 1) = true := hr
    obtain ⟨h4, hr4⟩ := sendSymbol_eq (x := x) hr3
    let s4 : State := { s3 with symOut := s3.symOut ++ [x], symOutReady := s3.symOutReady.after 1,
                                symcnt := BitVec.ofNat 32 (k + 1), task := .mdecNext (k + 1) }
    have h5 : coreStep s3 = some s4 := by
      have : s3.task = .mdecOut k x := rfl
      simp only [coreStep, this, mdecOutStep, h4]
      rfl
    obtain ⟨m, hm, h6⟩ := ih (k := k + 1) (s := s4) hat rfl rfl (fun q hq => hmsg q (by simp [hq])) rfl
      (by have : s4.msglen = s.msglen := rfl
          rw [this]; omega) hr4
    refine ⟨1 + (p.length + (1 + (1 + m))), ?_, ?_⟩
    · have := Trie.pathsFrom_bound hxp
      simp only [List.length_nil, Nat.zero_add] at this
      simp only [List.length_cons]; omega
    · rw [coreSteps_trans (coreSteps_one h1) (coreSteps_trans h2 (coreSteps_trans (coreSteps_one h3)
        (coreSteps_trans (coreSteps_one h5) h6)))]
      have e := tookBits_tookBits p.length (msg.flatMap Prod.snd).length (msg.flatMap Prod.snd ++ rest) rest s
      have e1 : k + 1 + msg.length = k + (msg.length + 1) := by omega
      have e2 := after_after s.symOutReady 1 msg.length
      have e3 : 1 + msg.length = msg.length + 1 := by omega
      rw [e3] at e2
      have e4 : ((x :: msg.map Prod.fst).getLast?.or s.symout)
          = ((msg.map Prod.fst).getLast?.or (some x)) := by
        rw [List.getLast?_cons]
        cases (msg.map Prod.fst).getLast? <;> simp
      simp only [tookBits, State.mk.injEq] at e
      simp only [s4, s3, s2, s1, tookBits, e, List.flatMap_cons, List.length_append, List.map_cons, List.length_cons,
        List.append_assoc, List.singleton_append, e1, e2, e4]

theorem mdec_done {k : Nat} {s : State} (ht : s.task = .mdecNext k) (hk : s.msglen.toNat ≤ k) :
    coreStep s = some (finish .ok .none s) := by
  simp only [coreStep, ht, mdecNextStep]
  rw [if_neg (by omega)]

theorem mdec_trunc {t : Trie} {k : Nat} {s : State} (hat : TrieAt s.nodes s.root t) (ht : s.task = .mdecNext k)
    (hk : k < s.msglen.toNat) (hw : t.walk s.srcBits = none) (he : s.srcEnded = true) :
    coreSteps (1 + (s.srcBits.length + 1)) s
      = some (finish .formatError .truncMsg (tookBits s.srcBits.length [] s)) := by
  let s1 : State := { s with task := .mdecWalk k s.root }
  have h1 : coreStep s = some s1 := by
    simp only [coreStep, ht, mdecNextStep]
    rw [if_pos hk]
  obtain ⟨j, h2, h3⟩ := walk_out (s := s1) (walks_mdec k) hat hw rfl
  refine coreSteps_trans (coreSteps_one h1) (coreSteps_trans h2 (coreSteps_one ?_))
  have h3' : (nodeAt j { tookBits s1.srcBits.length [] s1 with task := .mdecWalk k j }).leaf = false := h3
  simp only [coreStep, mdecWalkStep, walkStep]
  rw [if_neg (by rw [h3']; simp),
    getBit_end (s := { tookBits s1.srcBits.length [] s1 with task := .mdecWalk k j }) rfl he]
  rfl

end Sys2Proof.Machine
end

