-- ==== Sys2Proof/Laws/TrieDecoder.lean ====
section
/-! SUPPORT. What TDEC does with the bits of a trie: complete, truncated and overflowing. -/

namespace Sys2Proof.Machine

/-- The child link of a slot set to `i`, on the node memory alone. -/
def linkTable (slot : Slot) (i : NodeIndex) (nodes : Table Node) : Table Node :=
  match slot with
  | .root => nodes
  | .left p => Table.write Node.zero nodes p.toNat { Table.read Node.zero nodes p.toNat with left := i }
  | .right p => Table.write Node.zero nodes p.toNat { Table.read Node.zero nodes p.toNat with right := i }

theorem linkTable_left (p i : NodeIndex) (nodes : Table Node) : linkTable (.left p) i nodes
    = Table.write Node.zero nodes p.toNat { Table.read Node.zero nodes p.toNat with left := i } := rfl

theorem linkTable_right (p i : NodeIndex) (nodes : Table Node) : linkTable (.right p) i nodes
    = Table.write Node.zero nodes p.toNat { Table.read Node.zero nodes p.toNat with right := i } := rfl

theorem linkSlot_eq (slot : Slot) (i : NodeIndex) (s : State) :
    linkSlot slot i s = { s with nodes := linkTable slot i s.nodes } := by
  cases slot <;> rfl

/-- A slot of a node below `n`. -/
def slotBelow (n : Nat) : Slot → Prop
  | .root => True
  | .left p => p.toNat < n
  | .right p => p.toNat < n

theorem linkTable_wf {slot : Slot} {n : Nat} {i : NodeIndex} {nodes : Table Node} (hn : n ≤ 511)
    (h : Table.wf Node.zero Config.nodeCap nodes = true) (hs : slotBelow n slot) :
    Table.wf Node.zero Config.nodeCap (linkTable slot i nodes) = true := by
  cases slot with
  | root => exact h
  | left p => exact Table.write_wf h (by simp [slotBelow, Config.nodeCap] at *; omega)
  | right p => exact Table.write_wf h (by simp [slotBelow, Config.nodeCap] at *; omega)

/-- A link leaves the entries that are not below `n`. -/
theorem linkTable_read_ge {slot : Slot} {n : Nat} {i : NodeIndex} {nodes : Table Node}
    (h : Table.wf Node.zero Config.nodeCap nodes = true) (hs : slotBelow n slot) {k : Nat} (hk : n ≤ k) :
    Table.read Node.zero (linkTable slot i nodes) k = Table.read Node.zero nodes k := by
  cases slot with
  | root => rfl
  | left p => simp only [linkTable, Table.read_write h]; rw [if_neg (by simp [slotBelow] at hs; omega)]
  | right p => simp only [linkTable, Table.read_write h]; rw [if_neg (by simp [slotBelow] at hs; omega)]

/-- The node memory after TDEC has read the bits of a trie into slot `slot`, from index `n` on. -/
def plant : Trie → Slot → Nat → Table Node → Table Node
  | .leaf x, slot, n, nodes =>
    Table.write Node.zero (linkTable slot (BitVec.ofNat 9 n) nodes) n (Node.mkLeaf x 0)
  | .node l r, slot, n, nodes =>
    plant r (.right (BitVec.ofNat 9 n)) (n + 1 + l.size)
      (plant l (.left (BitVec.ofNat 9 n)) (n + 1)
        (Table.write Node.zero (linkTable slot (BitVec.ofNat 9 n) nodes) n (Node.mkInternal 0 0 0)))

/-- The nodes of a trie in pre-order, the first at index `n` (43_trie_codec.md R270). -/
def trieNodes : Trie → Nat → List Node
  | .leaf x, _ => [Node.mkLeaf x 0]
  | .node l r, n =>
    Node.mkInternal (BitVec.ofNat 9 (n + 1)) (BitVec.ofNat 9 (n + 1 + l.size)) 0
      :: (trieNodes l (n + 1) ++ trieNodes r (n + 1 + l.size))

@[simp] theorem trieNodes_length (t : Trie) (n : Nat) : (trieNodes t n).length = t.size := by
  induction t generalizing n with
  | leaf x => rfl
  | node l r ihl ihr => simp [trieNodes, Trie.size, ihl, ihr]

theorem plant_wf {t : Trie} {slot : Slot} {n : Nat} {nodes : Table Node}
    (h : Table.wf Node.zero Config.nodeCap nodes = true) (hs : slotBelow n slot) (hn : n + t.size ≤ 511) :
    Table.wf Node.zero Config.nodeCap (plant t slot n nodes) = true := by
  induction t generalizing slot n nodes with
  | leaf x =>
    simp only [Trie.size] at hn
    exact Table.write_wf (linkTable_wf (by omega) h hs) (by simp [Config.nodeCap]; omega)
  | node l r ihl ihr =>
    simp only [Trie.size] at hn
    refine ihr (ihl (Table.write_wf (linkTable_wf (by omega) h hs) (by simp [Config.nodeCap]; omega)) ?_ ?_) ?_ ?_
    · simp [slotBelow]; omega
    · omega
    · simp [slotBelow]; omega
    · omega

/-- The entries after a trie is read: the trie's nodes from `n` on, the slot's link below, nothing else changed. -/
theorem plant_read {t : Trie} {slot : Slot} {n : Nat} {nodes : Table Node}
    (h : Table.wf Node.zero Config.nodeCap nodes = true) (hs : slotBelow n slot) (hn : n + t.size ≤ 511) (k : Nat) :
    Table.read Node.zero (plant t slot n nodes) k =
      if hk : n ≤ k ∧ k - n < (trieNodes t n).length then (trieNodes t n)[k - n]'hk.2
      else Table.read Node.zero (linkTable slot (BitVec.ofNat 9 n) nodes) k := by
  induction t generalizing slot n nodes k with
  | leaf x =>
    simp only [Trie.size] at hn
    rw [plant, Table.read_write (linkTable_wf (by omega) h hs)]
    by_cases hk : n = k
    · subst hk; simp [trieNodes]
    · rw [if_neg hk, dif_neg (by simp [trieNodes]; omega)]
  | node l r ihl ihr =>
    simp only [Trie.size] at hn
    have hw0 := linkTable_wf (i := BitVec.ofNat 9 n) (by omega) h hs
    have hw1 := Table.write_wf (v := Node.mkInternal 0 0 0) hw0 (show n < Config.nodeCap by simp [Config.nodeCap]; omega)
    have hnn : (BitVec.ofNat 9 n).toNat = n := by simp; omega
    have hs1 : slotBelow (n + 1) (.left (BitVec.ofNat 9 n)) := by simp only [slotBelow, hnn]; omega
    have hs2 : slotBelow (n + 1 + l.size) (.right (BitVec.ofNat 9 n)) := by simp only [slotBelow, hnn]; omega
    have hw2 := plant_wf hw1 hs1 (show n + 1 + l.size ≤ 511 by omega)
    rw [plant, ihr hw2 hs2 (by omega)]
    have hsz : (trieNodes (.node l r) n).length = l.size + r.size + 1 := by simp [Trie.size]
    have hrl : (trieNodes r (n + 1 + l.size)).length = r.size := by simp
    by_cases h3 : n + 1 + l.size ≤ k ∧ k - (n + 1 + l.size) < (trieNodes r (n + 1 + l.size)).length
    · rw [dif_pos h3, dif_pos (by rw [hsz]; omega)]
      have : k - n = (k - (n + 1 + l.size)) + l.size + 1 := by omega
      simp only [trieNodes, this, List.getElem_cons_succ]
      rw [List.getElem_append_right (by simp)]
      congr 1
      simp
    · rw [dif_neg h3]
      rw [linkTable_right, hnn, Table.read_write hw2]
      have hin : ∀ m, Table.read Node.zero (plant l (.left (BitVec.ofNat 9 n)) (n + 1)
          (Table.write Node.zero (linkTable slot (BitVec.ofNat 9 n) nodes) n (Node.mkInternal 0 0 0))) m
          = if hm : n + 1 ≤ m ∧ m - (n + 1) < (trieNodes l (n + 1)).length then
              (trieNodes l (n + 1))[m - (n + 1)]'hm.2
            else if n = m then Node.mkInternal (BitVec.ofNat 9 (n + 1)) 0 0
            else Table.read Node.zero (linkTable slot (BitVec.ofNat 9 n) nodes) m := by
        intro m
        rw [ihl hw1 hs1 (by omega)]
        by_cases hm : n + 1 ≤ m ∧ m - (n + 1) < (trieNodes l (n + 1)).length
        · rw [dif_pos hm, dif_pos hm]
        · rw [dif_neg hm, dif_neg hm]
          rw [linkTable_left, hnn, Table.read_write hw1]
          by_cases hnm : n = m
          · subst hnm; rw [if_pos rfl, if_pos rfl, Table.read_write hw0, if_pos rfl]; rfl
          · rw [if_neg hnm, if_neg hnm, Table.read_write hw0, if_neg hnm]
      by_cases hnk : n = k
      · subst hnk
        rw [if_pos rfl, hin, dif_neg (by omega), if_pos rfl, dif_pos (by rw [hsz]; omega)]
        simp [trieNodes, Node.mkInternal]
      · rw [if_neg hnk, hin]
        by_cases hm : n + 1 ≤ k ∧ k - (n + 1) < (trieNodes l (n + 1)).length
        · have hll : (trieNodes l (n + 1)).length = l.size := by simp
          rw [dif_pos hm, dif_pos (by rw [hsz]; omega)]
          have : k - n = (k - (n + 1)) + 1 := by omega
          simp only [trieNodes, this, List.getElem_cons_succ]
          rw [List.getElem_append_left hm.2]
        · have hll : (trieNodes l (n + 1)).length = l.size := by simp
          rw [dif_neg hm, if_neg hnk, dif_neg (by rw [hsz]; omega)]

/-- Node memory that holds a trie's nodes in pre-order from `n` on holds that trie at `n`. -/
theorem TrieAt_of_trieNodes {nodes : Table Node} {t : Trie} {n : Nat} (hn : n + t.size ≤ 511)
    (h : ∀ k (hk : k < (trieNodes t n).length), Table.read Node.zero nodes (n + k) = (trieNodes t n)[k]) :
    TrieAt nodes (BitVec.ofNat 9 n) t ∧ trieIndices nodes (BitVec.ofNat 9 n) t = List.range' n t.size := by
  induction t generalizing n with
  | leaf x =>
    simp only [Trie.size] at hn
    have hnn : (BitVec.ofNat 9 n).toNat = n := by simp; omega
    have h0 := h 0 (by simp [trieNodes])
    simp only [Nat.add_zero, trieNodes, List.getElem_cons_zero] at h0
    refine ⟨?_, by simp only [trieIndices, hnn]; rfl⟩
    simp only [TrieAt, hnn, h0]
    exact ⟨rfl, rfl, rfl⟩
  | node l r ihl ihr =>
    simp only [Trie.size] at hn
    have hnn : (BitVec.ofNat 9 n).toNat = n := by simp; omega
    have hsz : (trieNodes (.node l r) n).length = l.size + r.size + 1 := by simp [Trie.size]
    have h0 := h 0 (by rw [hsz]; omega)
    simp only [Nat.add_zero, trieNodes, List.getElem_cons_zero] at h0
    obtain ⟨hl, hlx⟩ := ihl (n := n + 1) (by omega) (by
      intro k hk
      have hk' : k < l.size := by simpa using hk
      have := h (k + 1) (by rw [hsz]; omega)
      simp only [trieNodes, List.getElem_cons_succ] at this
      rw [List.getElem_append_left hk] at this
      rw [← this]; congr 1; omega)
    obtain ⟨hr, hrx⟩ := ihr (n := n + 1 + l.size) (by omega) (by
      intro k hk
      have hk' : k < r.size := by simpa using hk
      have := h (k + l.size + 1) (by rw [hsz]; omega)
      simp only [trieNodes, List.getElem_cons_succ] at this
      rw [List.getElem_append_right (by simp)] at this
      simp only [trieNodes_length, Nat.add_sub_cancel] at this
      rw [← this]; congr 1; omega)
    constructor
    · simp only [TrieAt, hnn, h0]
      exact ⟨rfl, rfl, hl, hr⟩
    · simp only [trieIndices, hnn, h0]
      simp only [Node.mkInternal, hlx, hrx]
      rw [Trie.size, List.range'_succ, ← List.range'_append_1]

/-! ### Running TDEC -/

theorem coreStep_tdecTag {s : State} {pending : List Slot} {n lv : Nat} (h : s.task = .tdecTag pending n lv) :
    coreStep s = tdecTagStep pending n lv s := by simp [coreStep, h]

/-- TDEC inside a symbol reads the bits that are there, short of the eighth (43_trie_codec.md R266). -/
theorem tdecSym_part (q : List Bool) {s : State} {pending : List Slot} {n lv : Nat} {i : NodeIndex}
    {got rem : List Bool} (ht : s.task = .tdecSym pending n lv i got) (hb : s.srcBits = q ++ rem)
    (hlen : got.length + q.length < 8) :
    coreSteps q.length s = some { tookBits q.length rem s with task := .tdecSym pending n lv i (got ++ q) } := by
  induction q generalizing s got with
  | nil =>
    simp only [List.nil_append] at hb
    simp [← hb, tookBits, ← ht]
  | cons b q ih =>
    simp only [List.length_cons] at hlen
    have hget := getBit_cons (rest := q ++ rem) (s := s) (b := b) (by simpa using hb)
    let s1 : State := { tookBits 1 (q ++ rem) s with task := .tdecSym pending n lv i (got ++ [b]) }
    have hstep : coreStep s = some s1 := by
      simp only [coreStep, ht, tdecSymStep, hget]
      rw [if_pos (by simp; omega)]
    rw [List.length_cons, coreSteps_succ hstep,
      ih (s := s1) (got := got ++ [b]) rfl rfl (by simp; omega)]
    have e := tookBits_tookBits 1 q.length (q ++ rem) rem s
    simp only [s1, tookBits, List.append_assoc, List.singleton_append] at e ⊢
    simp only [State.mk.injEq] at e
    simp [e, Nat.add_comm]

theorem tdecSym_run {x : Symbol} {s : State} {pending : List Slot} {n lv : Nat} {i : NodeIndex} {rem : List Bool}
    (ht : s.task = .tdecSym pending n lv i []) (hb : s.srcBits = bitsMsb x ++ rem) :
    coreSteps 8 s = some { tookBits 8 rem s with
      nodes := Table.write Node.zero s.nodes i.toNat (Node.mkLeaf x 0), task := .tdecTag pending n (lv + 1) } := by
  obtain ⟨q, b, hq⟩ : ∃ q b, bitsMsb x = q ++ [b] := by
    have : bitsMsb x ≠ [] := by intro h; have := congrArg List.length h; simp at this
    exact ⟨_, _, (List.dropLast_append_getLast this).symm⟩
  have hql : q.length = 7 := by
    have := congrArg List.length hq
    simp at this; omega
  have h1 := tdecSym_part q (rem := b :: rem) ht (by rw [hb, hq]; simp) (by simp; omega)
  rw [hql] at h1
  let s1 : State := { tookBits 7 (b :: rem) s with task := .tdecSym pending n lv i ([] ++ q) }
  have hstep : coreStep s1 = some { tookBits 8 rem s with
      nodes := Table.write Node.zero s.nodes i.toNat (Node.mkLeaf x 0), task := .tdecTag pending n (lv + 1) } := by
    have hget := getBit_cons (rest := rem) (s := s1) (b := b) rfl
    simp only [coreStep, s1, tdecSymStep] at hget ⊢
    rw [hget]
    simp only [List.nil_append]
    rw [if_neg (by simp; omega), ← hq]
    have e := tookBits_tookBits 7 1 (b :: rem) rem s
    simp only [tookBits, State.mk.injEq] at e
    simp [writeNode, tookBits]
    simpa using e
  exact coreSteps_trans h1 (coreSteps_one hstep)

/-- TDEC reads the bits of a trie into the next slot (43_trie_codec.md R265, R266). -/
theorem tdec_run (t : Trie) {s : State} {slot : Slot} {pending : List Slot} {n lv : Nat} {rem : List Bool}
    (ht : s.task = .tdecTag (slot :: pending) n lv) (hb : s.srcBits = t.ser ++ rem) (hn : n + t.size ≤ 511) :
    coreSteps t.ser.length s = some { tookBits t.ser.length rem s with
      nodes := plant t slot n s.nodes, task := .tdecTag pending (n + t.size) (lv + t.leaves) } := by
  induction t generalizing s slot pending n lv rem with
  | leaf x =>
    simp only [Trie.size] at hn
    have hnn : (BitVec.ofNat 9 n).toNat = n := by simp; omega
    have hget := getBit_cons (rest := bitsMsb x ++ rem) (s := s) (b := true) (by simpa [Trie.ser] using hb)
    let s1 : State := { tookBits 1 (bitsMsb x ++ rem) s with
      nodes := linkTable slot (BitVec.ofNat 9 n) s.nodes, task := .tdecSym pending (n + 1) lv (BitVec.ofNat 9 n) [] }
    have hstep : coreStep s = some s1 := by
      rw [coreStep_tdecTag ht]
      simp only [tdecTagStep, hget]
      rw [if_neg (by simp [Config.nodeCap]; omega)]
      simp [linkSlot_eq, s1, tookBits]
    have h8 := tdecSym_run (x := x) (s := s1) (rem := rem) rfl rfl
    have hlen : (Trie.leaf x).ser.length = 8 + 1 := by simp [Trie.ser]
    rw [hlen, coreSteps_succ hstep, h8]
    have e := tookBits_tookBits 1 8 (bitsMsb x ++ rem) rem s
    simp only [tookBits, State.mk.injEq] at e
    simp [s1, tookBits, plant, Trie.size, Trie.leaves, hnn]
    simpa using e
  | node l r ihl ihr =>
    simp only [Trie.size] at hn
    have hnn : (BitVec.ofNat 9 n).toNat = n := by simp; omega
    have hget := getBit_cons (rest := l.ser ++ (r.ser ++ rem)) (s := s) (b := false) (by simpa [Trie.ser] using hb)
    let s1 : State := { tookBits 1 (l.ser ++ (r.ser ++ rem)) s with
      nodes := Table.write Node.zero (linkTable slot (BitVec.ofNat 9 n) s.nodes) n (Node.mkInternal 0 0 0),
      task := .tdecTag (.left (BitVec.ofNat 9 n) :: .right (BitVec.ofNat 9 n) :: pending) (n + 1) lv }
    have hstep : coreStep s = some s1 := by
      rw [coreStep_tdecTag ht]
      simp only [tdecTagStep, hget]
      rw [if_neg (by simp [Config.nodeCap]; omega)]
      simp [linkSlot_eq, s1, tookBits, writeNode]
    have h1 := ihl (s := s1) (rem := r.ser ++ rem) rfl rfl (by omega)
    let s2 : State := { tookBits l.ser.length (r.ser ++ rem) s1 with
      nodes := plant l (.left (BitVec.ofNat 9 n)) (n + 1) s1.nodes,
      task := .tdecTag (.right (BitVec.ofNat 9 n) :: pending) (n + 1 + l.size) (lv + l.leaves) }
    have h2 := ihr (s := s2) (rem := rem) rfl rfl (by omega)
    have hall := coreSteps_trans (coreSteps_one hstep) (coreSteps_trans h1 h2)
    have hcount : (Trie.node l r).ser.length = 1 + (l.ser.length + r.ser.length) := by simp [Trie.ser]; omega
    rw [hcount, hall]
    have e1 := tookBits_tookBits 1 l.ser.length (l.ser ++ (r.ser ++ rem)) (r.ser ++ rem) s
    have e2 := tookBits_tookBits (1 + l.ser.length) r.ser.length (r.ser ++ rem) rem s
    rw [← e1] at e2
    simp only [tookBits, State.mk.injEq] at e2
    have e4 := e2.2.2.2.2.2.2.2.2.2.2.2.2.2.2.2.1
    have e6 : 1 + (l.size + r.size) = l.size + (r.size + 1) := by omega
    simp only [s2, s1, tookBits, plant, Trie.size, Trie.leaves, e6, Nat.add_assoc] at e4 ⊢
    rw [e4]

theorem mem_linkTable {slot : Slot} {i : NodeIndex} {nodes : Table Node} {p : Nat × Node}
    (h : p ∈ linkTable slot i nodes) : p ∈ nodes ∨ ∃ k : NodeIndex,
      (slot = .left k ∧ p = (k.toNat, { Table.read Node.zero nodes k.toNat with left := i }))
        ∨ (slot = .right k ∧ p = (k.toNat, { Table.read Node.zero nodes k.toNat with right := i })) := by
  cases slot with
  | root => exact .inl h
  | left k =>
    rcases Table.mem_write h with h | h
    · exact .inl h
    · exact .inr ⟨k, .inl ⟨rfl, h.1⟩⟩
  | right k =>
    rcases Table.mem_write h with h | h
    · exact .inl h
    · exact .inr ⟨k, .inr ⟨rfl, h.1⟩⟩

theorem trieNodes_weight (t : Trie) (n : Nat) : ∀ v ∈ trieNodes t n, v.weight = 0 := by
  induction t generalizing n with
  | leaf x => simp [trieNodes, Node.mkLeaf]
  | node l r ihl ihr =>
    intro v hv
    simp only [trieNodes, List.mem_cons, List.mem_append] at hv
    rcases hv with rfl | hv | hv
    · rfl
    · exact ihl _ v hv
    · exact ihr _ v hv

/-- The node memory TDEC leaves: the trie's nodes in pre-order from index 0, the rest zero, all weights 0
(43_trie_codec.md R270). -/
theorem plant_root (t : Trie) (h : t.size ≤ 511) :
    let nodes := plant t .root 0 []
    Table.wf Node.zero Config.nodeCap nodes = true ∧ TrieAt nodes 0 t ∧ trieIndices nodes 0 t = List.range t.size
      ∧ (∀ k, t.size ≤ k → Table.read Node.zero nodes k = Node.zero)
      ∧ ∀ k, (Table.read Node.zero nodes k).weight = 0 := by
  intro nodes
  have hr := plant_read (t := t) (slot := .root) (n := 0) (nodes := []) rfl trivial (by omega)
  have hb : ∀ k, t.size ≤ k → Table.read Node.zero nodes k = Node.zero := by
    intro k hk
    rw [hr, dif_neg (by simp; omega)]; rfl
  have ht := TrieAt_of_trieNodes (nodes := nodes) (t := t) (n := 0) (by omega) (by
    intro k hk
    simp only [Nat.zero_add]
    rw [hr, dif_pos ⟨Nat.zero_le _, hk⟩]
    rfl)
  refine ⟨plant_wf rfl trivial (by omega), ht.1, ?_, hb, fun k => ?_⟩
  · rw [List.range_eq_range']; exact ht.2
  · rw [hr]
    split
    · exact trieNodes_weight _ _ _ (List.getElem_mem _)
    · rfl

/-! ### Streams that end early or hold too many nodes -/

theorem Trie.nodeBits_flatten (t : Trie) : t.nodeBits.flatten = t.ser := by
  induction t with
  | leaf x => simp [nodeBits, ser]
  | node l r ihl ihr => simp [nodeBits, ser, ihl, ihr]

theorem Trie.nodeBits_length (t : Trie) : t.nodeBits.length = t.size := by
  induction t with
  | leaf x => rfl
  | node l r ihl ihr => simp [nodeBits, size, ihl, ihr]

/-- TDEC reads the tag of an internal node (43_trie_codec.md R265). -/
theorem tdec_internal {s : State} {slot : Slot} {pending : List Slot} {n lv : Nat} {rem : List Bool}
    (ht : s.task = .tdecTag (slot :: pending) n lv) (hb : s.srcBits = false :: rem) (hn : n < 511) :
    ∃ nodes, coreStep s = some { tookBits 1 rem s with
      nodes := nodes
      task := .tdecTag (.left (BitVec.ofNat 9 n) :: .right (BitVec.ofNat 9 n) :: pending) (n + 1) lv } := by
  refine ⟨Table.write Node.zero (linkTable slot (BitVec.ofNat 9 n) s.nodes) n (Node.mkInternal 0 0 0), ?_⟩
  rw [coreStep_tdecTag ht]
  simp only [tdecTagStep, getBit_cons hb]
  rw [if_neg (by simp [Config.nodeCap]; omega)]
  simp [linkSlot_eq, tookBits, writeNode]

theorem tdecFail_nodes (u : Subcause) (n m : Nat) (r r' : List Bool) (s : State) (nodes : Table Node) (t : Task) :
    tdecFail u (tookBits n r' { tookBits m r s with nodes := nodes, task := t }) = tdecFail u (tookBits (m + n) r' s) := by
  have e := tookBits_tookBits m n r r' s
  simp only [tookBits, State.mk.injEq] at e
  simp [tdecFail, tookBits, finish, clearTrie, setTrie, e]

/-- The stream ends before the tries of the pending slots are complete: TRUNC_TRIE (43_trie_codec.md R268). -/
theorem tdec_trunc (ts : List Trie) {s : State} {pending : List Slot} {n lv : Nat} {q c : List Bool}
    (hp : pending.length = ts.length) (ht : s.task = .tdecTag pending n lv) (hb : s.srcBits = q)
    (he : s.srcEnded = true) (hq : (ts.flatMap Trie.nodeBits).flatten = q ++ c) (hc : c ≠ []) (hn : n ≤ 511)
    (hlen : q.length ≤ ((ts.flatMap Trie.nodeBits).take (511 - n)).flatten.length) :
    coreSteps (q.length + 1) s = some (tdecFail .truncTrie (tookBits q.length [] s)) := by
  induction h : (ts.flatMap Trie.nodeBits).length generalizing ts s pending n lv q with
  | zero =>
    have := List.length_eq_zero_iff.1 h
    rw [this] at hq
    simp at hq
    exact absurd hq.2 hc
  | succ m ih =>
    cases ts with
    | nil => simp at h
    | cons t ts =>
      cases pending with
      | nil => simp at hp
      | cons slot pending =>
        by_cases hq0 : q = []
        · subst hq0
          refine coreSteps_one ?_
          rw [coreStep_tdecTag ht]
          simp only [tdecTagStep, getBit_end hb he, List.length_nil, tookBits_zero hb]
        · have hn' : n < 511 := by
            rcases Nat.lt_or_ge n 511 with h' | h'
            · exact h'
            · have : 511 - n = 0 := by omega
              rw [this] at hlen
              simp at hlen
              exact absurd hlen hq0
          have hsub : 511 - n = (511 - (n + 1)) + 1 := by omega
          cases t with
          | node l r =>
            have hitems : (Trie.node l r :: ts).flatMap Trie.nodeBits
                = [false] :: ((l :: r :: ts).flatMap Trie.nodeBits) := by
              simp [Trie.nodeBits]
            rw [hitems] at hq hlen h
            cases q with
            | nil => exact absurd rfl hq0
            | cons b q =>
              simp only [List.flatten_cons, List.cons_append, List.nil_append, List.cons.injEq] at hq
              obtain ⟨rfl, hq⟩ := hq
              obtain ⟨nodes, hstep⟩ := tdec_internal ht hb hn'
              rw [List.length_cons, coreSteps_succ hstep]
              have hih := ih (l :: r :: ts) (q := q) (s := { tookBits 1 q s with
                  nodes := nodes
                  task := .tdecTag (.left (BitVec.ofNat 9 n) :: .right (BitVec.ofNat 9 n) :: pending) (n + 1) lv })
                (by simpa using hp) rfl rfl he hq (by omega)
                (by have h1 : 511 - n = (511 - (n + 1)) + 1 := by omega
                    rw [h1, List.take_succ_cons, List.flatten_cons] at hlen
                    simp only [List.length_append, List.length_cons, List.length_nil] at hlen
                    omega)
                (by simpa using h)
              rw [hih, tdecFail_nodes, Nat.add_comm]
          | leaf x =>
            have hitems : (Trie.leaf x :: ts).flatMap Trie.nodeBits
                = (true :: bitsMsb x) :: (ts.flatMap Trie.nodeBits) := by
              simp [Trie.nodeBits]
            rw [hitems] at hq hlen h
            rw [hsub] at hlen
            rw [List.flatten_cons] at hq
            rcases List.append_eq_append_iff.1 hq with ⟨a, h1, h2⟩ | ⟨a, h1, h2⟩
            · have hrun := tdec_run (.leaf x) (rem := a) ht (by rw [hb, h1]; rfl) (by simp [Trie.size]; omega)
              have hser : (Trie.leaf x).ser = true :: bitsMsb x := rfl
              have hih := ih ts (q := a) (s := { tookBits (Trie.leaf x).ser.length a s with
                  nodes := plant (.leaf x) slot n s.nodes
                  task := .tdecTag pending (n + (Trie.leaf x).size) (lv + (Trie.leaf x).leaves) })
                (by simpa using hp) rfl rfl he h2 (by simp [Trie.size]; omega)
                (by rw [h1, List.take_succ_cons, List.flatten_cons, List.length_append, List.length_append] at hlen
                    simp only [Trie.size]; omega)
                (by simpa using h)
              have hall := coreSteps_trans hrun hih
              rw [tdecFail_nodes] at hall
              have hl : q.length = (Trie.leaf x).ser.length + a.length := by rw [h1, hser]; simp; omega
              rw [hl, Nat.add_assoc, hall]
            · cases q with
              | nil => exact absurd rfl hq0
              | cons b q =>
                simp only [List.cons_append, List.cons.injEq] at h1
                obtain ⟨rfl, h1⟩ := h1
                by_cases ha : a = []
                · -- the cut is exactly after the leaf
                  subst ha
                  have hrun := tdec_run (.leaf x) (rem := []) ht (by
                    rw [hb, ← (show bitsMsb x = q by simpa using h1)]; simp [Trie.ser]) (by simp [Trie.size]; omega)
                  have hser : (Trie.leaf x).ser = true :: bitsMsb x := rfl
                  have hih := ih ts (q := []) (s := { tookBits (Trie.leaf x).ser.length [] s with
                      nodes := plant (.leaf x) slot n s.nodes
                      task := .tdecTag pending (n + (Trie.leaf x).size) (lv + (Trie.leaf x).leaves) })
                    (by simpa using hp) rfl rfl he (by simpa using h2.symm) (by simp [Trie.size]; omega)
                    (by simp) (by simpa using h)
                  have hall := coreSteps_trans hrun hih
                  rw [tdecFail_nodes] at hall
                  have hl : (true :: q).length = (Trie.leaf x).ser.length := by
                    rw [hser, h1]; simp
                  rw [hl]
                  simpa using hall
                · have hget := getBit_cons (rest := q) (s := s) (b := true) (by simpa using hb)
                  let s1 : State := { tookBits 1 q s with
                    nodes := linkTable slot (BitVec.ofNat 9 n) s.nodes
                    task := .tdecSym pending (n + 1) lv (BitVec.ofNat 9 n) [] }
                  have hstep : coreStep s = some s1 := by
                    rw [coreStep_tdecTag ht]
                    simp only [tdecTagStep, hget]
                    rw [if_neg (by simp [Config.nodeCap]; omega)]
                    simp [linkSlot_eq, s1, tookBits]
                  have hq8 : q.length < 8 := by
                    have := congrArg List.length h1
                    have h0 := List.length_pos_iff.2 ha
                    simp at this; omega
                  have hpart := tdecSym_part q (rem := []) (s := s1) rfl (by simp [s1, tookBits]) (by simpa using hq8)
                  have hend : coreStep { tookBits q.length [] s1 with
                      task := .tdecSym pending (n + 1) lv (BitVec.ofNat 9 n) ([] ++ q) }
                      = some (tdecFail .truncTrie { tookBits q.length [] s1 with
                          task := .tdecSym pending (n + 1) lv (BitVec.ofNat 9 n) ([] ++ q) }) := by
                    simp only [coreStep, tdecSymStep]
                    rw [getBit_end (s := { tookBits q.length [] s1 with
                      task := .tdecSym pending (n + 1) lv (BitVec.ofNat 9 n) ([] ++ q) }) rfl he]
                  have hall := coreSteps_trans (coreSteps_one hstep) (coreSteps_trans hpart (coreSteps_one hend))
                  have hl : (true :: q).length + 1 = 1 + (q.length + 1) := by simp; omega
                  rw [hl, hall]
                  have := tdecFail_nodes .truncTrie q.length 1 q [] s
                    (linkTable slot (BitVec.ofNat 9 n) s.nodes) (.tdecSym pending (n + 1) lv (BitVec.ofNat 9 n) [])
                  rw [List.length_cons, Nat.add_comm q.length 1, ← this]
                  rfl

/-- The tag of a 512th node: NODE_OVERFLOW (43_trie_codec.md R267). -/
theorem tdec_overflow (ts : List Trie) {s : State} {pending : List Slot} {n lv : Nat} {b : Bool} {rem : List Bool}
    (hp : pending.length = ts.length) (ht : s.task = .tdecTag pending n lv) (hn : n ≤ 511)
    (hlen : 511 - n < (ts.flatMap Trie.nodeBits).length)
    (hb : s.srcBits = ((ts.flatMap Trie.nodeBits).take (511 - n)).flatten ++ b :: rem) :
    coreSteps (((ts.flatMap Trie.nodeBits).take (511 - n)).flatten.length + 1) s
      = some (tdecFail .nodeOverflow
          (tookBits (((ts.flatMap Trie.nodeBits).take (511 - n)).flatten.length + 1) rem s)) := by
  induction h : 511 - n generalizing ts s pending n lv with
  | zero =>
    obtain rfl : n = 511 := by omega
    cases ts with
    | nil => simp at hlen
    | cons t ts =>
      cases pending with
      | nil => simp at hp
      | cons slot pending =>
        simp only [Nat.sub_self, List.take_zero, List.flatten_nil, List.nil_append] at hb
        refine coreSteps_one ?_
        rw [coreStep_tdecTag ht]
        simp only [tdecTagStep, getBit_cons hb]
        rw [if_pos (by decide)]
        simp
  | succ m ih =>
    have hm : 511 - (n + 1) = m := by omega
    cases ts with
    | nil => simp at hlen
    | cons t ts =>
      cases pending with
      | nil => simp at hp
      | cons slot pending =>
        cases t with
        | node l r =>
          have hitems : (Trie.node l r :: ts).flatMap Trie.nodeBits
              = [false] :: ((l :: r :: ts).flatMap Trie.nodeBits) := by
            simp [Trie.nodeBits]
          rw [hitems, h, List.take_succ_cons] at hb
          rw [hitems] at hlen ⊢
          obtain ⟨nodes, hstep⟩ := tdec_internal ht (by simpa using hb) (by omega)
          have hih := ih (l :: r :: ts) (s := { tookBits 1
                ((((l :: r :: ts).flatMap Trie.nodeBits).take m).flatten ++ b :: rem) s with
              nodes := nodes
              task := .tdecTag (.left (BitVec.ofNat 9 n) :: .right (BitVec.ofNat 9 n) :: pending) (n + 1) lv })
            (by simpa using hp) rfl (by omega) (by simp at hlen ⊢; omega) (by rw [hm]; rfl) hm
          rw [tdecFail_nodes] at hih
          rw [List.take_succ_cons, List.flatten_cons, List.length_append, List.length_singleton]
          have hall := coreSteps_trans (coreSteps_one hstep) hih
          rw [← Nat.add_assoc] at hall
          rw [hall]
        | leaf x =>
          have hitems : (Trie.leaf x :: ts).flatMap Trie.nodeBits
              = (Trie.leaf x).ser :: (ts.flatMap Trie.nodeBits) := by
            simp [Trie.nodeBits, Trie.ser]
          rw [hitems, h, List.take_succ_cons] at hb
          rw [hitems] at hlen ⊢
          have hrun := tdec_run (.leaf x) (rem := ((ts.flatMap Trie.nodeBits).take m).flatten ++ b :: rem) ht
            (by simpa using hb) (by simp [Trie.size]; omega)
          have hih := ih ts (n := n + 1) (s := { tookBits (Trie.leaf x).ser.length
                (((ts.flatMap Trie.nodeBits).take m).flatten ++ b :: rem) s with
              nodes := plant (.leaf x) slot n s.nodes
              task := .tdecTag pending (n + (Trie.leaf x).size) (lv + (Trie.leaf x).leaves) })
            (by simpa using hp) rfl (by omega) (by simp at hlen ⊢; omega) (by rw [hm]; rfl) hm
          rw [tdecFail_nodes] at hih
          rw [List.take_succ_cons, List.flatten_cons, List.length_append]
          have hall := coreSteps_trans hrun hih
          rw [← Nat.add_assoc] at hall
          rw [hall]

end Sys2Proof.Machine
end

