-- ==== Sys2Proof/Laws/Invariant.lean ====
section
/-! SUPPORT. What each command's steps keep: the canonical form of the tables, the form of their entries, and what
`TaskOk` says at each point of a command. -/

namespace Sys2Proof.Machine

/-- The tables' canonical form and the form of their entries (log 7; 10_state.md R47, R49). -/
structure TablesOk (s : State) : Prop where
  tables : Memory.wf s = true
  nodes : ∀ p ∈ s.nodes, p.2.wf
  lut : ∀ p ∈ s.lut, p.2.wf

theorem Inv.ok {s : State} (h : Inv s) : TablesOk s := ⟨h.tables, h.nodes, h.lut⟩

theorem Inv.of {s : State} (h : TablesOk s) (hs : (s.result, s.subcause) ∈ legalPairs) (ht : TaskOk s) : Inv s :=
  ⟨h.tables, h.nodes, h.lut, hs, ht⟩

theorem Memory.wf_iff {s : State} : Memory.wf s = true ↔ Table.wf 0 Config.nsym s.freq = true
    ∧ Table.wf Node.zero Config.nodeCap s.nodes = true ∧ Table.wf LutEntry.zero Config.nsym s.lut = true := by
  simp [Memory.wf, and_assoc]

/-! ### Every memory operation keeps the canonical form (log 7) -/

theorem writeFreq_wf {s : State} (h : Memory.wf s = true) (x : Symbol) (v : Word) :
    Memory.wf (writeFreq x v s) = true := by
  rw [Memory.wf_iff] at h ⊢
  exact ⟨Table.write_wf h.1 x.isLt, h.2⟩

theorem writeNode_wf {s : State} (h : Memory.wf s = true) {n : Nat} (hn : n < 511) (v : Node) :
    Memory.wf (writeNode n v s) = true := by
  rw [Memory.wf_iff] at h ⊢
  exact ⟨h.1, Table.write_wf h.2.1 hn, h.2.2⟩

theorem writeLut_wf {s : State} (h : Memory.wf s = true) (x : Symbol) (e : LutEntry) :
    Memory.wf (writeLut x e s) = true := by
  rw [Memory.wf_iff] at h ⊢
  exact ⟨h.1, h.2.1, Table.write_wf h.2.2 x.isLt⟩

theorem clearTables_wf {s : State} (h : Memory.wf s = true) : Memory.wf (clearTables s) = true := by
  rw [Memory.wf_iff] at h ⊢
  exact ⟨h.1, rfl, rfl⟩

theorem resetCore_wf (s : State) : Memory.wf (resetCore s) = true := rfl

theorem reset_wf : Memory.wf State.reset = true := rfl

/-! ### Completion -/

theorem Inv.finish {s : State} {c : ResultCode} {u : Subcause} (h : TablesOk s) (hp : (c, u) ∈ legalPairs)
    (h1 : TrieStateOk s) (h2 : LutStateOk s) : Inv (Machine.finish c u s) :=
  Inv.of ⟨h.tables, h.nodes, h.lut⟩ hp ⟨h1, h2⟩

/-! ### The trie cleared -/

theorem trieStateOk_none {s : State} (h : s.trieState ≠ .valid) (hn : NoTrie s) : TrieStateOk s := by
  unfold TrieStateOk
  split
  · exact hn
  · exact hn
  · rename_i h'; exact absurd h' h

theorem lutStateOk_none {s : State} (h : s.lutValid = false) (hl : s.lut = []) : LutStateOk s := by
  unfold LutStateOk
  rw [if_neg (by simp [h])]
  exact hl

theorem TablesOk.clear {s : State} (h : TablesOk s) : TablesOk (clearTables s) :=
  ⟨clearTables_wf h.tables, by simp, by simp⟩

/-- A node memory whose every entry is zero lists nothing. -/
theorem nodes_nil {nodes : Table Node} (h : Table.wf Node.zero Config.nodeCap nodes = true)
    (hz : ∀ k, Table.read Node.zero nodes k = Node.zero) : nodes = [] :=
  Table.eq_of_read_eq h (u := []) rfl fun k => by rw [hz k]; rfl

/-! ### BUILD -/

theorem begin_build_inv {s : State} (h : TablesOk s) (hs : (s.result, s.subcause) ∈ legalPairs) :
    Inv (beginBuild s) := by
  rw [beginBuild_eq]
  have hL := leafSymbols_length s
  have hw := Memory.wf_iff.1 h.tables
  refine Inv.of ⟨Memory.wf_iff.2 ⟨hw.1, leafNodes_wf _ _ _ _ rfl (by omega), rfl⟩, ?_, by simp⟩ hs ?_
  · intro p hp
    rcases leafNodes_mem _ _ _ _ _ hp with hp | ⟨x, w, hx⟩
    · simp at hp
    · rw [hx]
      exact ⟨rfl, fun _ => ⟨rfl, rfl⟩, fun h => by simp [Node.mkLeaf] at h⟩
  · refine ⟨rfl, rfl, rfl, hL, by simp; omega, ?_, ?_⟩
    · intro k hk
      show Table.read Node.zero (leafNodes s (leafSymbols s) 0 []) k = Node.zero
      rw [leafNodes_read, dif_neg (by omega)]
      rfl
    · by_cases hne : leafSymbols s = []
      · exact ⟨[], by simp [hne, leafEntries], by simp, by simp [hne], by simp [hne]⟩
      · exact (buildLoop_start s hne).roots

theorem build_inv {s : State} {n seq leaves : Nat} {pq : List PqEntry} (h : TablesOk s)
    (hs : (s.result, s.subcause) ∈ legalPairs) (hb : BuildOk n seq leaves pq s) : Inv (buildStep n seq leaves pq s) := by
  obtain ⟨hv, hl, rfl, hle, hcount, hbeyond, roots, hr1, hr2, hr3, hr4⟩ := hb
  have hw := Memory.wf_iff.1 h.tables
  unfold buildStep
  split
  · rename_i hpq
    obtain rfl := extractMin_none.1 hpq
    have : roots = [] := by simpa using hr1
    subst this
    have hz : seq = 0 := by simp at hr4 hcount; omega
    refine Inv.finish ⟨h.tables, h.nodes, h.lut⟩ (by decide) ?_ (lutStateOk_none hv hl)
    refine trieStateOk_none (by simp) ⟨?_, rfl, rfl, rfl⟩
    exact nodes_nil hw.2.1 fun k => hbeyond k (by omega)
  · rename_i a q1 ha
    have hla := extractMin_length ha
    split
    · rename_i hq1
      obtain rfl := extractMin_none.1 hq1
      obtain ⟨e, rfl⟩ := List.length_eq_one_iff.1 hla
      obtain rfl : e = a := by simp [extractMin] at ha; exact ha
      cases roots with
      | nil => simp at hr1
      | cons r roots =>
        simp only [List.map_cons, List.cons.injEq, List.map_eq_nil_iff] at hr1
        obtain ⟨rfl, rfl⟩ := hr1
        simp only [List.length_singleton] at hcount
        simp only [List.flatMap_cons, List.flatMap_nil, List.append_nil] at hr3
        simp only [List.map_cons, List.map_nil, List.sum_cons, List.sum_nil, Nat.add_zero] at hr4
        have hn10 : (BitVec.ofNat 10 seq).toNat = seq := by simp; omega
        have hl9 : (BitVec.ofNat 9 leaves).toNat = leaves := by simp; omega
        refine Inv.finish ⟨h.tables, h.nodes, h.lut⟩ (by decide) ?_ (lutStateOk_none hv hl)
        refine ⟨⟨r.2, hr2 r (by simp), ?_, ?_⟩, ?_⟩
        · simpa only [setTrie_nodecnt, setTrie_nodes, setTrie_root, hn10] using hr3
        · simpa only [setTrie_leafcnt, hl9] using hr4
        · intro k hk
          simp only [setTrie_nodecnt, hn10] at hk
          exact hbeyond k hk
    · rename_i b q2 hb
      have hlb := extractMin_length hb
      have hn : seq < 511 := by omega
      refine Inv.of ⟨?_, ?_, h.lut⟩ hs ?_
      · exact writeNode_wf h.tables hn (Node.mkInternal a.node b.node (a.weight + b.weight))
      · intro p hp
        have hp' : p ∈ Table.write Node.zero s.nodes seq (Node.mkInternal a.node b.node (a.weight + b.weight)) := hp
        rcases Table.mem_write hp' with hp | ⟨rfl, _⟩
        · exact h.nodes p hp
        · exact ⟨rfl, fun h => by simp [Node.mkInternal] at h, fun _ => rfl⟩
      · refine ⟨hv, hl, rfl, hle, by simp; omega, ?_, ?_⟩
        · intro k hk
          show Table.read Node.zero
            (Table.write Node.zero s.nodes seq (Node.mkInternal a.node b.node (a.weight + b.weight))) k = Node.zero
          rw [Table.read_write_of_ne (mkInternal_ne_zero _ _ _), if_neg (by omega)]
          exact hbeyond k (by omega)
        · exact merge_roots _ _ (by omega) (by rw [hr1]; exact ha) hb hr2 hr3 hr4

/-! ### GENLUT -/

theorem lutWith_wf {lut : Table LutEntry} (ps : List (Symbol × List Bool))
    (h : Table.wf LutEntry.zero Config.nsym lut = true) :
    Table.wf LutEntry.zero Config.nsym (lutWith lut ps) = true := by
  induction ps generalizing lut with
  | nil => exact h
  | cons p ps ih => exact ih (Table.write_wf h p.1.isLt)

theorem begin_genlut_inv {s : State} (h : Inv s) (h1 : TrieStateOk s) (h2 : LutStateOk s) : Inv (beginGenlut s) := by
  have hw := Memory.wf_iff.1 h.tables
  have hk : TablesOk { s with lut := [] } := ⟨Memory.wf_iff.2 ⟨hw.1, hw.2.1, rfl⟩, h.nodes, by simp⟩
  unfold beginGenlut
  split
  · exact Inv.finish h.ok (by decide) h1 h2
  · rename_i ht
    exact Inv.of ⟨hk.tables, hk.nodes, hk.lut⟩ h.status ⟨h1, .inl ⟨ht, rfl, rfl⟩⟩
  · rename_i ht
    have h1' := h1
    unfold TrieStateOk at h1'
    rw [ht] at h1'
    obtain ⟨⟨t, hold⟩, _⟩ := h1'
    have hb := hold.bounds h.tables
    refine Inv.of ⟨hk.tables, hk.nodes, hk.lut⟩ h.status
      ⟨h1, .inr ⟨ht, [((s.root, []), t)], rfl, ?_, by simpa using hb.2.2.1, t, hold, ?_⟩⟩
    · intro r hr
      obtain rfl := List.mem_singleton.1 hr
      exact ⟨hold.1, by simpa [Config.maxCode] using hb.2.2.2⟩
    · simp [Trie.paths]

theorem genlut_inv {s : State} {stack : List (NodeIndex × List Bool)} (h : Inv s) (h1 : TrieStateOk s)
    (hg : GenlutOk stack s) : Inv (genlutStep stack s) := by
  have hw := Memory.wf_iff.1 h.tables
  rcases hg with ⟨ht, rfl, hl⟩ | ⟨ht, subs, hs1, hs2, hs3, t, hold, hlut⟩
  · refine Inv.finish ⟨h.tables, h.nodes, h.lut⟩ (by decide) h1 ?_
    unfold LutStateOk
    simp only [if_true, ht]
    exact hl
  · cases subs with
    | nil =>
      obtain rfl : stack = [] := by simpa using hs1.symm
      refine Inv.finish ⟨h.tables, h.nodes, h.lut⟩ (by decide) h1 ?_
      unfold LutStateOk
      simp only [if_true, ht]
      exact ⟨t, hold, by simpa [lutWith] using hlut⟩
    | cons r subs =>
      obtain ⟨⟨i, p⟩, u⟩ := r
      cases stack with
      | nil => simp at hs1
      | cons e stack =>
      simp only [List.map_cons, List.cons.injEq] at hs1
      obtain ⟨rfl, hs1⟩ := hs1
      obtain ⟨hat, hd⟩ := hs2 _ List.mem_cons_self
      simp only [genlutStep]
      cases u with
      | leaf x =>
        have hx : (nodeAt i s).leaf = true := hat.2.1
        have hy : (nodeAt i s).sym = x := hat.2.2
        rw [if_pos hx, hy]
        simp only [Trie.depth, Config.maxCode, Nat.add_zero] at hd
        refine Inv.of ⟨?_, h.nodes, ?_⟩ h.status ⟨h1, .inr ⟨ht, subs, hs1, ?_, ?_, t, hold, ?_⟩⟩
        · exact writeLut_wf h.tables x (LutEntry.ofPath p)
        · intro q hq
          have hq' : q ∈ Table.write LutEntry.zero s.lut x.toNat (LutEntry.ofPath p) := hq
          rcases Table.mem_write hq' with hq | ⟨rfl, _⟩
          · exact h.lut q hq
          · exact ofPath_wf p hd
        · exact fun r hr => hs2 r (by simp [hr])
        · simp only [List.map_cons, List.sum_cons] at hs3; omega
        · rw [← hlut]
          simp [lutWith, Trie.pathsFrom, writeLut]
      | node l r =>
        obtain ⟨_, hx, hl, hr⟩ := hat
        have hx' : (nodeAt i s).leaf = false := hx
        rw [if_neg (by simp [hx'])]
        refine Inv.of ⟨h.tables, h.nodes, h.lut⟩ h.status ⟨h1, .inr ⟨ht,
          (((nodeAt i s).left, p ++ [false]), l) :: (((nodeAt i s).right, p ++ [true]), r) :: subs,
          by simp [hs1], ?_, ?_, t, hold, ?_⟩⟩
        · simp only [Trie.depth] at hd
          intro q hq
          rcases List.mem_cons.1 hq with rfl | hq
          · exact ⟨hl, by simp; omega⟩
          · rcases List.mem_cons.1 hq with rfl | hq
            · exact ⟨hr, by simp; omega⟩
            · exact hs2 q (by simp [hq])
        · simp only [List.map_cons, List.sum_cons, Trie.leaves] at hs3 ⊢; omega
        · rw [← hlut]
          simp [Trie.pathsFrom]

/-! ### TENC -/

theorem begin_tenc_inv {s : State} (h : Inv s) (h1 : TrieStateOk s) (h2 : LutStateOk s) : Inv (beginTenc s) := by
  unfold beginTenc
  split
  · exact Inv.finish h.ok (by decide) h1 h2
  · exact Inv.of ⟨h.tables, h.nodes, h.lut⟩ h.status ⟨h1, h2, ⟨[], rfl, by simp, by simp⟩, by simp⟩
  · rename_i ht
    have h1' := h1
    unfold TrieStateOk at h1'
    rw [ht] at h1'
    obtain ⟨⟨t, hold⟩, _⟩ := h1'
    have hb := hold.bounds h.tables
    refine Inv.of ⟨h.tables, h.nodes, h.lut⟩ h.status
      ⟨h1, h2, ⟨[(s.root, t)], rfl, ?_, by simpa using hb.2.2.1⟩, by simp⟩
    intro r hr
    obtain rfl := List.mem_singleton.1 hr
    exact hold.1

theorem tenc_inv {s t : State} {out : List Bool} {stack : List NodeIndex} (h : Inv s) (h1 : TrieStateOk s)
    (h2 : LutStateOk s) (hg : TencOk stack s) (ho : out.length ≤ 9) (hs : tencStep out stack s = some t) : Inv t := by
  unfold tencStep at hs
  split at hs
  · obtain ⟨t', ht', rfl⟩ := Option.map_eq_some_iff.1 hs
    obtain ⟨r, _, rfl⟩ := putBit_cases ht'
    exact Inv.of ⟨h.tables, h.nodes, h.lut⟩ h.status ⟨h1, h2, hg, by simp only [List.length_cons] at ho; omega⟩
  · obtain ⟨subs, hs1, hs2, hs3⟩ := hg
    split at hs
    · obtain rfl := Option.some.inj hs
      exact Inv.finish h.ok (by decide) h1 h2
    · cases subs with
      | nil => simp at hs1
      | cons r subs =>
        obtain ⟨i, u⟩ := r
        simp only [List.map_cons, List.cons.injEq] at hs1
        obtain ⟨rfl, hs1⟩ := hs1
        have hat := hs2 _ (List.mem_cons_self)
        cases u with
        | leaf x =>
          have hx : (nodeAt i s).leaf = true := hat.2.1
          simp only [hx, if_true, Option.some.injEq] at hs
          subst hs
          refine Inv.of ⟨h.tables, h.nodes, h.lut⟩ h.status 
            ⟨h1, h2, ⟨subs, hs1, fun r hr => hs2 r (by simp [hr]), ?_⟩, by simp⟩
          simp only [List.map_cons, List.sum_cons] at hs3; omega
        | node l r =>
          obtain ⟨_, hx, hl, hr⟩ := hat
          have hx' : (nodeAt i s).leaf = false := hx
          simp only [hx', Bool.false_eq_true, if_false, Option.some.injEq] at hs
          subst hs
          refine Inv.of ⟨h.tables, h.nodes, h.lut⟩ h.status ⟨h1, h2,
            ⟨((nodeAt i s).left, l) :: ((nodeAt i s).right, r) :: subs, by simp [hs1], ?_, ?_⟩, by simp⟩
          · intro q hq
            rcases List.mem_cons.1 hq with rfl | hq
            · exact hl
            · rcases List.mem_cons.1 hq with rfl | hq
              · exact hr
              · exact hs2 q (by simp [hq])
          · simp only [List.map_cons, List.sum_cons, Trie.leaves] at hs3 ⊢; omega

/-! ### TDEC -/

theorem linkTable_root (i : NodeIndex) (nodes : Table Node) : linkTable .root i nodes = nodes := rfl

/-- An entry below `n` after a link: only the linked side changed. -/
theorem linkTable_fields {nodes : Table Node} (h : Table.wf Node.zero Config.nodeCap nodes = true) (slot : Slot)
    (i : NodeIndex) (k : Nat) :
    let a := Table.read Node.zero nodes k
    let b := Table.read Node.zero (linkTable slot i nodes) k
    a.inuse = b.inuse ∧ a.leaf = b.leaf ∧ a.sym = b.sym
      ∧ (a.left = b.left ∨ ∃ p : NodeIndex, p.toNat = k ∧ slot = .left p)
      ∧ (a.right = b.right ∨ ∃ p : NodeIndex, p.toNat = k ∧ slot = .right p) := by
  intro a b
  cases slot with
  | root => exact ⟨rfl, rfl, rfl, .inl rfl, .inl rfl⟩
  | left p =>
    by_cases hp : p.toNat = k
    · subst hp
      have hb : b = { a with left := i } := by simp only [b, linkTable_left, Table.read_write h, if_pos]; rfl
      rw [hb]
      exact ⟨rfl, rfl, rfl, .inr ⟨p, rfl, rfl⟩, .inl rfl⟩
    · have hb : b = a := by simp only [b, linkTable_left, Table.read_write h, if_neg hp]; rfl
      rw [hb]
      exact ⟨rfl, rfl, rfl, .inl rfl, .inl rfl⟩
  | right p =>
    by_cases hp : p.toNat = k
    · subst hp
      have hb : b = { a with right := i } := by simp only [b, linkTable_right, Table.read_write h, if_pos]; rfl
      rw [hb]
      exact ⟨rfl, rfl, rfl, .inl rfl, .inr ⟨p, rfl, rfl⟩⟩
    · have hb : b = a := by simp only [b, linkTable_right, Table.read_write h, if_neg hp]; rfl
      rw [hb]
      exact ⟨rfl, rfl, rfl, .inl rfl, .inl rfl⟩

/-- A linked slot leads to its index in every node memory that agrees with it. -/
theorem slotLeads_of_link {nodes nodes' : Table Node} (h : Table.wf Node.zero Config.nodeCap nodes = true)
    {slot : Slot} {pending : List Slot} {n : Nat} {i : NodeIndex} (hi : slot = .root → i = 0)
    (hs : slotBelow n slot) (hnd : slot ∉ pending)
    (hag : ∀ k, k < n → agreesBut pending (linkTable slot i nodes) nodes' k) : slotLeads nodes' slot i := by
  cases slot with
  | root => exact hi rfl
  | left p =>
    obtain ⟨_, _, _, hl, _⟩ := hag p.toNat hs
    rcases hl with hl | ⟨p', hp', hmem⟩
    · rw [linkTable_left, Table.read_write h, if_pos rfl] at hl
      exact hl.symm
    · rw [BitVec.eq_of_toNat_eq hp'] at hmem
      exact absurd hmem hnd
  | right p =>
    obtain ⟨_, _, _, _, hl⟩ := hag p.toNat hs
    rcases hl with hl | ⟨p', hp', hmem⟩
    · rw [linkTable_right, Table.read_write h, if_pos rfl] at hl
      exact hl.symm
    · rw [BitVec.eq_of_toNat_eq hp'] at hmem
      exact absurd hmem hnd

/-- Agreement before the link, from agreement after it. -/
theorem agreesBut_unlink {nodes nodes' : Table Node} (h : Table.wf Node.zero Config.nodeCap nodes = true)
    {slot : Slot} {pending : List Slot} {i : NodeIndex} {k : Nat}
    (hag : agreesBut pending (linkTable slot i nodes) nodes' k) : agreesBut (slot :: pending) nodes nodes' k := by
  obtain ⟨a1, a2, a3, a4, a5⟩ := hag
  obtain ⟨b1, b2, b3, b4, b5⟩ := linkTable_fields h slot i k
  refine ⟨b1.trans a1, b2.trans a2, b3.trans a3, ?_, ?_⟩
  · rcases b4 with b4 | ⟨p, hp, rfl⟩
    · rcases a4 with a4 | ⟨p, hp, hm⟩
      · exact .inl (b4.trans a4)
      · exact .inr ⟨p, hp, by simp [hm]⟩
    · exact .inr ⟨p, hp, by simp⟩
  · rcases b5 with b5 | ⟨p, hp, rfl⟩
    · rcases a5 with a5 | ⟨p, hp, hm⟩
      · exact .inl (b5.trans a5)
      · exact .inr ⟨p, hp, by simp [hm]⟩
    · exact .inr ⟨p, hp, by simp⟩

/-- What a slot of `TdecOk` is. -/
theorem TdecOk.slotBelow {pending : List Slot} {n leaves : Nat} {nodes : Table Node} (h : TdecOk pending n leaves nodes)
    {slot : Slot} (hs : slot ∈ pending) : Machine.slotBelow n slot := by
  cases slot with
  | root => trivial
  | left p => exact (h.2.2.2.2.1 p (.inl hs)).1
  | right p => exact (h.2.2.2.2.1 p (.inr hs)).1

/-- Only the first node's slot is the root's. -/
theorem TdecOk.root_rest {slot : Slot} {rest : List Slot} {n leaves : Nat} {nodes : Table Node}
    (h : TdecOk (slot :: rest) n leaves nodes) : Slot.root ∉ rest := by
  intro hm
  obtain ⟨_, h2, _, hr, _⟩ := h
  have := hr (by simp [hm])
  have := List.length_pos_of_mem hm
  simp at h2; omega

/-- The next node is an internal one (43_trie_codec.md R265). -/
theorem TdecOk.internal {slot : Slot} {rest : List Slot} {n leaves : Nat} {nodes : Table Node}
    (h : TdecOk (slot :: rest) n leaves nodes) (hw : Table.wf Node.zero Config.nodeCap nodes = true)
    (hn : n < 511) :
    TdecOk (.left (BitVec.ofNat 9 n) :: .right (BitVec.ofNat 9 n) :: rest) (n + 1) leaves
      (Table.write Node.zero (linkTable slot (BitVec.ofNat 9 n) nodes) n (Node.mkInternal 0 0 0)) := by
  have hsb := h.slotBelow (slot := slot) (by simp)
  have hrest := h.root_rest
  obtain ⟨h1, h2, h3, hroot, h4, h5, h6⟩ := h
  have hw1 := linkTable_wf (i := BitVec.ofNat 9 n) h1 hw hsb
  have hnn : (BitVec.ofNat 9 n).toNat = n := by simp; omega
  have hread : ∀ k, Table.read Node.zero
      (Table.write Node.zero (linkTable slot (BitVec.ofNat 9 n) nodes) n (Node.mkInternal 0 0 0)) k
      = if n = k then Node.mkInternal 0 0 0 else Table.read Node.zero (linkTable slot (BitVec.ofNat 9 n) nodes) k :=
    fun k => Table.read_write hw1
  have hfresh : ∀ p : NodeIndex, (Slot.left p ∈ slot :: rest ∨ Slot.right p ∈ slot :: rest) →
      p ≠ BitVec.ofNat 9 n := by
    intro p hp heq
    have := (h4 p hp).1
    rw [heq, hnn] at this
    omega
  have hnd := List.nodup_cons.1 h3
  refine ⟨by simp [Config.nodeCap]; omega, by simp at h2 ⊢; omega, ?_, by simp [hrest], ?_, ?_, ?_⟩
  · refine List.nodup_cons.2 ⟨?_, List.nodup_cons.2 ⟨?_, hnd.2⟩⟩
    · intro hm
      rcases List.mem_cons.1 hm with hm | hm
      · cases hm
      · exact hfresh _ (.inl (by simp [hm])) rfl
    · intro hm
      exact hfresh _ (.inr (by simp [hm])) rfl
  · intro p hp
    by_cases hpn : p = BitVec.ofNat 9 n
    · subst hpn
      rw [hread, if_pos hnn.symm, hnn]
      exact ⟨by omega, rfl, rfl⟩
    · have hp' : Slot.left p ∈ rest ∨ Slot.right p ∈ rest := by
        simp only [List.mem_cons, Slot.left.injEq, Slot.right.injEq, reduceCtorEq, hpn, false_or] at hp
        exact hp
      obtain ⟨e1, e2, e3⟩ := h4 p (hp'.imp (by simp +contextual) (by simp +contextual))
      obtain ⟨f1, f2, _⟩ := linkTable_fields hw slot (BitVec.ofNat 9 n) p.toNat
      rw [hread, if_neg (by omega), ← f1, ← f2]
      exact ⟨by omega, e2, e3⟩
  · intro k hk
    rw [hread, if_neg (by omega), linkTable_read_ge hw hsb (by omega)]
    exact h5 k (by omega)
  · intro nodes' fills hf hag hfl
    cases fills with
    | nil => simp at hf
    | cons fl fills =>
    cases fills with
    | nil => simp at hf
    | cons fr fills =>
    simp only [List.map_cons, List.cons.injEq] at hf
    obtain ⟨hfl1, hfr1, hf⟩ := hf
    obtain ⟨hll, hlt⟩ := hfl fl (by simp)
    obtain ⟨hrl, hrt⟩ := hfl fr (by simp)
    have hagn := hag n (by omega)
    have hlow : ∀ k, k < n → agreesBut rest (linkTable slot (BitVec.ofNat 9 n) nodes) nodes' k := by
      intro k hk
      obtain ⟨a1, a2, a3, a4, a5⟩ := hag k (by omega)
      rw [hread, if_neg (by omega)] at a1 a2 a3 a4 a5
      refine ⟨a1, a2, a3, a4.imp id ?_, a5.imp id ?_⟩
      · rintro ⟨p, hp, hm⟩
        refine ⟨p, hp, ?_⟩
        have : p ≠ BitVec.ofNat 9 n := by intro e; rw [e, hnn] at hp; omega
        simpa [this] using hm
      · rintro ⟨p, hp, hm⟩
        refine ⟨p, hp, ?_⟩
        have : p ≠ BitVec.ofNat 9 n := by intro e; rw [e, hnn] at hp; omega
        simpa [this] using hm
    have hself : TrieAt nodes' (BitVec.ofNat 9 n) (.node fl.2.2 fr.2.2) ∧
        trieIndices nodes' (BitVec.ofNat 9 n) (.node fl.2.2 fr.2.2)
          = n :: (trieIndices nodes' fl.2.1 fl.2.2 ++ trieIndices nodes' fr.2.1 fr.2.2) := by
      obtain ⟨a1, a2, -, -, -⟩ := hagn
      rw [hread, if_pos rfl] at a1 a2
      rw [hfl1] at hll
      rw [hfr1] at hrl
      simp only [slotLeads, hnn] at hll hrl
      constructor
      · simp only [TrieAt, hnn, hll, hrl]
        exact ⟨a1.symm, a2.symm, hlt, hrt⟩
      · simp only [trieIndices, hnn, hll, hrl]
    obtain ⟨t, ht1, ht2, ht3⟩ := h6 nodes' ((slot, BitVec.ofNat 9 n, .node fl.2.2 fr.2.2) :: fills)
      (by simp [hf]) (fun k hk => agreesBut_unlink hw (hlow k hk)) (by
        intro f hm
        rcases List.mem_cons.1 hm with rfl | hm
        · exact ⟨slotLeads_of_link hw (fun e => by subst e; have := hroot (by simp); subst this; rfl) hsb hnd.1 hlow, hself.1⟩
        · exact hfl f (by simp [hm]))
    refine ⟨t, ht1, ht2.trans ?_, ?_⟩
    · simp only [List.flatMap_cons, hself.2, List.range_succ, List.append_assoc, List.cons_append, List.nil_append]
      exact List.Perm.refl _
    · simp only [List.map_cons, List.sum_cons, Trie.leaves] at ht3 ⊢
      omega

/-- The next node is a leaf, whatever its symbol (43_trie_codec.md R265, R266). -/
theorem TdecOk.leaf {slot : Slot} {rest : List Slot} {n leaves : Nat} {nodes : Table Node}
    (h : TdecOk (slot :: rest) n leaves nodes) (hw : Table.wf Node.zero Config.nodeCap nodes = true)
    (hn : n < 511) (x : Symbol) :
    TdecOk rest (n + 1) (leaves + 1)
      (Table.write Node.zero (linkTable slot (BitVec.ofNat 9 n) nodes) n (Node.mkLeaf x 0)) := by
  have hsb := h.slotBelow (slot := slot) (by simp)
  have hrest := h.root_rest
  obtain ⟨h1, h2, h3, hroot, h4, h5, h6⟩ := h
  have hw1 := linkTable_wf (i := BitVec.ofNat 9 n) h1 hw hsb
  have hnn : (BitVec.ofNat 9 n).toNat = n := by simp; omega
  have hread : ∀ k, Table.read Node.zero
      (Table.write Node.zero (linkTable slot (BitVec.ofNat 9 n) nodes) n (Node.mkLeaf x 0)) k
      = if n = k then Node.mkLeaf x 0 else Table.read Node.zero (linkTable slot (BitVec.ofNat 9 n) nodes) k :=
    fun k => Table.read_write hw1
  have hnd := List.nodup_cons.1 h3
  refine ⟨by simp [Config.nodeCap]; omega, by simp at h2; omega, hnd.2, fun e => absurd e hrest, ?_, ?_, ?_⟩
  · intro p hp
    obtain ⟨e1, e2, e3⟩ := h4 p (hp.imp (by simp +contextual) (by simp +contextual))
    obtain ⟨f1, f2, _⟩ := linkTable_fields hw slot (BitVec.ofNat 9 n) p.toNat
    rw [hread, if_neg (by omega), ← f1, ← f2]
    exact ⟨by omega, e2, e3⟩
  · intro k hk
    rw [hread, if_neg (by omega), linkTable_read_ge hw hsb (by omega)]
    exact h5 k (by omega)
  · intro nodes' fills hf hag hfl
    have hlow : ∀ k, k < n → agreesBut rest (linkTable slot (BitVec.ofNat 9 n) nodes) nodes' k := by
      intro k hk
      have := hag k (by omega)
      simpa only [agreesBut, hread, if_neg (show n ≠ k by omega)] using this
    have hself : TrieAt nodes' (BitVec.ofNat 9 n) (.leaf x) := by
      obtain ⟨a1, a2, a3, -, -⟩ := hag n (by omega)
      rw [hread, if_pos rfl] at a1 a2 a3
      simp only [TrieAt, hnn]
      exact ⟨a1.symm, a2.symm, a3.symm⟩
    obtain ⟨t, ht1, ht2, ht3⟩ := h6 nodes' ((slot, BitVec.ofNat 9 n, .leaf x) :: fills)
      (by simp [hf]) (fun k hk => agreesBut_unlink hw (hlow k hk)) (by
        intro f hm
        rcases List.mem_cons.1 hm with rfl | hm
        · exact ⟨slotLeads_of_link hw (fun e => by subst e; have := hroot (by simp); subst this; rfl) hsb hnd.1 hlow, hself⟩
        · exact hfl f hm)
    refine ⟨t, ht1, ht2.trans ?_, ?_⟩
    · simp only [List.flatMap_cons, trieIndices, hnn, List.range_succ, List.append_assoc, List.cons_append,
        List.nil_append]
      exact List.Perm.refl _
    · simp only [List.map_cons, List.sum_cons, Trie.leaves] at ht3 ⊢
      omega

theorem TdecOk.start : TdecOk [.root] 0 0 [] := by
  refine ⟨by decide, rfl, by simp, fun _ => rfl, by simp, fun k _ => rfl, ?_⟩
  intro nodes' fills hf _ hfl
  obtain ⟨f, rfl⟩ : ∃ f, fills = [f] := by
    have := congrArg List.length hf
    simp at this
    exact List.length_eq_one_iff.1 this
  obtain ⟨hl, ht⟩ := hfl f (by simp)
  have h0 : f.1 = .root := by simpa using hf
  rw [h0] at hl
  have hl' : f.2.1 = 0 := hl
  rw [hl'] at ht
  exact ⟨f.2.2, ht, by simp [hl'], by simp⟩

theorem tdecFail_inv {s : State} {u : Subcause} (h : TablesOk s) (hu : (ResultCode.formatError, u) ∈ legalPairs)
    (hc : TdecCleared s) : Inv (tdecFail u s) := by
  have hw := Memory.wf_iff.1 h.tables
  exact Inv.finish ⟨Memory.wf_iff.2 ⟨hw.1, rfl, hw.2.2⟩, by simp, h.lut⟩ hu
    (trieStateOk_none (by simp) ⟨rfl, rfl, rfl, rfl⟩) (lutStateOk_none hc.1 hc.2.1)

theorem linkTable_entries {s : State} (h : TablesOk s) {slot : Slot} {i : NodeIndex} {rest : List Slot} {n leaves : Nat}
    (hd : TdecOk (slot :: rest) n leaves s.nodes) : ∀ p ∈ linkTable slot i s.nodes, p.2.wf := by
  intro p hp
  have key : ∀ k : NodeIndex, (Table.read Node.zero s.nodes k.toNat).inuse = true →
      (Table.read Node.zero s.nodes k.toNat).wf := by
    intro k hk
    rcases Table.read_mem Node.zero s.nodes k.toNat with hz | hm
    · rw [hz] at hk; simp [Node.zero] at hk
    · exact h.nodes _ hm
  rcases mem_linkTable hp with hp | ⟨k, ⟨rfl, rfl⟩ | ⟨rfl, rfl⟩⟩
  · exact h.nodes p hp
  · obtain ⟨_, e2, e3⟩ := hd.2.2.2.2.1 k (.inl (by simp))
    obtain ⟨f1, _, f3⟩ := key k e2
    exact ⟨f1, fun hl => by simp [e3] at hl, fun _ => f3 e3⟩
  · obtain ⟨_, e2, e3⟩ := hd.2.2.2.2.1 k (.inr (by simp))
    obtain ⟨f1, _, f3⟩ := key k e2
    exact ⟨f1, fun hl => by simp [e3] at hl, fun _ => f3 e3⟩

theorem tdecTag_inv {s t : State} {pending : List Slot} {n leaves : Nat} (h : Inv s) (hc : TdecCleared s)
    (hd : TdecOk pending n leaves s.nodes) (hs : tdecTagStep pending n leaves s = some t) : Inv t := by
  have hw := Memory.wf_iff.1 h.tables
  unfold tdecTagStep at hs
  split at hs
  · obtain rfl := Option.some.inj hs
    obtain ⟨h1, h2, _, _, _, h5, h6⟩ := hd
    simp only [List.length_nil, Nat.zero_add, Config.nodeCap] at h1 h2
    have hn10 : (BitVec.ofNat 10 n).toNat = n := by simp; omega
    have hl9 : (BitVec.ofNat 9 leaves).toNat = leaves := by simp; omega
    obtain ⟨u, hu1, hu2, hu3⟩ := h6 s.nodes [] rfl (fun k _ => ⟨rfl, rfl, rfl, .inl rfl, .inl rfl⟩) (by simp)
    refine Inv.finish ⟨h.tables, h.nodes, h.lut⟩ (by decide) ?_ (lutStateOk_none hc.1 hc.2.1)
    refine ⟨⟨u, hu1, ?_, ?_⟩, ?_⟩
    · simpa only [setTrie_nodecnt, setTrie_nodes, setTrie_root, hn10, List.flatMap_nil, List.append_nil] using hu2
    · simpa only [setTrie_leafcnt, hl9, List.map_nil, List.sum_nil, Nat.add_zero] using hu3
    · intro k hk
      simp only [setTrie_nodecnt, hn10] at hk
      exact h5 k hk
  · rename_i slot rest
    split at hs
    · simp at hs
    · rename_i t' hget
      obtain rfl := Option.some.inj hs
      rcases getBit_cases hget with ⟨_, rfl, _⟩ | ⟨b, r, hb, _⟩
      · exact tdecFail_inv h.ok (by decide) hc
      · simp at hb
    · rename_i b t' hget
      obtain ⟨r, ht'⟩ : ∃ r, t' = tookBits 1 r s := by
        rcases getBit_cases hget with ⟨hb, _⟩ | ⟨_, r, _, _, ht'⟩
        · simp at hb
        · exact ⟨r, ht'⟩
      have hok : TablesOk t' := by rw [ht']; exact ⟨h.tables, h.nodes, h.lut⟩
      have hct : TdecCleared t' := by rw [ht']; exact hc
      split at hs
      · obtain rfl := Option.some.inj hs
        exact tdecFail_inv hok (by decide) hct
      · rename_i hn
        have hn' : n < 511 := by
          have := hd.1
          simp only [Config.nodeCap] at this hn; omega
        have hnn : (BitVec.ofNat 9 n).toNat = n := by simp; omega
        have hsb := hd.slotBelow (slot := slot) (by simp)
        have hw1 := linkTable_wf (i := BitVec.ofNat 9 n) hd.1 hw.2.1 hsb
        have hnodes : t'.nodes = s.nodes := by rw [ht']; rfl
        have hrest : t'.freq = s.freq ∧ t'.lut = s.lut ∧ t'.result = s.result ∧ t'.subcause = s.subcause := by
          rw [ht']; exact ⟨rfl, rfl, rfl, rfl⟩
        simp only [linkSlot_eq, hnodes] at hs
        have hlink := linkTable_entries h.ok (i := BitVec.ofNat 9 n) hd
        split at hs
        · obtain rfl := Option.some.inj hs
          refine Inv.of ⟨Memory.wf_iff.2 ⟨?_, hw1, ?_⟩, hlink, ?_⟩ ?_ ?_
          · exact hrest.1 ▸ hw.1
          · exact hrest.2.1 ▸ hw.2.2
          · exact hrest.2.1 ▸ h.lut
          · exact hrest.2.2.1 ▸ hrest.2.2.2 ▸ h.status
          · refine ⟨hct, by simp, by rw [hnn], ?_, fun x => ?_⟩
            · show Table.read Node.zero (linkTable slot (BitVec.ofNat 9 n) s.nodes) (BitVec.ofNat 9 n).toNat = Node.zero
              rw [hnn, linkTable_read_ge hw.2.1 hsb (Nat.le_refl n)]
              exact hd.2.2.2.2.2.1 n (Nat.le_refl n)
            · show TdecOk rest (n + 1) (leaves + 1) (Table.write Node.zero (linkTable slot (BitVec.ofNat 9 n) s.nodes)
                (BitVec.ofNat 9 n).toNat (Node.mkLeaf x 0))
              rw [hnn]
              exact hd.leaf hw.2.1 hn' x
        · obtain rfl := Option.some.inj hs
          refine Inv.of ⟨Memory.wf_iff.2 ⟨?_, ?_, ?_⟩, ?_, ?_⟩ ?_ ?_
          · exact hrest.1 ▸ hw.1
          · exact Table.write_wf (v := Node.mkInternal 0 0 0) hw1 hn'
          · exact hrest.2.1 ▸ hw.2.2
          · intro p hp
            have hp' : p ∈ Table.write Node.zero (linkTable slot (BitVec.ofNat 9 n) s.nodes) n
              (Node.mkInternal 0 0 0) := hp
            rcases Table.mem_write hp' with hp | ⟨rfl, _⟩
            · exact hlink p hp
            · exact ⟨rfl, fun h => by simp [Node.mkInternal] at h, fun _ => rfl⟩
          · exact hrest.2.1 ▸ h.lut
          · exact hrest.2.2.1 ▸ hrest.2.2.2 ▸ h.status
          · exact ⟨hct, hd.internal hw.2.1 hn'⟩

theorem tdecSym_inv {s t : State} {pending : List Slot} {n leaves : Nat} {i : NodeIndex} {got : List Bool} (h : Inv s)
    (ht : s.task = .tdecSym pending n leaves i got) (hs : tdecSymStep pending n leaves i got s = some t) : Inv t := by
  have htask := h.task
  unfold TaskOk at htask
  rw [ht] at htask
  obtain ⟨hc, hg, hi, hz, hd⟩ := htask
  have hw := Memory.wf_iff.1 h.tables
  unfold tdecSymStep at hs
  split at hs
  · simp at hs
  · rename_i t' hget
    obtain rfl := Option.some.inj hs
    rcases getBit_cases hget with ⟨_, rfl, _⟩ | ⟨b, r, hb, _⟩
    · exact tdecFail_inv h.ok (by decide) hc
    · simp at hb
  · rename_i b t' hget
    obtain ⟨r, rfl⟩ : ∃ r, t' = tookBits 1 r s := by
      rcases getBit_cases hget with ⟨hb, _⟩ | ⟨_, r, _, _, ht'⟩
      · simp at hb
      · exact ⟨r, ht'⟩
    simp only at hs
    split at hs
    · obtain rfl := Option.some.inj hs
      exact Inv.of ⟨h.tables, h.nodes, h.lut⟩ h.status ⟨hc, ‹_›, hi, hz, hd⟩
    · obtain rfl := Option.some.inj hs
      have hcap := (hd 0).1
      simp only [Config.nodeCap] at hcap
      refine Inv.of ⟨?_, ?_, h.lut⟩ h.status ⟨hc, hd _⟩
      · exact Memory.wf_iff.2 ⟨hw.1, Table.write_wf (v := Node.mkLeaf (ofBitsMsb 8 (got ++ [b])) 0) hw.2.1
          (by simp [Config.nodeCap]; omega), hw.2.2⟩
      · intro p hp
        have hp' : p ∈ Table.write Node.zero s.nodes i.toNat (Node.mkLeaf (ofBitsMsb 8 (got ++ [b])) 0) := hp
        rcases Table.mem_write hp' with hp | ⟨rfl, _⟩
        · exact h.nodes p hp
        · exact ⟨rfl, fun _ => ⟨rfl, rfl⟩, fun h => by simp [Node.mkLeaf] at h⟩

/-! ### Every first step and every step -/

/-- The first step of a command keeps the invariant. -/
theorem begin_inv {s : State} (i : Instr) (h : Inv s) (h1 : TrieStateOk s) (h2 : LutStateOk s) : Inv (begin i s) := by
  have hw := Memory.wf_iff.1 h.tables
  have hlv : s.lutValid = true → s.trieState ≠ .none := by
    intro hv hn
    unfold LutStateOk at h2
    simp [hv, hn] at h2
  cases i with
  | nop => exact Inv.finish h.ok (by decide) h1 h2
  | clrfreq =>
    exact Inv.finish ⟨Memory.wf_iff.2 ⟨rfl, hw.2⟩, h.nodes, h.lut⟩ (by decide) h1 h2
  | cnt x =>
    simp only [begin, beginCnt]
    split
    · exact Inv.finish h.ok (by decide) h1 h2
    · split
      · exact Inv.finish h.ok (by decide) h1 h2
      · exact Inv.finish ⟨writeFreq_wf h.tables x (freqAt x s + 1), h.nodes, h.lut⟩ (by decide) h1 h2
  | build => exact begin_build_inv h.ok h.status
  | clrtrie =>
    exact Inv.finish (s := clearTrie (clearTables s))
      ⟨show Memory.wf (clearTables s) = true from clearTables_wf h.tables, by simp, by simp⟩ (by decide)
      (trieStateOk_none (by simp) ⟨rfl, rfl, rfl, rfl⟩) (lutStateOk_none rfl rfl)
  | genlut => exact begin_genlut_inv h h1 h2
  | tenc => exact begin_tenc_inv h h1 h2
  | tdec =>
    exact Inv.of ⟨show Memory.wf (clearTables s) = true from clearTables_wf h.tables,
      by simp [begin, beginTdec], by simp [begin, beginTdec]⟩ h.status
      ⟨⟨rfl, rfl, rfl, rfl, rfl, rfl⟩, TdecOk.start⟩
  | lenc => exact Inv.of ⟨h.tables, h.nodes, h.lut⟩ h.status ⟨h1, h2, by simp⟩
  | ldec => exact Inv.of ⟨h.tables, h.nodes, h.lut⟩ h.status ⟨h1, h2, by simp⟩
  | senc x =>
    simp only [begin, beginSenc]
    split
    · exact Inv.finish ⟨h.tables, h.nodes, h.lut⟩ (by decide) h1 h2
    · rename_i hv
      split
      · exact Inv.finish ⟨h.tables, h.nodes, h.lut⟩ (by decide) h1 h2
      · exact Inv.of ⟨h.tables, h.nodes, h.lut⟩ h.status ⟨h1, h2, by simpa using hv, code_length_le _⟩
  | sdec =>
    simp only [begin, beginSdec]
    split
    · exact Inv.finish ⟨h.tables, h.nodes, h.lut⟩ (by decide) h1 h2
    · exact Inv.finish ⟨h.tables, h.nodes, h.lut⟩ (by decide) h1 h2
    · rename_i ht
      have h1' := h1
      unfold TrieStateOk at h1'
      rw [ht] at h1'
      obtain ⟨⟨t, hold⟩, _⟩ := h1'
      exact Inv.of ⟨h.tables, h.nodes, h.lut⟩ h.status ⟨h1, h2, ht, t, hold.1, (hold.bounds h.tables).2.2.2⟩
  | menc =>
    simp only [begin, beginMenc]
    split
    · exact Inv.finish ⟨h.tables, h.nodes, h.lut⟩ (by decide) h1 h2
    · rename_i hv
      split
      · exact Inv.finish ⟨h.tables, h.nodes, h.lut⟩ (by decide) h1 h2
      · exact Inv.of ⟨h.tables, h.nodes, h.lut⟩ h.status ⟨h1, h2, by simpa using hv⟩
  | mdec =>
    simp only [begin, beginMdec]
    split
    · exact Inv.finish ⟨h.tables, h.nodes, h.lut⟩ (by decide) h1 h2
    · split
      · exact Inv.finish ⟨h.tables, h.nodes, h.lut⟩ (by decide) h1 h2
      · exact Inv.finish ⟨h.tables, h.nodes, h.lut⟩ (by decide) h1 h2
    · rename_i ht
      split
      · exact Inv.finish ⟨h.tables, h.nodes, h.lut⟩ (by decide) h1 h2
      · exact Inv.of ⟨h.tables, h.nodes, h.lut⟩ h.status ⟨h1, h2, ht⟩
  | close => exact Inv.of ⟨h.tables, h.nodes, h.lut⟩ h.status ⟨h1, h2⟩

/-- A walk step is a bit taken and a child, or END. -/
theorem walkStep_cases {i : NodeIndex} {s t : State} {r : Option NodeIndex} (h : walkStep i s = some (r, t)) :
    (r = none ∧ t = s) ∨ ∃ (b : Bool) (rest : List Bool), r = some (if b then (nodeAt i s).right else (nodeAt i s).left)
      ∧ t = tookBits 1 rest s := by
  unfold walkStep at h
  split at h
  · simp at h
  · rename_i t' hget
    simp only [Option.some.injEq, Prod.mk.injEq] at h
    rcases getBit_cases hget with ⟨_, rfl, _⟩ | ⟨b, r, hb, _⟩
    · exact .inl ⟨h.1.symm, h.2.symm⟩
    · simp at hb
  · rename_i b t' hget
    simp only [Option.some.injEq, Prod.mk.injEq] at h
    rcases getBit_cases hget with ⟨hb, _⟩ | ⟨b', rest, hb, _, ht'⟩
    · simp at hb
    · simp only [Option.some.injEq] at hb
      exact .inr ⟨b', rest, by rw [← hb]; exact h.1.symm, by rw [← h.2, ht']⟩

/-- The child of an internal node of a trie is a trie, no deeper. -/
theorem TrieAt.child {s : State} {i : NodeIndex} {t : Trie} (h : TrieAt s.nodes i t) (hl : ¬(nodeAt i s).leaf = true)
    (b : Bool) : ∃ u, TrieAt s.nodes (if b then (nodeAt i s).right else (nodeAt i s).left) u ∧ u.depth ≤ t.depth := by
  cases t with
  | leaf x => exact absurd h.2.1 hl
  | node l r =>
    cases b with
    | false => exact ⟨l, h.2.2.1, by simp only [Trie.depth]; omega⟩
    | true => exact ⟨r, h.2.2.2, by simp only [Trie.depth]; omega⟩

/-- A step of the core keeps the invariant. -/
theorem coreStep_inv {s t : State} (h : Inv s) (hs : coreStep s = some t) : Inv t := by
  have htask := h.task
  unfold TaskOk at htask
  unfold coreStep at hs
  split at hs <;> rename_i heq <;> rw [heq] at htask
  · simp at hs
  · obtain rfl := Option.some.inj hs
    unfold issue
    split
    · exact begin_inv _ h htask.1 htask.2
    · rename_i r _
      cases r <;> exact Inv.finish h.ok (by decide) htask.1 htask.2
  · obtain rfl := Option.some.inj hs
    exact build_inv h.ok h.status htask
  · obtain rfl := Option.some.inj hs
    exact genlut_inv h htask.1 htask.2
  · exact tenc_inv h htask.1 htask.2.1 htask.2.2.1 htask.2.2.2 hs
  · exact tdecTag_inv h htask.1 htask.2 hs
  · exact tdecSym_inv h heq hs
  · -- LENC
    unfold lencStep at hs
    split at hs
    · obtain ⟨t', ht', rfl⟩ := Option.map_eq_some_iff.1 hs
      obtain ⟨r, _, rfl⟩ := putBit_cases ht'
      exact Inv.of ⟨h.tables, h.nodes, h.lut⟩ h.status
        ⟨htask.1, htask.2.1, (Nat.le_succ _).trans (by simpa using htask.2.2)⟩
    · obtain rfl := Option.some.inj hs
      exact Inv.finish h.ok (by decide) htask.1 htask.2.1
  · -- LDEC
    unfold ldecStep at hs
    split at hs
    · simp at hs
    · rename_i t' hget
      obtain rfl := Option.some.inj hs
      rcases getBit_cases hget with ⟨_, rfl, _⟩ | ⟨b, r, hb, _⟩
      · exact Inv.finish h.ok (by decide) htask.1 htask.2.1
      · simp at hb
    · rename_i b t' hget
      obtain ⟨r, rfl⟩ : ∃ r, t' = tookBits 1 r s := by
        rcases getBit_cases hget with ⟨hb, _⟩ | ⟨_, r, _, _, ht'⟩
        · simp at hb
        · exact ⟨r, ht'⟩
      simp only at hs
      split at hs
      · obtain rfl := Option.some.inj hs
        exact Inv.of ⟨h.tables, h.nodes, h.lut⟩ h.status ⟨htask.1, htask.2.1, ‹_›⟩
      · obtain rfl := Option.some.inj hs
        unfold ldecEnd
        split
        · exact Inv.finish ⟨h.tables, h.nodes, h.lut⟩ (by decide) htask.1 htask.2.1
        · exact Inv.finish ⟨h.tables, h.nodes, h.lut⟩ (by decide) htask.1 htask.2.1
  · -- SENC
    unfold sencStep at hs
    split at hs
    · obtain ⟨t', ht', rfl⟩ := Option.map_eq_some_iff.1 hs
      obtain ⟨r, _, rfl⟩ := putBit_cases ht'
      exact Inv.of ⟨h.tables, h.nodes, h.lut⟩ h.status
        ⟨htask.1, htask.2.1, htask.2.2.1, (Nat.le_succ _).trans (by simpa using htask.2.2.2)⟩
    · obtain rfl := Option.some.inj hs
      exact Inv.finish ⟨h.tables, h.nodes, h.lut⟩ (by decide) htask.1 htask.2.1
  · -- SDEC
    unfold sdecStep at hs
    obtain ⟨h1, h2, hv, u, hat, hd⟩ := htask
    split at hs
    · obtain rfl := Option.some.inj hs
      exact Inv.finish ⟨h.tables, h.nodes, h.lut⟩ (by decide) h1 h2
    · rename_i hl
      split at hs
      · simp at hs
      · rename_i t' hget
        obtain rfl := Option.some.inj hs
        rcases walkStep_cases hget with ⟨_, rfl⟩ | ⟨b, r, hb, _⟩
        · exact Inv.finish h.ok (by decide) h1 h2
        · simp at hb
      · rename_i j t' hget
        obtain rfl := Option.some.inj hs
        rcases walkStep_cases hget with ⟨hb, _⟩ | ⟨b, r, hb, rfl⟩
        · simp at hb
        · obtain rfl := Option.some.inj hb
          obtain ⟨v, hat', hd'⟩ := hat.child hl b
          exact Inv.of ⟨h.tables, h.nodes, h.lut⟩ h.status ⟨h1, h2, hv, v, hat', hd'.trans hd⟩
  · -- MENC at the head
    unfold mencSymStep at hs
    split at hs
    · split at hs
      · simp at hs
      · rename_i x t' hget
        obtain ⟨r, _, rfl⟩ := takeSymbol_cases hget
        split at hs
        · obtain rfl := Option.some.inj hs
          exact Inv.finish ⟨h.tables, h.nodes, h.lut⟩ (by decide) htask.1 htask.2.1
        · obtain rfl := Option.some.inj hs
          exact Inv.of ⟨h.tables, h.nodes, h.lut⟩ h.status ⟨htask.1, htask.2.1, htask.2.2, code_length_le _⟩
    · obtain rfl := Option.some.inj hs
      exact Inv.finish h.ok (by decide) htask.1 htask.2.1
  · -- MENC's bits
    unfold mencOutStep at hs
    split at hs
    · obtain ⟨t', ht', rfl⟩ := Option.map_eq_some_iff.1 hs
      obtain ⟨r, _, rfl⟩ := putBit_cases ht'
      exact Inv.of ⟨h.tables, h.nodes, h.lut⟩ h.status
        ⟨htask.1, htask.2.1, htask.2.2.1, (Nat.le_succ _).trans (by simpa using htask.2.2.2)⟩
    · obtain rfl := Option.some.inj hs
      exact Inv.of ⟨h.tables, h.nodes, h.lut⟩ h.status ⟨htask.1, htask.2.1, htask.2.2.1⟩
  · -- MDEC at the head
    obtain rfl := Option.some.inj hs
    obtain ⟨h1, h2, hv⟩ := htask
    unfold mdecNextStep
    split
    · have h1' := h1
      unfold TrieStateOk at h1'
      rw [hv] at h1'
      obtain ⟨⟨u, hold⟩, _⟩ := h1'
      exact Inv.of ⟨h.tables, h.nodes, h.lut⟩ h.status ⟨h1, h2, hv, u, hold.1, (hold.bounds h.tables).2.2.2⟩
    · exact Inv.finish h.ok (by decide) h1 h2
  · -- MDEC's walk
    unfold mdecWalkStep at hs
    obtain ⟨h1, h2, hv, u, hat, hd⟩ := htask
    split at hs
    · obtain rfl := Option.some.inj hs
      exact Inv.of ⟨h.tables, h.nodes, h.lut⟩ h.status ⟨h1, h2, hv⟩
    · rename_i hl
      split at hs
      · simp at hs
      · rename_i t' hget
        obtain rfl := Option.some.inj hs
        rcases walkStep_cases hget with ⟨_, rfl⟩ | ⟨b, r, hb, _⟩
        · exact Inv.finish h.ok (by decide) h1 h2
        · simp at hb
      · rename_i j t' hget
        obtain rfl := Option.some.inj hs
        rcases walkStep_cases hget with ⟨hb, _⟩ | ⟨b, r, hb, rfl⟩
        · simp at hb
        · obtain rfl := Option.some.inj hb
          obtain ⟨v, hat', hd'⟩ := hat.child hl b
          exact Inv.of ⟨h.tables, h.nodes, h.lut⟩ h.status ⟨h1, h2, hv, v, hat', hd'.trans hd⟩
  · -- MDEC's delivery
    unfold mdecOutStep at hs
    obtain ⟨t', ht', rfl⟩ := Option.map_eq_some_iff.1 hs
    obtain ⟨r, _, rfl⟩ := sendSymbol_cases ht'
    exact Inv.of ⟨h.tables, h.nodes, h.lut⟩ h.status htask
  · -- CLOSE
    unfold closeStep at hs
    obtain ⟨t', ht', rfl⟩ := Option.map_eq_some_iff.1 hs
    obtain ⟨r, _, rfl⟩ := sinkClose_cases ht'
    exact Inv.finish ⟨h.tables, h.nodes, h.lut⟩ (by decide) htask.1 htask.2

end Sys2Proof.Machine
end

