-- ==== Sys2Proof/Tests/Slice0.lean ====
section
/-! SUPPORT. The model's own tests, and for each obligation with hypotheses a witness that meets them. Expected values
are the derived vectors of 95_test_vectors.md (V-...) or the tables of 30_encoding.md. -/

open Sys2Proof Sys2Proof.Machine

namespace Sys2Proof.Tests

set_option Elab.async false

/-! ### Helpers -/

/-- The state some commands leave, run one after another. -/
def after (is : List Instr) (s : State) : State :=
  match execAll is s with
  | .next t => t
  | .fault _ => s
  | .refused _ => s

/-- The state one step leaves. -/
def stepped (s : State) : State :=
  match step s with
  | .next t => t
  | .fault _ => s
  | .refused _ => s

/-- The counts of "abracadabra" (V-F1). -/
def counted : State :=
  { State.reset with freq := [(0x61, 5), (0x62, 2), (0x63, 1), (0x64, 1), (0x72, 2)] }

/-- BUILD's node memory for "ab" (V-B2), with its registers. -/
def twoLeaf : State :=
  { State.reset with
    nodes := [(0, Node.mkLeaf 0x61 1), (1, Node.mkLeaf 0x62 1), (2, Node.mkInternal 0 1 2)]
    trieState := .valid, root := 2, nodecnt := 3, leafcnt := 2 }

/-- The trie of "ab". -/
def abTrie : Trie := .node (.leaf 0x61) (.leaf 0x62)

/-- The trie of "abracadabra" (V-T1). -/
def abraTrie : Trie :=
  .node (.leaf 0x61) (.node (.node (.leaf 0x63) (.leaf 0x64)) (.node (.leaf 0x62) (.leaf 0x72)))

/-- Two leaves of the same symbol (V-T13). -/
def twinTrie : Trie := .node (.leaf 0x61) (.leaf 0x61)

/-- A trie whose right spine has `n` internal nodes. -/
def comb : Nat → Trie
  | 0 => .leaf 0
  | n + 1 => .node (.leaf 0) (comb n)

/-- A state with a code table: GENLUT's for "ab" (V-L2). -/
def coded : State :=
  { twoLeaf with
    lut := [(0x61, ⟨true, 1, 0⟩), (0x62, ⟨true, 1, 1⟩)], lutValid := true }

/-- MENC waiting on an empty symbol-in (V-C5). -/
def waiting : State := { coded with cmd := 0x0000000C, msglen := 1, task := .mencSym 0 }

/-- The bits of a byte stream, then END. -/
def withSource (s : State) (bytes : List Byte) : State := { s with srcBits := bytesBits bytes, srcEnded := true }

/-! ### Well-formed words (30_encoding.md R153) -/

theorem test_wf_refuses_an_unassigned_opcode : CommandWord.opAssigned 0x0000000F = false
    ∧ CommandWord.opAssigned 0x0000000E = true ∧ CommandWord.wf 0x0000000F = false := by decide

theorem test_wf_refuses_reserved_bits : CommandWord.reservedClear 0x00010003 = false
    ∧ CommandWord.wf 0x00010003 = false ∧ CommandWord.wf 0x80000000 = false := by decide

theorem test_wf_refuses_a_symbol_where_none_is : CommandWord.symbolClear 0x00006103 = false
    ∧ CommandWord.symbolClear 0x00006102 = true ∧ CommandWord.wf 0x00006103 = false
    ∧ CommandWord.wf 0x0000FF0A = true := by decide

/-! ### Decoding (30_encoding.md R154, R180): the words written out -/

theorem test_decode_nop : decode 0b00000000_00000000_00000000_00000000#32 = .legal .nop := by decide
theorem test_decode_clrfreq : decode 0b00000000_00000000_00000000_00000001#32 = .legal .clrfreq := by decide
theorem test_decode_cnt : decode 0b00000000_00000000_01100001_00000010#32 = .legal (.cnt 0x61) := by decide
theorem test_decode_build : decode 0b00000000_00000000_00000000_00000011#32 = .legal .build := by decide
theorem test_decode_clrtrie : decode 0b00000000_00000000_00000000_00000100#32 = .legal .clrtrie := by decide
theorem test_decode_genlut : decode 0b00000000_00000000_00000000_00000101#32 = .legal .genlut := by decide
theorem test_decode_tenc : decode 0b00000000_00000000_00000000_00000110#32 = .legal .tenc := by decide
theorem test_decode_tdec : decode 0b00000000_00000000_00000000_00000111#32 = .legal .tdec := by decide
theorem test_decode_lenc : decode 0b00000000_00000000_00000000_00001000#32 = .legal .lenc := by decide
theorem test_decode_ldec : decode 0b00000000_00000000_00000000_00001001#32 = .legal .ldec := by decide
theorem test_decode_senc : decode 0b00000000_00000000_01110010_00001010#32 = .legal (.senc 0x72) := by decide
theorem test_decode_sdec : decode 0b00000000_00000000_00000000_00001011#32 = .legal .sdec := by decide
theorem test_decode_menc : decode 0b00000000_00000000_00000000_00001100#32 = .legal .menc := by decide
theorem test_decode_mdec : decode 0b00000000_00000000_00000000_00001101#32 = .legal .mdec := by decide
theorem test_decode_close : decode 0b00000000_00000000_00000000_00001110#32 = .legal .close := by decide

/-- V-C2. -/
theorem test_decode_illegal : decode 0x000000FF#32 = .illegal .badOpcode ∧ decode 0x0001000F#32 = .illegal .badOpcode
    ∧ decode 0x00010003#32 = .illegal .reservedBits ∧ decode 0x0000010E#32 = .illegal .reservedBits := by decide

theorem test_decodeTableWord : decodeTableWord 32 0x00007202 = some (.cnt 0x72) ∧ decodeTableWord 32 0x0F = none := by
  decide

/-! ### Commands -/

/-- V-C1: NOP after a BUILD of nothing. -/
theorem test_nop : statusWord (after [.build, .nop] State.reset) = 0x00000012#32 := by decide +kernel

/-- V-F5. -/
theorem test_clrfreq : (after [.clrfreq] counted).freq = [] := by decide +kernel

/-- V-F2: a symbol that is not allowed is not counted. -/
theorem test_cnt_not_allowed : (after [.cnt 0x41] State.reset).freq = []
    ∧ statusWord (after [.cnt 0x41] State.reset) = 0 := by decide +kernel

/-- V-F3: a full count. -/
theorem test_cnt_saturates :
    let s := after [.cnt 0x61, .cnt 0x61] { State.reset with freq := [(0x61, 0xFFFFFFFE)] }
    freqAt 0x61 s = 0xFFFFFFFF#32 ∧ statusWord s = 0x00002110#32 := by decide +kernel

/-- V-B1: the last three internal nodes and the registers. -/
theorem test_build : let s := after [.build] counted
    [6, 7, 8].map (fun i => nodeInfoWord (nodeAt i s)) = [0x80000801#32, 0x80000C05#32, 0x80000E00#32]
      ∧ (nodeAt 8 s).weight = 11 ∧ s.root = 8 ∧ s.nodecnt = 9 ∧ s.leafcnt = 5 ∧ statusWord s = 0x00000004#32 := by
  decide +kernel

/-- V-B7: 40-bit weights. -/
theorem test_build_wide_weight :
    (nodeAt 2 (after [.build] { State.reset with freq := [(0x61, 0xFFFFFFFF), (0x62, 0xFFFFFFFF)] })).weight
      = 0x1FFFFFFFE#40 := by decide +kernel

/-- V-B11. -/
theorem test_clrtrie : let s := after [.clrtrie] coded
    s.nodes = [] ∧ s.lut = [] ∧ s.root = 0 ∧ statusWord s = 0 := by decide +kernel

/-- V-L1: the code words of a, b, c, d, r. -/
theorem test_genlut : let s := after [.build, .genlut] counted
    [0x61, 0x62, 0x63, 0x64, 0x72].map (fun x => lutBitsWord 0 (lutAt x s))
      = [0x00000000#32, 0xC0000000#32, 0x80000000#32, 0xA0000000#32, 0xE0000000#32]
      ∧ [0x61, 0x62, 0x63, 0x64, 0x72].map (fun x => (lutAt x s).len) = [1#8, 3#8, 3#8, 3#8, 3#8]
      ∧ statusWord s = 0x0000000C#32 := by decide +kernel

/-- V-T13: of two leaves with one symbol the later gives the code word. -/
theorem test_genlut_later_leaf_wins : let s := after [.tdec, .genlut] (withSource State.reset [0x58, 0x6C, 0x20])
    (lutAt 0x61 s).code = [true] := by decide +kernel

/-- V-T1. -/
theorem test_tenc : (after [.build, .tenc] counted).sink =
    [false, true, false, true, true, false, false, false, false, true, false, false, true, false, true, true, false,
     false, false, true, true, true, false, true, true, false, false, true, false, false, false, true, false, true, true,
     false, false, false, true, false, true, false, true, true, true, false, false, true, false].map .bit := by
  decide +kernel

/-- V-T6: an EMPTY trie. -/
theorem test_tenc_empty : (after [.build, .tenc] State.reset).sink
    = [true, false, false, false, false, false, false, false, false].map .bit := by decide +kernel

/-- V-T4: three of the nodes and the registers. -/
theorem test_tdec : let s := after [.tdec] (withSource State.reset [0x58, 0x4B, 0x1D, 0x91, 0x62, 0xB9, 0x00])
    [2, 4, 6].map (fun i => nodeInfoWord (nodeAt i s)) = [0x80000C03#32, 0xC18C0000#32, 0x80001007#32]
      ∧ s.nodecnt = 9 ∧ s.leafcnt = 5 ∧ s.bitcntIn = 49 ∧ statusWord s = 0x00000004#32 := by decide +kernel

/-- V-T9: eight tags, then END. -/
theorem test_tdec_truncated : let s := after [.tdec] (withSource twoLeaf [0x00])
    s.nodes = [] ∧ s.nodecnt = 0 ∧ s.bitcntIn = 8 ∧ statusWord s = 0x00004210#32 := by decide +kernel

/-- V-M1. -/
theorem test_lenc : (after [.lenc] { State.reset with msglen := 11 }).sink
    = ((List.replicate 28 false) ++ [true, false, true, true]).map .bit := by decide +kernel

/-- V-M4. -/
theorem test_ldec_negative : let s := after [.ldec] (withSource { State.reset with msglen := 7 } [0x80, 0, 0, 0])
    s.msglen = 7 ∧ s.bitcntIn = 32 ∧ statusWord s = 0x00003210#32 := by decide +kernel

/-- V-M3. -/
theorem test_ldec : (after [.ldec] (withSource State.reset [0x7F, 0xFF, 0xFF, 0xFF])).msglen = 0x7FFFFFFF#32 := by
  decide +kernel

/-- V-M6. -/
theorem test_senc : let s := after [.build, .genlut, .senc 0x72] counted
    s.sink = [.bit true, .bit true, .bit true] ∧ s.symcnt = 1 ∧ statusWord s = 0x0000000C#32 := by decide +kernel

/-- V-M7. -/
theorem test_senc_no_code : let s := after [.senc 0x7A] coded
    s.sink = [] ∧ s.symcnt = 0 ∧ statusWord s = 0x0000831C#32 := by decide +kernel

/-- V-M15: the message of V-T4's artifact starts with code word 0. -/
theorem test_sdec :
    let u := withSource State.reset [0x58, 0x4B, 0x1D, 0x91, 0x62, 0xB9, 0, 0, 0, 5, 0xB7]
    let s := after [.tdec, .ldec, .sdec] u
    symoutWord s.symout = 0x00000161#32 ∧ s.symcnt = 1 ∧ s.bitcntIn = 82 := by decide +kernel

/-- V-M11: "abz". -/
theorem test_menc_no_code :
    let u : State := { counted with msglen := 3, symIn := [0x61, 0x62, 0x7A] }
    let s := after [.build, .genlut, .menc] u
    s.sink = [false, true, true, false].map .bit ∧ s.symIn = [] ∧ s.symcnt = 2 ∧ statusWord s = 0x0000831C#32 := by
  decide +kernel

/-- V-M13: NO_LUT comes before NEG_LEN. -/
theorem test_menc_no_lut : statusWord (after [.menc] { twoLeaf with msglen := 0xFFFFFFFF }) = 0x0000A414#32 := by
  decide +kernel

/-- V-M19: length 6 over the "ab" artifact. -/
theorem test_mdec_truncated :
    let s := after [.tdec, .ldec, .mdec] (withSource State.reset [0x58, 0x6C, 0x40, 0, 0, 0, 0xC8])
    s.symOut = [0x61, 0x62, 0x61, 0x61, 0x61] ∧ s.symcnt = 5 ∧ symoutWord s.symout = 0x00000161#32
      ∧ s.bitcntIn = 56 ∧ statusWord s = 0x00006214#32 := by decide +kernel

/-- V-M16: MDEC with the EMPTY trie and a negative length. -/
theorem test_mdec_empty_trie : statusWord (after [.build, .mdec] { State.reset with msglen := 0xFFFFFFFF })
    = 0x0000B412#32 := by decide +kernel

/-- V-C3. -/
theorem test_close : let s := after [.build, .genlut, .senc 0x72, .close] counted
    artifacts s.sink = [[0xE0]] ∧ s.bitcntOut = 3 := by decide +kernel

/-! ### The host port -/

/-- V-C2: an illegal word. -/
theorem test_illegal_word : let s := stepped (State.reset.withFetchWord 32 0x0000010E)
    s.cmd = 0x0000010E ∧ s.sink = [] ∧ statusWord s = 0x0000D510#32 := by decide +kernel

/-- V-C5: a command is dropped while MENC waits. -/
theorem test_drop : let s := stepped { waiting with agenda := [⟨.write 0x00C 0, .full⟩] }
    s.cmd = 0x0000000C ∧ s.drop = true ∧ s.busy = true := by decide +kernel

/-- P7: a soft reset ends the MENC that waits. -/
theorem test_soft_reset : let s := stepped { waiting with agenda := [⟨.write 0x008 1, .full⟩, ⟨.read 0x010, .full⟩] }
    s.busy = false ∧ statusWord s = 0 ∧ s.agenda = [⟨.read 0x010, .full⟩] := by decide +kernel

/-- After END a new stream may be slow: LDEC waits on it, also through a beat with both signals low, and takes a bit
when one comes (R108). -/
theorem test_slow_new_stream :
    let s := after [.ldec] (perform .srcOpen (withSource State.reset [0xFF]))
    let low := stepped { s with agenda := [⟨.srcBeat false true false, .full⟩] }
    let bit := stepped { s with agenda := [⟨.srcBeat true true false, .full⟩] }
    s.busy = true ∧ s.bitcntIn = 0 ∧ low.busy = true ∧ low.bitcntIn = 0 ∧ bit.busy = true ∧ bit.bitcntIn = 1 := by
  decide +kernel

/-- END wins over a bit in one beat, and ends the new stream (R108, R301). -/
theorem test_new_stream_ends :
    let s := after [.ldec] (perform .srcOpen (withSource State.reset [0xFF]))
    statusWord (stepped { s with agenda := [⟨.srcBeat true true true, .full⟩] }) = 0x00005210#32 := by decide +kernel

/-- A command word issued to the reset state runs (V-C2's last row). -/
theorem test_fetched_word_runs : let s := stepped (State.reset.withFetchWord 32 0x00006102)
    freqAt 0x61 s = 1 ∧ s.cmd = 0x00006102 ∧ statusWord s = 0 := by decide +kernel

/-! ### Witnesses

For each obligation with hypotheses: states and operands that meet them, one for each clause, at the ends of its
range. -/

/-- An idle state with one word issued and still on the agenda. -/
def issuing (w : Word) : State := { State.reset with agenda := [⟨.write 0x00C w, .full⟩] }

/-- `twoLeaf` with a readiness of the sink. -/
def sinkAt (n : Nat) (s : State) : State := { s with sinkReady := .count n }

theorem holds_abTrie : HoldsTrie twoLeaf abTrie :=
  ⟨⟨rfl, rfl, ⟨rfl, rfl, rfl⟩, ⟨rfl, rfl, rfl⟩⟩, by decide, rfl⟩

theorem witness_OpcodeMapGivesEveryWord :
    0x0F ≤ ((0x0000000F : Word).extractLsb' 0 8).toNat ∧ 0x0F ≤ ((0xFFFFFFFF : Word).extractLsb' 0 8).toNat := by decide

theorem witness_DecodeProcedureRunsInOrder :
    let at_ := fun w : Word => { State.reset with cmd := w }
    let op := fun s : State => s.cmd.extractLsb' 0 8
    let sym := fun s : State => s.cmd.extractLsb' 8 8
    let rsv := fun s : State => s.cmd.extractLsb' 16 16
    ((op (at_ 0x0F)).toNat > 0x0E ∧ (op (at_ 0xFF)).toNat > 0x0E)
    ∧ ((op (at_ 0x0001000E)).toNat ≤ 0x0E ∧ rsv (at_ 0x0001000E) ≠ 0 ∧ (op (at_ 0x80000000)).toNat ≤ 0x0E
      ∧ rsv (at_ 0x80000000) ≠ 0)
    ∧ ((op (at_ 0x0000FF0E)).toNat ≤ 0x0E ∧ rsv (at_ 0x0000FF0E) = 0 ∧ op (at_ 0x0000FF0E) ≠ 0x02
      ∧ op (at_ 0x0000FF0E) ≠ 0x0A ∧ sym (at_ 0x0000FF0E) ≠ 0)
    ∧ ((op (at_ 0x0000FF02)).toNat ≤ 0x0E ∧ rsv (at_ 0x0000FF02) = 0 ∧ op (at_ 0x0000FF02) = 0x02
      ∧ op (at_ 0x0000010A) = 0x0A ∧ rsv (at_ 0x0000010A) = 0
      ∧ (op (at_ 0x0E)).toNat ≤ 0x0E ∧ rsv (at_ 0x0E) = 0 ∧ sym (at_ 0x0E) = 0) := by decide

theorem witness_IllegalWordCompletesAtOnce :
    (issuing 0x0F).busy = false ∧ (issuing 0x0F).agenda = [⟨.write 0x00C 0x0F, .full⟩]
    ∧ 0x0F ≤ ((0x0F : Word).extractLsb' 0 8).toNat
    ∧ ((0x0001000E : Word).extractLsb' 0 8).toNat < 0x0F ∧ (0x0001000E : Word).extractLsb' 16 16 ≠ 0
    ∧ ((0x0000010E : Word).extractLsb' 0 8).toNat < 0x0F ∧ (0x0000010E : Word).extractLsb' 8 8 ≠ 0
    ∧ (0x0000010E : Word).extractLsb' 0 8 ≠ 0x02 ∧ (0x0000010E : Word).extractLsb' 0 8 ≠ 0x0A := by decide +kernel

theorem witness_StepRunsTheDecodedCommand :
    ((issuing 0x0000720A).busy = false ∧ (issuing 0x0000720A).agenda = [⟨.write 0x00C 0x0000720A, .full⟩]
      ∧ decode 0x0000720A = .legal (.senc 0x72))
    ∧ (let s : State := { State.reset with cmd := 0x0E, task := .issued }
       s.task = .issued ∧ s.agenda = [] ∧ decode s.cmd = .legal .close)
    ∧ (State.reset.busy = false ∧ State.reset.agenda = [])
    ∧ (let s : State := { coded with agenda := [⟨.read 0xFFF, .only 0⟩] }
       s.busy = false ∧ s.agenda = ⟨.read 0xFFF, .only 0⟩ :: [])
    ∧ (let s : State := { coded with agenda := [⟨.write 0x010 1, .full⟩] }
       s.busy = false ∧ (0x010 : Address) ≠ 0x00C ∧ s.agenda = ⟨.write 0x010 1, .full⟩ :: [])
    ∧ (let s : State := { waiting with agenda := [⟨.read 0x010, .only 1⟩] }
       s.busy = true ∧ s.agenda = ⟨.read 0x010, .only 1⟩ :: [])
    ∧ (let s : State := { waiting with agenda := [⟨.write 0x008 1, .full⟩] }
       s.busy = true ∧ s.agenda = ⟨.write 0x008 1, .full⟩ :: [])
    ∧ (waiting.busy = true ∧ waiting.agenda = [] ∧ waiting.task ≠ .issued)
    ∧ coreStep waiting = none ∧ (coreStep { waiting with symIn := [0x61] }).isSome = true := by decide +kernel

theorem witness_CommandWriteIsAcceptedOrDropped : State.reset.busy = false ∧ waiting.busy = true := by decide +kernel

theorem witness_CommandsEndOnlyByFinish :
    (∃ t, coreStep { State.reset with cmd := 0x0F, task := .issued } = some t ∧ t.busy = false)
    ∧ ∃ t, coreStep { State.reset with cmd := 0x08, task := .issued } = some t ∧ t.busy = true :=
  ⟨⟨_, rfl, rfl⟩, ⟨_, rfl, rfl⟩⟩

theorem witness_WaitPollsUntilIdle : State.reset.busy = false ∧ waiting.busy = true := by decide +kernel

theorem witness_IdleReadsFollowTheMap : coded.busy = false
    ∧ ([(0x070 : Address), 0x07F].all fun a => 0x070 ≤ a.toNat ∧ a.toNat < 0x080)
    ∧ ([(0x0A0 : Address), 0x3FF].all fun a => 0x0A0 ≤ a.toNat ∧ a.toNat < 0x400)
    ∧ [(0x800 : Address), 0xFFF].all (fun a => 0x800 ≤ a.toNat) := by decide +kernel

theorem witness_NodeWindowShowsTheSelectedNode :
    twoLeaf.busy = false ∧ ({ twoLeaf with nodeSel := 2 } : State).nodeSel.toNat < twoLeaf.nodecnt.toNat
    ∧ twoLeaf.nodecnt.toNat ≤ ({ twoLeaf with nodeSel := 3 } : State).nodeSel.toNat
    ∧ twoLeaf.nodecnt.toNat ≤ ({ twoLeaf with nodeSel := 511 } : State).nodeSel.toNat := by decide +kernel

theorem witness_LutWindowShowsTheSelectedEntry : coded.busy = false ∧ (31 : Nat) < 32 := by decide +kernel

theorem witness_FreqWriteNeedsAnAllowedSymbol :
    counted.busy = false ∧ Memory.wf counted = true ∧ allowed 0x60 counted = false ∧ allowed 0x61 counted = true
      ∧ allowed 0x7A counted = true ∧ allowed 0x7B counted = false := by decide +kernel

theorem witness_StoringWritesAreIdempotent : counted.busy = false ∧ Memory.wf counted = true
    ∧ ([(0x080 : Address), 0x09F].all fun a => 0x080 ≤ a.toNat ∧ a.toNat < 0x0A0)
    ∧ [(0x400 : Address), 0x7FF].all (fun a => 0x400 ≤ a.toNat ∧ a.toNat < 0x800) := by decide +kernel

theorem witness_AllowWordsAreTheBitmap : State.reset.busy = false := by decide +kernel

theorem witness_ControlBitsAct :
    (0x1 : Word).getLsbD 0 = true ∧ (0x6 : Word).getLsbD 0 = false ∧ waiting.busy = true ∧ coded.busy = false := by
  decide +kernel

theorem witness_NoAccessFaults :
    ([(0x001 : Address), 0x012, 0xFFF].all fun a => a.toNat % 4 ≠ 0) ∧ (0x04C : Address).toNat = 0x04C
    ∧ ([(0x070 : Address), 0x07C].all fun a => 0x070 ≤ a.toNat ∧ a.toNat < 0x080)
    ∧ ([(0x0A0 : Address), 0x3FC].all fun a => 0x0A0 ≤ a.toNat ∧ a.toNat < 0x400)
    ∧ ([(0x800 : Address), 0xFFC].all fun a => 0x800 ≤ a.toNat)
    ∧ [(0x050 : Address), 0x06C].all (fun a => a.toNat % 4 = 0 ∧ 0x050 ≤ a.toNat ∧ a.toNat < 0x070) := by decide

theorem witness_BusyAccessIsRestricted :
    waiting.busy = true ∧ coded.busy = false ∧ (0x010 : Address) ≠ 0x00C ∧ (0x010 : Address) ≠ 0x008
    ∧ regAt 0x00C = some .cmd ∧ Reg.cmd ≠ .id ∧ Reg.cmd ≠ .version ∧ Reg.cmd ≠ .status
    ∧ regAt 0x7FC = some (.freq 0xFF) ∧ 0 < 31 ∧ 31 < 32 ∧ 31 ≠ 5 := by decide +kernel

theorem witness_ResetLeavesEveryFieldAtItsValue : (0x00000001 : Word).getLsbD 0 = true
    ∧ hostWrite 0x008 0x00000001 waiting ∈ [State.reset, perform .resetPin waiting, hostWrite 0x008 0x00000001 waiting] :=
  ⟨rfl, by simp⟩

theorem witness_ResetActsOnTheCoreOnly : (0xFFFFFFFF : Word).getLsbD 0 = true := by decide

theorem witness_CloseSendsOneCloseEvent : coded.sinkReady.allows 1 = true ∧ (sinkAt 1 coded).sinkReady.allows 1 = true
    ∧ (sinkAt 0 coded).sinkReady.allows 1 = false := by decide +kernel

theorem witness_CntCountsOneOccurrence :
    let full : State := { counted with freq := [(0x61, 0xFFFFFFFF), (0x62, 0xFFFFFFFE)] }
    allowed 0x41 full = false ∧ (allowed 0x61 full = true ∧ freqAt 0x61 full = 0xFFFFFFFF#32)
      ∧ allowed 0x62 full = true ∧ freqAt 0x62 full ≠ 0xFFFFFFFF#32 := by decide +kernel

theorem witness_CountsTotalTheAllowedSymbols :
    ∀ x, allowed x State.reset = true → [(0x61 : Symbol), 0x41, 0x61].count x < 0xFFFFFFFF := by decide +kernel

theorem witness_BuildOfNoSymbolIsEmpty :
    (∀ x, allowed x State.reset = true → freqAt x State.reset = 0)
    ∧ let s : State := { counted with allow := 0 }
      ∀ x, allowed x s = true → freqAt x s = 0 := by
  decide +kernel

/-- One leaf, and all 256. -/
theorem witness_BuildMakesTheTrie :
    (∃ x, allowed x { State.reset with freq := [(0x61, 1)] } = true ∧ freqAt x { State.reset with freq := [(0x61, 1)] } ≠ 0)
    ∧ let s : State := { State.reset with allow := BitVec.allOnes 256, freq := (List.range 256).map fun k => (k, 1) }
      ∃ x, allowed x s = true ∧ freqAt x s ≠ 0 :=
  ⟨⟨0x61, by decide +kernel⟩, 0xFF, by decide +kernel⟩

theorem witness_BuildWeightsAreExactSums : (∃ x, allowed x counted = true ∧ freqAt x counted ≠ 0)
    ∧ ∃ t, exec .build counted = .next t ∧ 8 < t.nodecnt.toNat ∧ (Table.read Node.zero t.nodes 8).leaf = false :=
  ⟨⟨0x61, by decide +kernel⟩, _, rfl, by decide +kernel, by decide +kernel⟩

theorem witness_BuildMergesTheTwoLeastEntries :
    (∃ m q', extractMin [⟨2, 0, 0⟩, ⟨1, 2, 2⟩, ⟨1, 1, 1⟩] = some (m, q') ∧ q'.length = 2 ∧ m.node = 1)
    ∧ let s : State := { State.reset with task := .build 2 2 2 [⟨5, 0, 0⟩, ⟨2, 1, 1⟩] }
      s.task = .build 2 2 2 [⟨5, 0, 0⟩, ⟨2, 1, 1⟩] ∧ 2 ≤ [(⟨5, 0, 0⟩ : PqEntry), ⟨2, 1, 1⟩].length :=
  ⟨⟨_, _, rfl, rfl, rfl⟩, rfl, by decide⟩

theorem witness_BuildIsDeterminedByItsTable :
    let s' : State := { coded with freq := counted.freq }
    counted.freq = s'.freq ∧ counted.allow = s'.allow ∧ (∃ t, exec .build counted = .next t)
      ∧ ∃ t', exec .build s' = .next t' :=
  ⟨rfl, rfl, ⟨_, rfl⟩, ⟨_, rfl⟩⟩

theorem witness_GenlutWritesTheCodeWords :
    State.reset.trieState = .none ∧ ({ State.reset with trieState := .empty } : State).trieState = .empty
    ∧ (twoLeaf.trieState = .valid ∧ HoldsTrie twoLeaf abTrie ∧ Memory.wf twoLeaf = true)
    ∧ (abTrie.paths = [] ++ (0x61, [false]) :: [(0x62, [true])] ∧ ∀ q ∈ [((0x62 : Symbol), [true])], q.1 ≠ 0x61)
    ∧ (twinTrie.paths = [(0x61, [false])] ++ (0x61, [true]) :: [] ∧ ∀ q ∈ ([] : List (Symbol × List Bool)), q.1 ≠ 0x61)
    ∧ ∀ q ∈ abTrie.paths, q.1 ≠ 0x63 :=
  ⟨rfl, rfl, ⟨rfl, holds_abTrie, rfl⟩, ⟨rfl, by decide⟩, ⟨rfl, by decide⟩, by decide⟩

theorem witness_CodeWordsArePrefixFree :
    twoLeaf.trieState = .valid ∧ HoldsTrie twoLeaf abTrie ∧ Memory.wf twoLeaf = true
    ∧ (abTrie.paths.map Prod.fst).Nodup
    ∧ let u := after [.genlut] twoLeaf
      (lutAt 0x61 u).present = true ∧ (lutAt 0x62 u).present = true ∧ (0x61 : Symbol) ≠ 0x62 :=
  ⟨rfl, holds_abTrie, rfl, by decide, by decide +kernel⟩

theorem witness_CodeLengthsFillTheTree :
    twoLeaf.trieState = .valid ∧ HoldsTrie twoLeaf abTrie ∧ Memory.wf twoLeaf = true
    ∧ (abTrie.paths.map Prod.fst).Nodup ∧ 2 ≤ abTrie.leaves
    ∧ (lutAt 0x62 (after [.genlut] twoLeaf)).present = true :=
  ⟨rfl, holds_abTrie, rfl, by decide, by decide, by decide +kernel⟩

/-- In "abracadabra" a is the most frequent symbol; the lengths 8 are a prefix-free code. -/
theorem witness_BuildAndGenlutCodeIsOptimal :
    let leaf := fun x : Symbol => allowed x counted = true ∧ freqAt x counted ≠ 0
    (∃ x, leaf x)
    ∧ (∀ x y, leaf x → leaf y → x ≠ y → ¬ bitsMsb x <+: bitsMsb y)
    ∧ leaf 0x61 ∧ (∀ y, leaf y → y ≠ 0x61 → (freqAt y counted).toNat < (freqAt 0x61 counted).toNat) ∧ leaf 0x72 :=
  ⟨⟨0x61, by decide +kernel⟩,
    fun x y _ _ hne hp => hne (by
      have h := hp.eq_of_length (by simp [bitsMsb])
      have hx : ofBitsMsb 8 (bitsMsb x) = ofBitsMsb 8 (bitsMsb y) := by rw [h]
      simpa using hx),
    by decide +kernel, by decide +kernel, by decide +kernel⟩

theorem witness_TencWritesTheTrie :
    State.reset.trieState = .none
    ∧ (let s : State := { State.reset with trieState := .empty, sinkReady := .count 9 }
       s.trieState = .empty ∧ s.sinkReady.allows 9 = true)
    ∧ (sinkAt 19 twoLeaf).trieState = .valid ∧ HoldsTrie (sinkAt 19 twoLeaf) abTrie
    ∧ (sinkAt 19 twoLeaf).sinkReady.allows (10 * (sinkAt 19 twoLeaf).leafcnt.toNat - 1) = true :=
  ⟨rfl, ⟨rfl, rfl⟩, rfl, holds_abTrie, rfl⟩

/-- One leaf, a trie with two leaves and bits after it, and one of 511 nodes. -/
theorem witness_TdecReadsTheTrie :
    (∀ t ∈ [Trie.leaf 0, abTrie, comb 255], ({ State.reset with srcBits := t.ser ++ [true] } : State).srcBits = t.ser ++ [true])
    ∧ ∀ t ∈ [Trie.leaf 0, abTrie, comb 255], t.size ≤ 511 := ⟨fun _ _ => rfl, by decide +kernel⟩

/-- Truncated: no bit, all bits but the last, and all bits of the first 511 nodes of a trie of 513. -/
theorem witness_FailedTdecLeavesNoTrie_truncated :
    let at_ := fun bits : List Bool => { State.reset with srcBits := bits, srcEnded := true }
    (abTrie.ser = (at_ []).srcBits ++ abTrie.ser ∧ abTrie.ser ≠ [] ∧ (at_ []).srcEnded = true
      ∧ (at_ []).srcBits.length ≤ (abTrie.nodeBits.take 511).flatten.length)
    ∧ (abTrie.ser = (at_ (abTrie.ser.take 18)).srcBits ++ [false] ∧ [false] ≠ []
      ∧ (at_ (abTrie.ser.take 18)).srcBits.length ≤ (abTrie.nodeBits.take 511).flatten.length)
    ∧ ((comb 256).ser = (at_ ((comb 256).ser.take 2551)).srcBits ++ (comb 256).ser.drop 2551
      ∧ (comb 256).ser.drop 2551 ≠ []
      ∧ (at_ ((comb 256).ser.take 2551)).srcBits.length ≤ ((comb 256).nodeBits.take 511).flatten.length) := by
  decide +kernel

/-- Overflow at the 512th node. -/
theorem witness_FailedTdecLeavesNoTrie_overflow :
    let first := ((comb 256).nodeBits.take 511).flatten
    511 < (comb 256).size
      ∧ ({ State.reset with srcBits := first ++ [false] } : State).srcBits = first ++ false :: []
      ∧ ({ State.reset with srcBits := first ++ [true, true] } : State).srcBits = first ++ true :: [true] :=
  ⟨by decide +kernel, rfl, rfl⟩

theorem witness_TrieRoundTrip :
    twoLeaf.trieState = .valid ∧ HoldsTrie twoLeaf abTrie ∧ Memory.wf twoLeaf = true
    ∧ twoLeaf.sinkReady.allows (10 * twoLeaf.leafcnt.toNat - 1) = true
    ∧ ∀ bits, ({ State.reset with srcBits := bits } : State).srcBits = bits ++ [] :=
  ⟨rfl, holds_abTrie, rfl, rfl, fun _ => (List.append_nil _).symm⟩

theorem witness_LencWritesTheLength : (sinkAt 32 coded).sinkReady.allows 32 = true
    ∧ coded.sinkReady.allows 32 = true := by decide +kernel

theorem witness_LdecReadsTheLength :
    let field := fun v : Word => (List.range 32).map fun j => v.getLsbD (31 - j)
    (∀ v : Word, ({ State.reset with srcBits := field v } : State).srcBits = field v ++ [])
    ∧ (0x7FFFFFFF : Word).getLsbD 31 = false ∧ (0 : Word).getLsbD 31 = false ∧ (0x80000000 : Word).getLsbD 31 = true
    ∧ (let s : State := { State.reset with srcBits := List.replicate 31 true, srcEnded := true }
       s.srcBits.length < 32 ∧ s.srcEnded = true)
    ∧ (withSource State.reset []).srcBits.length < 32 ∧ (withSource State.reset []).srcEnded = true :=
  ⟨fun _ => (List.append_nil _).symm, by decide +kernel⟩

theorem witness_SencWritesTheCodeWord :
    State.reset.lutValid = false ∧ (coded.lutValid = true ∧ (lutAt 0x7A coded).present = false)
    ∧ let s := sinkAt 1 coded
      s.lutValid = true ∧ (lutAt 0x62 s).present = true ∧ s.sinkReady.allows (lutAt 0x62 s).len.toNat = true := by
  decide +kernel

theorem witness_SdecReadsOneCodeWord :
    let s : State := { twoLeaf with srcBits := [true, false] }
    State.reset.trieState = .none ∧ ({ State.reset with trieState := .empty } : State).trieState = .empty
    ∧ (s.trieState = .valid ∧ HoldsTrie s abTrie ∧ ((0x62 : Symbol), [true]) ∈ abTrie.paths ∧ s.srcBits = [true] ++ [false])
    ∧ (abTrie.walk (withSource twoLeaf []).srcBits = none ∧ (withSource twoLeaf []).srcEnded = true) :=
  ⟨rfl, rfl, ⟨rfl, holds_abTrie, by decide, rfl⟩, rfl, rfl⟩

theorem witness_MencWritesTheMessage :
    (State.reset.lutValid = false)
    ∧ (let s : State := { coded with msglen := 0x80000000 }
       s.lutValid = true ∧ s.msglen.getLsbD 31 = true)
    ∧ (let s : State := { coded with msglen := 0x7FFFFFFF, symIn := [0x61, 0x62, 0x7A], sinkReady := .count 2 }
       s.lutValid = true ∧ s.msglen.getLsbD 31 = false ∧ s.symIn = [0x61, 0x62] ++ 0x7A :: []
         ∧ (∀ x ∈ [(0x61 : Symbol), 0x62], (lutAt x s).present = true)
         ∧ s.sinkReady.allows ([(0x61 : Symbol), 0x62].flatMap fun x => (lutAt x s).code).length = true
         ∧ [(0x61 : Symbol), 0x62].length < s.msglen.toNat ∧ (lutAt 0x7A s).present = false)
    ∧ (let s : State := { coded with msglen := 1, symIn := [0x61, 0x62] }
       s.msglen.getLsbD 31 = false ∧ s.symIn = [0x61] ++ [0x62] ∧ [(0x61 : Symbol)].length = s.msglen.toNat
         ∧ (lutAt 0x61 s).present = true)
    ∧ (let s : State := { coded with msglen := 0, symIn := [0x61] }
       s.symIn = [] ++ [0x61] ∧ ([] : List Symbol).length = s.msglen.toNat)
    ∧ (let s : State := { coded with msglen := 1 }
       s.symIn = [] ++ [] ∧ ([] : List Symbol).length < s.msglen.toNat) := by
  decide +kernel

theorem witness_MdecReadsTheMessage :
    let empty : State := { State.reset with trieState := .empty }
    let one : State := { twoLeaf with msglen := 1, srcBits := [true, false], symOutReady := .count 1 }
    let two : State := { twoLeaf with msglen := 2, srcBits := [true], srcEnded := true }
    let msg : List (Symbol × List Bool) := [(0x62, [true])]
    State.reset.trieState = .none
    ∧ (empty.trieState = .empty ∧ empty.msglen = 0 ∧ ({ empty with msglen := 0xFFFFFFFF } : State).msglen ≠ 0)
    ∧ ({ twoLeaf with msglen := 0x80000000 } : State).msglen.getLsbD 31 = true
    ∧ (one.trieState = .valid ∧ HoldsTrie one abTrie ∧ Memory.wf one = true ∧ one.msglen.getLsbD 31 = false
      ∧ (∀ q ∈ msg, q ∈ abTrie.paths) ∧ one.srcBits = msg.flatMap Prod.snd ++ [false]
      ∧ one.symOutReady.allows msg.length = true ∧ msg.length = one.msglen.toNat)
    ∧ (twoLeaf.srcBits = ([] : List (Symbol × List Bool)).flatMap Prod.snd ++ []
      ∧ ([] : List (Symbol × List Bool)).length = twoLeaf.msglen.toNat)
    ∧ (HoldsTrie two abTrie ∧ Memory.wf two = true ∧ two.msglen.getLsbD 31 = false
      ∧ two.srcBits = msg.flatMap Prod.snd ++ [] ∧ two.symOutReady.allows msg.length = true
      ∧ msg.length < two.msglen.toNat ∧ abTrie.walk [] = none ∧ two.srcEnded = true) :=
  ⟨rfl, ⟨rfl, rfl, by decide⟩, rfl, ⟨rfl, holds_abTrie, rfl, rfl, by decide, rfl, rfl, rfl⟩, ⟨rfl, rfl⟩,
    holds_abTrie, rfl, rfl, rfl, rfl, by decide, rfl, rfl⟩

theorem witness_CompletionsAreThoseListed :
    (∃ t, exec .genlut twoLeaf = .next t ∧ t.busy = false) ∧ ∃ t, exec .ldec twoLeaf = .next t ∧ t.busy = true :=
  ⟨⟨_, rfl, by decide +kernel⟩, _, rfl, by decide +kernel⟩

theorem witness_CommandsWriteOnlyTheirState : ∃ t, exec .nop coded = .next t := ⟨_, rfl⟩

theorem witness_CommandsUseOnlyTheirPorts : ∃ t, exec .nop coded = .next t := ⟨_, rfl⟩

/-- A bit sent; a bit read, and END; a symbol taken; and the four ways to wait. -/
theorem witness_TransfersFollowThePortOutputs :
    (let s : State := { coded with task := .lenc [true] }
     (coreStep s).isSome = true ∧ (portOutputs s).srcReq = false ∧ (portOutputs s).sinReady = false)
    ∧ (let s : State := { coded with task := .ldec [], srcBits := [true] }
       (coreStep s).isSome = true ∧ (portOutputs s).srcReq = true)
    ∧ (let s : State := { coded with task := .ldec [], srcEnded := true }
       (coreStep s).isSome = true ∧ (portOutputs s).srcReq = true)
    ∧ (let s : State := { waiting with symIn := [0x61] }
       (coreStep s).isSome = true ∧ (portOutputs s).sinReady = true)
    ∧ (let s : State := { coded with task := .close, sinkReady := .count 0 }
       (portOutputs s).snk ≠ none ∧ s.sinkReady = .count 0)
    ∧ (let s : State := { coded with task := .mdecOut 0 0x61, symOutReady := .count 0 }
       (portOutputs s).sout ≠ none ∧ s.symOutReady = .count 0)
    ∧ (let s : State := { coded with task := .ldec [] }
       (portOutputs s).srcReq = true ∧ s.srcBits = [] ∧ s.srcEnded = false)
    ∧ ((portOutputs waiting).sinReady = true ∧ waiting.symIn = [])
    ∧ State.reset.srcEnded = false ∧ (withSource State.reset []).srcEnded = true := by decide +kernel

theorem witness_OnlyCloseClosesTheSink :
    (∃ t, exec .tenc twoLeaf = .next t) ∧ Instr.tenc ≠ .close
    ∧ (∃ t, coreStep { coded with task := .lenc [true] } = some t) ∧ Task.lenc [true] ≠ .close :=
  ⟨⟨_, rfl⟩, by decide, ⟨_, rfl⟩, by decide⟩

theorem inv_twoLeaf : Inv twoLeaf where
  tables := rfl
  nodes := by simp [twoLeaf, Node.wf, Node.mkLeaf, Node.mkInternal]
  lut := by simp [twoLeaf, State.reset]
  status := by decide
  task := by
    refine ⟨⟨⟨abTrie, holds_abTrie⟩, fun k hk => ?_⟩, rfl⟩
    have h : 3 ≤ k := hk
    simp [twoLeaf, Table.read, show 0 ≠ k by omega, show 1 ≠ k by omega, show 2 ≠ k by omega]

/-- LDEC that waited, with what comes next. -/
def ldecWaiting (agenda : List Turn) : State := { twoLeaf with cmd := 0x00000009, task := .ldec [], agenda := agenda }

theorem inv_ldecWaiting (agenda : List Turn) : Inv (ldecWaiting agenda) :=
  ⟨inv_twoLeaf.tables, inv_twoLeaf.nodes, inv_twoLeaf.lut, inv_twoLeaf.status,
    inv_twoLeaf.task.1, inv_twoLeaf.task.2, by decide⟩

/-- An idle core; LDEC waiting with a bit to come; and LDEC waiting with nothing to come. -/
theorem witness_CommandsCompleteOrWaitForAPort :
    (Inv twoLeaf ∧ (twoLeaf.task = .idle ∨ twoLeaf.task = .issued))
    ∧ (Inv (ldecWaiting [⟨.srcBeat true true false, .full⟩])
      ∧ ∀ e rest, (ldecWaiting [⟨.srcBeat true true false, .full⟩]).agenda = e :: rest → e.pace = .full)
    ∧ Inv (ldecWaiting []) ∧ ∀ e rest, (ldecWaiting []).agenda = e :: rest → e.pace = .full :=
  ⟨⟨inv_twoLeaf, .inl rfl⟩, ⟨inv_ldecWaiting _, fun _ _ h => by cases h; rfl⟩, inv_ldecWaiting _, fun _ _ h => by cases h⟩

/-- The waiting LDEC goes on when the bit comes (R471). -/
theorem test_waiting_command_goes_on :
    (stepped (ldecWaiting [⟨.srcBeat true true false, .full⟩])).task = .ldec [true] := by decide +kernel

theorem witness_EveryStepKeepsTheInvariant : Inv twoLeaf ∧ ∃ t, step twoLeaf = .next t := ⟨inv_twoLeaf, _, rfl⟩

/-- "abracadabra" with the code words of `abraTrie` (V-L1). -/
def abraMsg : List (Symbol × List Bool) :=
  let a : Symbol × List Bool := (0x61, [false])
  let b : Symbol × List Bool := (0x62, [true, true, false])
  let r : Symbol × List Bool := (0x72, [true, true, true])
  [a, b, r, a, (0x63, [true, false, false]), a, (0x64, [true, false, true]), a, b, r, a]

/-- The 13-byte artifact of "abracadabra". -/
def abraBytes : List Byte := packBytes (abraTrie.ser ++ bitsMsb (11 : Word) ++ abraMsg.flatMap Prod.snd)

/-- P1's bytes, the hypotheses, and each field's first and last cut. -/
theorem witness_CutArtifactFailsInItsField :
    abraBytes = [0x58, 0x4B, 0x1D, 0x91, 0x62, 0xB9, 0x00, 0x00, 0x00, 0x05, 0xB7, 0x45, 0x6E]
    ∧ abraTrie.size ≤ 511 ∧ (11 : Word).getLsbD 31 = false ∧ abraMsg.length = (11 : Word).toNat
    ∧ (∀ q ∈ abraMsg, q ∈ abraTrie.paths) ∧ abraMsg.flatMap Prod.snd ≠ []
    ∧ [0, 6, 7, 10, 11, 12].all (fun j => j < abraBytes.length)
    ∧ [0, 6].all (fun j => 8 * j < abraTrie.ser.length)
    ∧ [7, 10].all (fun j => abraTrie.ser.length ≤ 8 * j ∧ 8 * j < abraTrie.ser.length + 32)
    ∧ [11, 12].all (fun j => abraTrie.ser.length + 32 ≤ 8 * j)
    ∧ [0, 6, 7, 10, 11, 12].all fun j =>
        let u := withSource State.reset (abraBytes.take j)
        u.srcBits = bytesBits (abraBytes.take j) ∧ u.srcEnded = true ∧ u.symOutReady = .always := by decide +kernel

/-- A message of three symbols, and the empty one. -/
theorem witness_CompressThenDecompressGivesTheMessage :
    (∀ m ∈ [[(0x61 : Symbol), 0x7A, 0x21], []],
      let s : State := { State.reset with symIn := m, agenda := compressScript m }
      s.busy = false ∧ m.length < 2 ^ 31 ∧ (∀ x ∈ m, allowed x s = true) ∧ s.sinkReady = .always ∧ s.symIn = m ++ []
        ∧ s.sink = [] ∧ s.agenda = compressScript m ++ [])
    ∧ let u : State :=
        { State.reset with agenda := ⟨.srcStream [0xBD, 0x00, 0x00, 0x00, 0x02, 0x00], .full⟩ :: decompressScript }
      u.busy = false ∧ u.symOutReady = .always
        ∧ u.agenda = ⟨.srcStream [0xBD, 0x00, 0x00, 0x00, 0x02, 0x00], .full⟩ :: decompressScript ++ [] := by
  decide +kernel

end Sys2Proof.Tests
end

section
/-! PROOFS. The bytes packed from a bit string, and the artifacts of a sink's events (R16, R107, R177). -/

namespace Sys2Proof.Machine

@[simp] theorem bytesBits_nil : bytesBits [] = [] := rfl

@[simp] theorem bytesBits_cons (b : Byte) (bs : List Byte) : bytesBits (b :: bs) = bitsMsb b ++ bytesBits bs := rfl

@[simp] theorem bytesBits_length (bs : List Byte) : (bytesBits bs).length = 8 * bs.length := by
  simp [bytesBits, Nat.mul_comm]

@[simp] theorem packBytes_nil : packBytes [] = [] := rfl

/-- The first byte packed from a string of 8 bits or more is its first 8 bits. -/
theorem packBytes_append_of_length_eq (l rest : List Bool) (h : l.length = 8) :
    packBytes (l ++ rest) = ofBitsMsb 8 l :: packBytes rest := by
  match l, h with
  | [_, _, _, _, _, _, _, _], _ => rfl

/-- A last byte that is not full is filled with zero bits. -/
theorem packBytes_of_length_lt (l : List Bool) (h0 : l ≠ []) (h : l.length < 8) :
    packBytes l = [ofBitsMsb 8 (l ++ List.replicate (8 - l.length) false)] := by
  match l, h0, h with
  | [_], _, _ | [_, _], _, _ | [_, _, _], _, _ | [_, _, _, _], _, _ | [_, _, _, _, _], _, _
  | [_, _, _, _, _, _], _, _ | [_, _, _, _, _, _, _], _, _ => rfl

/-- The bits of the packed bytes are the bits packed, then zero bits to the byte boundary (R107, R177). -/
theorem bytesBits_packBytes (l : List Bool) :
    bytesBits (packBytes l) = l ++ List.replicate ((8 - l.length % 8) % 8) false := by
  induction hn : l.length using Nat.strong_induction_on generalizing l with
  | _ n ih =>
    subst hn
    obtain h | h := Nat.lt_or_ge l.length 8
    · by_cases h0 : l = []
      · simp [h0]
      · have hpos := List.length_pos_iff.mpr h0
        have hpad : (8 - l.length % 8) % 8 = 8 - l.length := by omega
        rw [packBytes_of_length_lt l h0 h, bytesBits_cons, bytesBits_nil, List.append_nil, hpad,
          bitsMsb_ofBitsMsb _ (by simp; omega)]
    · have htake : (l.take 8).length = 8 := by simp [h]
      have hrest := ih (l.drop 8).length (by simp; omega) (l.drop 8) rfl
      have hmod : (l.drop 8).length % 8 = l.length % 8 := by simp; omega
      calc bytesBits (packBytes l)
        _ = bytesBits (packBytes (l.take 8 ++ l.drop 8)) := by rw [List.take_append_drop]
        _ = l.take 8 ++ bytesBits (packBytes (l.drop 8)) := by
            rw [packBytes_append_of_length_eq _ _ htake, bytesBits_cons, bitsMsb_ofBitsMsb _ htake]
        _ = l ++ List.replicate ((8 - l.length % 8) % 8) false := by
            rw [hrest, hmod, ← List.append_assoc, List.take_append_drop]

/-- A bit string packs into as many bytes as its padded length makes (R107). -/
theorem packBytes_length (l : List Bool) :
    (packBytes l).length = (l.length + (8 - l.length % 8) % 8) / 8 := by
  have h := congrArg List.length (bytesBits_packBytes l)
  simp only [bytesBits_length, List.length_append, List.length_replicate] at h
  omega

@[simp] theorem artifactsFrom_nil (cur : List Bool) : artifactsFrom cur [] = [] := rfl

@[simp] theorem artifactsFrom_bit_cons (cur : List Bool) (b : Bool) (es : List SinkEvent) :
    artifactsFrom cur (.bit b :: es) = artifactsFrom (cur ++ [b]) es := rfl

@[simp] theorem artifactsFrom_close_cons (cur : List Bool) (es : List SinkEvent) :
    artifactsFrom cur (.close :: es) = packBytes cur :: artifactsFrom [] es := rfl

/-- Bits that arrive join the bits that wait for a Close. -/
theorem artifactsFrom_bits_append (l cur : List Bool) (es : List SinkEvent) :
    artifactsFrom cur (l.map .bit ++ es) = artifactsFrom (cur ++ l) es := by
  induction l generalizing cur with
  | nil => simp
  | cons b l ih => simp [ih]

/-- A Close begins a new artifact: what comes after it depends on nothing before it (R16). -/
theorem artifactsFrom_append_close_append (cur : List Bool) (es es' : List SinkEvent) :
    artifactsFrom cur (es ++ [.close] ++ es') = artifactsFrom cur (es ++ [.close]) ++ artifactsFrom [] es' := by
  induction es generalizing cur with
  | nil => rfl
  | cons e es ih =>
    cases e with
    | bit b => exact ih (cur ++ [b])
    | close => exact congrArg (packBytes cur :: ·) (ih [])

/-- Bits and then a Close are one artifact. -/
theorem artifacts_bits_close (l : List Bool) : artifacts (l.map .bit ++ [.close]) = [packBytes l] := by
  simp [artifacts, artifactsFrom_bits_append]

/-- Bits that no Close follows are no artifact. -/
theorem artifacts_bits (l : List Bool) : artifacts (l.map .bit) = [] := by
  simpa [artifacts] using artifactsFrom_bits_append l [] []

/-- After a Close, bits and then a Close add one artifact, the bytes of those bits. -/
theorem artifacts_append_close_bits_close (es : List SinkEvent) (l : List Bool) :
    artifacts (es ++ [.close] ++ l.map .bit ++ [.close]) = artifacts (es ++ [.close]) ++ [packBytes l] := by
  rw [List.append_assoc, ← artifacts_bits_close]
  exact artifactsFrom_append_close_append [] es _

/-- Settles O55: the padding by induction on the bit string, 8 bits at a time; the artifacts by induction on the
sink's events. -/
theorem artifactPadsToAByte : Obligations.ArtifactPadsToAByte := fun l es =>
  ⟨bytesBits_packBytes l, packBytes_length l, artifacts_append_close_bits_close es l, artifacts_bits_close l,
    artifacts_bits l⟩

end Sys2Proof.Machine
end

section
/-! PROOFS. What a turn of the core and a host access can do, as equations and frames (10_state.md R34, R58;
20_memory.md R101; log 1, log 3). -/

namespace Sys2Proof.Machine

/-! ### A step is an event and a turn -/

theorem step_nil {s : State} (h : s.agenda = []) : step s = coreTurn .full s := by simp [step, h]

theorem step_cons {s : State} {t : Turn} {rest : List Turn} (h : s.agenda = t :: rest) :
    step s = coreTurn t.pace (serve t { s with agenda := rest }) := by simp [step, h]

/-- A turn that is no WAIT is just its event. -/
theorem serve_of_ne_wait {t : Turn} (h : t.event ≠ .wait) (s : State) : serve t s = perform t.event s :=
  if_neg fun hw => h hw.1

theorem coreTurn_legal {s : State} {i : Instr} (ht : s.task = .issued) (hd : decode s.cmd = .legal i) :
    coreTurn .full s = exec i s := by simp [coreTurn, ht, hd]

theorem coreTurn_illegal {s : State} {r : Reject} (ht : s.task = .issued) (hd : decode s.cmd = .illegal r) :
    coreTurn .full s = .next (finishIllegal r s) := by simp [coreTurn, ht, hd]

theorem coreTurn_running {s : State} (ht : s.task ≠ .issued) : coreTurn .full s = .next (runTurn s) := by
  simp only [coreTurn]

/-- The core's first step on an issued word is its decoding. -/
theorem coreStep_issued {s : State} (h : s.task = .issued) : coreStep s = some (issue s) := by simp [coreStep, h]

/-- Every turn of the core is some number of its steps. -/
theorem coreTurn_eq_runCore (p : Pace) (s : State) : ∃ n, coreTurn p s = .next (runCore n s) := by
  cases p with
  | only n => exact ⟨n, rfl⟩
  | full =>
    by_cases ht : s.task = .issued
    · cases hd : decode s.cmd with
      | legal i =>
        refine ⟨Config.turnLength + 1, ?_⟩
        rw [coreTurn_legal ht hd, exec_eq, runCore_succ (coreStep_issued ht), issue, hd, runTurn]
      | illegal r =>
        refine ⟨1, ?_⟩
        rw [coreTurn_illegal ht hd, runCore_succ (coreStep_issued ht), issue, hd, runCore]
    · exact ⟨Config.turnLength, coreTurn_running ht⟩

/-- The turn of an idle core keeps the state (60_exceptions.md R429). -/
theorem coreTurn_idle (p : Pace) {s : State} (h : s.task = .idle) : coreTurn p s = .next s := by
  obtain ⟨n, hn⟩ := coreTurn_eq_runCore p s
  rw [hn, runCore_stuck (coreStep_idle h)]

/-- A read changes nothing but the record of the words read and the count of free values drawn. -/
theorem hostRead_frame (a : Address) (s : State) :
    ∃ v n, hostRead a s = { s with reads := s.reads ++ [v], draws := n } := by
  cases hr : regAt a with
  | none => exact ⟨_, _, hostRead_none hr s⟩
  | some r =>
    cases hb : s.busy with
    | false => exact ⟨_, _, hostRead_idle hr hb⟩
    | true =>
      rw [hostRead_busy hr hb]
      cases r <;> exact ⟨_, _, rfl⟩

end Sys2Proof.Machine
end

section
/-! PROOFS. The invariant of the machine (10_state.md R37, R38, R45 to R49, R54; 60_exceptions.md R401): reset meets it,
and every event and every turn of the core keeps it. -/

namespace Sys2Proof.Machine

/-- The fields the invariant speaks of, but for the counts: no event changes them save a reset and an issue. -/
def invFields (s : State) :=
  (s.task, s.trieState, s.lutValid, s.result, s.subcause, s.root, s.nodecnt, s.leafcnt, s.nodes, s.lut)

/-- The invariant rests on `invFields` and on the canonical form of the counts alone. -/
theorem Inv.of_invFields_eq {s t : State} (h : Inv s) (hf : Table.wf 0 Config.nsym t.freq = true)
    (he : invFields t = invFields s) : Inv t := by
  obtain ⟨htables, hnodes, hlut, hstatus, htask⟩ := h
  cases s
  cases t
  simp only [invFields, Prod.mk.injEq] at he
  obtain ⟨rfl, rfl, rfl, rfl, rfl, rfl, rfl, rfl, rfl, rfl⟩ := he
  exact ⟨Memory.wf_iff.2 ⟨hf, (Memory.wf_iff.1 htables).2⟩, hnodes, hlut, hstatus, htask⟩

theorem Inv.freq_wf {s : State} (h : Inv s) : Table.wf 0 Config.nsym s.freq = true := (Memory.wf_iff.1 h.tables).1

/-- A reset establishes the invariant, whatever the state was (R57). -/
theorem resetCore_inv (s : State) : Inv (resetCore s) :=
  ⟨rfl, by simp [State.reset], by simp [State.reset], List.mem_cons_self, ⟨rfl, rfl, rfl, rfl⟩, rfl⟩

/-- Settles O58: the state after reset is a state that has just been reset. -/
theorem invariantHoldsAtReset : Obligations.InvariantHoldsAtReset := resetCore_inv State.reset

theorem hostRead_inv {s : State} (h : Inv s) (a : Address) : Inv (hostRead a s) := by
  obtain ⟨v, n, hr⟩ := hostRead_frame a s
  rw [hr]
  exact h.of_invFields_eq h.freq_wf rfl

/-- An issue takes an idle core to the point before the decoding, where the same is known (60_exceptions.md R403). -/
theorem issued_inv {s : State} (h : Inv s) (hi : s.task = .idle) (w : Word) :
    Inv { s with cmd := w, task := .issued } := by
  have htask := h.task
  unfold TaskOk at htask
  rw [hi] at htask
  exact ⟨h.tables, h.nodes, h.lut, h.status, htask⟩

theorem writeCtrl_inv {s : State} (h : Inv s) (v : Word) : Inv (writeCtrl v s) := by
  unfold writeCtrl
  split
  · exact resetCore_inv s
  · split <;> split <;> exact h.of_invFields_eq h.freq_wf rfl

theorem idleWrite_inv {s : State} (h : Inv s) (hi : s.task = .idle) (r : Reg) (v : Word) : Inv (idleWrite r v s) := by
  cases r with
  | ctrl => exact writeCtrl_inv h v
  | cmd => exact issued_inv h hi v
  | freq x =>
    simp only [idleWrite]
    split
    · exact h.of_invFields_eq (Table.write_wf h.freq_wf x.isLt) rfl
    · exact h
  | msglen | nodeSel | lutSel | allow => exact h.of_invFields_eq h.freq_wf rfl
  | id | version | status | symout | symcnt | root | nodecnt | leafcnt | bitcntOut | bitcntIn | nodeInfo | nodeWlo
  | nodeWhi | lutLen | lutBits => exact h

/-- What a write to a busy core can do: a reset, a dropped command, or nothing (10_state.md R58). -/
theorem busyWrite_cases (r : Reg) (v : Word) (s : State) :
    busyWrite r v s = resetCore s ∨ busyWrite r v s = { s with drop := true } ∨ busyWrite r v s = s := by
  cases r with
  | ctrl =>
    simp only [busyWrite]
    split
    · exact .inl rfl
    · exact .inr (.inr rfl)
  | cmd => exact .inr (.inl rfl)
  | _ => exact .inr (.inr rfl)

theorem busyWrite_inv {s : State} (h : Inv s) (r : Reg) (v : Word) : Inv (busyWrite r v s) := by
  obtain he | he | he := busyWrite_cases r v s <;> rw [he]
  · exact resetCore_inv s
  · exact h.of_invFields_eq h.freq_wf rfl
  · exact h

theorem hostWrite_inv {s : State} (h : Inv s) (a : Address) (v : Word) : Inv (hostWrite a v s) := by
  cases hr : regAt a with
  | none => rwa [hostWrite_none hr]
  | some r =>
    cases hb : s.busy with
    | false =>
      rw [hostWrite_idle hr hb]
      exact idleWrite_inv h (idle_of_busy hb) r v
    | true =>
      rw [hostWrite_busy hr hb]
      exact busyWrite_inv h r v

theorem sourceBeat_inv {s : State} (h : Inv s) (valid bit ended : Bool) : Inv (sourceBeat valid bit ended s) := by
  unfold sourceBeat
  split
  · exact h.of_invFields_eq h.freq_wf rfl
  · split
    · exact h.of_invFields_eq h.freq_wf rfl
    · exact h

/-- Every event keeps the invariant. -/
theorem perform_inv {s : State} (h : Inv s) (e : Event) : Inv (perform e s) := by
  cases e with
  | write a v => exact hostWrite_inv h a v
  | read a => exact hostRead_inv h a
  | wait => exact hostRead_inv h 0x010
  | resetPin => exact resetCore_inv s
  | srcBeat valid bit ended => exact sourceBeat_inv h valid bit ended
  | sinkReady | symOutReady | srcStream | srcOpen | symOffer => exact h.of_invFields_eq h.freq_wf rfl

/-- Which turns are still to come is nothing to the invariant. -/
theorem Inv.with_agenda {s : State} (h : Inv s) (agenda : List Turn) : Inv { s with agenda := agenda } :=
  h.of_invFields_eq h.freq_wf rfl

theorem serve_inv {s : State} (h : Inv s) (t : Turn) : Inv (serve t s) := by
  unfold serve
  split
  · exact (perform_inv h t.event).with_agenda _
  · exact perform_inv h t.event

/-- A turn of the core keeps the invariant, because each of its steps does. -/
theorem coreTurn_inv {s t : State} {p : Pace} (h : Inv s) (ht : coreTurn p s = .next t) : Inv t := by
  obtain ⟨n, hn⟩ := coreTurn_eq_runCore p s
  rw [hn] at ht
  cases ht
  exact runCore_keeps (fun _ _ hs hstep => coreStep_inv hs hstep) n h

/-- Settles O59: an event keeps the invariant, and so does the turn of the core that follows. -/
theorem everyStepKeepsTheInvariant : Obligations.EveryStepKeepsTheInvariant := by
  intro s t h hstep
  cases ha : s.agenda with
  | nil =>
    rw [step_nil ha] at hstep
    exact coreTurn_inv h hstep
  | cons turn rest =>
    rw [step_cons ha] at hstep
    exact coreTurn_inv (serve_inv (h.with_agenda rest) turn) hstep

end Sys2Proof.Machine
end

section
/-! PROOFS. The words the host reads, field by field (10_state.md R35, R43, R46, R50, R52, R58). -/

namespace Sys2Proof.Machine

/-! ### Fields of a word put together from them -/

/-- The field that stands just above `y`. -/
theorem extractLsb'_append_mid {u v w : Nat} (x : BitVec u) (f : BitVec v) (y : BitVec w) :
    (x ++ f ++ y).extractLsb' w v = f := by
  rw [BitVec.extractLsb'_append_eq_of_le (Nat.le_refl w), Nat.sub_self, BitVec.extractLsb'_append_eq_right]

/-- Bits at or above the width of `y` are bits of `x`. -/
theorem getLsbD_append_of_le {v w i : Nat} {x : BitVec v} {y : BitVec w} (h : w ≤ i) :
    (x ++ y).getLsbD i = x.getLsbD (i - w) := by
  rw [BitVec.getLsbD_append, if_neg (Nat.not_lt.2 h)]

/-- Bits below the width of `y` are bits of `y`. -/
theorem getLsbD_append_of_lt {v w i : Nat} {x : BitVec v} {y : BitVec w} (h : i < w) :
    (x ++ y).getLsbD i = y.getLsbD i := by
  rw [BitVec.getLsbD_append, if_pos h]

/-- The lowest bit, where it is a field of its own. -/
theorem getLsbD_append_ofBool {v : Nat} (x : BitVec v) (b : Bool) : (x ++ BitVec.ofBool b).getLsbD 0 = b := by
  rw [getLsbD_append_of_lt Nat.one_pos, BitVec.getLsbD_ofBool, decide_eq_true rfl, Bool.true_and]

/-- A field shown at the low end of a wider word. -/
theorem extractLsb'_setWidth_low {v w : Nat} (x : BitVec v) (h : v ≤ w) : (x.setWidth w).extractLsb' 0 v = x := by
  rw [BitVec.extractLsb'_setWidth_of_le (by omega), BitVec.extractLsb'_eq_self]

/-- Above that field the wider word is 0. -/
theorem extractLsb'_setWidth_high {v w n : Nat} (x : BitVec v) : (x.setWidth w).extractLsb' v n = 0 := by
  apply BitVec.eq_of_getLsbD_eq
  intro i _
  rw [BitVec.getLsbD_extractLsb', BitVec.getLsbD_setWidth, BitVec.getLsbD_of_ge x (v + i) (Nat.le_add_right v i)]
  simp

/-- Bit `w - 1 - j` of a word assembled from `w` bits is the j-th of them (00_scope.md R12). -/
theorem ofBitsMsb_getLsbD {w j : Nat} {l : List Bool} (hl : l.length = w) (hj : j < w) :
    (ofBitsMsb w l).getLsbD (w - 1 - j) = l[j]'(hl ▸ hj) := by
  have h : (bitsMsb (ofBitsMsb w l))[j]'(by simpa using hj) = (ofBitsMsb w l).getLsbD (w - 1 - j) := by
    simp [bitsMsb, BitVec.getMsbD_eq_getLsbD, hj]
  rw [← h]
  simp only [bitsMsb_ofBitsMsb l hl]

/-! ### `STATUS` (R35, R58) -/

/-- The single bits of `STATUS`. -/
theorem statusWord_bits (s : State) :
    (statusWord s).getLsbD 0 = s.busy ∧ (statusWord s).getLsbD 3 = s.lutValid ∧ (statusWord s).getLsbD 4 = s.err
      ∧ (statusWord s).getLsbD 5 = s.drop := by
  unfold statusWord
  refine ⟨getLsbD_append_ofBool _ _, ?_, ?_, ?_⟩
  · iterate 2 rw [getLsbD_append_of_le (by decide)]
    exact getLsbD_append_ofBool _ _
  · iterate 3 rw [getLsbD_append_of_le (by decide)]
    exact getLsbD_append_ofBool _ _
  · iterate 4 rw [getLsbD_append_of_le (by decide)]
    exact getLsbD_append_ofBool _ _

/-- The wider fields of `STATUS`, the reserved ones among them. -/
theorem statusWord_fields (s : State) :
    (statusWord s).extractLsb' 1 2 = s.trieState.code ∧ (statusWord s).extractLsb' 6 2 = 0
      ∧ (statusWord s).extractLsb' 8 4 = s.result.code ∧ (statusWord s).extractLsb' 12 4 = s.subcause.code
      ∧ (statusWord s).extractLsb' 16 16 = 0 := by
  unfold statusWord
  refine ⟨extractLsb'_append_mid _ _ _, ?_, ?_, ?_, ?_⟩
  · iterate 4 rw [BitVec.extractLsb'_append_eq_of_le (by decide)]
    exact extractLsb'_append_mid _ _ _
  · iterate 5 rw [BitVec.extractLsb'_append_eq_of_le (by decide)]
    exact extractLsb'_append_mid _ _ _
  · iterate 6 rw [BitVec.extractLsb'_append_eq_of_le (by decide)]
    exact extractLsb'_append_mid _ _ _
  · iterate 7 rw [BitVec.extractLsb'_append_eq_of_le (by decide)]
    exact BitVec.extractLsb'_append_eq_left

/-- Settles O13: each field stands above the fields that follow it in the word; the codes are read off the tables. -/
theorem statusWordHoldsItsFields : Obligations.StatusWordHoldsItsFields := by
  refine ⟨fun s => ?_, rfl, rfl, rfl, rfl, rfl⟩
  obtain ⟨hbusy, hlut, herr, hdrop⟩ := statusWord_bits s
  obtain ⟨htrie, hrsv, hresult, hsub, hhigh⟩ := statusWord_fields s
  exact ⟨hbusy, htrie, hlut, herr, hdrop, hrsv, hresult, hsub, hhigh⟩

/-- While busy `STATUS` reads BUSY and DROP true and every other bit of the draw (R58). -/
theorem busyStatusWord_getLsbD (draw : Word) (s : State) {j : Nat} (hj : j < 32) :
    (busyStatusWord draw s).getLsbD j = if j = 0 then s.busy else if j = 5 then s.drop else draw.getLsbD j := by
  unfold busyStatusWord
  obtain rfl | h0 := Nat.eq_zero_or_pos j
  · exact getLsbD_append_ofBool _ _
  rw [if_neg (by omega), getLsbD_append_of_le (by omega)]
  obtain h | rfl | h := Nat.lt_trichotomy j 5
  · rw [if_neg (by omega), getLsbD_append_of_lt (by omega), BitVec.getLsbD_extractLsb', decide_eq_true (by omega),
      Bool.true_and, Nat.add_sub_cancel' h0]
  · rw [if_pos rfl, getLsbD_append_of_le (by decide)]
    exact getLsbD_append_ofBool _ _
  · rw [if_neg (by omega), getLsbD_append_of_le (by omega), getLsbD_append_of_le (by omega),
      BitVec.getLsbD_extractLsb', decide_eq_true (by omega), Bool.true_and, show 6 + (j - 1 - 4 - 1) = j by omega]

/-! ### `SYMOUT` (R43) -/

theorem symoutWord_some (x : Symbol) :
    (symoutWord (some x)).extractLsb' 0 8 = x ∧ (symoutWord (some x)).getLsbD 8 = true
      ∧ (symoutWord (some x)).extractLsb' 9 23 = 0 := by
  unfold symoutWord
  refine ⟨BitVec.extractLsb'_append_eq_right, ?_, ?_⟩
  · rw [getLsbD_append_of_le (by decide)]
    exact getLsbD_append_ofBool _ _
  · rw [BitVec.extractLsb'_append_eq_of_le (by decide)]
    exact BitVec.extractLsb'_append_eq_left

/-! ### The node window (R46) -/

theorem windowNode_of_lt {s : State} (h : s.nodeSel.toNat < s.nodecnt.toNat) : windowNode s = nodeAt s.nodeSel s :=
  if_pos h

theorem windowNode_of_le {s : State} (h : s.nodecnt.toNat ≤ s.nodeSel.toNat) : windowNode s = Node.zero :=
  if_neg (Nat.not_lt.2 h)

theorem nodeInfoWord_fields (n : Node) :
    (nodeInfoWord n).extractLsb' 0 9 = n.left ∧ (nodeInfoWord n).extractLsb' 9 9 = n.right
      ∧ (nodeInfoWord n).extractLsb' 18 8 = n.sym ∧ (nodeInfoWord n).extractLsb' 26 4 = 0
      ∧ (nodeInfoWord n).getLsbD 30 = n.leaf ∧ (nodeInfoWord n).getLsbD 31 = n.inuse := by
  unfold nodeInfoWord
  refine ⟨BitVec.extractLsb'_append_eq_right, extractLsb'_append_mid _ _ _, ?_, ?_, ?_, ?_⟩
  · rw [BitVec.extractLsb'_append_eq_of_le (by decide)]
    exact extractLsb'_append_mid _ _ _
  · iterate 2 rw [BitVec.extractLsb'_append_eq_of_le (by decide)]
    exact extractLsb'_append_mid _ _ _
  · iterate 4 rw [getLsbD_append_of_le (by decide)]
    exact getLsbD_append_ofBool _ _
  · iterate 5 rw [getLsbD_append_of_le (by decide)]
    simp

/-! ### The LUT window (R50) -/

theorem lutLen_fields (s : State) :
    (regValue .lutLen s).getLsbD 31 = (lutAt s.lutSel s).present ∧ (regValue .lutLen s).extractLsb' 8 23 = 0
      ∧ (regValue .lutLen s).extractLsb' 0 8 = (lutAt s.lutSel s).len := by
  unfold regValue
  refine ⟨?_, extractLsb'_append_mid _ _ _, BitVec.extractLsb'_append_eq_right⟩
  iterate 2 rw [getLsbD_append_of_le (by decide)]
  simp

theorem lutBitsWord_getLsbD (k : Nat) (e : LutEntry) {j : Nat} (hj : j < 32) :
    (lutBitsWord k e).getLsbD (31 - j) = (decide (32 * k + j < e.len.toNat) && e.bits.getLsbD (32 * k + j)) := by
  rw [lutBitsWord, ofBitsMsb_getLsbD (w := 32) (by simp) hj]
  simp

/-- Bit 0 of `LUT_BITS7` would be code bit 255, and a code word has at most 255 bits. -/
theorem lutBitsWord_seven_low (e : LutEntry) : (lutBitsWord 7 e).getLsbD 0 = false := by
  have h := lutBitsWord_getLsbD 7 e (j := 31) (by decide)
  rwa [BitVec.getLsbD_of_ge e.bits _ (by decide), Bool.and_false] at h

/-! ### `ALLOW` (R52) -/

/-- A write of one `ALLOW` word replaces its 32 bits and keeps the others. -/
theorem writeAllow_getLsbD (k : Fin 8) (v : Word) (s : State) {i : Nat} (hi : i < 256) :
    (writeAllow k v s).allow.getLsbD i = if i / 32 = k.val then v.getLsbD (i % 32) else s.allow.getLsbD i := by
  simp only [writeAllow, BitVec.getLsbD_or, BitVec.getLsbD_and, BitVec.getLsbD_not, BitVec.getLsbD_shiftLeft,
    BitVec.getLsbD_setWidth, BitVec.getLsbD_allOnes, hi, show i - 32 * k.val < 256 by omega, decide_true, Bool.true_and]
  obtain hbelow | hfrom := Nat.lt_or_ge i (32 * k.val)
  · rw [if_neg (by omega)]
    simp [hbelow]
  · obtain hin | habove := Nat.lt_or_ge i (32 * k.val + 32)
    · rw [if_pos (by omega)]
      simp [show ¬i < 32 * k.val by omega, show i - 32 * k.val = i % 32 by omega, Nat.mod_lt i]
    · rw [if_neg (by omega)]
      simp [show ¬i - 32 * k.val < 32 by omega, BitVec.getLsbD_of_ge v (i - 32 * k.val) (by omega)]

/-- Symbol `x` is bit `x mod 32` of word `x div 32`. -/
theorem allow_word_getLsbD (s : State) (x : Symbol) :
    (s.allow.extractLsb' (32 * (x.toNat / 32)) 32).getLsbD (x.toNat % 32) = allowed x s := by
  rw [BitVec.getLsbD_extractLsb', decide_eq_true (Nat.mod_lt _ (by decide)), Bool.true_and, Nat.div_add_mod, allowed]

/-- The default alphabet: `a` to `z`, hyphen, exclamation mark, full stop and plus. -/
theorem allowed_reset_iff : ∀ x : Symbol, allowed x State.reset = true ↔
    (0x61 ≤ x.toNat ∧ x.toNat ≤ 0x7A) ∨ x = 0x2D ∨ x = 0x21 ∨ x = 0x2E ∨ x = 0x2B := by decide

end Sys2Proof.Machine
end

section
/-! PROOFS. The host's accesses, register by register (10_state.md R31 to R33, R46, R50 to R52, R57, R58;
60_exceptions.md R403). -/

namespace Sys2Proof.Machine

/-! ### The map of the single registers (R32) -/

theorem regAt_single : ∀ p ∈ singleRegs, regAt (BitVec.ofNat 12 p.1) = some p.2 := by decide

/-- A register that is none of the windows' stands at one offset, the one the table of R32 lists. -/
theorem mem_singleRegs_of_regAt {a : Address} {r : Reg} (h : regAt a = some r) (hbits : ∀ k, r ≠ .lutBits k)
    (hallow : ∀ k, r ≠ .allow k) (hfreq : ∀ x, r ≠ .freq x) : (a.toNat, r) ∈ singleRegs := by
  unfold regAt at h
  simp only at h
  split at h
  · cases h
  split at h
  · cases h; exact absurd rfl (hbits _)
  split at h
  · cases h; exact absurd rfl (hallow _)
  split at h
  · cases h; exact absurd rfl (hfreq _)
  obtain ⟨l₁, l₂, hl, -⟩ := List.lookup_eq_some_iff.1 h
  exact hl ▸ List.mem_append_right l₁ List.mem_cons_self

theorem eq_of_regAt_cmd {a : Address} (h : regAt a = some .cmd) : a = 0x00C :=
  BitVec.eq_of_toNat_eq (by simpa [singleRegs] using mem_singleRegs_of_regAt h (by simp) (by simp) (by simp))

theorem eq_of_regAt_ctrl {a : Address} (h : regAt a = some .ctrl) : a = 0x008 :=
  BitVec.eq_of_toNat_eq (by simpa [singleRegs] using mem_singleRegs_of_regAt h (by simp) (by simp) (by simp))

theorem regAt_id : regAt 0x000 = some .id := by decide
theorem regAt_version : regAt 0x004 = some .version := by decide
theorem regAt_nodeSel : regAt 0x034 = some .nodeSel := by decide
theorem regAt_lutSel : regAt 0x044 = some .lutSel := by decide

/-! ### `ID` and `VERSION` (R31) -/

theorem hostRead_id (s : State) : hostRead 0x000 s = answerRead Config.idValue s := by
  cases hb : s.busy with
  | false => exact hostRead_idle regAt_id hb
  | true => exact hostRead_busy regAt_id hb

theorem hostRead_version (s : State) : hostRead 0x004 s = answerRead Config.versionValue s := by
  cases hb : s.busy with
  | false => exact hostRead_idle regAt_version hb
  | true => exact hostRead_busy regAt_version hb

/-- A write that both an idle and a busy core ignore. -/
theorem hostWrite_ignored {a : Address} {r : Reg} (hr : regAt a = some r) {v : Word} {s : State}
    (hidle : idleWrite r v s = s) (hbusy : busyWrite r v s = s) : hostWrite a v s = s := by
  cases hb : s.busy with
  | false => rw [hostWrite_idle hr hb, hidle]
  | true => rw [hostWrite_busy hr hb, hbusy]

/-- Settles O12: the registers are read true and written in vain both while idle and while busy. -/
theorem identityReadsAtAllTimes : Obligations.IdentityReadsAtAllTimes := fun s _ =>
  ⟨hostRead_id s, hostRead_version s, hostWrite_ignored regAt_id rfl rfl, hostWrite_ignored regAt_version rfl rfl⟩

/-! ### Idle reads (R32, R43) -/

/-- The idle reads of the single registers and of the reserved word after them. -/
theorem hostRead_idle_single {s : State} (hb : s.busy = false) :
    ∀ p ∈ singleRegs.map (fun q => (BitVec.ofNat 12 q.1, regValue q.2 s)) ++ [((0x04C : Address), (0 : Word))],
      hostRead p.1 s = answerRead p.2 s := by
  intro p hp
  obtain hp | hp := List.mem_append.1 hp
  · obtain ⟨q, hq, rfl⟩ := List.mem_map.1 hp
    exact hostRead_idle (regAt_single q hq) hb
  · obtain rfl := List.mem_singleton.1 hp
    exact hostRead_none (by decide) s

/-- Settles O11: each offset by the register the map gives it, the reserved ones by their having none. -/
theorem idleReadsFollowTheMap : Obligations.IdleReadsFollowTheMap := fun s hb =>
  ⟨hostRead_idle_single hb, fun k => hostRead_idle (regAt_lutBits k) hb, fun k => hostRead_idle (regAt_allow k) hb,
    fun x => hostRead_idle (regAt_freq x) hb, fun a ha => hostRead_none (regAt_none a (by omega)) s, rfl,
    symoutWord_some⟩

/-- While idle every offset reads the word the map gives (R58). -/
theorem hostRead_idleWord {s : State} (hb : s.busy = false) (a : Address) :
    hostRead a s = answerRead (idleWord s a) s := by
  unfold idleWord
  cases hr : regAt a with
  | none => exact hostRead_none hr s
  | some r => exact hostRead_idle hr hb

/-! ### The windows (R46, R50) -/

/-- Settles O14: the word's fields are those of the window's node, which is zero at or beyond `NODECNT`. -/
theorem nodeWindowShowsTheSelectedNode : Obligations.NodeWindowShowsTheSelectedNode := by
  intro s v hb
  refine ⟨?_, extractLsb'_setWidth_low _ (by decide), extractLsb'_setWidth_high _, fun hlt => ?_, fun hle => ?_⟩
  · rw [← BitVec.setWidth_eq_extractLsb' (by decide)]
    exact hostWrite_idle regAt_nodeSel hb v
  · obtain ⟨hl, hr, hsym, hrsv, hleaf, hinuse⟩ := nodeInfoWord_fields (nodeAt s.nodeSel s)
    simp only [regValue, windowNode_of_lt hlt]
    exact ⟨hl, hr, hsym, hrsv, hleaf, hinuse, trivial, extractLsb'_setWidth_low _ (by decide),
      extractLsb'_setWidth_high _⟩
  · simp only [regValue, windowNode_of_le hle]
    decide

/-- Settles O15: the fields of each word; bit 0 of `LUT_BITS7` is past the longest code word. -/
theorem lutWindowShowsTheSelectedEntry : Obligations.LutWindowShowsTheSelectedEntry := by
  intro s v hb
  obtain ⟨hpresent, hrsv, hlen⟩ := lutLen_fields s
  refine ⟨?_, extractLsb'_setWidth_low _ (by decide), extractLsb'_setWidth_high _, hpresent, hrsv, hlen,
    fun k j hj => lutBitsWord_getLsbD k.val _ hj, lutBitsWord_seven_low _⟩
  rw [← BitVec.setWidth_eq_extractLsb' (by decide)]
  exact hostWrite_idle regAt_lutSel hb v

/-! ### Writes that store (R51, R52) -/

/-- Settles O16: the idle write is a table write or nothing, and a table reads what was written (log 7). -/
theorem freqWriteNeedsAnAllowedSymbol : Obligations.FreqWriteNeedsAnAllowedSymbol := by
  intro s x v hb hwf
  rw [hostWrite_idle (regAt_freq x) hb, idleWrite]
  refine ⟨fun h => if_neg (by simp [h]), fun h => ⟨_, if_pos h, fun k => ?_⟩⟩
  rw [Table.read_write (Memory.wf_iff.1 hwf).1]
  exact if_congr eq_comm rfl rfl

/-- Settles O18: the reset value by computation, the place of a symbol and the write bit by bit. -/
theorem allowWordsAreTheBitmap : Obligations.AllowWordsAreTheBitmap :=
  ⟨by decide, allowed_reset_iff, allow_word_getLsbD, fun s k v hb =>
    ⟨(writeAllow k v s).allow, hostWrite_idle (regAt_allow k) hb v, fun x => writeAllow_getLsbD k v s x.isLt⟩⟩

/-! ### `CMD` and `CTRL` (R33, R58, R403) -/

/-- An idle core's write of `CTRL` without SRST. -/
theorem writeCtrl_no_reset {v : Word} (h : v.getLsbD 0 = false) (s : State) :
    writeCtrl v s = { s with err := s.err && !v.getLsbD 1, drop := s.drop && !v.getLsbD 1
                             bitcntOut := if v.getLsbD 2 then 0 else s.bitcntOut
                             bitcntIn := if v.getLsbD 2 then 0 else s.bitcntIn } := by
  simp only [writeCtrl, h, Bool.false_eq_true, if_false]
  cases v.getLsbD 1 <;> cases v.getLsbD 2 <;> simp

theorem hostWrite_ctrl_busy {s : State} (hb : s.busy = true) (v : Word) :
    hostWrite 0x008 v s = if v.getLsbD 0 then resetCore s else s := hostWrite_busy regAt_ctrl hb v

/-- SRST resets, idle or busy (R33). -/
theorem hostWrite_ctrl_reset {v : Word} (h : v.getLsbD 0 = true) (s : State) : hostWrite 0x008 v s = resetCore s := by
  cases hb : s.busy with
  | false => rw [hostWrite_idle regAt_ctrl hb]; exact if_pos h
  | true => rw [hostWrite_ctrl_busy hb]; exact if_pos h

/-- Settles O19: SRST first, idle or busy; without it a busy core ignores the write. -/
theorem controlBitsAct : Obligations.ControlBitsAct := by
  refine fun s v => ⟨fun h => hostWrite_ctrl_reset h s, fun h hb => ?_, fun h hb => ?_,
    fun hb => hostRead_idle regAt_ctrl hb⟩
  · rw [hostWrite_ctrl_busy hb, h]; rfl
  · rw [hostWrite_idle regAt_ctrl hb]
    exact writeCtrl_no_reset h s

theorem hostWrite_cmd_idle {s : State} (hb : s.busy = false) (w : Word) :
    hostWrite 0x00C w s = { s with cmd := w, task := .issued } := hostWrite_idle regAt_cmd hb w

theorem hostWrite_cmd_busy {s : State} (hb : s.busy = true) (w : Word) :
    hostWrite 0x00C w s = { s with drop := true } := hostWrite_busy regAt_cmd hb w

/-- Settles O8: the write an idle core accepts leaves it issued, the one a busy core drops sets DROP. -/
theorem commandWriteIsAcceptedOrDropped : Obligations.CommandWriteIsAcceptedOrDropped := by
  refine fun s w => ⟨fun hb => ?_, fun hb => hostWrite_cmd_busy hb w⟩
  rw [hostWrite_cmd_idle hb]
  exact ⟨rfl, rfl, coreStep_issued rfl⟩

/-! ### Busy accesses (R58) -/

/-- A busy core ignores a write to any register but `CMD` and `CTRL`. -/
theorem busyWrite_ignored {r : Reg} (hcmd : r ≠ .cmd) (hctrl : r ≠ .ctrl) (v : Word) (s : State) :
    busyWrite r v s = s := by
  cases r with
  | cmd => exact absurd rfl hcmd
  | ctrl => exact absurd rfl hctrl
  | _ => rfl

theorem hostWrite_busy_ignored {a : Address} (hcmd : a ≠ 0x00C) (hctrl : a ≠ 0x008) {s : State} (hb : s.busy = true)
    (v : Word) : hostWrite a v s = s := by
  cases hr : regAt a with
  | none => exact hostWrite_none hr v s
  | some r =>
    rw [hostWrite_busy hr hb]
    exact busyWrite_ignored (fun h => hcmd (eq_of_regAt_cmd (h ▸ hr))) (fun h => hctrl (eq_of_regAt_ctrl (h ▸ hr)))
      v s

/-- A busy core answers a read with a free value, save those of `ID`, `VERSION` and `STATUS` (log 4). -/
theorem busyRead_free {r : Reg} (hid : r ≠ .id) (hversion : r ≠ .version) (hstatus : r ≠ .status) (s : State) :
    busyRead r s = answerRead (Config.busyRead s.draws) { s with draws := s.draws + 1 } := by
  cases r with
  | id => exact absurd rfl hid
  | version => exact absurd rfl hversion
  | status => exact absurd rfl hstatus
  | _ => rfl

/-- Settles O21: the two registers a busy core heeds, the three it answers, and a free value for the rest. -/
theorem busyAccessIsRestricted : Obligations.BusyAccessIsRestricted := by
  refine fun s a v => ⟨fun hb => ⟨fun hcmd hctrl => hostWrite_busy_ignored hcmd hctrl hb v, hostWrite_cmd_busy hb v,
    hostWrite_ctrl_busy hb v, hostRead_id s, hostRead_version s, ?_, fun r hr hid hversion hstatus => ?_⟩,
    fun hb => hostRead_idleWord hb a⟩
  · refine ⟨busyStatusWord (Config.busyRead s.draws) s, ?_, ?_, fun j h0 h32 h5 => ?_,
      hostRead_busy regAt_status hb⟩
    · rw [busyStatusWord_getLsbD _ s (by decide), if_pos rfl, hb]
    · rw [busyStatusWord_getLsbD _ s (by decide)]; rfl
    · rw [busyStatusWord_getLsbD _ s h32, if_neg (by omega), if_neg h5]
  · rw [hostRead_busy hr hb]
    exact busyRead_free hid hversion hstatus s

/-! ### Reset (R57) -/

/-- Every field of `STATUS` is 0 after a reset. -/
theorem resetCore_statusWord (s : State) : statusWord (resetCore s) = 0 :=
  show statusWord State.reset = 0 by decide

/-- Settles O22: all three states are states of a core just reset, whose fields are those of `State.reset`. -/
theorem resetLeavesEveryFieldAtItsValue : Obligations.ResetLeavesEveryFieldAtItsValue := by
  intro s v hv t ht
  have hreset : ∃ u, t = resetCore u := by
    rw [hostWrite_ctrl_reset hv] at ht
    simp only [List.mem_cons, List.not_mem_nil, or_false] at ht
    obtain rfl | rfl | rfl := ht
    · exact ⟨State.reset, rfl⟩
    · exact ⟨s, rfl⟩
    · exact ⟨s, rfl⟩
  obtain ⟨u, rfl⟩ := hreset
  simp [resetCore_statusWord, State.busy, nodeAt, lutAt, freqAt, State.reset]

end Sys2Proof.Machine
end

section
/-! PROOFS. What a step is, for each kind of event, on an idle and on a busy core (R34, R101, R117, R403, R429; log 1,
log 3). -/

namespace Sys2Proof.Machine

theorem hostRead_task (a : Address) (s : State) : (hostRead a s).task = s.task := by
  obtain ⟨v, n, h⟩ := hostRead_frame a s
  rw [h]

theorem writeCtrl_task {s : State} (h : s.task = .idle) (v : Word) : (writeCtrl v s).task = .idle := by
  unfold writeCtrl
  split
  · rfl
  · split <;> split <;> exact h

/-- Only a write of `CMD` takes an idle core out of idleness. -/
theorem idleWrite_task {r : Reg} (hr : r ≠ .cmd) {s : State} (h : s.task = .idle) (v : Word) :
    (idleWrite r v s).task = .idle := by
  cases r with
  | cmd => exact absurd rfl hr
  | ctrl => exact writeCtrl_task h v
  | freq x =>
    simp only [idleWrite]
    split <;> exact h
  | _ => exact h

theorem hostWrite_task {a : Address} (ha : a ≠ 0x00C) {s : State} (hb : s.busy = false) (v : Word) :
    (hostWrite a v s).task = .idle := by
  cases hr : regAt a with
  | none => rw [hostWrite_none hr]; exact idle_of_busy hb
  | some r =>
    rw [hostWrite_idle hr hb]
    exact idleWrite_task (fun h => ha (eq_of_regAt_cmd (h ▸ hr))) (idle_of_busy hb) v

theorem step_read {s : State} {a : Address} {p : Pace} {rest : List Turn} (h : s.agenda = ⟨.read a, p⟩ :: rest) :
    step s = coreTurn p (hostRead a { s with agenda := rest }) := by
  rw [step_cons h, serve_of_ne_wait (by simp), perform]

theorem step_write {s : State} {a : Address} {v : Word} {p : Pace} {rest : List Turn}
    (h : s.agenda = ⟨.write a v, p⟩ :: rest) : step s = coreTurn p (hostWrite a v { s with agenda := rest }) := by
  rw [step_cons h, serve_of_ne_wait (by simp), perform]

/-- A legal word issued to an idle core runs its command in the same step (R403). -/
theorem step_issue {s : State} {w : Word} {i : Instr} {rest : List Turn} (hb : s.busy = false)
    (ha : s.agenda = ⟨.write 0x00C w, .full⟩ :: rest) (hd : decode w = .legal i) :
    step s = exec i { s with agenda := rest, cmd := w, task := .issued } := by
  rw [step_write ha, hostWrite_cmd_idle (s := { s with agenda := rest }) hb]
  exact coreTurn_legal rfl hd

/-! ### The word of a command (30_encoding.md R150 to R155) -/

theorem opField_commandWord (op : BitVec 8) (sym : Symbol) : opField (commandWord op sym) = op :=
  BitVec.extractLsb'_append_eq_right

theorem symField_commandWord (op : BitVec 8) (sym : Symbol) : symField (commandWord op sym) = sym :=
  extractLsb'_append_mid _ _ _

theorem rsvField_commandWord (op : BitVec 8) (sym : Symbol) : rsvField (commandWord op sym) = 0 :=
  (BitVec.extractLsb'_append_eq_of_le (by decide)).trans BitVec.extractLsb'_append_eq_left

/-- A word with an assigned opcode, `RSV = 0` and no symbol where none is meant is legal. -/
theorem decode_commandWord {op : BitVec 8} {sym : Symbol} {i : Instr} (hrow : opcodeRow op sym = some i)
    (hsym : op = 0x02 ∨ op = 0x0A ∨ sym = 0) : decode (commandWord op sym) = .legal i := by
  simp only [decode, opField_commandWord, symField_commandWord, rsvField_commandWord, hrow]
  rw [if_neg (by simp), if_neg (by tauto)]

/-- The word of a command decodes to it. -/
theorem decode_encode (i : Instr) : decode (encode i) = .legal i := by
  cases i with
  | cnt x => exact decode_commandWord rfl (.inl rfl)
  | senc x => exact decode_commandWord rfl (.inr (.inl rfl))
  | _ => exact decode_commandWord rfl (.inr (.inr rfl))

/-- The next step runs the command whose word has been fetched (log 1). -/
theorem step_withFetchWord (s : State) (i : Instr) :
    step (s.withFetchWord 32 (encode i).toNat) = exec i { s with cmd := encode i, task := .issued } := by
  have hword : BitVec.ofNat 32 ((encode i).toNat % 2 ^ 32) = encode i := by
    rw [Nat.mod_eq_of_lt (encode i).isLt, BitVec.ofNat_toNat, BitVec.setWidth_eq]
  have ha : (s.withFetchWord 32 (encode i).toNat).agenda = ⟨.write 0x00C (encode i), .full⟩ :: s.agenda := by
    rw [State.withFetchWord, hword]
  exact step_issue rfl ha (decode_encode i)

/-! ### Any other event -/

/-- A read of an idle core, and nothing more. -/
theorem step_read_idle {s : State} {a : Address} {p : Pace} {rest : List Turn} (hb : s.busy = false)
    (h : s.agenda = ⟨.read a, p⟩ :: rest) : step s = .next (hostRead a { s with agenda := rest }) := by
  rw [step_read h]
  exact coreTurn_idle p ((hostRead_task a _).trans (idle_of_busy hb))

/-- A write to an idle core of any register but `CMD`, and nothing more. -/
theorem step_write_idle {s : State} {a : Address} {v : Word} {p : Pace} {rest : List Turn} (hb : s.busy = false)
    (ha : a ≠ 0x00C) (h : s.agenda = ⟨.write a v, p⟩ :: rest) :
    step s = .next (hostWrite a v { s with agenda := rest }) := by
  rw [step_write h]
  exact coreTurn_idle p (hostWrite_task ha (s := { s with agenda := rest }) hb v)

theorem step_nil_idle {s : State} (hb : s.busy = false) (h : s.agenda = []) : step s = .next s := by
  rw [step_nil h, coreTurn_idle .full (idle_of_busy hb)]

/-- Settles O7: a step is its event and the core's turn, the turn of an idle core keeps the state, and that of an issued
word is the command's meaning. -/
theorem stepRunsTheDecodedCommand : Obligations.StepRunsTheDecodedCommand := by
  refine ⟨fun s w i rest hb ha hd => step_issue hb ha hd, fun s i ht ha hd => ?_, step_withFetchWord,
    fun s hb ha => step_nil_idle hb ha, fun s p a rest hb ha => step_read_idle hb ha,
    fun s p a v rest hb hcmd ha => step_write_idle hb hcmd ha, fun s p a rest _ ha => step_read ha,
    fun s p a v rest _ ha => step_write ha, fun s _ ha => step_nil ha,
    fun s => ⟨fun n => rfl, fun i ht hd => coreTurn_legal ht hd, coreTurn_running⟩,
    fun s n => ⟨rfl, fun h => runCore_stuck h n, fun t h => runCore_succ h n⟩⟩
  rw [step_nil ha, coreTurn_legal ht hd]

end Sys2Proof.Machine
end

section
/-! PROOFS. Writes that only store, and accesses that do nothing (10_state.md R32, R41; 20_memory.md R102, R114;
60_exceptions.md R421). -/

namespace Sys2Proof.Machine

/-! ### Repeated writes (R114) -/

/-- A second equal write of a table entry changes nothing, the table being canonical (log 7). -/
theorem Table.write_write_same {α : Type} [DecidableEq α] {d : α} {bound : Nat} {t : Table α} {i : Nat}
    (h : Table.wf d bound t = true) (hi : i < bound) (v : α) :
    Table.write d (Table.write d t i v) i v = Table.write d t i v := by
  have hwrite := Table.write_wf (v := v) h hi
  refine Table.eq_of_read_eq (Table.write_wf hwrite hi) hwrite fun j => ?_
  rw [Table.read_write hwrite, Table.read_write h]
  split <;> rfl

theorem writeFreq_writeFreq_same {s : State} (h : Memory.wf s = true) (x : Symbol) (v : Word) :
    writeFreq x v (writeFreq x v s) = writeFreq x v s :=
  congrArg (fun f => { s with freq := f }) (Table.write_write_same (Memory.wf_iff.1 h).1 x.isLt v)

theorem writeAllow_writeAllow_same (k : Fin 8) (v : Word) (s : State) :
    writeAllow k v (writeAllow k v s) = writeAllow k v s := by
  have hbits : (writeAllow k v (writeAllow k v s)).allow = (writeAllow k v s).allow := by
    apply BitVec.eq_of_getLsbD_eq
    intro i hi
    rw [writeAllow_getLsbD k v _ hi, writeAllow_getLsbD k v s hi]
    split <;> rfl
  exact congrArg (fun a => { s with allow := a }) hbits

/-- The writes with an effect beyond storing a value are those of `CMD` and `CTRL`; any other can be repeated. -/
theorem idleWrite_idleWrite_same {r : Reg} (hcmd : r ≠ .cmd) (hctrl : r ≠ .ctrl) {s : State}
    (h : Memory.wf s = true) (v : Word) : idleWrite r v (idleWrite r v s) = idleWrite r v s := by
  cases r with
  | cmd => exact absurd rfl hcmd
  | ctrl => exact absurd rfl hctrl
  | allow k => exact writeAllow_writeAllow_same k v s
  | freq x =>
    cases hx : allowed x s with
    | false => simp only [idleWrite, hx, Bool.false_eq_true, if_false]
    | true =>
      have hx' : allowed x (writeFreq x v s) = true := hx
      simp only [idleWrite, hx, hx', if_true, writeFreq_writeFreq_same h]
  | _ => rfl

/-- An idle core stays idle under a write that issues no command, so a second one finds it idle too. -/
theorem hostWrite_hostWrite_same {a : Address} (hcmd : a ≠ 0x00C) (hctrl : a ≠ 0x008) {s : State}
    (hb : s.busy = false) (h : Memory.wf s = true) (v : Word) :
    hostWrite a v (hostWrite a v s) = hostWrite a v s := by
  cases hr : regAt a with
  | none => rw [hostWrite_none hr]
  | some r =>
    have hb' : (hostWrite a v s).busy = false := by rw [State.busy, hostWrite_task hcmd hb]
    rw [hostWrite_idle hr hb', hostWrite_idle hr hb]
    exact idleWrite_idleWrite_same (fun he => hcmd (eq_of_regAt_cmd (he ▸ hr)))
      (fun he => hctrl (eq_of_regAt_ctrl (he ▸ hr))) h v

/-- Settles O17: none of the addresses is that of `CMD` or `CTRL`. -/
theorem storingWritesAreIdempotent : Obligations.StoringWritesAreIdempotent := by
  refine fun s v hb hwf => ⟨hostWrite_idle regAt_msglen hb v, fun a ha => ?_⟩
  refine hostWrite_hostWrite_same ?_ ?_ hb hwf v <;> rintro rfl <;> exact absurd ha (by decide)

/-! ### Accesses that do nothing (R102, R421) -/

/-- The registers the host cannot write (R32). -/
def Reg.isReadOnly : Reg → Bool
  | .ctrl | .cmd | .msglen | .nodeSel | .lutSel | .allow _ | .freq _ => false
  | _ => true

/-- Idle and busy, a write of a read-only register is ignored. -/
theorem hostWrite_readOnly {a : Address} {r : Reg} (hr : regAt a = some r) (h : r.isReadOnly = true) (v : Word)
    (s : State) : hostWrite a v s = s := by
  cases r with
  | ctrl | cmd | msglen | nodeSel | lutSel | allow | freq => cases h
  | _ => exact hostWrite_ignored hr rfl rfl

/-- The offsets of the single read-only registers (R32). -/
theorem regAt_readOnly : ∀ a ∈ [(0x000 : Address), 0x004, 0x010, 0x018, 0x01C, 0x020, 0x024, 0x028, 0x02C, 0x030,
    0x038, 0x03C, 0x040, 0x048], (regAt a).any Reg.isReadOnly = true := by decide

/-- Settles O20: no register stands at the first addresses, a read-only one at the others. -/
theorem noAccessFaults : Obligations.NoAccessFaults := by
  refine fun s a v => ⟨fun ha => ?_, fun ha => ?_⟩
  · have hr := regAt_none a ha
    exact ⟨hostWrite_none hr v s, hostRead_none hr s⟩
  · obtain ha | ⟨halign, hlo, hhi⟩ := ha
    · obtain ⟨r, hr, hro⟩ := (Option.any_eq_true _ _).1 (regAt_readOnly a ha)
      exact hostWrite_readOnly hr hro v s
    · obtain ⟨k, hr⟩ := (regAt_window halign).1 hlo hhi
      exact hostWrite_readOnly hr rfl v s

end Sys2Proof.Machine
end

section
/-! PROOFS. What a step of the core does at the four ports: nothing, or the one transfer its outputs offer
(00_scope.md R12; 20_memory.md R105 to R112). -/

namespace Sys2Proof.Machine

/-- The fields only a port primitive changes while the core runs: the environments and the bit counters. -/
def portState (s : State) :=
  (s.sink, s.sinkReady, s.bitcntOut, s.srcBits, s.srcEnded, s.srcTaken, s.bitcntIn, s.symIn, s.symOut, s.symOutReady)

/-- A step from `s` to `t` with these outputs, as the ports see it: the outputs offer nothing and the ports keep their
state, or they offer one transfer and the ports are as its primitive leaves them. -/
inductive PortStep (s : State) : PortOutputs → State → Prop
  | internal {t} (ht : portState t = portState s) : PortStep s .inactive t
  | sent {b u t} (hu : putBit b s = some u) (ht : portState t = portState u) :
    PortStep s { PortOutputs.inactive with snk := some (.bit b) } t
  | closed {u t} (hu : sinkClose s = some u) (ht : portState t = portState u) :
    PortStep s { PortOutputs.inactive with snk := some .close } t
  | answered {r u t} (hu : getBit s = some (r, u)) (ht : portState t = portState u) :
    PortStep s { PortOutputs.inactive with srcReq := true } t
  | received {x u t} (hu : takeSymbol s = some (x, u)) (ht : portState t = portState u) :
    PortStep s { PortOutputs.inactive with sinReady := true } t
  | delivered {x u t} (hu : sendSymbol x s = some u) (ht : portState t = portState u) :
    PortStep s { PortOutputs.inactive with sout := some x } t

/-! ### The first step of a command -/

/-- No command touches a port before its first loop. -/
theorem begin_portState (i : Instr) (s : State) : portState (begin i s) = portState s := by
  cases i with
  | build => rw [begin, beginBuild_eq]; rfl
  | cnt x => simp only [begin, beginCnt]; split <;> [rfl; (split <;> rfl)]
  | genlut => simp only [begin, beginGenlut]; split <;> rfl
  | tenc => simp only [begin, beginTenc]; split <;> rfl
  | senc x => simp only [begin, beginSenc]; split <;> [rfl; (split <;> rfl)]
  | sdec => simp only [begin, beginSdec]; split <;> rfl
  | menc => simp only [begin, beginMenc]; split <;> [rfl; (split <;> rfl)]
  | mdec => simp only [begin, beginMdec]; split <;> [rfl; (split <;> rfl); (split <;> rfl)]
  | nop | clrfreq | clrtrie | tdec | lenc | ldec | close => rfl

theorem issue_portState (s : State) : portState (issue s) = portState s := by
  unfold issue
  split
  · exact begin_portState _ s
  · rfl

/-! ### Steps inside the core -/

theorem buildStep_portState (n seq leaves : Nat) (pq : List PqEntry) (s : State) :
    portState (buildStep n seq leaves pq s) = portState s := by
  unfold buildStep
  split
  · rfl
  · split <;> rfl

theorem genlutStep_portState (stack : List (NodeIndex × List Bool)) (s : State) :
    portState (genlutStep stack s) = portState s := by
  unfold genlutStep
  split
  · rfl
  · simp only
    split <;> rfl

theorem mdecNextStep_portState (k : Nat) (s : State) : portState (mdecNextStep k s) = portState s := by
  unfold mdecNextStep
  split <;> rfl

/-! ### Steps that send bits (R105) -/

/-- A bit is sent, and then only the core's own fields are updated. -/
theorem PortStep.of_putBit {f : State → State} {b : Bool} {out : List Bool} {s t : State}
    (h : (putBit b s).map f = some t) (hf : ∀ u, portState (f u) = portState u) :
    PortStep s (offerBit (b :: out)) t := by
  obtain ⟨u, hu, rfl⟩ := Option.map_eq_some_iff.1 h
  exact .sent hu (hf u)

theorem tencStep_portStep {out : List Bool} {stack : List NodeIndex} {s t : State}
    (h : tencStep out stack s = some t) : PortStep s (offerBit out) t := by
  cases out with
  | cons b out => exact .of_putBit h fun _ => rfl
  | nil =>
    cases stack with
    | nil => obtain rfl := Option.some.inj h; exact .internal rfl
    | cons i rest =>
      simp only [tencStep] at h
      split at h <;> cases h <;> exact .internal rfl

theorem lencStep_portStep {out : List Bool} {s t : State} (h : lencStep out s = some t) :
    PortStep s (offerBit out) t := by
  cases out with
  | cons b out => exact .of_putBit h fun _ => rfl
  | nil => obtain rfl := Option.some.inj h; exact .internal rfl

theorem sencStep_portStep {out : List Bool} {s t : State} (h : sencStep out s = some t) :
    PortStep s (offerBit out) t := by
  cases out with
  | cons b out => exact .of_putBit h fun _ => rfl
  | nil => obtain rfl := Option.some.inj h; exact .internal rfl

theorem mencOutStep_portStep {k : Nat} {out : List Bool} {s t : State} (h : mencOutStep k out s = some t) :
    PortStep s (offerBit out) t := by
  cases out with
  | cons b out => exact .of_putBit h fun _ => rfl
  | nil => obtain rfl := Option.some.inj h; exact .internal rfl

/-! ### Steps that ask the source (R108, R109) -/

theorem linkSlot_portState (slot : Slot) (i : NodeIndex) (s : State) :
    portState (linkSlot slot i s) = portState s := by
  cases slot <;> rfl

theorem tdecTagStep_portStep {pending : List Slot} {n leaves : Nat} {s t : State}
    (h : tdecTagStep pending n leaves s = some t) :
    PortStep s { PortOutputs.inactive with srcReq := !pending.isEmpty } t := by
  cases pending with
  | nil => obtain rfl := Option.some.inj h; exact .internal rfl
  | cons slot rest =>
    simp only [tdecTagStep] at h
    split at h
    next => cases h
    next u hu => cases h; exact .answered hu rfl
    next b u hu =>
      split at h
      · cases h; exact .answered hu rfl
      · split at h <;> cases h <;> exact .answered hu (linkSlot_portState slot _ u)

theorem tdecSymStep_portStep {pending : List Slot} {n leaves : Nat} {i : NodeIndex} {got : List Bool} {s t : State}
    (h : tdecSymStep pending n leaves i got s = some t) :
    PortStep s { PortOutputs.inactive with srcReq := true } t := by
  simp only [tdecSymStep] at h
  split at h
  next => cases h
  next u hu => cases h; exact .answered hu rfl
  next b u hu => split at h <;> cases h <;> exact .answered hu rfl

theorem ldecEnd_portState (v : Word) (s : State) : portState (ldecEnd v s) = portState s := by
  unfold ldecEnd
  split <;> rfl

theorem ldecStep_portStep {got : List Bool} {s t : State} (h : ldecStep got s = some t) :
    PortStep s { PortOutputs.inactive with srcReq := true } t := by
  simp only [ldecStep] at h
  split at h
  next => cases h
  next u hu => cases h; exact .answered hu rfl
  next b u hu =>
    split at h <;> cases h
    · exact .answered hu rfl
    · exact .answered hu (ldecEnd_portState _ u)

/-- A step of a walk asks the source, and then only the core's own fields are updated. -/
theorem PortStep.of_walkStep {i : NodeIndex} {r : Option NodeIndex} {s u t : State} (h : walkStep i s = some (r, u))
    (ht : portState t = portState u) : PortStep s { PortOutputs.inactive with srcReq := true } t := by
  unfold walkStep at h
  split at h
  next => cases h
  next u' hu => cases h; exact .answered hu ht
  next b u' hu => cases h; exact .answered hu ht

theorem sdecStep_portStep {i : NodeIndex} {s t : State} (h : sdecStep i s = some t) :
    PortStep s { PortOutputs.inactive with srcReq := !(nodeAt i s).leaf } t := by
  unfold sdecStep at h
  cases hleaf : (nodeAt i s).leaf <;> simp only [hleaf, Bool.false_eq_true, if_true, if_false] at h
  case true => cases h; exact .internal rfl
  case false =>
    split at h
    next => cases h
    next u hu => cases h; exact .of_walkStep hu rfl
    next j u hu => cases h; exact .of_walkStep hu rfl

theorem mdecWalkStep_portStep {k : Nat} {i : NodeIndex} {s t : State} (h : mdecWalkStep k i s = some t) :
    PortStep s { PortOutputs.inactive with srcReq := !(nodeAt i s).leaf } t := by
  unfold mdecWalkStep at h
  cases hleaf : (nodeAt i s).leaf <;> simp only [hleaf, Bool.false_eq_true, if_true, if_false] at h
  case true => cases h; exact .internal rfl
  case false =>
    split at h
    next => cases h
    next u hu => cases h; exact .of_walkStep hu rfl
    next j u hu => cases h; exact .of_walkStep hu rfl

/-! ### Steps at the symbol ports and the Close event (R111, R112, R107) -/

theorem mencSymStep_portStep {k : Nat} {s t : State} (h : mencSymStep k s = some t) :
    PortStep s { PortOutputs.inactive with sinReady := decide (k < s.msglen.toNat) } t := by
  unfold mencSymStep at h
  split at h
  case isTrue hk =>
    rw [decide_eq_true hk]
    split at h
    next => cases h
    next x u hu => split at h <;> cases h <;> exact .received hu rfl
  case isFalse hk => cases h; rw [decide_eq_false hk]; exact .internal rfl

theorem mdecOutStep_portStep {k : Nat} {x : Symbol} {s t : State} (h : mdecOutStep k x s = some t) :
    PortStep s { PortOutputs.inactive with sout := some x } t := by
  obtain ⟨u, hu, rfl⟩ := Option.map_eq_some_iff.1 h
  exact .delivered hu rfl

theorem closeStep_portStep {s t : State} (h : closeStep s = some t) :
    PortStep s { PortOutputs.inactive with snk := some .close } t := by
  obtain ⟨u, hu, rfl⟩ := Option.map_eq_some_iff.1 h
  exact .closed hu rfl

/-- Every step of the core does at the ports what its outputs offer. -/
theorem coreStep_portStep {s t : State} (h : coreStep s = some t) : PortStep s (portOutputs s) t := by
  unfold coreStep at h
  unfold portOutputs
  cases htask : s.task <;> rw [htask] at h
  case idle => cases h
  case issued => cases h; exact .internal (issue_portState s)
  case build => cases h; exact .internal (buildStep_portState _ _ _ _ s)
  case genlut => cases h; exact .internal (genlutStep_portState _ s)
  case tenc => exact tencStep_portStep h
  case tdecTag => exact tdecTagStep_portStep h
  case tdecSym => exact tdecSymStep_portStep h
  case lenc => exact lencStep_portStep h
  case ldec => exact ldecStep_portStep h
  case senc => exact sencStep_portStep h
  case sdec => exact sdecStep_portStep h
  case mencSym => exact mencSymStep_portStep h
  case mencOut => exact mencOutStep_portStep h
  case mdecNext => cases h; exact .internal (mdecNextStep_portState _ s)
  case mdecWalk => exact mdecWalkStep_portStep h
  case mdecOut => exact mdecOutStep_portStep h
  case close => exact closeStep_portStep h

/-! ### What each port sees of a step -/

/-- What has gone through the ports and what is still to come. -/
theorem streams_of_portState {t u : State} (h : portState t = portState u) :
    t.sink = u.sink ∧ t.srcBits = u.srcBits ∧ t.symIn = u.symIn ∧ t.symOut = u.symOut := by
  simp only [portState, Prod.mk.injEq] at h
  obtain ⟨hsink, -, -, hsrc, -, -, -, hin, hout, -⟩ := h
  exact ⟨hsink, hsrc, hin, hout⟩

/-- A step makes the transfers its outputs offer and no other. -/
theorem PortStep.transfers {s t : State} {o : PortOutputs} (h : PortStep s o t) :
    t.sink = s.sink ++ o.snk.toList ∧ t.symOut = s.symOut ++ o.sout.toList
    ∧ (o.srcReq = false → t.srcBits = s.srcBits)
    ∧ (o.srcReq = true →
        (∃ b, s.srcBits = b :: t.srcBits) ∨ (s.srcBits = [] ∧ s.srcEnded = true ∧ t.srcBits = []))
    ∧ (o.sinReady = false → t.symIn = s.symIn)
    ∧ (o.sinReady = true → ∃ x, s.symIn = x :: t.symIn) := by
  cases h with
  | internal ht =>
    obtain ⟨hsink, hsrc, hin, hout⟩ := streams_of_portState ht
    simp [PortOutputs.inactive, hsink, hsrc, hin, hout]
  | sent hu ht =>
    obtain ⟨hsink, hsrc, hin, hout⟩ := streams_of_portState ht
    obtain ⟨r, -, rfl⟩ := putBit_cases hu
    simp [PortOutputs.inactive, hsink, hsrc, hin, hout]
  | closed hu ht =>
    obtain ⟨hsink, hsrc, hin, hout⟩ := streams_of_portState ht
    obtain ⟨r, -, rfl⟩ := sinkClose_cases hu
    simp [PortOutputs.inactive, hsink, hsrc, hin, hout]
  | answered hu ht =>
    obtain ⟨hsink, hsrc, hin, hout⟩ := streams_of_portState ht
    obtain ⟨-, rfl, hbits, hended⟩ | ⟨b, rest, -, hbits, rfl⟩ := getBit_cases hu
    · simp [PortOutputs.inactive, hsink, hsrc, hin, hout, hbits, hended]
    · simp [PortOutputs.inactive, tookBits, hsink, hsrc, hin, hout, hbits]
  | received hu ht =>
    obtain ⟨hsink, hsrc, hin, hout⟩ := streams_of_portState ht
    obtain ⟨rest, hsyms, rfl⟩ := takeSymbol_cases hu
    simp [PortOutputs.inactive, hsink, hsrc, hin, hout, hsyms]
  | delivered hu ht =>
    obtain ⟨hsink, hsrc, hin, hout⟩ := streams_of_portState ht
    obtain ⟨r, -, rfl⟩ := sendSymbol_cases hu
    simp [PortOutputs.inactive, hsink, hsrc, hin, hout]

theorem ne_count_zero_of_take {r r' : Ready} (h : r.take = some r') : r ≠ .count 0 := by
  rintro rfl
  cases h

/-- A step that offers an event on the sink finds the sink ready. -/
theorem PortStep.sink_accepts {s t : State} {o : PortOutputs} (h : PortStep s o t) (ho : o.snk ≠ none) :
    s.sinkReady ≠ .count 0 := by
  cases h with
  | sent hu => obtain ⟨r, hr, -⟩ := putBit_cases hu; exact ne_count_zero_of_take hr
  | closed hu => obtain ⟨r, hr, -⟩ := sinkClose_cases hu; exact ne_count_zero_of_take hr
  | internal | answered | received | delivered => exact absurd rfl ho

/-- A step that offers a symbol finds symbol-out ready. -/
theorem PortStep.symOut_accepts {s t : State} {o : PortOutputs} (h : PortStep s o t) (ho : o.sout ≠ none) :
    s.symOutReady ≠ .count 0 := by
  cases h with
  | delivered hu => obtain ⟨r, hr, -⟩ := sendSymbol_cases hu; exact ne_count_zero_of_take hr
  | internal | sent | closed | answered | received => exact absurd rfl ho

/-- While a port's other side does not answer what the outputs offer, the core makes no step. -/
theorem coreStep_none_of_waits {s : State}
    (h : ((portOutputs s).snk ≠ none ∧ s.sinkReady = .count 0)
      ∨ ((portOutputs s).sout ≠ none ∧ s.symOutReady = .count 0)
      ∨ ((portOutputs s).srcReq = true ∧ s.srcBits = [] ∧ s.srcEnded = false)
      ∨ ((portOutputs s).sinReady = true ∧ s.symIn = [])) :
    coreStep s = none := by
  refine Option.eq_none_iff_forall_ne_some.2 fun t ht => ?_
  have hstep := coreStep_portStep ht
  obtain ⟨-, -, -, hsrc, -, hsin⟩ := hstep.transfers
  obtain ⟨ho, hr⟩ | ⟨ho, hr⟩ | ⟨ho, hbits, hopen⟩ | ⟨ho, hsyms⟩ := h
  · exact hstep.sink_accepts ho hr
  · exact hstep.symOut_accepts ho hr
  · obtain ⟨b, hb⟩ | ⟨-, hended, -⟩ := hsrc ho
    · cases hbits.symm.trans hb
    · cases hopen.symm.trans hended
  · obtain ⟨x, hx⟩ := hsin ho
    cases hsyms.symm.trans hx

/-! ### The environment's events -/

/-- A bit comes while the stream is open (R108). -/
theorem sourceBeat_bit {s : State} (h : s.srcEnded = false) (bit : Bool) :
    sourceBeat true bit false s = { s with srcBits := s.srcBits ++ [bit] } := by
  simp [sourceBeat, h]

/-- After END a beat gives nothing, be it a bit or another END (R109, log 6). -/
theorem sourceBeat_ended {s : State} (h : s.srcEnded = true) (valid bit ended : Bool) :
    sourceBeat valid bit ended s = s := by
  cases ended with
  | true => rw [sourceBeat, if_pos rfl, ← h]
  | false => simp [sourceBeat, h]

/-- Settles O53: each step of the core is a step at one port at most; the other side of that port must answer. -/
theorem transfersFollowThePortOutputs : Obligations.TransfersFollowThePortOutputs :=
  ⟨fun _ _ h => (coreStep_portStep h).transfers, fun _ h => coreStep_none_of_waits h, fun _ valid bit =>
    ⟨rfl, rfl, fun h => sourceBeat_bit h bit, fun h => sourceBeat_ended h valid bit, rfl, fun _ => rfl, fun _ => rfl,
      fun _ => ⟨rfl, rfl⟩⟩⟩

end Sys2Proof.Machine
end

section
/-! PROOFS. The decoder by its cases, the encoder as its inverse, and what an issued word does at once (30_encoding.md
R150 to R157, R182). -/

namespace Sys2Proof.Machine

/-! ### The rows of the opcode map (R154) -/

/-- No row stands at a reserved opcode. -/
theorem opcodeRow_reserved {op : BitVec 8} (h : 0x0F ≤ op.toNat) (sym : Symbol) : opcodeRow op sym = none := by
  unfold opcodeRow
  split
  case h_16 => rfl
  all_goals omega

/-- A row stands at every other opcode. -/
theorem exists_opcodeRow {op : BitVec 8} (h : op.toNat < 0x0F) (sym : Symbol) : ∃ i, opcodeRow op sym = some i := by
  unfold opcodeRow
  generalize op.toNat = n at h
  interval_cases n <;> exact ⟨_, rfl⟩

theorem opcode_lt_of_opcodeRow {op : BitVec 8} {sym : Symbol} {i : Instr} (h : opcodeRow op sym = some i) :
    op.toNat < 0x0F := by
  refine Nat.lt_of_not_le fun hop => ?_
  rw [opcodeRow_reserved hop] at h
  cases h

/-- With no symbol, every row's command has the word of the row's opcode. -/
theorem commandWord_zero_eq_encode {op : BitVec 8} {i : Instr} (h : opcodeRow op 0 = some i) :
    commandWord op 0 = encode i := by
  unfold opcodeRow at h
  split at h
  case h_16 => cases h
  all_goals
    next hop =>
      cases h
      exact congrArg (commandWord · 0) (BitVec.eq_of_toNat_eq hop)

/-- A row's command has the word of the row's opcode and, in the rows of CNT and SENC, of its symbol. -/
theorem commandWord_eq_encode {op : BitVec 8} {sym : Symbol} {i : Instr} (hrow : opcodeRow op sym = some i)
    (hsym : op = 0x02 ∨ op = 0x0A ∨ sym = 0) : commandWord op sym = encode i := by
  obtain rfl | rfl | rfl := hsym
  · cases hrow; rfl
  · cases hrow; rfl
  · exact commandWord_zero_eq_encode hrow

/-! ### The fields of a word (R150 to R153) -/

/-- A word is its three fields. -/
theorem append_fields (w : Word) : rsvField w ++ symField w ++ opField w = w := by
  unfold rsvField symField opField
  rw [BitVec.extractLsb'_append_extractLsb'_eq_extractLsb' (by rfl),
    BitVec.extractLsb'_append_extractLsb'_eq_extractLsb' (by rfl), BitVec.extractLsb'_eq_self]

/-- A word whose reserved bits are 0 is the command word of its other two fields. -/
theorem commandWord_fields {w : Word} (h : rsvField w = 0) : commandWord (opField w) (symField w) = w := by
  rw [commandWord, ← h, append_fields]

theorem opField_toNat (w : Word) : (opField w).toNat = w.toNat % 256 := by simp [opField]

theorem symField_toNat (w : Word) : (symField w).toNat = w.toNat / 256 % 256 := by
  simp [symField, Nat.shiftRight_eq_div_pow]

theorem rsvField_toNat (w : Word) : (rsvField w).toNat = w.toNat / 65536 := by
  have hw := w.isLt
  rw [rsvField, BitVec.extractLsb'_toNat, Nat.shiftRight_eq_div_pow]
  exact Nat.mod_eq_of_lt (by omega)

/-- Every field that must be 0 is 0: the reserved bits, and the symbol unless the opcode is CNT's or SENC's (R153). -/
def ReservedFieldsClear (w : Word) : Prop :=
  rsvField w = 0 ∧ (opField w = 0x02 ∨ opField w = 0x0A ∨ symField w = 0)

theorem not_reservedFieldsClear_iff {w : Word} : ¬ ReservedFieldsClear w ↔
    rsvField w ≠ 0 ∨ symField w ≠ 0 ∧ opField w ≠ 0x02 ∧ opField w ≠ 0x0A := by
  unfold ReservedFieldsClear
  tauto

/-- The well-formedness check reads the same fields off the word's value. -/
theorem commandWord_wf_iff {w : Word} :
    CommandWord.wf w = true ↔ (opField w).toNat < 0x0F ∧ ReservedFieldsClear w := by
  simp only [CommandWord.wf, CommandWord.opAssigned, CommandWord.reservedClear, CommandWord.symbolClear,
    ReservedFieldsClear, ← BitVec.toNat_inj, opField_toNat, symField_toNat, rsvField_toNat, Bool.and_eq_true,
    Bool.or_eq_true, decide_eq_true_eq, beq_iff_eq, and_assoc, or_assoc]
  exact and_congr_left' Nat.lt_succ_iff.symm

/-! ### The decoder by its cases (R155) -/

/-- The opcode check comes first. -/
theorem decode_badOpcode {w : Word} (h : 0x0F ≤ (opField w).toNat) : decode w = .illegal .badOpcode := by
  rw [decode, opcodeRow_reserved h]

/-- The reserved bits and the symbol field come next. -/
theorem decode_reservedBits {w : Word} (hop : (opField w).toNat < 0x0F)
    (h : rsvField w ≠ 0 ∨ symField w ≠ 0 ∧ opField w ≠ 0x02 ∧ opField w ≠ 0x0A) :
    decode w = .illegal .reservedBits := by
  obtain ⟨i, hrow⟩ := exists_opcodeRow hop (symField w)
  simp only [decode, hrow]
  split
  · rfl
  next hrsv =>
    obtain ⟨hsym, hcnt, hsenc⟩ := h.resolve_left hrsv
    exact if_pos ⟨hcnt, hsenc, hsym⟩

/-- A word that passes the checks decodes to its opcode's row. -/
theorem decode_row {w : Word} {i : Instr} (hrow : opcodeRow (opField w) (symField w) = some i)
    (h : ReservedFieldsClear w) : decode w = .legal i := by
  have hword := decode_commandWord hrow h.2
  rwa [commandWord_fields h.1] at hword

/-- A word decodes to a command exactly if it passes the checks and the command stands in its opcode's row. -/
theorem decode_legal_iff {w : Word} {i : Instr} :
    decode w = .legal i ↔ opcodeRow (opField w) (symField w) = some i ∧ ReservedFieldsClear w := by
  refine ⟨fun h => ?_, fun ⟨hrow, hclear⟩ => decode_row hrow hclear⟩
  obtain hop | hop := Nat.lt_or_ge (opField w).toNat 0x0F
  · by_cases hclear : ReservedFieldsClear w
    · obtain ⟨j, hrow⟩ := exists_opcodeRow hop (symField w)
      rw [decode_row hrow hclear] at h
      cases h
      exact ⟨hrow, hclear⟩
    · rw [decode_reservedBits hop (not_reservedFieldsClear_iff.1 hclear)] at h
      cases h
  · rw [decode_badOpcode hop] at h
    cases h

/-- The legal words are those with an assigned opcode that pass the checks. -/
theorem exists_decode_legal_iff {w : Word} :
    (∃ i, decode w = .legal i) ↔ (opField w).toNat < 0x0F ∧ ReservedFieldsClear w := by
  simp only [decode_legal_iff]
  constructor
  · rintro ⟨i, hrow, hclear⟩
    exact ⟨opcode_lt_of_opcodeRow hrow, hclear⟩
  · rintro ⟨hop, hclear⟩
    obtain ⟨i, hrow⟩ := exists_opcodeRow hop (symField w)
    exact ⟨i, hrow, hclear⟩

/-- Settles O4: a legal word is the command word of its opcode and symbol, which is its row's word; the other way is
`decode_encode`. -/
theorem decodeAndEncodeAgree : Obligations.DecodeAndEncodeAgree := by
  refine fun i w => ⟨fun h => ?_, fun h => h ▸ decode_encode i⟩
  obtain ⟨hrow, hrsv, hsym⟩ := decode_legal_iff.1 h
  rw [← commandWord_fields hrsv]
  exact commandWord_eq_encode hrow hsym

/-- Settles O5: the legal words and the well-formed words are both those that pass the checks. -/
theorem legalWordsAreTheWellFormedOnes : Obligations.LegalWordsAreTheWellFormedOnes := fun _ =>
  ⟨exists_decode_legal_iff.trans (and_congr Nat.lt_succ_iff (and_congr_right' or_rotate.symm)),
    commandWord_wf_iff.trans exists_decode_legal_iff.symm⟩

/-- Settles O1: the words by computation, the decoder by `decode_encode` and its first check. -/
theorem opcodeMapGivesEveryWord : Obligations.OpcodeMapGivesEveryWord :=
  ⟨rfl, rfl, fun _ => rfl, rfl, rfl, rfl, rfl, rfl, rfl, rfl, fun _ => rfl, rfl, rfl, rfl, rfl, decode_encode,
    fun _ h => decode_badOpcode h⟩

/-- Settles O2: the five legal words are words of the map; each of the others fails one check. -/
theorem writtenOutWordsDecode : Obligations.WrittenOutWordsDecode :=
  ⟨decode_encode (.cnt 0x61), decode_encode (.senc 0x72), decode_encode .build, decode_encode .nop,
    decode_encode .close, decode_badOpcode (by decide),
    decode_reservedBits (by decide) (.inl (by decide)), decode_reservedBits (by decide) (.inr (by decide))⟩

/-! ### An issued word (R155, R156) -/

theorem issue_legal {s : State} {i : Instr} (h : decode s.cmd = .legal i) : issue s = begin i s := by
  simp only [issue, h]

theorem issue_illegal {s : State} {r : Reject} (h : decode s.cmd = .illegal r) :
    issue s = finish .illegalCommand (rejectCause r) s := by
  simp only [issue, h, finishIllegal]

/-- Settles O3: each case of the procedure is a case of the decoder. -/
theorem decodeProcedureRunsInOrder : Obligations.DecodeProcedureRunsInOrder := by
  refine fun s => ⟨fun hop => issue_illegal (decode_badOpcode hop),
    fun hop hrsv => issue_illegal (decode_reservedBits (Nat.lt_succ_of_le hop) (.inl hrsv)),
    fun hop _ hcnt hsenc hsym =>
      issue_illegal (decode_reservedBits (Nat.lt_succ_of_le hop) (.inr ⟨hsym, hcnt, hsenc⟩)),
    fun hop hrsv hsym => ?_⟩
  obtain ⟨i, hrow⟩ := exists_opcodeRow (Nat.lt_succ_of_le hop) (symField s.cmd)
  exact ⟨i, hrow, issue_legal (decode_row hrow ⟨hrsv, hsym⟩)⟩

/-- An illegal word issued to an idle core completes in the same step, and the core is idle again (R156). -/
theorem step_issue_illegal {s : State} {w : Word} {r : Reject} {rest : List Turn} (hb : s.busy = false)
    (ha : s.agenda = ⟨.write 0x00C w, .full⟩ :: rest) (hd : decode w = .illegal r) :
    step s = .next { s with agenda := rest, cmd := w, result := .illegalCommand, subcause := rejectCause r,
                            err := true } := by
  rw [step_write ha, hostWrite_cmd_idle (s := { s with agenda := rest }) hb, coreTurn_illegal rfl hd, finishIllegal,
    finish, ← idle_of_busy hb]
  rfl

/-- Settles O6: both kinds of illegal word complete in the step that issues them. -/
theorem illegalWordCompletesAtOnce : Obligations.IllegalWordCompletesAtOnce := fun _ _ _ hb ha =>
  ⟨fun hop => step_issue_illegal hb ha (decode_badOpcode hop),
    fun hop h => step_issue_illegal hb ha (decode_reservedBits hop h)⟩

/-! ### WAIT (R182) -/

/-- A WAIT that finds the core busy reads `STATUS` and polls again. -/
theorem serve_wait_busy {s : State} (p : Pace) (h : s.busy = true) :
    serve ⟨.wait, p⟩ s = { s with reads := s.reads ++ [busyStatusWord (Config.busyRead s.draws) s]
                                  draws := s.draws + 1, agenda := ⟨.wait, p⟩ :: s.agenda } := by
  rw [serve, if_pos ⟨rfl, h⟩, perform, hostRead_busy regAt_status h]
  rfl

/-- Settles O10: idle, the word read is the `STATUS` word; busy, its bit 0 is BUSY. -/
theorem waitPollsUntilIdle : Obligations.WaitPollsUntilIdle := by
  refine fun s p => ⟨fun hb => serve_wait p hb, fun hb => ⟨_, ?_, serve_wait_busy p hb⟩⟩
  rw [busyStatusWord_getLsbD _ s (by decide), if_pos rfl, hb]

end Sys2Proof.Machine
end

section
/-! PROOFS. The frequency table: what CLRFREQ and CNT do to the counts, one command and a whole sequence
(40_frequency.md). -/

namespace Sys2Proof.Machine

/-! ### CLRFREQ and CNT (R201, R202) -/

theorem exec_clrfreq (s : State) : exec .clrfreq s = .next (finish .ok .none { s with freq := [] }) :=
  complete_finish _ _ _

/-- Settles O26: the empty table reads 0 everywhere. -/
theorem clrfreqZeroesEveryCount : Obligations.ClrfreqZeroesEveryCount :=
  ⟨rfl, fun s => ⟨[], exec_clrfreq s, Table.read_nil 0⟩⟩

theorem exec_cnt_of_not_allowed {x : Symbol} {s : State} (h : allowed x s = false) :
    exec (.cnt x) s = .next (finish .ok .none s) := by
  rw [exec, execCnt, beginCnt, if_pos h, complete_finish]

theorem exec_cnt_of_saturated {x : Symbol} {s : State} (h : allowed x s = true) (hfull : freqAt x s = 0xFFFFFFFF) :
    exec (.cnt x) s = .next (finish .inputError .freqSaturated s) := by
  rw [exec, execCnt, beginCnt, if_neg (by simp [h]), if_pos hfull, complete_finish]

theorem exec_cnt_of_allowed {x : Symbol} {s : State} (h : allowed x s = true) (hfull : freqAt x s ≠ 0xFFFFFFFF) :
    exec (.cnt x) s = .next (finish .ok .none (writeFreq x (freqAt x s + 1) s)) := by
  rw [exec, execCnt, beginCnt, if_neg (by simp [h]), if_neg hfull, complete_finish]

/-- A count below the greatest one, plus one, is not the reset entry, so the write lists it in any table. -/
theorem add_one_ne_zero_of_ne_max {v : Word} (h : v ≠ 0xFFFFFFFF) : v + 1 ≠ 0 := by bv_omega

/-- The table after a CNT that finds room: one entry is one greater. -/
theorem read_counted {x : Symbol} {s : State} (hfull : freqAt x s ≠ 0xFFFFFFFF) (k : Nat) :
    Table.read 0 (writeFreq x (freqAt x s + 1) s).freq k
      = if x.toNat = k then freqAt x s + 1 else Table.read 0 s.freq k :=
  Table.read_write_of_ne (add_one_ne_zero_of_ne_max hfull)

/-- Settles O27: the three cases of CNT, each with the whole state it leaves. -/
theorem cntCountsOneOccurrence : Obligations.CntCountsOneOccurrence := fun x s =>
  ⟨rfl, fun h => exec_cnt_of_not_allowed h, fun h hfull => exec_cnt_of_saturated h hfull, fun h hfull =>
    ⟨_, exec_cnt_of_allowed h hfull, fun k => by rw [read_counted hfull, ite_cond_congr (propext eq_comm)]⟩⟩

/-! ### A sequence of CNT (R203) -/

theorem execAll_cons {i : Instr} {is : List Instr} {s t : State} (h : exec i s = .next t) :
    execAll (i :: is) s = execAll is t := by
  rw [execAll, h]

/-- One CNT that finds room, or whose symbol is not allowed, completes OK, keeps `ALLOW`, and counts its symbol if
allowed. -/
theorem exec_cnt_counts {x : Symbol} {s : State} (hroom : allowed x s = true → freqAt x s ≠ 0xFFFFFFFF) :
    ∃ t, exec (.cnt x) s = .next t ∧ t.result = .ok ∧ t.allow = s.allow
      ∧ ∀ y, (freqAt y t).toNat = (freqAt y s).toNat + if allowed y s ∧ x = y then 1 else 0 := by
  cases h : allowed x s with
  | false =>
    refine ⟨_, exec_cnt_of_not_allowed h, rfl, rfl, fun y => ?_⟩
    rw [if_neg (by rintro ⟨hy, rfl⟩; exact absurd hy (by simp [h]))]
    rfl
  | true =>
    have hfull := hroom h
    refine ⟨_, exec_cnt_of_allowed h hfull, rfl, rfl, fun y => ?_⟩
    rw [freqAt, finish_freq, read_counted hfull]
    by_cases hxy : x = y
    · subst hxy
      rw [if_pos rfl, if_pos ⟨h, rfl⟩]
      bv_omega
    · rw [if_neg (mt BitVec.eq_of_toNat_eq hxy), if_neg (fun hy => hxy hy.2)]
      rfl

/-- A sequence of CNT in which no count of an allowed symbol becomes too great: each count grows by the symbol's
occurrences if the symbol is allowed, and by nothing if not. -/
theorem execAll_cnt_counts (xs : List Symbol) {s : State} (hok : s.result = .ok)
    (hroom : ∀ x, allowed x s = true → (freqAt x s).toNat + xs.count x ≤ 0xFFFFFFFF) :
    ∃ t, execAll (xs.map .cnt) s = .next t ∧ t.result = .ok
      ∧ ∀ y, (freqAt y t).toNat = (freqAt y s).toNat + if allowed y s then xs.count y else 0 := by
  induction xs generalizing s with
  | nil => exact ⟨s, rfl, hok, by simp⟩
  | cons x xs ih =>
    have hfull (h : allowed x s = true) : freqAt x s ≠ 0xFFFFFFFF := by
      intro hmax
      have := hroom x h
      simp [hmax] at this
    obtain ⟨u, hu, huok, hallow, hcount⟩ := exec_cnt_counts hfull
    have hallowed (y : Symbol) : allowed y u = allowed y s := by rw [allowed, hallow, allowed]
    have hcons (y : Symbol) (h : allowed y s = true) :
        (freqAt y u).toNat + xs.count y = (freqAt y s).toNat + (x :: xs).count y := by
      simp only [hcount, h, true_and, List.count_cons, beq_iff_eq]
      omega
    obtain ⟨t, ht, htok, htotal⟩ := ih huok fun y hy => by
      rw [hallowed] at hy
      exact (hcons y hy).trans_le (hroom y hy)
    refine ⟨t, (execAll_cons hu).trans ht, htok, fun y => ?_⟩
    rw [htotal, hallowed]
    cases h : allowed y s with
    | false => simp [hcount, h]
    | true => exact hcons y h

/-! ### The total of the counts (R203) -/

/-- Counting each of the 256 symbols in a sequence counts the whole sequence. -/
theorem sum_count_symbols (xs : List Symbol) :
    ((List.range 256).map fun k => xs.count (BitVec.ofNat 8 k)).sum = xs.length := by
  have hcode (k : Nat) (hk : k ∈ Finset.range 256) :
      xs.count (BitVec.ofNat 8 k) = (xs.map BitVec.toNat : Multiset Nat).count k := by
    rw [Multiset.coe_count, ← List.count_map_of_injective xs BitVec.toNat fun _ _ => BitVec.eq_of_toNat_eq,
      BitVec.toNat_ofNat, Nat.mod_eq_of_lt (Finset.mem_range.1 hk)]
  have hmem (k : Nat) (hk : k ∈ (xs.map BitVec.toNat : Multiset Nat)) : k ∈ Finset.range 256 := by
    obtain ⟨x, -, rfl⟩ := List.mem_map.1 (Multiset.mem_coe.1 hk)
    exact Finset.mem_range.2 x.isLt
  calc ((List.range 256).map fun k => xs.count (BitVec.ofNat 8 k)).sum
      = ∑ k ∈ Finset.range 256, xs.count (BitVec.ofNat 8 k) := rfl
    _ = ∑ k ∈ Finset.range 256, (xs.map BitVec.toNat : Multiset Nat).count k := Finset.sum_congr rfl hcode
    _ = xs.length := by rw [Multiset.sum_count_eq_card hmem, Multiset.coe_card, List.length_map]

/-- The occurrences of `x` among the elements that pass a test. -/
theorem count_filter_eq_ite (p : Symbol → Bool) (xs : List Symbol) (x : Symbol) :
    (xs.filter p).count x = if p x then xs.count x else 0 := by
  cases h : p x with
  | false => exact List.count_eq_zero.2 fun hx => by simp [h] at hx
  | true => exact List.count_filter h

/-- Settles O28: from the cleared table the counts are those of the sequence's allowed symbols. -/
theorem countsTotalTheAllowedSymbols : Obligations.CountsTotalTheAllowedSymbols := by
  intro xs s hroom
  obtain ⟨t, ht, hok, hcount⟩ := execAll_cnt_counts xs (s := finish .ok .none { s with freq := [] }) rfl
    fun x hx => (Nat.zero_add _).trans_le (hroom x hx).le
  have hfreq (x : Symbol) : (freqAt x t).toNat = if allowed x s then xs.count x else 0 :=
    (hcount x).trans (Nat.zero_add _)
  refine ⟨t, (execAll_cons (exec_clrfreq s)).trans ht, hok, hfreq, ?_⟩
  simp only [hfreq, ← count_filter_eq_ite (allowed · s)]
  exact sum_count_symbols _

end Sys2Proof.Machine
end

section
/-! PROOFS. What a command may write: every step of a command leaves the fields that are not the command's
(40_frequency.md R200; 10_state.md R37 to R49). -/

namespace Sys2Proof.Machine

/-! ### The task of a command -/

/-- The points a command can have reached: those of its own pseudocode, and its end. -/
inductive HasTask : Instr → Task → Prop
  | idle {i} : HasTask i .idle
  | build {n seq leaves pq} : HasTask .build (.build n seq leaves pq)
  | genlut {stack} : HasTask .genlut (.genlut stack)
  | tenc {out stack} : HasTask .tenc (.tenc out stack)
  | tdecTag {pending n leaves} : HasTask .tdec (.tdecTag pending n leaves)
  | tdecSym {pending n leaves i got} : HasTask .tdec (.tdecSym pending n leaves i got)
  | lenc {out} : HasTask .lenc (.lenc out)
  | ldec {got} : HasTask .ldec (.ldec got)
  | senc {x out} : HasTask (.senc x) (.senc out)
  | sdec {i} : HasTask .sdec (.sdec i)
  | mencSym {k} : HasTask .menc (.mencSym k)
  | mencOut {k out} : HasTask .menc (.mencOut k out)
  | mdecNext {k} : HasTask .mdec (.mdecNext k)
  | mdecWalk {k i} : HasTask .mdec (.mdecWalk k i)
  | mdecOut {k x} : HasTask .mdec (.mdecOut k x)
  | close : HasTask .close .close

/-! ### What a command keeps -/

/-- `s` with a fixed value in each field that commands in general write: the sequencer, the completion fields
(60_exceptions.md R404), the ports and the bit counters. -/
def withoutShared (s : State) : State :=
  { s with
    task := .idle, err := false, result := .ok, subcause := .none, bitcntOut := 0, bitcntIn := 0, sink := [],
    sinkReady := .always, srcBits := [], srcTaken := 0, symIn := [], symOut := [], symOutReady := .always }

/-- `s` with a fixed value in each field that command `i` may write: what is left is what `i` keeps. -/
def keptBy (i : Instr) (s : State) : State :=
  let u := withoutShared s
  match i with
  | .nop | .tenc | .lenc | .close => u
  | .clrfreq | .cnt _ => { u with freq := [] }
  | .build | .clrtrie | .tdec => clearTrie (clearTables u)
  | .genlut => { u with lut := [], lutValid := false }
  | .ldec => { u with msglen := 0 }
  | .senc _ | .menc => { u with symcnt := 0 }
  | .sdec | .mdec => { u with symcnt := 0, symout := none }

/-- From `s` to `t` command `i` has gone on: it is at one of its own points, or at its end, and has kept what is not
its own. -/
structure GoesOn (i : Instr) (s t : State) : Prop where
  task : HasTask i t.task
  kept : keptBy i t = keptBy i s

/-- What only the shared fields tell apart, every command has kept. -/
theorem keptBy_congr (i : Instr) {s t : State} (h : withoutShared t = withoutShared s) : keptBy i t = keptBy i s := by
  simp only [keptBy, h]

/-! ### The first step of a command -/

theorem begin_goesOn (i : Instr) (s : State) : GoesOn i s (begin i s) := by
  cases i with
  | nop | clrfreq | clrtrie => exact ⟨.idle, rfl⟩
  | cnt x => simp only [begin, beginCnt]; split <;> [exact ⟨.idle, rfl⟩; (split <;> exact ⟨.idle, rfl⟩)]
  | build => rw [begin, beginBuild_eq]; exact ⟨.build, rfl⟩
  | genlut => simp only [begin, beginGenlut]; split <;> [exact ⟨.idle, rfl⟩; exact ⟨.genlut, rfl⟩; exact ⟨.genlut, rfl⟩]
  | tenc => simp only [begin, beginTenc]; split <;> [exact ⟨.idle, rfl⟩; exact ⟨.tenc, rfl⟩; exact ⟨.tenc, rfl⟩]
  | tdec => exact ⟨.tdecTag, rfl⟩
  | lenc => exact ⟨.lenc, rfl⟩
  | ldec => exact ⟨.ldec, rfl⟩
  | close => exact ⟨.close, rfl⟩
  | senc x =>
    simp only [begin, beginSenc]
    split
    · exact ⟨.idle, rfl⟩
    · split <;> [exact ⟨.idle, rfl⟩; exact ⟨.senc, rfl⟩]
  | sdec => simp only [begin, beginSdec]; split <;> [exact ⟨.idle, rfl⟩; exact ⟨.idle, rfl⟩; exact ⟨.sdec, rfl⟩]
  | menc =>
    simp only [begin, beginMenc]
    split
    · exact ⟨.idle, rfl⟩
    · split <;> [exact ⟨.idle, rfl⟩; exact ⟨.mencSym, rfl⟩]
  | mdec =>
    simp only [begin, beginMdec]
    split
    · exact ⟨.idle, rfl⟩
    · split <;> exact ⟨.idle, rfl⟩
    · split <;> [exact ⟨.idle, rfl⟩; exact ⟨.mdecNext, rfl⟩]

/-! ### Steps inside the core -/

theorem buildStep_goesOn (n seq leaves : Nat) (pq : List PqEntry) (s : State) :
    GoesOn .build s (buildStep n seq leaves pq s) := by
  unfold buildStep
  split
  · exact ⟨.idle, rfl⟩
  · split <;> [exact ⟨.idle, rfl⟩; exact ⟨.build, rfl⟩]

theorem genlutStep_goesOn (stack : List (NodeIndex × List Bool)) (s : State) :
    GoesOn .genlut s (genlutStep stack s) := by
  unfold genlutStep
  split
  · exact ⟨.idle, rfl⟩
  · simp only
    split <;> exact ⟨.genlut, rfl⟩

theorem mdecNextStep_goesOn (k : Nat) (s : State) : GoesOn .mdec s (mdecNextStep k s) := by
  unfold mdecNextStep
  split <;> [exact ⟨.mdecWalk, rfl⟩; exact ⟨.idle, rfl⟩]

/-! ### Transfers write shared fields only (00_scope.md R12) -/

theorem putBit_withoutShared {b : Bool} {s t : State} (h : putBit b s = some t) :
    withoutShared t = withoutShared s := by
  obtain ⟨r, -, rfl⟩ := putBit_cases h
  rfl

theorem sinkClose_withoutShared {s t : State} (h : sinkClose s = some t) : withoutShared t = withoutShared s := by
  obtain ⟨r, -, rfl⟩ := sinkClose_cases h
  rfl

theorem getBit_withoutShared {r : Option Bool} {s t : State} (h : getBit s = some (r, t)) :
    withoutShared t = withoutShared s := by
  obtain ⟨-, rfl, -⟩ | ⟨b, rest, -, -, rfl⟩ := getBit_cases h <;> rfl

theorem walkStep_withoutShared {i : NodeIndex} {r : Option NodeIndex} {s t : State} (h : walkStep i s = some (r, t)) :
    withoutShared t = withoutShared s := by
  obtain ⟨-, rfl⟩ | ⟨b, rest, -, rfl⟩ := walkStep_cases h <;> rfl

theorem takeSymbol_withoutShared {x : Symbol} {s t : State} (h : takeSymbol s = some (x, t)) :
    withoutShared t = withoutShared s := by
  obtain ⟨rest, -, rfl⟩ := takeSymbol_cases h
  rfl

theorem sendSymbol_withoutShared {x : Symbol} {s t : State} (h : sendSymbol x s = some t) :
    withoutShared t = withoutShared s := by
  obtain ⟨r, -, rfl⟩ := sendSymbol_cases h
  rfl

/-- After a transfer the command completes. -/
theorem GoesOn.completed {i : Instr} {s u : State} (h : withoutShared u = withoutShared s) (c : ResultCode)
    (v : Subcause) : GoesOn i s (finish c v u) :=
  ⟨.idle, keptBy_congr i h⟩

/-- After a transfer the command goes on at one of its points. -/
theorem GoesOn.moved {i : Instr} {k : Task} {s u : State} (h : withoutShared u = withoutShared s) (hk : HasTask i k) :
    GoesOn i s { u with task := k } :=
  ⟨hk, keptBy_congr i h⟩

/-- A bit is sent, and the command goes on at one of its points. -/
theorem GoesOn.sent {i : Instr} {k : Task} {b : Bool} {s t : State} (hk : HasTask i k)
    (h : (putBit b s).map (fun u => { u with task := k }) = some t) : GoesOn i s t := by
  obtain ⟨u, hu, rfl⟩ := Option.map_eq_some_iff.1 h
  exact .moved (putBit_withoutShared hu) hk

/-! ### Steps that send bits (R105) -/

theorem tencStep_goesOn {out : List Bool} {stack : List NodeIndex} {s t : State} (h : tencStep out stack s = some t) :
    GoesOn .tenc s t := by
  cases out with
  | cons b out => exact .sent .tenc h
  | nil =>
    cases stack with
    | nil => cases h; exact ⟨.idle, rfl⟩
    | cons i rest =>
      simp only [tencStep] at h
      split at h <;> cases h <;> exact ⟨.tenc, rfl⟩

theorem lencStep_goesOn {out : List Bool} {s t : State} (h : lencStep out s = some t) : GoesOn .lenc s t := by
  cases out with
  | cons b out => exact .sent .lenc h
  | nil => cases h; exact ⟨.idle, rfl⟩

theorem sencStep_goesOn {x : Symbol} {out : List Bool} {s t : State} (h : sencStep out s = some t) :
    GoesOn (.senc x) s t := by
  cases out with
  | cons b out => exact .sent .senc h
  | nil => cases h; exact ⟨.idle, rfl⟩

theorem mencOutStep_goesOn {k : Nat} {out : List Bool} {s t : State} (h : mencOutStep k out s = some t) :
    GoesOn .menc s t := by
  cases out with
  | cons b out => exact .sent .mencOut h
  | nil => cases h; exact ⟨.mencSym, rfl⟩

/-! ### Steps that ask the source (R108, R109) -/

theorem linkSlot_keptBy (slot : Slot) (i : NodeIndex) (s : State) :
    keptBy .tdec (linkSlot slot i s) = keptBy .tdec s := by
  cases slot <;> rfl

theorem tdecTagStep_goesOn {pending : List Slot} {n leaves : Nat} {s t : State}
    (h : tdecTagStep pending n leaves s = some t) : GoesOn .tdec s t := by
  cases pending with
  | nil => cases h; exact ⟨.idle, rfl⟩
  | cons slot rest =>
    simp only [tdecTagStep] at h
    split at h
    next => cases h
    next u hu => cases h; exact ⟨.idle, (keptBy_congr .tdec (getBit_withoutShared hu) :)⟩
    next b u hu =>
      have hkept := keptBy_congr .tdec (getBit_withoutShared hu)
      split at h
      · cases h; exact ⟨.idle, hkept⟩
      · have hlink := (linkSlot_keptBy slot (BitVec.ofNat 9 n) u).trans hkept
        split at h <;> cases h
        · exact ⟨.tdecSym, hlink⟩
        · exact ⟨.tdecTag, hlink⟩

theorem tdecSymStep_goesOn {pending : List Slot} {n leaves : Nat} {i : NodeIndex} {got : List Bool} {s t : State}
    (h : tdecSymStep pending n leaves i got s = some t) : GoesOn .tdec s t := by
  simp only [tdecSymStep] at h
  split at h
  next => cases h
  next u hu => cases h; exact ⟨.idle, (keptBy_congr .tdec (getBit_withoutShared hu) :)⟩
  next b u hu =>
    have hkept := keptBy_congr .tdec (getBit_withoutShared hu)
    split at h <;> cases h
    · exact ⟨.tdecSym, hkept⟩
    · exact ⟨.tdecTag, hkept⟩

theorem ldecEnd_goesOn (v : Word) {s u : State} (h : withoutShared u = withoutShared s) :
    GoesOn .ldec s (ldecEnd v u) := by
  unfold ldecEnd
  split <;> exact ⟨.idle, (keptBy_congr .ldec h :)⟩

theorem ldecStep_goesOn {got : List Bool} {s t : State} (h : ldecStep got s = some t) : GoesOn .ldec s t := by
  simp only [ldecStep] at h
  split at h
  next => cases h
  next u hu => cases h; exact .completed (getBit_withoutShared hu) _ _
  next b u hu =>
    split at h <;> cases h
    · exact .moved (getBit_withoutShared hu) .ldec
    · exact ldecEnd_goesOn _ (getBit_withoutShared hu)

theorem sdecStep_goesOn {i : NodeIndex} {s t : State} (h : sdecStep i s = some t) : GoesOn .sdec s t := by
  unfold sdecStep at h
  split at h
  · cases h; exact ⟨.idle, rfl⟩
  · split at h
    next => cases h
    next u hu => cases h; exact .completed (walkStep_withoutShared hu) _ _
    next j u hu => cases h; exact .moved (walkStep_withoutShared hu) .sdec

theorem mdecWalkStep_goesOn {k : Nat} {i : NodeIndex} {s t : State} (h : mdecWalkStep k i s = some t) :
    GoesOn .mdec s t := by
  unfold mdecWalkStep at h
  split at h
  · cases h; exact ⟨.mdecOut, rfl⟩
  · split at h
    next => cases h
    next u hu => cases h; exact .completed (walkStep_withoutShared hu) _ _
    next j u hu => cases h; exact .moved (walkStep_withoutShared hu) .mdecWalk

/-! ### Steps at the symbol ports and the Close event (R111, R112, R107) -/

theorem mencSymStep_goesOn {k : Nat} {s t : State} (h : mencSymStep k s = some t) : GoesOn .menc s t := by
  unfold mencSymStep at h
  split at h
  · split at h
    next => cases h
    next x u hu =>
      split at h <;> cases h
      · exact .completed (takeSymbol_withoutShared hu) _ _
      · exact .moved (takeSymbol_withoutShared hu) .mencOut
  · cases h; exact ⟨.idle, rfl⟩

theorem mdecOutStep_goesOn {k : Nat} {x : Symbol} {s t : State} (h : mdecOutStep k x s = some t) :
    GoesOn .mdec s t := by
  obtain ⟨u, hu, rfl⟩ := Option.map_eq_some_iff.1 h
  exact ⟨.mdecNext, (keptBy_congr .mdec (sendSymbol_withoutShared hu) :)⟩

theorem closeStep_goesOn {s t : State} (h : closeStep s = some t) : GoesOn .close s t := by
  obtain ⟨u, hu, rfl⟩ := Option.map_eq_some_iff.1 h
  exact .completed (sinkClose_withoutShared hu) _ _

/-! ### A whole command -/

/-- Every step of the core, made at a point of command `i`. -/
theorem coreStep_goesOn {i : Instr} {s t : State} (hi : HasTask i s.task) (h : coreStep s = some t) :
    GoesOn i s t := by
  unfold coreStep at h
  generalize s.task = k at hi h
  cases hi with
  | idle => cases h
  | build => cases h; exact buildStep_goesOn _ _ _ _ s
  | genlut => cases h; exact genlutStep_goesOn _ s
  | tenc => exact tencStep_goesOn h
  | tdecTag => exact tdecTagStep_goesOn h
  | tdecSym => exact tdecSymStep_goesOn h
  | lenc => exact lencStep_goesOn h
  | ldec => exact ldecStep_goesOn h
  | senc => exact sencStep_goesOn h
  | sdec => exact sdecStep_goesOn h
  | mencSym => exact mencSymStep_goesOn h
  | mencOut => exact mencOutStep_goesOn h
  | mdecNext => cases h; exact mdecNextStep_goesOn _ s
  | mdecWalk => exact mdecWalkStep_goesOn h
  | mdecOut => exact mdecOutStep_goesOn h
  | close => exact closeStep_goesOn h

/-- A command, however far it gets, ends at one of its own points and has kept what is not its own. -/
theorem exec_goesOn {i : Instr} {s t : State} (h : exec i s = .next t) : GoesOn i s t := by
  rw [exec_eq] at h
  obtain rfl := Host.Outcome.next.inj h
  refine runCore_keeps (P := GoesOn i s) (fun u v hu hv => ?_) _ (begin_goesOn i s)
  have hstep := coreStep_goesOn hu.task hv
  exact ⟨hstep.task, hstep.kept.trans hu.kept⟩

/-! ### The fields of what a command keeps -/

section
variable {i : Instr} {s t : State} (h : keptBy i t = keptBy i s)
include h

theorem freq_eq_of_keptBy (hclr : i ≠ .clrfreq) (hcnt : ∀ x, i ≠ .cnt x) : t.freq = s.freq := by
  cases i with
  | clrfreq => contradiction
  | cnt x => exact absurd rfl (hcnt x)
  | _ => exact (congrArg State.freq h :)

theorem trie_eq_of_keptBy (hbuild : i ≠ .build) (hclr : i ≠ .clrtrie) (htdec : i ≠ .tdec) :
    t.nodes = s.nodes ∧ t.trieState = s.trieState ∧ t.root = s.root ∧ t.nodecnt = s.nodecnt
      ∧ t.leafcnt = s.leafcnt := by
  cases i with
  | build | clrtrie | tdec => contradiction
  | _ =>
    exact ⟨(congrArg State.nodes h :), (congrArg State.trieState h :), (congrArg State.root h :),
      (congrArg State.nodecnt h :), (congrArg State.leafcnt h :)⟩

theorem lut_eq_of_keptBy (hbuild : i ≠ .build) (hclr : i ≠ .clrtrie) (htdec : i ≠ .tdec) (hgenlut : i ≠ .genlut) :
    t.lut = s.lut ∧ t.lutValid = s.lutValid := by
  cases i with
  | build | clrtrie | tdec | genlut => contradiction
  | _ => exact ⟨(congrArg State.lut h :), (congrArg State.lutValid h :)⟩

theorem msglen_eq_of_keptBy (hldec : i ≠ .ldec) : t.msglen = s.msglen := by
  cases i with
  | ldec => contradiction
  | _ => exact (congrArg State.msglen h :)

theorem symout_eq_of_keptBy (hsdec : i ≠ .sdec) (hmdec : i ≠ .mdec) : t.symout = s.symout := by
  cases i with
  | sdec | mdec => contradiction
  | _ => exact (congrArg State.symout h :)

theorem symcnt_eq_of_keptBy (hsdec : i ≠ .sdec) (hmdec : i ≠ .mdec) (hsenc : ∀ x, i ≠ .senc x) (hmenc : i ≠ .menc) :
    t.symcnt = s.symcnt := by
  cases i with
  | senc x => exact absurd rfl (hsenc x)
  | sdec | mdec | menc => contradiction
  | _ => exact (congrArg State.symcnt h :)

/-- No command writes these. -/
theorem registers_eq_of_keptBy :
    t.cmd = s.cmd ∧ t.drop = s.drop ∧ t.nodeSel = s.nodeSel ∧ t.lutSel = s.lutSel ∧ t.allow = s.allow
      ∧ t.agenda = s.agenda ∧ t.reads = s.reads := by
  cases i <;>
    exact ⟨(congrArg State.cmd h :), (congrArg State.drop h :), (congrArg State.nodeSel h :),
      (congrArg State.lutSel h :), (congrArg State.allow h :), (congrArg State.agenda h :),
      (congrArg State.reads h :)⟩

end

/-- Settles O51: `exec_goesOn`, read field by field. -/
theorem commandsWriteOnlyTheirState : Obligations.CommandsWriteOnlyTheirState := by
  intro i s t hexec
  have h := (exec_goesOn hexec).kept
  refine ⟨freq_eq_of_keptBy h, fun hbuild hclr htdec => ?_, msglen_eq_of_keptBy h, fun hsdec hmdec => ?_,
    registers_eq_of_keptBy h⟩
  · obtain ⟨hnodes, hstate, hroot, hnodecnt, hleafcnt⟩ := trie_eq_of_keptBy h hbuild hclr htdec
    exact ⟨hnodes, hstate, hroot, hnodecnt, hleafcnt, lut_eq_of_keptBy h hbuild hclr htdec⟩
  · exact ⟨symout_eq_of_keptBy h hsdec hmdec, symcnt_eq_of_keptBy h hsdec hmdec⟩

end Sys2Proof.Machine
end

section
/-! PROOFS. The trie builder's commands: CLRTRIE, BUILD with and without a leaf, the weights BUILD leaves, its merge
step, and that only `FREQ` and `ALLOW` matter to it (41_trie_builder.md). -/

namespace Sys2Proof.Machine

/-! ### CLRTRIE (R230) -/

theorem exec_clrtrie (s : State) : exec .clrtrie s = .next (finish .ok .none (clearTrie (clearTables s))) :=
  complete_finish _ _ _

/-- Settles O29: the empty tables read zero everywhere. -/
theorem clrtrieDiscardsTrieAndLut : Obligations.ClrtrieDiscardsTrieAndLut :=
  ⟨rfl, fun s => ⟨[], [], exec_clrtrie s, Table.read_nil Node.zero, Table.read_nil LutEntry.zero⟩⟩

/-! ### BUILD without a leaf (R228) -/

theorem leafSymbols_eq_nil_iff (s : State) : leafSymbols s = [] ↔ ∀ x, allowed x s = true → freqAt x s = 0 := by
  simp only [List.eq_nil_iff_forall_not_mem, mem_leafSymbols, not_and, not_not]

theorem leafSymbols_ne_nil {s : State} (h : ∃ x, allowed x s = true ∧ freqAt x s ≠ 0) : leafSymbols s ≠ [] := by
  obtain ⟨x, hx⟩ := h
  exact List.ne_nil_of_mem ((mem_leafSymbols s x).2 hx)

theorem exec_build_of_nil {s : State} (h : leafSymbols s = []) :
    exec .build s = .next (finish .inputError .emptyInput (setTrie .empty 0 0 0 (clearTables s))) := by
  refine exec_of_coreSteps (k := 1) (coreSteps_one ?_) (by decide) (coreStep_finish _ _ _)
  simp only [begin, beginBuild_eq, h]
  rfl

/-- Settles O30: the queue is empty, so the first step of the merge loop ends it. -/
theorem buildOfNoSymbolIsEmpty : Obligations.BuildOfNoSymbolIsEmpty := fun s h =>
  ⟨[], [], exec_build_of_nil ((leafSymbols_eq_nil_iff s).2 h), Table.read_nil Node.zero, Table.read_nil LutEntry.zero⟩

/-! ### BUILD with a leaf (R221, R225, R226) -/

/-- The state BUILD of `L` leaves leaves, the node memory being `nodes`. -/
def builtState (s : State) (nodes : Table Node) (L : Nat) : State :=
  { s with
    nodes := nodes, lut := [], lutValid := false, trieState := .valid, root := BitVec.ofNat 9 (2 * L - 2)
    nodecnt := BitVec.ofNat 10 (2 * L - 1), leafcnt := BitVec.ofNat 9 L
    result := .ok, subcause := .none, task := .idle }

theorem beginBuild_nodes (s : State) : (beginBuild s).nodes = leafNodes s (leafSymbols s) 0 [] := by rw [beginBuild_eq]

theorem beginBuild_task (s : State) :
    (beginBuild s).task = .build (leafSymbols s).length (leafSymbols s).length (leafSymbols s).length
      (leafEntries s (leafSymbols s) 0) := by rw [beginBuild_eq]

/-- The steps of a BUILD with at least one leaf: as many as it has leaves. The loop ends with one queue entry, the
root. -/
theorem coreSteps_beginBuild {s : State} (h : leafSymbols s ≠ []) :
    ∃ nodes e, coreSteps (leafSymbols s).length (beginBuild s) = some (builtState s nodes (leafSymbols s).length)
      ∧ BuildLoop s (2 * (leafSymbols s).length - 1) [e] nodes
      ∧ e.node = BitVec.ofNat 9 (2 * (leafSymbols s).length - 2) := by
  obtain ⟨m, hm⟩ := Nat.exists_eq_add_of_le' (List.length_pos_iff.2 h)
  obtain ⟨nodes, e, hrun, hloop⟩ := build_run m (beginBuild s) ((leafEntries_length _ _ _).trans hm)
    (by rw [beginBuild_nodes]; exact buildLoop_start s h) (beginBuild_task s)
  rw [← hm, beginBuild_eq] at hrun
  exact ⟨nodes, e, by rw [beginBuild_eq]; exact hrun, hloop⟩

theorem exec_build_of_coreSteps {s t : State} (h : coreSteps (leafSymbols s).length (beginBuild s) = some t)
    (ht : t.task = .idle) : exec .build s = .next t :=
  exec_of_coreSteps h ((leafSymbols_length s).trans (by decide)) (coreStep_idle ht)

/-- The outcome of a BUILD with at least one leaf. -/
theorem exec_build {s : State} (h : leafSymbols s ≠ []) :
    ∃ nodes e, exec .build s = .next (builtState s nodes (leafSymbols s).length)
      ∧ BuildLoop s (2 * (leafSymbols s).length - 1) [e] nodes
      ∧ e.node = BitVec.ofNat 9 (2 * (leafSymbols s).length - 2) := by
  obtain ⟨nodes, e, hrun, hloop, hnode⟩ := coreSteps_beginBuild h
  exact ⟨nodes, e, exec_build_of_coreSteps hrun rfl, hloop, hnode⟩

/-- A loop that has one queue entry left has made one trie of all the leaves. -/
theorem BuildLoop.trie {s : State} {n : Nat} {e : PqEntry} {nodes : Table Node} (h : BuildLoop s n [e] nodes) :
    ∃ t, TrieAt nodes e.node t ∧ t.leaves = (leafSymbols s).length
      ∧ (trieIndices nodes e.node t).Perm (List.range n) := by
  obtain ⟨roots, hfst, hat, hperm, hleaves⟩ := h.roots
  obtain ⟨⟨e', t⟩, rfl, rfl⟩ := List.map_eq_singleton_iff.1 hfst
  exact ⟨t, hat _ (List.mem_singleton_self _), by simpa using hleaves, by simpa using hperm⟩

/-- Settles O31: what the merge loop's invariant says at its end. -/
theorem buildMakesTheTrie : Obligations.BuildMakesTheTrie := by
  intro s hs
  have hne := leafSymbols_ne_nil hs
  obtain ⟨nodes, e, hexec, hloop, hnode⟩ := exec_build hne
  obtain ⟨t, hat, hleaves, hperm⟩ := hloop.trie
  rw [hnode] at hat hperm
  have hdepth := t.depth_lt_leaves
  refine ⟨leafSymbols s, t, nodes, [], mem_leafSymbols s, leafSymbols_sorted s, List.length_pos_iff.2 hne,
    leafSymbols_length s, hexec, Table.read_nil LutEntry.zero, hloop.leaves, fun k hL hk => ?_, hloop.beyond, hat,
    hleaves, by omega, hperm⟩
  obtain ⟨l, r, w, hread, hl, hr, -⟩ := hloop.internal k hL hk
  exact ⟨l, r, w, hread, hl, hr⟩

/-! ### The weights (R224) -/

/-- A total over the allowed symbols is one over BUILD's leaves, if a symbol of count 0 adds nothing. -/
theorem sum_allowed_eq_sum_leafSymbols (s : State) (g : Symbol → Nat) (hg : ∀ x, freqAt x s = 0 → g x = 0) :
    ((List.range 256).map fun k => if allowed (BitVec.ofNat 8 k) s then g (BitVec.ofNat 8 k) else 0).sum
      = ((leafSymbols s).map g).sum := by
  have hite (x : Symbol) : (if allowed x s then g x else 0) = if allowed x s && freqAt x s != 0 then g x else 0 := by
    by_cases hx : freqAt x s = 0
    · simp [hg x hx]
    · rw [bne_iff_ne.2 hx, Bool.and_true]
  calc ((List.range 256).map fun k => if allowed (BitVec.ofNat 8 k) s then g (BitVec.ofNat 8 k) else 0).sum
      = (((List.range 256).map (BitVec.ofNat 8)).map fun x => if allowed x s && freqAt x s != 0 then g x else 0).sum := by
        rw [List.map_map]; exact congrArg List.sum (List.map_congr_left fun k _ => hite _)
    _ = ((leafSymbols s).map g).sum := by
        rw [List.sum_map_ite, leafSymbols, Config.nsym]
        simp only [Bool.decide_eq_true, List.map_const', List.sum_replicate, smul_zero, add_zero]

/-- Settles O32: the loop's invariant at its end, where the one queue entry holds the whole weight. -/
theorem buildWeightsAreExactSums : Obligations.BuildWeightsAreExactSums := by
  intro s hs
  obtain ⟨nodes, e, hexec, hloop, hnode⟩ := exec_build (leafSymbols_ne_nil hs)
  have hL := leafSymbols_length s
  refine ⟨_, hexec, fun k hk hleaf => ?_, ?_⟩
  · simp only [builtState, BitVec.toNat_ofNat] at hk hleaf ⊢
    have hinternal : (leafSymbols s).length ≤ k := by
      by_contra hlt
      simp [hloop.leaves k (by omega), Node.mkLeaf] at hleaf
    obtain ⟨l, r, w, hread, -, -, hw⟩ := hloop.internal k hinternal (by omega)
    rw [hread]
    exact hw
  · obtain ⟨-, hweight⟩ := hloop.queue e (List.mem_singleton_self e)
    have htotal : e.weight.toNat = ((leafSymbols s).map fun x => (freqAt x s).toNat).sum := by
      simpa using hloop.weights
    rw [sum_allowed_eq_sum_leafSymbols s (fun x => (freqAt x s).toNat) (fun x hx => by simp [hx]), ← htotal, ← hweight,
      hnode]
    rfl

/-! ### One merge (R222, R223) -/

/-- Every entry left in the queue comes after the extracted one, or has the same key. -/
theorem le_of_mem_extractMin {q q' : List PqEntry} {m e : PqEntry} (h : extractMin q = some (m, q')) (he : e ∈ q') :
    m.weight.toNat < e.weight.toNat ∨ (m.weight.toNat = e.weight.toNat ∧ m.seq.toNat ≤ e.seq.toNat) := by
  have hle := extractMin_least h e he
  rw [Bool.eq_false_iff, Ne, before_iff] at hle
  omega

theorem exists_extractMin {q : List PqEntry} (h : 1 ≤ q.length) : ∃ m q', extractMin q = some (m, q') := by
  cases hq : extractMin q with
  | none => simp [extractMin_none.1 hq] at h
  | some r => exact ⟨r.1, r.2, rfl⟩

/-- Settles O33: the queue's own lemmas, and the step of the loop that finds two entries. -/
theorem buildMergesTheTwoLeastEntries : Obligations.BuildMergesTheTwoLeastEntries := by
  refine ⟨fun q q' m h => ⟨extractMin_perm h, fun e he => le_of_mem_extractMin h he⟩, ?_⟩
  intro s n seq leaves pq ht hpq
  obtain ⟨a, pq1, ha⟩ := exists_extractMin (show 1 ≤ pq.length by omega)
  obtain ⟨b, pq2, hb⟩ := exists_extractMin (show 1 ≤ pq1.length by have := extractMin_length ha; omega)
  refine ⟨a, b, pq1, pq2, Table.write Node.zero s.nodes n (Node.mkInternal a.node b.node (a.weight + b.weight)), ha, hb,
    ?_, fun k => ?_⟩
  · simp only [coreStep, ht, buildStep, ha, hb]
    rfl
  · rw [Table.read_write_of_ne (mkInternal_ne_zero _ _ _), ite_cond_congr (propext eq_comm)]

/-! ### What BUILD depends on (R229) -/

/-- What BUILD's merge loop works on. -/
def mergeView (s : State) : Table Node × Table LutEntry × Bool × Task := (s.nodes, s.lut, s.lutValid, s.task)

theorem leafSymbols_congr {s s' : State} (hf : s.freq = s'.freq) (ha : s.allow = s'.allow) :
    leafSymbols s = leafSymbols s' := by
  simp only [leafSymbols, allowed, freqAt, hf, ha]

theorem leafNodes_congr {s s' : State} (hf : s.freq = s'.freq) (xs : List Symbol) (n : Nat) (nodes : Table Node) :
    leafNodes s xs n nodes = leafNodes s' xs n nodes := by
  induction xs generalizing n nodes with
  | nil => rfl
  | cons x xs ih => simp only [leafNodes, ih, freqAt, hf]

theorem leafEntries_congr {s s' : State} (hf : s.freq = s'.freq) (xs : List Symbol) (n : Nat) :
    leafEntries s xs n = leafEntries s' xs n := by
  induction xs generalizing n with
  | nil => rfl
  | cons x xs ih => simp only [leafEntries, ih, freqAt, hf]

theorem beginBuild_mergeView_congr {s s' : State} (hf : s.freq = s'.freq) (ha : s.allow = s'.allow) :
    mergeView (beginBuild s) = mergeView (beginBuild s') := by
  simp only [beginBuild_eq, mergeView, leafSymbols_congr hf ha, leafNodes_congr hf, leafEntries_congr hf,
    clearTables_lut, clearTables_lutValid]

theorem buildStep_mergeView_congr (n seq leaves : Nat) (pq : List PqEntry) {s s' : State}
    (h : mergeView s = mergeView s') :
    mergeView (buildStep n seq leaves pq s) = mergeView (buildStep n seq leaves pq s') := by
  simp only [mergeView, Prod.mk.injEq] at h
  obtain ⟨hnodes, hlut, hvalid, -⟩ := h
  unfold buildStep
  split
  · simp [mergeView, hnodes, hlut, hvalid]
  · split <;> simp [mergeView, writeNode, hnodes, hlut, hvalid]

/-- Two runs of the merge loop that agree on what it works on go on to agree. -/
theorem runCore_mergeView_congr (k : Nat) {s s' : State} (hb : HasTask .build s.task)
    (h : mergeView s = mergeView s') : mergeView (runCore k s) = mergeView (runCore k s') := by
  induction k generalizing s s' with
  | zero => exact h
  | succ k ih =>
    have htask : s'.task = s.task := (congrArg (fun v => v.2.2.2) h).symm
    generalize hs : s.task = task at hb htask
    cases hb with
    | idle => rwa [runCore_stuck (coreStep_idle hs), runCore_stuck (coreStep_idle htask)]
    | @build n seq leaves pq =>
      have hstep {u : State} (hu : u.task = .build n seq leaves pq) :
          coreStep u = some (buildStep n seq leaves pq u) := by simp only [coreStep, hu]
      rw [runCore_succ (hstep hs), runCore_succ (hstep htask)]
      exact ih (buildStep_goesOn n seq leaves pq s).task (buildStep_mergeView_congr n seq leaves pq h)

/-- What BUILD leaves in the trie registers and the completion code. -/
def buildRegisters (s : State) : TrieState × NodeIndex × BitVec 10 × BitVec 9 × ResultCode × Subcause :=
  (s.trieState, s.root, s.nodecnt, s.leafcnt, s.result, s.subcause)

/-- They are functions of the number of leaves. -/
theorem exec_build_registers {s t : State} (h : exec .build s = .next t) :
    buildRegisters t =
      if leafSymbols s = [] then (.empty, 0, 0, 0, .inputError, .emptyInput)
      else (.valid, BitVec.ofNat 9 (2 * (leafSymbols s).length - 2), BitVec.ofNat 10 (2 * (leafSymbols s).length - 1),
        BitVec.ofNat 9 (leafSymbols s).length, .ok, .none) := by
  by_cases hs : leafSymbols s = []
  · rw [exec_build_of_nil hs] at h
    obtain rfl := Host.Outcome.next.inj h
    rw [if_pos hs]
    rfl
  · obtain ⟨nodes, e, hexec, -⟩ := exec_build hs
    rw [hexec] at h
    obtain rfl := Host.Outcome.next.inj h
    rw [if_neg hs]
    rfl

/-- Settles O34: the two runs agree step by step on what the loop works on; the registers come from the number of
leaves. -/
theorem buildIsDeterminedByItsTable : Obligations.BuildIsDeterminedByItsTable := by
  intro s s' t t' hf ha ht ht'
  have hregs : buildRegisters t = buildRegisters t' := by
    rw [exec_build_registers ht, exec_build_registers ht', leafSymbols_congr hf ha]
  have hview : mergeView t = mergeView t' := by
    rw [exec_eq] at ht ht'
    obtain rfl := Host.Outcome.next.inj ht
    obtain rfl := Host.Outcome.next.inj ht'
    exact runCore_mergeView_congr _ (begin_goesOn .build s).task (beginBuild_mergeView_congr hf ha)
  simp only [buildRegisters, Prod.mk.injEq] at hregs
  simp only [mergeView, Prod.mk.injEq] at hview
  obtain ⟨htrie, hroot, hnodecnt, hleafcnt, hresult, hsub⟩ := hregs
  obtain ⟨hnodes, hlut, hvalid, htask⟩ := hview
  exact ⟨hnodes, hlut, hvalid, htrie, hroot, hnodecnt, hleafcnt, hresult, hsub, htask⟩

end Sys2Proof.Machine
end

section
/-! PROOFS. The code that BUILD and GENLUT give is optimal (41_trie_builder.md R227): the code table of a trie holds the
paths of its leaves, and the trie of BUILD costs no more than any code of its leaves in which no word begins another. -/

namespace Sys2Proof.Machine

/-! ### GENLUT of a trie (42_code_table.md R240, R241) -/

theorem beginGenlut_of_valid {s : State} (hs : s.trieState = .valid) :
    beginGenlut s = { s with lut := [], task := .genlut [(s.root, [])] } := by
  unfold beginGenlut
  rw [hs]

/-- GENLUT of a VALID trie: the code table holds the leaves' paths, and nothing else changes. -/
theorem exec_genlut_of_trieAt {s : State} {t : Trie} (hs : s.trieState = .valid) (hat : TrieAt s.nodes s.root t)
    (hsize : t.size < Config.turnLength) :
    exec .genlut s = .next (finish .ok .none { s with lut := lutWith [] t.paths, lutValid := true }) := by
  have hrun := genlut_run t s.root [] [] { s with lut := [], task := .genlut [(s.root, [])] } hat rfl
  refine exec_of_coreSteps (k := t.size + 1) ?_ hsize (coreStep_finish _ _ _)
  rw [begin, beginGenlut_of_valid hs]
  exact coreSteps_trans hrun (coreSteps_one rfl)

/-- If the leaves' symbols are distinct, the entry of each is its path. -/
theorem lutWith_read_of_mem {ps : List (Symbol × List Bool)} (hnodup : (ps.map Prod.fst).Nodup) {x : Symbol}
    {p : List Bool} (h : (x, p) ∈ ps) (lut : Table LutEntry) :
    Table.read LutEntry.zero (lutWith lut ps) x.toNat = LutEntry.ofPath p := by
  obtain ⟨before, after, rfl⟩ := List.append_of_mem h
  refine lutWith_read_last before after lut x p fun q hq hqx => ?_
  rw [List.map_append, List.map_cons] at hnodup
  exact (List.nodup_cons.1 (List.nodup_append.1 hnodup).2.1).1 (List.mem_map.2 ⟨q, hq, hqx⟩)

theorem Trie.paths_symbols (t : Trie) : t.paths.map Prod.fst = t.symbols := t.pathsFrom_symbols []

/-- A path of a trie does not begin the path of a leaf of another symbol: the walk along it ends at its own leaf. -/
theorem Trie.paths_prefixFree {t : Trie} {x y : Symbol} {p q : List Bool} (hp : (x, p) ∈ t.paths)
    (hq : (y, q) ∈ t.paths) (hxy : x ≠ y) : ¬ p <+: q := by
  rintro ⟨rest, rfl⟩
  have hx : t.walk (p ++ rest) = some (x, rest) := walk_path hp rest
  have hy : t.walk (p ++ rest) = some (y, []) := by simpa using walk_path hq []
  rw [hx] at hy
  exact hxy (congrArg Prod.fst (Option.some.inj hy))

/-! ### The cost of a code -/

/-- The sum of `FREQ[x]` times length over BUILD's leaves (R227). -/
def codeLength (s : State) (len : Symbol → Nat) : Nat :=
  ((leafSymbols s).map fun x => (freqAt x s).toNat * len x).sum

/-- No code word of a leaf begins that of another leaf. -/
def PrefixFree (s : State) (c : Symbol → List Bool) : Prop :=
  ∀ x ∈ leafSymbols s, ∀ y ∈ leafSymbols s, x ≠ y → ¬ c x <+: c y

theorem leafSymbols_nodup (s : State) : (leafSymbols s).Nodup :=
  (leafSymbols_sorted s).imp fun h => by rintro rfl; exact absurd h (lt_irrefl _)

/-- The lengths of a `PrefixFree` code satisfy Kraft's inequality. -/
theorem PrefixFree.kraft {s : State} {c : Symbol → List Bool} (h : PrefixFree s c) :
    ∃ M, Kraft M ((leafSymbols s).map fun x => (c x).length) := by
  have hle (k : Nat) (hk : k ∈ (leafSymbols s).map fun x => (c x).length) := List.le_sum_of_mem hk
  refine ⟨_, hle, ?_⟩
  have hfree : ((leafSymbols s).map c).Pairwise fun u v => ¬ u <+: v ∧ ¬ v <+: u := by
    refine List.pairwise_map.2 ((leafSymbols_nodup s).imp_of_mem fun hx hy hxy => ?_)
    exact ⟨h _ hx _ hy hxy, h _ hy _ hx (Ne.symm hxy)⟩
  have hkraft := kraft_of_free _ _ hfree fun w hw => by
    obtain ⟨x, hx, rfl⟩ := List.mem_map.1 hw
    exact hle _ (List.mem_map.2 ⟨x, hx, rfl⟩)
  simpa only [List.map_map, Function.comp_def] using hkraft

/-- If the words of two leaves are exchanged, the code stays `PrefixFree`. -/
theorem PrefixFree.swap {s : State} {c : Symbol → List Bool} (h : PrefixFree s c) {x y : Symbol}
    (hx : x ∈ leafSymbols s) (hy : y ∈ leafSymbols s) : PrefixFree s (c ∘ Equiv.swap x y) := by
  have hmem (z : Symbol) (hz : z ∈ leafSymbols s) : Equiv.swap x y z ∈ leafSymbols s := by
    rw [Equiv.swap_apply_def]
    split_ifs <;> assumption
  exact fun u hu v hv huv => h _ (hmem u hu) _ (hmem v hv) ((Equiv.swap x y).injective.ne huv)

/-- A longer word for a more frequent leaf costs: an exchange saves. -/
theorem codeLength_swap_lt {s : State} {len : Symbol → Nat} {x y : Symbol} (hx : x ∈ leafSymbols s)
    (hy : y ∈ leafSymbols s) (hfreq : (freqAt y s).toNat < (freqAt x s).toNat) (hlen : len y < len x) :
    codeLength s (len ∘ Equiv.swap x y) < codeLength s len := by
  have hxy : x ≠ y := by rintro rfl; exact lt_irrefl _ hlen
  obtain ⟨rest, hperm⟩ : ∃ rest, (leafSymbols s).Perm (x :: y :: rest) :=
    ⟨_, (List.perm_cons_erase hx).trans
      ((List.perm_cons_erase ((List.mem_erase_of_ne hxy.symm).2 hy)).cons x)⟩
  have hnodup := hperm.nodup_iff.1 (leafSymbols_nodup s)
  have hkept (z : Symbol) (hz : z ∈ rest) : Equiv.swap x y z = z := by
    refine Equiv.swap_apply_of_ne_of_ne ?_ ?_ <;> rintro rfl <;> simp [hz] at hnodup
  have hsum (l : Symbol → Nat) : codeLength s l = (freqAt x s).toNat * l x + ((freqAt y s).toNat * l y
      + (rest.map fun z => (freqAt z s).toNat * l z).sum) := by
    rw [codeLength, (hperm.map _).sum_nat, List.map_cons, List.map_cons, List.sum_cons, List.sum_cons]
  have hrest : (rest.map fun z => (freqAt z s).toNat * (len ∘ Equiv.swap x y) z)
      = rest.map fun z => (freqAt z s).toNat * len z :=
    List.map_congr_left fun z hz => by rw [Function.comp_apply, hkept z hz]
  rw [hsum, hsum, hrest, Function.comp_apply, Function.comp_apply, Equiv.swap_apply_left, Equiv.swap_apply_right]
  have hexchange := mul_add_mul_lt_mul_add_mul hfreq hlen
  omega

/-- In an optimal code a leaf more frequent than another has a word no longer than its. -/
theorem length_le_of_optimal {s : State} {c : Symbol → List Bool} (hfree : PrefixFree s c)
    (hopt : ∀ c', PrefixFree s c' → codeLength s (fun x => (c x).length) ≤ codeLength s fun x => (c' x).length)
    {x y : Symbol} (hx : x ∈ leafSymbols s) (hy : y ∈ leafSymbols s)
    (hfreq : (freqAt y s).toNat < (freqAt x s).toNat) : (c x).length ≤ (c y).length := by
  by_contra hlt
  have hswap := codeLength_swap_lt (len := fun z => (c z).length) hx hy hfreq (not_le.1 hlt)
  exact absurd (hopt _ (hfree.swap hx hy)) (not_le.2 hswap)

/-! ### BUILD's trie against any code -/

/-- The trie of a BUILD with a leaf for each leaf symbol, and no lengths that satisfy Kraft's inequality cost less. -/
theorem trie_optimal_of_coreSteps {s u : State} {t : Trie} (hne : leafSymbols s ≠ [])
    (hrun : coreSteps (leafSymbols s).length (beginBuild s) = some u) (hat : TrieAt u.nodes u.root t) :
    t.symbols.Perm (leafSymbols s) ∧ ∀ M len, Kraft M ((leafSymbols s).map len) →
      (t.cost fun x => (freqAt x s).toNat) ≤ codeLength s len := by
  have key (M : Nat) (len : Symbol → Nat) (hk : Kraft M ((leafSymbols s).map len)) :
      t.symbols.Perm (leafSymbols s) ∧ (t.cost fun x => (freqAt x s).toNat) ≤ codeLength s len := by
    obtain ⟨m, hm⟩ := Nat.exists_eq_add_of_le' (List.length_pos_iff.2 hne)
    obtain ⟨u', t', hrun', hat', hsymbols, hcost⟩ := build_optimal m (beginBuild s)
      ((leafEntries_length _ _ _).trans hm) (by rw [beginBuild_nodes]; exact buildLoop_start s hne)
      (by rw [beginBuild_nodes]; exact optLoop_start s M len hk) (beginBuild_task s)
    rw [← hm] at hrun'
    obtain rfl := Option.some.inj (hrun.symm.trans hrun')
    obtain rfl := hat.unique hat'
    exact ⟨hsymbols, hcost⟩
  have hkraft : Kraft (leafSymbols s).length ((leafSymbols s).map fun _ => (leafSymbols s).length) := by
    refine ⟨by simp, ?_⟩
    simpa using Nat.lt_two_pow_self.le
  exact ⟨(key _ _ hkraft).1, fun M len hk => (key M len hk).2⟩

/-- The code that a state's code table holds. -/
def lutCode (u : State) (x : Symbol) : List Bool := (lutAt x u).code

@[simp] theorem lutCode_length (u : State) (x : Symbol) : (lutCode u x).length = (lutAt x u).len.toNat := by
  simp [lutCode, LutEntry.code]

/-- The code table of a trie whose symbols are BUILD's leaves holds a `PrefixFree` code, and costs what the trie does. -/
theorem lutCode_of_trie {s u : State} {t : Trie} (hlut : u.lut = lutWith [] t.paths)
    (hsymbols : t.symbols.Perm (leafSymbols s)) (hdepth : t.depth ≤ 255) :
    PrefixFree s (lutCode u) ∧ codeLength s (fun x => (lutCode u x).length) = t.cost fun x => (freqAt x s).toNat := by
  have hnodup : (t.paths.map Prod.fst).Nodup := by
    rw [t.paths_symbols]
    exact hsymbols.nodup_iff.2 (leafSymbols_nodup s)
  have hcode (q : Symbol × List Bool) (hq : q ∈ t.paths) : lutCode u q.1 = q.2 := by
    have hbound : q.2.length ≤ 255 := (Trie.pathsFrom_bound hq).trans ((Nat.zero_add _).trans_le hdepth)
    rw [lutCode, lutAt, hlut, lutWith_read_of_mem hnodup hq, code_ofPath _ hbound]
  have hmem (x : Symbol) (hx : x ∈ leafSymbols s) : (x, lutCode u x) ∈ t.paths := by
    rw [← hsymbols.mem_iff, ← t.paths_symbols] at hx
    obtain ⟨q, hq, rfl⟩ := List.mem_map.1 hx
    rwa [hcode q hq]
  refine ⟨fun x hx y hy hxy => Trie.paths_prefixFree (hmem x hx) (hmem y hy) hxy, ?_⟩
  calc codeLength s (fun x => (lutCode u x).length)
      = (t.symbols.map fun x => (freqAt x s).toNat * (lutCode u x).length).sum := ((hsymbols.map _).sum_nat).symm
    _ = (t.paths.map fun q => (freqAt q.1 s).toNat * q.2.length).sum := by
        rw [← t.paths_symbols, List.map_map]
        exact congrArg List.sum (List.map_congr_left fun q hq => by rw [Function.comp_apply, hcode q hq])
    _ = t.cost fun x => (freqAt x s).toNat := by
        rw [Trie.paths, t.pathsFrom_cost fun x => (freqAt x s).toNat]
        simp

/-- After BUILD and GENLUT the code table holds an optimal `PrefixFree` code of the leaves. -/
theorem execAll_build_genlut_optimal {s : State} (hne : leafSymbols s ≠ []) :
    ∃ u, execAll [.build, .genlut] s = .next u ∧ PrefixFree s (lutCode u)
      ∧ ∀ c, PrefixFree s c → codeLength s (fun x => (lutCode u x).length) ≤ codeLength s fun x => (c x).length := by
  obtain ⟨nodes, e, hrun, hloop, hnode⟩ := coreSteps_beginBuild hne
  obtain ⟨t, hat, hleaves, -⟩ := hloop.trie
  rw [hnode] at hat
  obtain ⟨hsymbols, hcost⟩ := trie_optimal_of_coreSteps hne hrun hat
  have hL := leafSymbols_length s
  have hdepth := t.depth_lt_leaves
  have hsize : t.size < Config.turnLength := by
    have := t.size_add_one
    have : (511 : Nat) < Config.turnLength := by decide
    omega
  have hgenlut := exec_genlut_of_trieAt (s := builtState s nodes (leafSymbols s).length) rfl hat hsize
  have hexec := (execAll_cons (exec_build_of_coreSteps hrun rfl)).trans (execAll_cons (is := []) hgenlut)
  obtain ⟨hfree, hlen⟩ := lutCode_of_trie (s := s) (u := finish .ok .none
    { builtState s nodes (leafSymbols s).length with lut := lutWith [] t.paths, lutValid := true }) rfl hsymbols
    (by omega)
  refine ⟨_, hexec, hfree, fun c hc => ?_⟩
  obtain ⟨M, hkraft⟩ := hc.kraft
  exact hlen.trans_le (hcost M _ hkraft)

/-- Settles O39: the optimal code of `execAll_build_genlut_optimal`, its cost read over all codes, and an exchange of
two words. -/
theorem buildAndGenlutCodeIsOptimal : Obligations.BuildAndGenlutCodeIsOptimal := by
  intro s hs leaf cost
  obtain ⟨u, hexec, hfree, hopt⟩ := execAll_build_genlut_optimal (leafSymbols_ne_nil hs)
  have hcost (len : Symbol → Nat) : cost len = codeLength s len :=
    sum_allowed_eq_sum_leafSymbols s (fun x => (freqAt x s).toNat * len x) fun x hx => by simp [hx]
  have hleaf (x : Symbol) : leaf x ↔ x ∈ leafSymbols s := (mem_leafSymbols s x).symm
  simp only [hcost, hleaf, ← lutCode_length]
  refine ⟨u, hexec, fun c hc => hopt c fun x hx y hy => hc x y hx hy, fun x hx hmax y hy => ?_⟩
  obtain rfl | hyx := eq_or_ne y x
  · exact le_rfl
  · exact length_le_of_optimal hfree hopt hx hy (hmax y hy hyx)

end Sys2Proof.Machine
end

section
/-! PROOFS. The code table GENLUT makes of a trie: its entries are the paths of the leaves, no word begins
another, and the lengths fill the tree (42_code_table.md). -/

namespace Sys2Proof.Machine

/-! ### GENLUT by the trie's state (R240, R244) -/

theorem exec_genlut_of_none {s : State} (hs : s.trieState = .none) :
    exec .genlut s = .next (finish .sequenceError .noTrie s) := by
  have hbegin : beginGenlut s = finish .sequenceError .noTrie s := by
    unfold beginGenlut
    rw [hs]
  exact (congrArg complete hbegin).trans (complete_finish _ _ _)

/-- Of the EMPTY trie nothing is on the stack, so GENLUT's first pop ends it. -/
theorem exec_genlut_of_empty {s : State} (hs : s.trieState = .empty) :
    exec .genlut s = .next (finish .ok .none { s with lut := [], lutValid := true }) := by
  have hbegin : beginGenlut s = { s with lut := [], task := .genlut [] } := by
    unfold beginGenlut
    rw [hs]
  refine exec_of_coreSteps (k := 1) ?_ (by decide) (coreStep_finish _ _ _)
  rw [begin, hbegin]
  exact coreSteps_one rfl

/-- The state GENLUT of the VALID trie `t` leaves. -/
def codedState (s : State) (t : Trie) : State :=
  { s with lut := lutWith [] t.paths, lutValid := true, result := .ok, subcause := .none, task := .idle }

theorem exec_genlut_of_holdsTrie {s : State} {t : Trie} (hs : s.trieState = .valid) (ht : HoldsTrie s t)
    (hw : Memory.wf s = true) : exec .genlut s = .next (codedState s t) := by
  obtain ⟨-, hsize, -, -⟩ := ht.bounds hw
  exact exec_genlut_of_trieAt hs ht.1 (hsize.trans_lt (by decide))

/-! ### The entries (R241, R245) -/

theorem len_ofPath {p : List Bool} (h : p.length ≤ 255) : (LutEntry.ofPath p).len.toNat = p.length :=
  Nat.mod_eq_of_lt (Nat.lt_succ_of_le h)

/-- No path of a trie in node memory is too long for an entry. -/
theorem HoldsTrie.path_length_le {s : State} {t : Trie} (ht : HoldsTrie s t) (hw : Memory.wf s = true)
    {q : Symbol × List Bool} (hq : q ∈ t.paths) : q.2.length ≤ 255 := by
  obtain ⟨-, -, -, hdepth⟩ := ht.bounds hw
  exact (Trie.pathsFrom_bound hq).trans ((Nat.zero_add _).trans_le hdepth)

/-- Settles O35: the table holds what GENLUT wrote last for each symbol, and a path is short enough to be read back. -/
theorem genlutWritesTheCodeWords : Obligations.GenlutWritesTheCodeWords := by
  refine ⟨rfl, fun s => ⟨exec_genlut_of_none,
    fun hs => ⟨[], exec_genlut_of_empty hs, Table.read_nil LutEntry.zero⟩, fun t hs ht hw =>
    ⟨lutWith [] t.paths, exec_genlut_of_holdsTrie hs ht hw, fun x p before after hpaths hlast => ?_,
      lutWith_read_ne t.paths []⟩⟩⟩
  have hlen : p.length ≤ 255 := ht.path_length_le hw (q := (x, p)) (by simp [hpaths])
  exact ⟨by rw [hpaths, lutWith_read_last before after [] x p hlast], code_ofPath p hlen, len_ofPath hlen, hlen⟩

/-- A present entry is a path to a leaf of its symbol. -/
theorem HoldsTrie.lutCode_mem_paths {s : State} {t : Trie} (ht : HoldsTrie s t) (hw : Memory.wf s = true) {x : Symbol}
    (hx : (lutAt x (codedState s t)).present = true) : (x, lutCode (codedState s t) x) ∈ t.paths := by
  obtain hnone | ⟨before, p, after, hpaths, hlast⟩ := last_pair t.paths x
  · have habsent : lutAt x (codedState s t) = LutEntry.zero := lutWith_read_ne t.paths [] x hnone
    simp [habsent, LutEntry.zero] at hx
  · have hentry : lutAt x (codedState s t) = LutEntry.ofPath p := by
      rw [lutAt, codedState, hpaths, lutWith_read_last before after [] x p hlast]
    have hmem : (x, p) ∈ t.paths := by simp [hpaths]
    rwa [lutCode, hentry, code_ofPath p (ht.path_length_le hw hmem)]

/-! ### No word begins another (R242) -/

/-- Settles O36: code words are paths to leaves, and no leaf lies on the path to another. -/
theorem codeWordsArePrefixFree : Obligations.CodeWordsArePrefixFree := fun s t hs ht hw _ =>
  ⟨codedState s t, exec_genlut_of_holdsTrie hs ht hw, fun _ _ hx hy hxy =>
    Trie.paths_prefixFree (ht.lutCode_mem_paths hw hx) (ht.lutCode_mem_paths hw hy) hxy⟩

/-! ### Code lengths (R246) -/

/-- The paths of a full binary tree leave no branch unused: their Kraft sum, multiplied by `2^M`. -/
theorem Trie.pathsFrom_kraft (M : Nat) (t : Trie) (p : List Bool) (h : p.length + t.depth ≤ M) :
    ((t.pathsFrom p).map fun q => 2 ^ (M - q.2.length)).sum = 2 ^ (M - p.length) := by
  induction t generalizing p with
  | leaf x => simp [pathsFrom]
  | node l r ihl ihr =>
    rw [depth] at h
    have hl := ihl (p ++ [false]) (by rw [List.length_append, List.length_singleton]; omega)
    have hr := ihr (p ++ [true]) (by rw [List.length_append, List.length_singleton]; omega)
    have hhalf : M - p.length = M - (p.length + 1) + 1 := by omega
    rw [pathsFrom, List.map_append, List.sum_append, hl, hr, hhalf, pow_succ]
    simp only [List.length_append, List.length_singleton]
    omega

/-- Only a one-leaf trie has a leaf at its root. -/
theorem Trie.path_ne_nil {t : Trie} (ht : 2 ≤ t.leaves) {q : Symbol × List Bool} (hq : q ∈ t.paths) : q.2 ≠ [] := by
  cases t with
  | leaf x => simp [leaves] at ht
  | node l r =>
    intro hnil
    simpa [hnil, walk] using walk_path hq []

/-- The symbols with a code word, in ascending code. -/
def presentSymbols (u : State) : List Symbol :=
  ((List.range 256).map (BitVec.ofNat 8)).filter fun x => (lutAt x u).present

/-- A total over the present entries is one over the symbols with a code word. -/
theorem sum_present_eq_sum_presentSymbols (u : State) (g : Symbol → Nat) :
    ((List.range 256).map fun k => if (lutAt (BitVec.ofNat 8 k) u).present then g (BitVec.ofNat 8 k) else 0).sum
      = ((presentSymbols u).map g).sum := by
  calc _ = (((List.range 256).map (BitVec.ofNat 8)).map fun x => if (lutAt x u).present then g x else 0).sum := by
        rw [List.map_map]; rfl
    _ = ((presentSymbols u).map g).sum := by
        rw [List.sum_map_ite, presentSymbols]
        simp only [Bool.decide_eq_true, List.map_const', List.sum_replicate, smul_zero, add_zero]

/-- If the leaves' symbols are distinct, each entry of a leaf's symbol is that leaf's path. -/
theorem lutAt_of_mem_paths {s : State} {t : Trie} (hnodup : (t.paths.map Prod.fst).Nodup)
    {q : Symbol × List Bool} (hq : q ∈ t.paths) : lutAt q.1 (codedState s t) = LutEntry.ofPath q.2 :=
  lutWith_read_of_mem hnodup hq []

/-- The symbols with a code word are the leaves' symbols. -/
theorem HoldsTrie.presentSymbols_perm {s : State} {t : Trie} (ht : HoldsTrie s t) (hw : Memory.wf s = true)
    (hnodup : (t.paths.map Prod.fst).Nodup) : (presentSymbols (codedState s t)).Perm (t.paths.map Prod.fst) := by
  have hinj (a : Nat) (ha : a ∈ List.range 256) (b : Nat) (hb : b ∈ List.range 256)
      (hab : BitVec.ofNat 8 a = BitVec.ofNat 8 b) : a = b := by
    rw [List.mem_range] at ha hb
    have hmod : a % 256 = b % 256 := congrArg BitVec.toNat hab
    omega
  have hall (x : Symbol) : x ∈ (List.range 256).map (BitVec.ofNat 8) :=
    List.mem_map.2 ⟨x.toNat, List.mem_range.2 x.isLt, by simp⟩
  have hpresent : (presentSymbols (codedState s t)).Nodup := (List.nodup_range.map_on hinj).filter _
  refine (List.perm_ext_iff_of_nodup hpresent hnodup).2 fun x => ?_
  rw [presentSymbols, List.mem_filter, and_iff_right (hall x)]
  constructor
  · exact fun hx => List.mem_map.2 ⟨_, ht.lutCode_mem_paths hw hx, rfl⟩
  · intro hx
    obtain ⟨q, hq, rfl⟩ := List.mem_map.1 hx
    rw [lutAt_of_mem_paths hnodup hq]
    rfl

/-- Settles O37: the symbols with a code word are the leaves' symbols, and the Kraft sum is that of the trie's paths. -/
theorem codeLengthsFillTheTree : Obligations.CodeLengthsFillTheTree := by
  intro s t hs ht hw
  obtain ⟨-, -, -, hdepth⟩ := ht.bounds hw
  have hleaves : t.leaves = s.leafcnt.toNat := ht.2.2
  refine ⟨codedState s t, exec_genlut_of_holdsTrie hs ht hw, fun x hx => ?_, fun hnodup => ?_⟩
  · rw [← lutCode_length]
    exact ht.path_length_le hw (ht.lutCode_mem_paths hw hx)
  · have hperm := ht.presentSymbols_perm hw hnodup
    refine ⟨?_, fun htwo => ⟨fun x hx => ?_, ?_⟩⟩
    · calc ((List.range 256).filter fun k => (lutAt (BitVec.ofNat 8 k) (codedState s t)).present).length
          = (presentSymbols (codedState s t)).length := by
            rw [presentSymbols, List.filter_map, List.length_map]; rfl
        _ = t.leaves := by rw [hperm.length_eq, List.length_map, t.paths_length]
        _ = s.leafcnt.toNat := hleaves
    · rw [← lutCode_length]
      exact List.length_pos_iff.2 (Trie.path_ne_nil htwo (ht.lutCode_mem_paths hw hx))
    · calc _
          = ((presentSymbols (codedState s t)).map fun x => 2 ^ (255 - (lutAt x (codedState s t)).len.toNat)).sum :=
            sum_present_eq_sum_presentSymbols _ _
        _ = (t.paths.map fun q => 2 ^ (255 - q.2.length)).sum := by
            rw [(hperm.map _).sum_nat, List.map_map]
            refine congrArg List.sum (List.map_congr_left fun q hq => ?_)
            rw [Function.comp_apply, lutAt_of_mem_paths hnodup hq, len_ofPath (ht.path_length_le hw hq)]
        _ = 2 ^ 255 := t.pathsFrom_kraft 255 [] ((Nat.zero_add _).trans_le hdepth)

end Sys2Proof.Machine
end

section
/-! PROOFS. TENC and TDEC as whole commands: what TENC sends by the trie's state, what TDEC makes of a complete, a cut
and an overlong serialization, and that the one reads what the other wrote (43_trie_codec.md). -/

namespace Sys2Proof.Machine

/-! ### TENC by the trie's state (R260 to R263) -/

theorem exec_tenc_of_none {s : State} (hs : s.trieState = .none) :
    exec .tenc s = .next (finish .sequenceError .noTrie s) := by
  have hbegin : beginTenc s = finish .sequenceError .noTrie s := by
    unfold beginTenc
    rw [hs]
  exact (congrArg complete hbegin).trans (complete_finish _ _ _)

/-- Once its stack is empty and the last bit is sent, TENC ends. -/
theorem exec_tenc_of_coreSteps {s : State} {l : List Bool} {k : Nat}
    (h : coreSteps k (beginTenc s) = some { sentBits l s with task := .tenc [] [] }) (hk : k < Config.turnLength) :
    exec .tenc s = .next (finish .ok .none (sentBits l s)) :=
  exec_of_coreSteps (coreSteps_trans h (coreSteps_one rfl)) hk (coreStep_finish _ _ _)

/-- The EMPTY trie is written as a leaf of symbol 0 (R262). -/
theorem exec_tenc_of_empty {s : State} (hs : s.trieState = .empty) (hr : s.sinkReady.allows 9 = true) :
    exec .tenc s = .next (finish .ok .none (sentBits (Trie.leaf 0).ser s)) := by
  have hbegin : beginTenc s = { s with task := .tenc (Trie.leaf 0).ser [] } := by
    unfold beginTenc
    rw [hs]
    rfl
  refine exec_tenc_of_coreSteps (k := 9) ?_ (by decide)
  rw [hbegin]
  exact coreSteps_send (mk := fun out => .tenc out []) (fun b out s h => by rw [coreStep_tenc h]; rfl)
    (Trie.leaf 0).ser _ rfl hr

theorem HoldsTrie.ser_length {s : State} {t : Trie} (ht : HoldsTrie s t) :
    t.ser.length = 10 * s.leafcnt.toNat - 1 := by
  rw [← ht.2.2, ← t.ser_length, Nat.add_sub_cancel]

/-- TENC ends within a turn, since `LEAFCNT` has 9 bits. -/
theorem HoldsTrie.tenc_steps_lt {s : State} {t : Trie} (ht : HoldsTrie s t) :
    t.ser.length + t.size < Config.turnLength := by
  have hleaves : t.leaves < 512 := ht.2.2.trans_lt s.leafcnt.isLt
  have hsize := t.size_add_one
  have hser := t.ser_length
  rw [Config.turnLength]
  omega

theorem exec_tenc_of_holdsTrie {s : State} {t : Trie} (hs : s.trieState = .valid) (ht : HoldsTrie s t)
    (hr : s.sinkReady.allows (10 * s.leafcnt.toNat - 1) = true) :
    exec .tenc s = .next (finish .ok .none (sentBits t.ser s)) := by
  have hbegin : beginTenc s = { s with task := .tenc [] [s.root] } := by
    unfold beginTenc
    rw [hs]
  refine exec_tenc_of_coreSteps ?_ ht.tenc_steps_lt
  rw [hbegin]
  exact tenc_run t s.root [] _ ht.1 rfl (by rw [ht.ser_length]; exact hr)

/-- Settles O40: the three cases of TENC, each with the bits it has sent. -/
theorem tencWritesTheTrie : Obligations.TencWritesTheTrie := by
  refine ⟨rfl, fun s => ⟨exec_tenc_of_none, exec_tenc_of_empty, fun t hs ht hr => ⟨ht.ser_length, ?_⟩⟩⟩
  rw [exec_tenc_of_holdsTrie hs ht hr, ← ht.ser_length]
  rfl

/-! ### TDEC of a whole serialization (R265, R266, R270) -/

/-- The state TDEC leaves when it has read trie `t` and `rest` is still to come. -/
def decodedState (t : Trie) (rest : List Bool) (s : State) : State :=
  finish .ok .none (setTrie .valid 0 (BitVec.ofNat 10 t.size) (BitVec.ofNat 9 t.leaves)
    { tookBits t.ser.length rest (clearTables s) with nodes := plant t .root 0 [] })

theorem exec_tdec_of_ser {s : State} {t : Trie} {rest : List Bool} (hb : s.srcBits = t.ser ++ rest)
    (hsize : t.size ≤ 511) : exec .tdec s = .next (decodedState t rest s) := by
  have hrun := tdec_run t (s := beginTdec s) (rem := rest) rfl hb (by rwa [Nat.zero_add])
  rw [Nat.zero_add, Nat.zero_add] at hrun
  refine exec_of_coreSteps (coreSteps_trans hrun (coreSteps_one rfl)) ?_ (coreStep_finish _ _ _)
  have hnodes := t.size_add_one
  have hser := t.ser_length
  rw [Config.turnLength]
  omega

/-- Settles O41: the state TDEC leaves, and the node memory `plant_root` describes. -/
theorem tdecReadsTheTrie : Obligations.TdecReadsTheTrie := by
  refine ⟨rfl, fun s t rest hb hsize => ⟨plant t .root 0 [], [], exec_tdec_of_ser hb hsize,
    Table.read_nil LutEntry.zero, ?_⟩⟩
  obtain ⟨-, hat, hindices, hbeyond, hweight⟩ := plant_root t hsize
  have hnodes := t.size_add_one
  exact ⟨hat, hindices, hbeyond, hweight, by omega, t.leaves_pos, by omega⟩

/-! ### TDEC fails (R267 to R269) -/

/-- The first `m` nodes of a larger trie in pre-order are at most half leaves: each leaf among them fills a slot that
an internal node before it opened, and one slot more is still open. -/
theorem Trie.take_nodeBits_length {t : Trie} {m : Nat} (hm : m < t.size) :
    ∃ leaves, 2 * leaves ≤ m ∧ (t.nodeBits.take m).flatten.length = m + 8 * leaves := by
  induction t generalizing m with
  | leaf x =>
    obtain rfl : m = 0 := by simpa [size] using hm
    exact ⟨0, by simp⟩
  | node l r ihl ihr =>
    cases m with
    | zero => exact ⟨0, by simp⟩
    | succ m =>
      rw [size] at hm
      rw [nodeBits, List.take_succ_cons, List.flatten_cons, List.length_append, List.length_singleton]
      by_cases hl : m < l.size
      · obtain ⟨k, hk, hlen⟩ := ihl hl
        rw [List.take_append_of_le_length (by rw [nodeBits_length]; omega), hlen]
        exact ⟨k, by omega, by omega⟩
      · obtain ⟨k, hk, hlen⟩ := ihr (m := m - l.size) (by omega)
        have hnodes := l.size_add_one
        have hser := l.ser_length
        rw [List.take_append, List.take_of_length_le (by rw [nodeBits_length]; omega), List.flatten_append,
          nodeBits_flatten, List.length_append, nodeBits_length, hlen]
        exact ⟨l.leaves + k, by omega, by omega⟩

/-- The first 511 nodes of a larger trie have at most 2551 bits (70_reset_and_hazards.md R481). -/
theorem Trie.take_511_length_le {t : Trie} (h : 511 < t.size) : (t.nodeBits.take 511).flatten.length ≤ 2551 := by
  obtain ⟨k, hk, hlen⟩ := take_nodeBits_length h
  omega

/-- Whatever the trie, its first 511 nodes have at most 2559 bits. -/
theorem Trie.take_511_length_lt (t : Trie) : (t.nodeBits.take 511).flatten.length < 2560 := by
  by_cases h : 511 < t.size
  · have := take_511_length_le h
    omega
  · have hnodes := t.size_add_one
    have hser := t.ser_length
    rw [List.take_of_length_le (by rw [nodeBits_length]; omega), nodeBits_flatten]
    omega

/-- The stream ends inside the serialization of `t` (R268). -/
theorem exec_tdec_of_cut {s : State} {t : Trie} {c : List Bool} (hser : t.ser = s.srcBits ++ c) (hc : c ≠ [])
    (hend : s.srcEnded = true) (hlen : s.srcBits.length ≤ (t.nodeBits.take 511).flatten.length) :
    exec .tdec s = .next (tdecFail .truncTrie (tookBits s.srcBits.length [] (beginTdec s))) := by
  refine exec_of_coreSteps (k := s.srcBits.length + 1) ?_ ?_ (coreStep_finish _ _ _)
  · refine tdec_trunc [t] (s := beginTdec s) (c := c) rfl rfl rfl hend ?_ hc (Nat.zero_le _) ?_
    · rw [List.flatMap_singleton, t.nodeBits_flatten, hser]
    · rwa [List.flatMap_singleton]
  · have := t.take_511_length_lt
    rw [Config.turnLength]
    omega

/-- The stream goes on to the tag of the 512th node of `t` (R267). -/
theorem exec_tdec_of_overflow {s : State} {t : Trie} {b : Bool} {rest : List Bool} (hsize : 511 < t.size)
    (hb : s.srcBits = (t.nodeBits.take 511).flatten ++ b :: rest) :
    exec .tdec s = .next (tdecFail .nodeOverflow
      (tookBits ((t.nodeBits.take 511).flatten.length + 1) rest (beginTdec s))) := by
  refine exec_of_coreSteps (k := (t.nodeBits.take 511).flatten.length + 1) ?_ ?_ (coreStep_finish _ _ _)
  · have hone : [t].flatMap Trie.nodeBits = t.nodeBits := List.flatMap_singleton _ _
    rw [← hone]
    rw [← hone] at hb
    refine tdec_overflow [t] (s := beginTdec s) (n := 0) rfl rfl (Nat.zero_le _) ?_ hb
    rwa [hone, t.nodeBits_length]
  · have := t.take_511_length_lt
    rw [Config.turnLength]
    omega

/-- Settles O42: both failures clear the node memory and the trie registers; the LUT was cleared at the start. -/
theorem failedTdecLeavesNoTrie : Obligations.FailedTdecLeavesNoTrie := fun _ _ =>
  ⟨fun _ hser hc hend hlen => ⟨[], [], exec_tdec_of_cut hser hc hend hlen,
      Table.read_nil Node.zero, Table.read_nil LutEntry.zero⟩,
    fun _ _ hsize hb => ⟨Nat.succ_le_succ (Trie.take_511_length_le hsize), [], [], exec_tdec_of_overflow hsize hb,
      Table.read_nil Node.zero, Table.read_nil LutEntry.zero⟩⟩

/-! ### There and back (R271) -/

theorem HoldsTrie.ofNat_nodecnt {s : State} {t : Trie} (ht : HoldsTrie s t) (hw : Memory.wf s = true) :
    BitVec.ofNat 10 t.size = s.nodecnt := by
  rw [← (ht.bounds hw).1, BitVec.ofNat_toNat, BitVec.setWidth_eq]

theorem HoldsTrie.ofNat_leafcnt {s : State} {t : Trie} (ht : HoldsTrie s t) : BitVec.ofNat 9 t.leaves = s.leafcnt := by
  rw [ht.2.2, BitVec.ofNat_toNat, BitVec.setWidth_eq]

theorem decodedState_holdsTrie {t : Trie} (hsize : t.size ≤ 511) (rest : List Bool) (s : State) :
    HoldsTrie (decodedState t rest s) t := by
  obtain ⟨-, hat, hindices, -, -⟩ := plant_root t hsize
  have hnodes := t.size_add_one
  have hnodecnt : (BitVec.ofNat 10 t.size).toNat = t.size := Nat.mod_eq_of_lt (by omega)
  have hleafcnt : (BitVec.ofNat 9 t.leaves).toNat = t.leaves := Nat.mod_eq_of_lt (by omega)
  refine ⟨hat, ?_, hleafcnt.symm⟩
  change (trieIndices (plant t .root 0 []) 0 t).Perm (List.range (BitVec.ofNat 10 t.size).toNat)
  rw [hindices, hnodecnt]

/-- Settles O43: TDEC reads the bits of `exec_tenc_of_holdsTrie` as `exec_tdec_of_ser` says, and the code table of
either state is that of the one trie both hold. -/
theorem trieRoundTrip : Obligations.TrieRoundTrip := by
  intro s t hs ht hw hr
  obtain ⟨-, hsize, -, -⟩ := ht.bounds hw
  refine ⟨_, t.ser, exec_tenc_of_holdsTrie hs ht hr, rfl, fun u rest hb => ?_⟩
  have hback : HoldsTrie (decodedState t rest u) t := decodedState_holdsTrie hsize rest u
  exact ⟨decodedState t rest u, exec_tdec_of_ser hb hsize, rfl, rfl, rfl, hback, ht.ofNat_nodecnt hw,
    ht.ofNat_leafcnt, _, _, exec_genlut_of_holdsTrie hs ht hw,
    exec_genlut_of_trieAt rfl hback.1 (hsize.trans_lt (by decide)), rfl⟩

end Sys2Proof.Machine
end

section
/-! PROOFS. The length field and the message codec as whole commands: what LENC, LDEC, SENC, SDEC, MENC and MDEC leave,
by the state they start in (44_message_codec.md). -/

namespace Sys2Proof.Machine

/-! ### Words (00_scope.md R12) -/

/-- The bits of a 32-bit word, bit 31 first. -/
theorem bitsMsb_word (v : Word) : bitsMsb v = (List.range 32).map fun j => v.getLsbD (31 - j) := by
  refine List.map_congr_left fun j hj => ?_
  rw [BitVec.getMsbD_eq_getLsbD, decide_eq_true (List.mem_range.1 hj), Bool.true_and]

/-- The sign of a word is its bit 31. -/
theorem word_msb (v : Word) : v.msb = v.getLsbD 31 := BitVec.msb_eq_getLsbD_last v

theorem word_toNat_lt {v : Word} (h : v.getLsbD 31 = false) : v.toNat < 2 ^ 31 := by
  rw [← word_msb, BitVec.msb_eq_false_iff_two_mul_lt] at h
  omega

theorem ofNat_of_eq_toNat {v : Word} {n : Nat} (h : n = v.toNat) : BitVec.ofNat 32 n = v := by
  rw [h, BitVec.ofNat_toNat, BitVec.setWidth_eq]

/-! ### Whole commands -/

/-- A command whose first step ends it. -/
theorem exec_of_begin_finish {i : Instr} {s t : State} {c : ResultCode} {u : Subcause}
    (h : begin i s = finish c u t) : exec i s = .next (finish c u t) := by
  rw [exec_eq, h, runTurn, runCore_finish]

/-- A turn is long enough for 2^31 symbols of 255 bits each, and more. -/
theorem lt_turnLength {n : Nat} (h : n < 2 ^ 40) : n < Config.turnLength := h.trans (by decide)

/-! ### LENC and LDEC (R300, R301) -/

theorem exec_lenc {s : State} (hr : s.sinkReady.allows 32 = true) :
    exec .lenc s = .next (finish .ok .none (sentBits (bitsMsb s.msglen) s)) := by
  have hlen : (bitsMsb s.msglen).length = 32 := bitsMsb_length s.msglen
  exact exec_of_coreSteps (lenc_run (bitsMsb s.msglen) (beginLenc s) rfl (by rwa [hlen])) (by rw [hlen]; decide)
    (coreStep_finish _ _ _)

/-- Settles O44: the bits of `exec_lenc`, counted and written out. -/
theorem lencWritesTheLength : Obligations.LencWritesTheLength := by
  refine ⟨rfl, fun s hr => (exec_lenc hr).trans ?_⟩
  rw [sentBits, bitsMsb_length, bitsMsb_word, List.map_map]
  rfl

/-- LDEC of 32 bits: the value decides between OK and NEG_LEN. -/
theorem coreSteps_beginLdec {s : State} {v : Word} {rest : List Bool} (hb : s.srcBits = bitsMsb v ++ rest) :
    coreSteps 32 (beginLdec s) = some (ldecEnd v { tookBits 32 rest (beginLdec s) with task := .idle }) :=
  ldec_run (s := beginLdec s) rfl hb

theorem exec_ldec_of_nonneg {s : State} {v : Word} {rest : List Bool} (hb : s.srcBits = bitsMsb v ++ rest)
    (hv : v.getLsbD 31 = false) :
    exec .ldec s = .next (finish .ok .none { tookBits 32 rest s with msglen := v }) := by
  have hrun := coreSteps_beginLdec hb
  rw [ldecEnd, if_neg (ne_true_of_eq_false ((word_msb v).trans hv))] at hrun
  exact exec_of_coreSteps hrun (by decide) (coreStep_finish _ _ _)

theorem exec_ldec_of_neg {s : State} {v : Word} {rest : List Bool} (hb : s.srcBits = bitsMsb v ++ rest)
    (hv : v.getLsbD 31 = true) : exec .ldec s = .next (finish .formatError .negLen (tookBits 32 rest s)) := by
  have hrun := coreSteps_beginLdec hb
  rw [ldecEnd, if_pos ((word_msb v).trans hv)] at hrun
  exact exec_of_coreSteps hrun (by decide) (coreStep_finish _ _ _)

theorem exec_ldec_of_short {s : State} (hlen : s.srcBits.length < 32) (hend : s.srcEnded = true) :
    exec .ldec s = .next (finish .formatError .truncLen (tookBits s.srcBits.length [] s)) :=
  exec_of_coreSteps (ldec_trunc (s := beginLdec s) rfl hend hlen)
    (lt_turnLength (n := s.srcBits.length + 1) (by omega)).le (coreStep_finish _ _ _)

/-- Settles O45: the three outcomes of LDEC, each with the bits it has taken. -/
theorem ldecReadsTheLength : Obligations.LdecReadsTheLength := by
  refine ⟨rfl, fun s => ⟨fun v rest hb => ?_, exec_ldec_of_short⟩⟩
  rw [← bitsMsb_word] at hb
  exact ⟨exec_ldec_of_nonneg hb, exec_ldec_of_neg hb⟩

/-! ### SENC (R305, R306) -/

theorem code_length (e : LutEntry) : e.code.length = e.len.toNat := by simp [LutEntry.code]

theorem exec_senc_of_noLut {s : State} (x : Symbol) (hv : s.lutValid = false) :
    exec (.senc x) s = .next (finish .sequenceError .noLut { s with symcnt := 0 }) :=
  exec_of_begin_finish (if_pos hv)

theorem exec_senc_of_noCode {s : State} {x : Symbol} (hv : s.lutValid = true) (hx : (lutAt x s).present = false) :
    exec (.senc x) s = .next (finish .encodingError .noCode { s with symcnt := 0 }) :=
  exec_of_begin_finish ((if_neg (ne_false_of_eq_true hv)).trans (if_pos hx))

theorem exec_senc_of_present {s : State} {x : Symbol} (hv : s.lutValid = true) (hx : (lutAt x s).present = true)
    (hr : s.sinkReady.allows (lutAt x s).len.toNat = true) :
    exec (.senc x) s = .next (finish .ok .none { sentBits (lutAt x s).code s with symcnt := 1 }) := by
  have hbegin : begin (.senc x) s = { s with symcnt := 0, task := .senc (lutAt x s).code } :=
    (if_neg (ne_false_of_eq_true hv)).trans (if_neg (ne_false_of_eq_true hx))
  rw [← code_length] at hr
  have hrun := senc_run (lutAt x s).code { s with symcnt := 0, task := .senc (lutAt x s).code } rfl hr
  have hlen := code_length_le (lutAt x s)
  exact exec_of_coreSteps ((congrArg _ hbegin).trans hrun) (lt_turnLength (by omega)).le (coreStep_finish _ _ _)

/-- Settles O46: the two refusals before any bit, and the code word sent. -/
theorem sencWritesTheCodeWord : Obligations.SencWritesTheCodeWord := by
  refine fun x s => ⟨rfl, exec_senc_of_noLut x, exec_senc_of_noCode, fun hv hx hr => ?_⟩
  rw [exec_senc_of_present hv hx hr, sentBits, code_length, LutEntry.code, List.map_map]
  rfl

/-! ### SDEC (R310, R311) -/

/-- Bits that end inside a walk are fewer than the trie is deep. -/
theorem Trie.length_lt_depth_of_walk_eq_none {t : Trie} {bits : List Bool} (h : t.walk bits = none) :
    bits.length < t.depth := by
  induction t generalizing bits with
  | leaf x => cases h
  | node l r ihl ihr =>
    rw [depth]
    cases bits with
    | nil => exact Nat.succ_pos _
    | cons b bits =>
      rw [walk] at h
      rw [List.length_cons]
      cases b with
      | false => exact Nat.succ_lt_succ ((ihl h).trans_le (Nat.le_max_left _ _))
      | true => exact Nat.succ_lt_succ ((ihr h).trans_le (Nat.le_max_right _ _))

/-- A walk ends within a turn, since `LEAFCNT` has 9 bits. -/
theorem HoldsTrie.depth_lt {s : State} {t : Trie} (ht : HoldsTrie s t) : t.depth < 512 := by
  have hleaves : t.leaves < 512 := ht.2.2.trans_lt s.leafcnt.isLt
  have hdepth := t.depth_lt_leaves
  omega

theorem exec_sdec_of_none {s : State} (hs : s.trieState = .none) :
    exec .sdec s = .next (finish .sequenceError .noTrie { s with symcnt := 0, symout := none }) :=
  exec_of_begin_finish (by simp only [begin, beginSdec, hs])

theorem exec_sdec_of_empty {s : State} (hs : s.trieState = .empty) :
    exec .sdec s = .next (finish .sequenceError .emptyTrie { s with symcnt := 0, symout := none }) :=
  exec_of_begin_finish (by simp only [begin, beginSdec, hs])

/-- With a VALID trie SDEC begins its walk at the root. -/
theorem begin_sdec_of_valid {s : State} (hs : s.trieState = .valid) :
    begin .sdec s = { s with symcnt := 0, symout := none, task := .sdec s.root } := by
  simp only [begin, beginSdec, hs]

theorem exec_sdec_of_path {s : State} {t : Trie} {x : Symbol} {p rest : List Bool} (hs : s.trieState = .valid)
    (ht : HoldsTrie s t) (hp : (x, p) ∈ t.paths) (hb : s.srcBits = p ++ rest) :
    exec .sdec s = .next (finish .ok .none { tookBits p.length rest s with symout := some x, symcnt := 1 }) := by
  have hrun := sdec_run (s := { s with symcnt := 0, symout := none, task := .sdec s.root }) ht.1 hp hb rfl
  have hlen : p.length ≤ t.depth := (Trie.pathsFrom_bound hp).trans (Nat.zero_add _).le
  have hdepth := ht.depth_lt
  exact exec_of_coreSteps ((congrArg _ (begin_sdec_of_valid hs)).trans hrun) (lt_turnLength (by omega)).le
    (coreStep_finish _ _ _)

theorem exec_sdec_of_cut {s : State} {t : Trie} (hs : s.trieState = .valid) (ht : HoldsTrie s t)
    (hw : t.walk s.srcBits = none) (hend : s.srcEnded = true) :
    exec .sdec s = .next (finish .formatError .truncMsg
      (tookBits s.srcBits.length [] { s with symcnt := 0, symout := none })) := by
  have hrun := sdec_trunc (s := { s with symcnt := 0, symout := none, task := .sdec s.root }) ht.1 hw hend rfl
  have hlen := Trie.length_lt_depth_of_walk_eq_none hw
  have hdepth := ht.depth_lt
  exact exec_of_coreSteps ((congrArg _ (begin_sdec_of_valid hs)).trans hrun)
    (lt_turnLength (n := s.srcBits.length + 1) (by omega)).le (coreStep_finish _ _ _)

/-- Settles O47: SDEC by the trie's state, and the walk to its end or to the end of the stream. -/
theorem sdecReadsOneCodeWord : Obligations.SdecReadsOneCodeWord :=
  ⟨rfl, fun _ => ⟨exec_sdec_of_none, exec_sdec_of_empty, fun _ hs ht =>
    ⟨fun _ _ _ hp hb => exec_sdec_of_path hs ht hp hb, fun hw hend => exec_sdec_of_cut hs ht hw hend⟩⟩⟩

/-! ### MENC (R315) -/

theorem exec_menc_of_noLut {s : State} (hv : s.lutValid = false) :
    exec .menc s = .next (finish .sequenceError .noLut { s with symcnt := 0 }) :=
  exec_of_begin_finish (if_pos hv)

theorem exec_menc_of_neg {s : State} (hv : s.lutValid = true) (hneg : s.msglen.getLsbD 31 = true) :
    exec .menc s = .next (finish .inputError .negLen { s with symcnt := 0 }) :=
  exec_of_begin_finish ((if_neg (ne_false_of_eq_true hv)).trans (if_pos ((word_msb _).trans hneg)))

/-- MENC when it has sent the code words of `xs` and `rest` is still offered. -/
def mencAt (xs rest : List Symbol) (s : State) : State :=
  { sentBits (codesOf s xs) s with
    symIn := rest, symcnt := BitVec.ofNat 32 xs.length, task := .mencSym xs.length }

/-- MENC sends the code words of the first symbols that have one, and a turn is long enough for the whole message. -/
theorem coreSteps_begin_menc {s : State} {xs rest : List Symbol} (hv : s.lutValid = true)
    (hneg : s.msglen.getLsbD 31 = false) (hin : s.symIn = xs ++ rest) (hlen : xs.length ≤ s.msglen.toNat)
    (hpres : ∀ x ∈ xs, (lutAt x s).present = true) (hr : s.sinkReady.allows (codesOf s xs).length = true) :
    ∃ m, m < Config.turnLength ∧ coreSteps m (begin .menc s) = some (mencAt xs rest s) := by
  have hbegin : begin .menc s = { s with symcnt := 0, task := .mencSym 0 } :=
    (if_neg (ne_false_of_eq_true hv)).trans (if_neg (ne_true_of_eq_false ((word_msb _).trans hneg)))
  obtain ⟨m, hm, hrun⟩ := menc_run xs (k := 0) (s := { s with symcnt := 0, task := .mencSym 0 }) rfl rfl hin
    ((Nat.zero_add _).trans_le hlen) hpres hr
  rw [Nat.zero_add] at hrun
  have hbound := word_toNat_lt hneg
  exact ⟨m, lt_turnLength (by omega), (congrArg _ hbegin).trans hrun⟩

section
variable {s : State} {xs rest : List Symbol} (hv : s.lutValid = true) (hneg : s.msglen.getLsbD 31 = false)
  (hin : s.symIn = xs ++ rest) (hpres : ∀ x ∈ xs, (lutAt x s).present = true)
  (hr : s.sinkReady.allows (codesOf s xs).length = true)
include hv hneg hin hpres hr

theorem exec_menc_of_message (hlen : xs.length = s.msglen.toNat) :
    exec .menc s = .next (finish .ok .none
      { sentBits (codesOf s xs) s with symIn := rest, symcnt := s.msglen }) := by
  obtain ⟨m, hm, hrun⟩ := coreSteps_begin_menc hv hneg hin hlen.le hpres hr
  have hdone : coreStep (mencAt xs rest s) = some (finish .ok .none (mencAt xs rest s)) := menc_done rfl hlen.ge
  rw [exec_of_coreSteps (coreSteps_trans hrun (coreSteps_one hdone)) hm (coreStep_finish _ _ _), mencAt,
    ofNat_of_eq_toNat hlen]
  rfl

theorem exec_menc_of_noCode {y : Symbol} {rest' : List Symbol} (hlen : xs.length < s.msglen.toNat)
    (hrest : rest = y :: rest') (hy : (lutAt y s).present = false) :
    exec .menc s = .next (finish .encodingError .noCode
      { sentBits (codesOf s xs) s with symIn := rest', symcnt := BitVec.ofNat 32 xs.length }) := by
  obtain ⟨m, hm, hrun⟩ := coreSteps_begin_menc hv hneg hin hlen.le hpres hr
  have hstop := menc_noCode (s := mencAt xs rest s) rfl hlen hrest hy
  exact exec_of_coreSteps (coreSteps_trans hrun (coreSteps_one hstop)) hm (coreStep_finish _ _ _)

theorem exec_menc_of_waiting (hlen : xs.length < s.msglen.toNat) (hrest : rest = []) :
    exec .menc s = .next (mencAt xs rest s) := by
  obtain ⟨m, hm, hrun⟩ := coreSteps_begin_menc hv hneg hin hlen.le hpres hr
  exact exec_of_coreSteps hrun hm.le (menc_wait rfl hlen hrest)

end

/-- Settles O48: the two refusals before any transfer, and the three ends of the message loop. -/
theorem mencWritesTheMessage : Obligations.MencWritesTheMessage := by
  refine ⟨rfl, fun s => ⟨exec_menc_of_noLut, exec_menc_of_neg, fun xs rest hv hneg hin hpres => ?_⟩⟩
  intro bits hr
  refine ⟨exec_menc_of_message hv hneg hin hpres hr, fun y rest' => exec_menc_of_noCode hv hneg hin hpres hr,
    fun hlen hrest => ?_⟩
  rw [exec_menc_of_waiting hv hneg hin hpres hr hlen hrest, hrest]
  rfl

/-! ### MDEC (R320, R311, R328) -/

theorem exec_mdec_of_none {s : State} (hs : s.trieState = .none) :
    exec .mdec s = .next (finish .sequenceError .noTrie { s with symcnt := 0, symout := none }) :=
  exec_of_begin_finish (by simp only [begin, beginMdec, hs])

theorem exec_mdec_of_empty {s : State} (hs : s.trieState = .empty) (hlen : s.msglen ≠ 0) :
    exec .mdec s = .next (finish .sequenceError .emptyTrie { s with symcnt := 0, symout := none }) := by
  refine exec_of_begin_finish ?_
  simp only [begin, beginMdec, hs]
  exact if_neg hlen

/-- Of the EMPTY trie the empty message can be decoded. -/
theorem exec_mdec_of_empty_zero {s : State} (hs : s.trieState = .empty) (hlen : s.msglen = 0) :
    exec .mdec s = .next (finish .ok .none { s with symcnt := 0, symout := none }) := by
  refine exec_of_begin_finish ?_
  simp only [begin, beginMdec, hs]
  exact if_pos hlen

theorem exec_mdec_of_neg {s : State} (hs : s.trieState = .valid) (hneg : s.msglen.getLsbD 31 = true) :
    exec .mdec s = .next (finish .inputError .negLen { s with symcnt := 0, symout := none }) := by
  refine exec_of_begin_finish ?_
  simp only [begin, beginMdec, hs]
  exact if_pos ((word_msb _).trans hneg)

/-- A state after MDEC has delivered the leaves `msg` and `rest` is still to come. -/
def deliveredState (msg : List (Symbol × List Bool)) (rest : List Bool) (s : State) : State :=
  { tookBits (msg.flatMap Prod.snd).length rest s with
    symOut := s.symOut ++ msg.map Prod.fst, symOutReady := s.symOutReady.after msg.length
    symout := (msg.map Prod.fst).getLast?, symcnt := BitVec.ofNat 32 msg.length }

section
variable {s : State} {t : Trie} {msg : List (Symbol × List Bool)} {rest : List Bool} (hs : s.trieState = .valid)
  (hat : TrieAt s.nodes s.root t) (hdepth : t.depth ≤ 255) (hneg : s.msglen.getLsbD 31 = false)
  (hmsg : ∀ q ∈ msg, q ∈ t.paths) (hb : s.srcBits = msg.flatMap Prod.snd ++ rest)
  (hr : s.symOutReady.allows msg.length = true)
include hs hat hdepth hneg hmsg hb hr

/-- MDEC delivers the leaves whose paths the stream starts with, and a turn is long enough for the whole message. -/
theorem coreSteps_begin_mdec (hlen : msg.length ≤ s.msglen.toNat) :
    ∃ m, m + 257 < Config.turnLength
      ∧ coreSteps m (begin .mdec s) = some { deliveredState msg rest s with task := .mdecNext msg.length } := by
  have hbegin : begin .mdec s = { s with symcnt := 0, symout := none, task := .mdecNext 0 } := by
    simp only [begin, beginMdec, hs]
    exact if_neg (ne_true_of_eq_false ((word_msb _).trans hneg))
  obtain ⟨m, hm, hrun⟩ := mdec_run msg (k := 0) (s := { s with symcnt := 0, symout := none, task := .mdecNext 0 }) hat
    hdepth rfl rfl hmsg hb ((Nat.zero_add _).trans_le hlen) hr
  rw [Nat.zero_add, Option.or_none] at hrun
  have hbound := word_toNat_lt hneg
  exact ⟨m, lt_turnLength (by omega), (congrArg _ hbegin).trans hrun⟩

theorem exec_mdec_of_message (hlen : msg.length = s.msglen.toNat) :
    exec .mdec s = .next (finish .ok .none (deliveredState msg rest s)) := by
  obtain ⟨m, hm, hrun⟩ := coreSteps_begin_mdec hs hat hdepth hneg hmsg hb hr hlen.le
  have hdone := mdec_done (s := { deliveredState msg rest s with task := .mdecNext msg.length }) rfl hlen.ge
  exact exec_of_coreSteps (coreSteps_trans hrun (coreSteps_one hdone)) (by omega) (coreStep_finish _ _ _)

theorem exec_mdec_of_cut (hlen : msg.length < s.msglen.toNat) (hw : t.walk rest = none) (hend : s.srcEnded = true) :
    exec .mdec s = .next (finish .formatError .truncMsg (tookBits rest.length [] (deliveredState msg rest s))) := by
  obtain ⟨m, hm, hrun⟩ := coreSteps_begin_mdec hs hat hdepth hneg hmsg hb hr hlen.le
  have hcut := mdec_trunc (s := { deliveredState msg rest s with task := .mdecNext msg.length }) hat rfl hlen hw hend
  refine exec_of_coreSteps (coreSteps_trans hrun hcut) ?_ (coreStep_finish _ _ _)
  have hrest := Trie.length_lt_depth_of_walk_eq_none hw
  change m + (1 + (rest.length + 1)) ≤ Config.turnLength
  omega

end

/-- Settles O49: MDEC by its preconditions, and the leaves delivered before its end or the end of the stream. -/
theorem mdecReadsTheMessage : Obligations.MdecReadsTheMessage := by
  refine ⟨rfl, fun s => ⟨exec_mdec_of_none, exec_mdec_of_empty, exec_mdec_of_empty_zero, exec_mdec_of_neg,
    fun t msg rest hs ht hwf hneg hmsg hb hr => ?_⟩⟩
  intro k
  obtain ⟨-, -, -, hdepth⟩ := ht.bounds hwf
  refine ⟨fun hlen => ?_, fun hlen hw hend => ?_⟩
  · rw [exec_mdec_of_message hs ht.1 hdepth hneg hmsg hb hr hlen, deliveredState, ofNat_of_eq_toNat hlen]
    rfl
  · rw [exec_mdec_of_cut hs ht.1 hdepth hneg hmsg hb hr hlen hw hend, deliveredState]
    simp only [finish, tookBits, Nat.add_assoc, BitVec.add_assoc, ← BitVec.ofNat_add]
    rfl

end Sys2Proof.Machine
end

section
/-! PROOFS. The code of the leaf set: BUILD's trie has one leaf for each symbol to be coded, and the code table one
entry for each leaf (44_message_codec.md R329). -/

namespace Sys2Proof.Machine

theorem Trie.symbols_length (t : Trie) : t.symbols.length = t.leaves := by
  rw [← t.paths_symbols, List.length_map, t.paths_length]

/-- BUILD with at least one leaf: the trie it leaves has the leaf symbols as its symbols. -/
theorem exec_build_trie {s : State} (hne : leafSymbols s ≠ []) :
    ∃ nodes t, exec .build s = .next (builtState s nodes (leafSymbols s).length)
      ∧ HoldsTrie (builtState s nodes (leafSymbols s).length) t ∧ t.symbols.Perm (leafSymbols s) := by
  obtain ⟨nodes, e, hrun, hloop, hnode⟩ := coreSteps_beginBuild hne
  obtain ⟨t, hat, hleaves, hperm⟩ := hloop.trie
  rw [hnode] at hat hperm
  have hL := leafSymbols_length s
  have hnodecnt : (BitVec.ofNat 10 (2 * (leafSymbols s).length - 1)).toNat = 2 * (leafSymbols s).length - 1 :=
    Nat.mod_eq_of_lt (by omega)
  have hleafcnt : (BitVec.ofNat 9 (leafSymbols s).length).toNat = (leafSymbols s).length := Nat.mod_eq_of_lt (by omega)
  refine ⟨nodes, t, exec_build_of_coreSteps hrun rfl, ⟨hat, ?_, hleaves.trans hleafcnt.symm⟩,
    (trie_optimal_of_coreSteps hne hrun hat).1⟩
  rw [builtState, hnodecnt]
  exact hperm

/-- A trie with as many leaves as there can be leaf symbols, or fewer, is small. -/
theorem Trie.size_depth_le {t : Trie} {s : State} (h : t.symbols.Perm (leafSymbols s)) :
    t.size ≤ 511 ∧ t.depth ≤ 255 := by
  have hleaves := t.symbols_length
  rw [h.length_eq] at hleaves
  have hL := leafSymbols_length s
  have hsize := t.size_add_one
  have hdepth := t.depth_lt_leaves
  omega

/-- A code table written from empty has an entry for exactly the symbols written. -/
theorem present_lutWith_iff (ps : List (Symbol × List Bool)) (x : Symbol) :
    (Table.read LutEntry.zero (lutWith [] ps) x.toNat).present = true ↔ x ∈ ps.map Prod.fst := by
  obtain hnone | ⟨before, p, after, rfl, hlast⟩ := last_pair ps x
  · rw [lutWith_read_ne ps [] x hnone]
    refine iff_of_false Bool.false_ne_true fun hx => ?_
    obtain ⟨q, hq, hqx⟩ := List.mem_map.1 hx
    exact hnone q hq hqx
  · rw [lutWith_read_last before after [] x p hlast]
    exact iff_of_true rfl (List.mem_map.2 ⟨(x, p), by simp, rfl⟩)

/-- Settles O38: without a leaf the table is empty, with leaves it is written from the paths of BUILD's trie. -/
theorem buildAndGenlutCodeExactlyTheLeafSet : Obligations.BuildAndGenlutCodeExactlyTheLeafSet := by
  intro s
  simp only [← mem_leafSymbols]
  by_cases hs : leafSymbols s = []
  · have hgenlut := exec_genlut_of_empty
      (s := finish .inputError .emptyInput (setTrie .empty 0 0 0 (clearTables s))) rfl
    refine ⟨_, (execAll_cons (exec_build_of_nil hs)).trans (execAll_cons hgenlut), rfl, fun x => ?_⟩
    rw [hs]
    exact iff_of_false Bool.false_ne_true List.not_mem_nil
  · obtain ⟨nodes, t, hbuild, ht, hsymbols⟩ := exec_build_trie hs
    have hgenlut := exec_genlut_of_trieAt rfl ht.1 ((Trie.size_depth_le hsymbols).1.trans_lt (by decide))
    refine ⟨_, (execAll_cons hbuild).trans (execAll_cons hgenlut), rfl, fun x => ?_⟩
    rw [← hsymbols.mem_iff, ← t.paths_symbols]
    exact present_lutWith_iff t.paths x

end Sys2Proof.Machine
end

section
/-! PROOFS. An artifact cut at a byte boundary: the bits that are left, the field they end in, and the command that
fails there (44_message_codec.md R327). -/

namespace Sys2Proof.Machine

/-! ### The bits of the first bytes (R107, R108) -/

theorem bytesBits_take (bs : List Byte) (j : Nat) : bytesBits (bs.take j) = (bytesBits bs).take (8 * j) := by
  induction bs generalizing j with
  | nil => simp
  | cons b bs ih =>
    cases j with
    | zero => simp
    | succ j =>
      have hbyte : (bitsMsb b).take (8 * (j + 1)) = bitsMsb b :=
        List.take_of_length_le (by rw [bitsMsb_length]; omega)
      rw [List.take_succ_cons, bytesBits_cons, bytesBits_cons, ih, List.take_append, hbyte, bitsMsb_length,
        show 8 * (j + 1) - 8 = 8 * j by omega]

/-- The bytes before the last one hold bits of the string only, no padding. -/
theorem lt_length_of_lt_packBytes {l : List Bool} {j : Nat} (h : j < (packBytes l).length) : 8 * j < l.length := by
  rw [packBytes_length] at h
  omega

theorem bytesBits_take_packBytes {l : List Bool} {j : Nat} (h : j < (packBytes l).length) :
    bytesBits ((packBytes l).take j) = l.take (8 * j) := by
  rw [bytesBits_take, bytesBits_packBytes, List.take_append_of_le_length (lt_length_of_lt_packBytes h).le]

/-! ### A message field cut short (R311) -/

/-- A walk does not end on a path that is not complete. -/
theorem Trie.walk_eq_none_of_path {t : Trie} {x : Symbol} {p q c : List Bool} (hp : (x, p) ∈ t.paths)
    (hpq : p = q ++ c) (hc : c ≠ []) : t.walk q = none := by
  refine Option.eq_none_iff_forall_ne_some.2 fun ⟨y, r⟩ hq => hc ?_
  obtain ⟨p', hp', rfl⟩ := walk_some hq
  have hx : t.walk p = some (x, []) := by simpa using walk_path hp []
  have hy : t.walk p = some (y, r ++ c) := by rw [hpq, List.append_assoc]; exact walk_path hp' (r ++ c)
  rw [hx] at hy
  have hnil : [] = r ++ c := congrArg Prod.snd (Option.some.inj hy)
  exact (List.append_eq_nil_iff.1 hnil.symm).2

/-- The bits `l` are those of fewer than `n` leaves of `t`, and then bits that end inside a walk. -/
def EndsInsideWalk (t : Trie) (n : Nat) (l : List Bool) : Prop :=
  ∃ (msg : List (Symbol × List Bool)) (rest : List Bool), l = msg.flatMap Prod.snd ++ rest ∧ msg.length < n
    ∧ (∀ q ∈ msg, q ∈ t.paths) ∧ t.walk rest = none

theorem EndsInsideWalk.path_append {t : Trie} {n : Nat} {l : List Bool} (h : EndsInsideWalk t n l)
    {q : Symbol × List Bool} (hq : q ∈ t.paths) : EndsInsideWalk t (n + 1) (q.2 ++ l) := by
  obtain ⟨msg, rest, rfl, hlen, hpaths, hwalk⟩ := h
  exact ⟨q :: msg, rest, by rw [List.flatMap_cons, List.append_assoc], Nat.succ_lt_succ hlen,
    List.forall_mem_cons.2 ⟨hq, hpaths⟩, hwalk⟩

/-- A message cut short ends inside a walk, that of the leaf the cut falls in. -/
theorem endsInsideWalk_of_cut {t : Trie} {msg : List (Symbol × List Bool)} (hmsg : ∀ q ∈ msg, q ∈ t.paths)
    {l c : List Bool} (hl : msg.flatMap Prod.snd = l ++ c) (hc : c ≠ []) : EndsInsideWalk t msg.length l := by
  induction msg generalizing l with
  | nil => exact absurd (List.append_eq_nil_iff.1 hl.symm).2 hc
  | cons q msg ih =>
    obtain ⟨hq, hmsg⟩ := List.forall_mem_cons.1 hmsg
    rw [List.flatMap_cons] at hl
    obtain ⟨a, rfl, ha⟩ | ⟨a, hqa, hca⟩ := List.append_eq_append_iff.1 hl
    · exact (ih hmsg ha).path_append hq
    · obtain rfl | hne := eq_or_ne a []
      · rw [← List.append_nil l, ← hqa, ← List.append_nil q.2]
        exact (ih (l := []) hmsg hca.symm).path_append hq
      · exact ⟨[], l, rfl, Nat.succ_pos _, by simp, Trie.walk_eq_none_of_path hq hqa hne⟩

/-! ### The command that fails -/

/-- The cut falls inside the trie. -/
theorem exec_tdec_of_take_ser {t : Trie} {u : State} {n : Nat} (hsize : t.size ≤ 511) (hend : u.srcEnded = true)
    (hsrc : u.srcBits = t.ser.take n) (hn : n < t.ser.length) :
    exec .tdec u = .next (tdecFail .truncTrie (tookBits u.srcBits.length [] (beginTdec u))) := by
  refine exec_tdec_of_cut (c := t.ser.drop n) (by rw [hsrc, List.take_append_drop]) ?_ hend ?_
  · rwa [Ne, List.drop_eq_nil_iff, not_le]
  · rw [List.take_of_length_le (t.nodeBits_length.trans_le hsize), t.nodeBits_flatten, hsrc]
    exact List.length_take_le' n t.ser

/-- The state of a decoder that has read the trie and the length `v`, with `rest` still to come. -/
def headerState (t : Trie) (v : Word) (rest : List Bool) (u : State) : State :=
  finish .ok .none { tookBits 32 rest (decodedState t (bitsMsb v ++ rest) u) with msglen := v }

theorem exec_ldec_decodedState {v : Word} (hv : v.getLsbD 31 = false) (t : Trie) (rest : List Bool) (u : State) :
    exec .ldec (decodedState t (bitsMsb v ++ rest) u) = .next (headerState t v rest u) :=
  exec_ldec_of_nonneg rfl hv

theorem headerState_trieAt {t : Trie} (hsize : t.size ≤ 511) (v : Word) (rest : List Bool) (u : State) :
    TrieAt (headerState t v rest u).nodes (headerState t v rest u).root t :=
  (decodedState_holdsTrie hsize (bitsMsb v ++ rest) u).1

theorem Trie.depth_le_of_size {t : Trie} (hsize : t.size ≤ 511) : t.depth ≤ 255 := by
  have hnodes := t.size_add_one
  have hdepth := t.depth_lt_leaves
  omega

/-- Settles O57: the bits that are left, field by field; a message field cut short ends inside a walk. -/
theorem cutArtifactFailsInItsField : Obligations.CutArtifactFailsInItsField := by
  intro t v msg j u hsize hv hlen hmsg _ bytes hj hsrc hend hready
  rw [bytesBits_take_packBytes hj, List.append_assoc] at hsrc
  refine ⟨fun hcut => ?_, fun hser hcut => ?_, fun hcut => ?_⟩
  · rw [List.take_append_of_le_length hcut.le] at hsrc
    exact ⟨_, exec_tdec_of_take_ser hsize hend hsrc hcut, rfl, rfl⟩
  · rw [List.take_append, List.take_of_length_le hser] at hsrc
    have hshort : ((bitsMsb v ++ msg.flatMap Prod.snd).take (8 * j - t.ser.length)).length < 32 :=
      (List.length_take_le _ _).trans_lt (by omega)
    exact ⟨_, _, exec_tdec_of_ser hsrc hsize, rfl, exec_ldec_of_short hshort hend, rfl, rfl⟩
  · rw [List.take_append, List.take_of_length_le (by omega), List.take_append,
      List.take_of_length_le (by rw [bitsMsb_length]; omega), bitsMsb_length] at hsrc
    have hrest : (msg.flatMap Prod.snd).drop (8 * j - t.ser.length - 32) ≠ [] := by
      have htotal := lt_length_of_lt_packBytes hj
      rw [List.length_append, List.length_append, bitsMsb_length] at htotal
      rw [Ne, List.drop_eq_nil_iff]
      omega
    obtain ⟨msg', rest, hl, hfewer, hpaths, hwalk⟩ :=
      endsInsideWalk_of_cut hmsg (List.take_append_drop _ _).symm hrest
    rw [hl] at hsrc
    refine ⟨_, _, _, exec_tdec_of_ser hsrc hsize, rfl, exec_ldec_decodedState hv t _ u, rfl,
      exec_mdec_of_cut rfl (headerState_trieAt hsize v _ u) (Trie.depth_le_of_size hsize) hv hpaths rfl ?_
        (hfewer.trans_eq hlen) hwalk hend, rfl, rfl⟩
    change u.symOutReady.allows msg'.length = true
    rw [hready]
    rfl

end Sys2Proof.Machine
end

section
/-! PROOFS. The lines of a host program: what each does besides what its command means (30_encoding.md R181, R182;
70_reset_and_hazards.md R461; log 1, log 12). -/

namespace Sys2Proof.Machine

/-! ### Runs of the machine -/

theorem run_add {M : Host.Core} {j : Nat} {s t : M.State} (h : M.run j s = .next t) (k : Nat) :
    M.run (j + k) s = M.run k t := by
  induction j generalizing s with
  | zero =>
    obtain rfl := Host.Outcome.next.inj h
    rw [Nat.zero_add]
  | succ j ih =>
    rw [Nat.succ_add, Host.Core.run]
    rw [Host.Core.run] at h
    split at h
    · exact ih h
    · cases h
    · cases h

theorem run_one {s t : State} (h : step s = .next t) : Host.Core.run core 1 s = .next t := by
  have hstep : core.step s = .next t := h
  simp only [Host.Core.run, hstep]

/-! ### The host's part of the state (log 1) -/

/-- `s` with the host's part exchanged: the events still to come, the words read so far, and the word in `CMD`. -/
def withHost (agenda : List Turn) (reads : List Word) (cmd : Word) (s : State) : State :=
  { s with agenda := agenda, reads := reads, cmd := cmd }

theorem withHost_self {s : State} {agenda : List Turn} (h : s.agenda = agenda) :
    withHost agenda s.reads s.cmd s = s := by
  rw [← h]
  rfl

/-- Whatever the host has read before and does later, the events of `script` take `s` to `t` and read the words `ws`. -/
def HostRuns (script : List Turn) (s : State) (ws : List Word) (t : State) : Prop :=
  ∀ later reads cmd, ∃ cmd', Host.Core.run core script.length (withHost (script ++ later) reads cmd s)
    = .next (withHost later (reads ++ ws) cmd' t)

theorem HostRuns.nil (s : State) : HostRuns [] s [] s := fun later reads cmd =>
  ⟨cmd, by rw [List.append_nil]; rfl⟩

theorem HostRuns.append {a b : List Turn} {s t u : State} {ws vs : List Word} (h : HostRuns a s ws t)
    (h' : HostRuns b t vs u) : HostRuns (a ++ b) s (ws ++ vs) u := by
  intro later reads cmd
  obtain ⟨cmd₁, hrun⟩ := h (b ++ later) reads cmd
  obtain ⟨cmd₂, hrun'⟩ := h' later (reads ++ ws) cmd₁
  refine ⟨cmd₂, ?_⟩
  rw [List.append_assoc, List.length_append, run_add hrun, hrun', List.append_assoc]

/-- The run from a state whose agenda begins with the script. -/
theorem HostRuns.run {script later : List Turn} {s t : State} {ws : List Word} (h : HostRuns script s ws t)
    (ha : s.agenda = script ++ later) :
    ∃ cmd, Host.Core.run core script.length s = .next (withHost later (s.reads ++ ws) cmd t) := by
  obtain ⟨cmd, hrun⟩ := h later s.reads s.cmd
  rw [withHost_self ha] at hrun
  exact ⟨cmd, hrun⟩

/-! ### One line (R181, R182, R461) -/

/-- An event other than WAIT that leaves the core idle. -/
theorem HostRuns.event {e : Event} {s t : State} (he : e ≠ .wait) (ht : t.task = .idle)
    (hperform : ∀ agenda reads cmd, perform e (withHost agenda reads cmd s) = withHost agenda reads cmd t) :
    HostRuns [⟨e, .full⟩] s [] t := by
  intro later reads cmd
  refine ⟨cmd, run_one ?_⟩
  rw [step_cons rfl, serve_of_ne_wait he]
  refine (congrArg (coreTurn .full) (hperform later reads cmd)).trans ?_
  rw [coreTurn_idle .full (s := withHost later reads cmd t) ht, List.append_nil]

/-- A command that completes, and the WAIT that reads its `STATUS`. -/
theorem HostRuns.command {i : Instr} {s t : State} (hs : s.task = .idle) (ht : t.task = .idle)
    (hexec : ∀ agenda reads, exec i (withHost agenda reads (encode i) { s with task := .issued })
      = .next (withHost agenda reads (encode i) t)) : HostRuns (commandLine i) s [statusWord t] t := by
  intro later reads cmd
  have hissue : step (withHost (commandLine i ++ later) reads cmd s)
      = .next (withHost (⟨.wait, .full⟩ :: later) reads (encode i) t) := by
    refine (step_issue ?_ rfl (decode_encode i)).trans (hexec _ reads)
    simp only [State.busy, withHost, hs]
  have hwait : step (withHost (⟨.wait, .full⟩ :: later) reads (encode i) t)
      = .next (withHost later (reads ++ [statusWord t]) (encode i) t) := by
    rw [step_cons rfl, serve_wait]
    · exact coreTurn_idle .full ht
    · simp only [State.busy, withHost, ht]
  exact ⟨encode i, (run_add (run_one hissue) 1).trans (run_one hwait)⟩

/-! ### `STATUS` as the host sees it (R35) -/

theorem resultField_statusWord (s : State) : resultField (statusWord s) = s.result.code :=
  (statusWord_fields s).2.2.1

theorem subcauseField_statusWord (s : State) : subcauseField (statusWord s) = s.subcause.code :=
  (statusWord_fields s).2.2.2.1

theorem resultField_finish_ok (s : State) : resultField (statusWord (finish .ok .none s)) = 0 :=
  resultField_statusWord _

/-- A command that completes OK. -/
theorem HostRuns.command_ok {i : Instr} {s t : State} (hs : s.task = .idle)
    (hexec : ∀ agenda reads, exec i (withHost agenda reads (encode i) { s with task := .issued })
      = .next (withHost agenda reads (encode i) (finish .ok .none t))) :
    HostRuns (commandLine i) s [statusWord (finish .ok .none t)] (finish .ok .none t) :=
  .command hs rfl hexec

end Sys2Proof.Machine
end

section
/-! PROOFS. The compression sequence and the decompression sequence of R462, line by line, and that the one gives back
what the other took (44_message_codec.md R325, R326). -/

namespace Sys2Proof.Machine

/-! ### Counting the message (40_frequency.md R202) -/

/-- A CNT that finds room moves one occurrence from the message to the counts. -/
theorem freqAt_counted_add {s : State} {x : Symbol} (hfull : freqAt x s ≠ 0xFFFFFFFF) (xs : List Symbol)
    (y : Symbol) : (freqAt y (writeFreq x (freqAt x s + 1) s)).toNat + xs.count y
      = (freqAt y s).toNat + (x :: xs).count y := by
  rw [freqAt, read_counted hfull, List.count_cons]
  by_cases hxy : x = y
  · subst hxy
    rw [if_pos rfl, if_pos (beq_self_eq_true x)]
    bv_omega
  · rw [if_neg (mt BitVec.eq_of_toNat_eq hxy), if_neg (by simpa using hxy)]
    rfl

/-- The CNT lines of a message of allowed symbols add the occurrences of each symbol to its count. -/
theorem hostRuns_cnt (xs : List Symbol) {s : State} (hallow : ∀ x ∈ xs, allowed x s = true)
    (hroom : ∀ x, (freqAt x s).toNat + xs.count x ≤ 0xFFFFFFFF) :
    ∃ f, HostRuns (xs.flatMap fun x => commandLine (.cnt x)) (finish .ok .none s)
        (List.replicate xs.length (statusWord (finish .ok .none s))) (finish .ok .none { s with freq := f })
      ∧ ∀ x, (freqAt x { s with freq := f }).toNat = (freqAt x s).toNat + xs.count x := by
  induction xs generalizing s with
  | nil => exact ⟨s.freq, .nil _, fun x => rfl⟩
  | cons x xs ih =>
    obtain ⟨hx, hxs⟩ := List.forall_mem_cons.1 hallow
    have hfull : freqAt x s ≠ 0xFFFFFFFF := by
      intro hmax
      have := hroom x
      simp [hmax] at this
    have hcount := freqAt_counted_add hfull xs
    have hline : HostRuns (commandLine (.cnt x)) (finish .ok .none s) [statusWord (finish .ok .none s)]
        (finish .ok .none (writeFreq x (freqAt x s + 1) s)) :=
      .command_ok rfl fun _ _ => exec_cnt_of_allowed hx hfull
    obtain ⟨f, hlines, htotal⟩ := ih (s := writeFreq x (freqAt x s + 1) s) hxs
      fun y => (hcount y).trans_le (hroom y)
    exact ⟨f, hline.append hlines, fun y => (htotal y).trans (hcount y)⟩

/-- Once CLRFREQ has run, the CNT lines of a message make its symbols the leaf symbols. -/
theorem exists_hostRuns_count {s : State} {m : List Symbol} (hidle : s.task = .idle) (hlen : m.length < 2 ^ 31)
    (hallow : ∀ x ∈ m, allowed x s = true) :
    ∃ f ws, HostRuns (commandLine .clrfreq ++ m.flatMap fun x => commandLine (.cnt x)) s ws
        (finish .ok .none { s with freq := f })
      ∧ ws.length = m.length + 1 ∧ (∀ w ∈ ws, resultField w = 0)
      ∧ ∀ x, x ∈ leafSymbols { s with freq := f } ↔ x ∈ m := by
  have hclr : HostRuns (commandLine .clrfreq) s [statusWord (finish .ok .none { s with freq := [] })]
      (finish .ok .none { s with freq := [] }) := .command_ok hidle fun _ _ => exec_clrfreq _
  obtain ⟨f, hcnt, htotal⟩ := hostRuns_cnt m (s := { s with freq := [] }) hallow fun x =>
    (Nat.zero_add _).trans_le (List.count_le_length.trans (by omega))
  refine ⟨f, _, hclr.append hcnt, by simp, ?_, fun x => ?_⟩
  · simp only [List.singleton_append, List.mem_cons, List.mem_replicate]
    rintro w (rfl | ⟨-, rfl⟩) <;> exact resultField_finish_ok _
  · have hfreq : freqAt x { s with freq := f } ≠ 0 ↔ x ∈ m := by
      have hx : (freqAt x { s with freq := f }).toNat = m.count x := (htotal x).trans (Nat.zero_add _)
      rw [Ne, ← BitVec.toNat_inj, hx]
      exact Nat.pos_iff_ne_zero.symm.trans List.count_pos_iff
    rw [mem_leafSymbols, hfreq]
    exact and_iff_right_of_imp (hallow x)

/-! ### The code and the trie field (R329, R172) -/

/-- The trie of BUILD does not depend on the host's part of the state (41_trie_builder.md R229). -/
theorem exec_build_congr {s s' : State} {nodes : Table Node} (hf : s.freq = s'.freq) (ha : s.allow = s'.allow)
    (hne : leafSymbols s ≠ []) (h : exec .build s = .next (builtState s nodes (leafSymbols s).length)) :
    exec .build s' = .next (builtState s' nodes (leafSymbols s).length) := by
  rw [leafSymbols_congr hf ha] at hne
  obtain ⟨nodes', e, hexec, -⟩ := exec_build hne
  obtain ⟨hnodes, -⟩ := buildIsDeterminedByItsTable s s' _ _ hf ha h hexec
  obtain rfl : nodes = nodes' := hnodes
  rw [hexec, leafSymbols_congr hf ha]

/-- In `g` trie `t` and the code table are those of the leaf symbols of `s`, and the ports are as in `s`. -/
structure CodesLeaves (s : State) (t : Trie) (g : State) : Prop where
  leaves : t.leaves ≤ max 1 (leafSymbols s).length
  lutValid : g.lutValid = true
  codes : ∀ x ∈ leafSymbols s, (lutAt x g).present = true ∧ (x, lutCode g x) ∈ t.paths
  idle : g.task = .idle
  sink : g.sink = s.sink
  sinkReady : g.sinkReady = s.sinkReady
  symIn : g.symIn = s.symIn

theorem CodesLeaves.size_le {s g : State} {t : Trie} (h : CodesLeaves s t g) : t.size ≤ 511 := by
  have hleaves := h.leaves
  have hL := leafSymbols_length s
  have hsize := t.size_add_one
  omega

/-- The lines BUILD, GENLUT and TENC make the code of the leaf symbols and send its trie. -/
def SendsCode (s : State) (t : Trie) (g : State) : Prop :=
  CodesLeaves s t g ∧ ∃ wb ws,
    HostRuns (commandLine .build ++ commandLine .genlut ++ commandLine .tenc) s (wb :: ws)
      (finish .ok .none (sentBits t.ser g))
    ∧ ws.length = 2 ∧ (∀ w ∈ ws, resultField w = 0)
    ∧ if leafSymbols s = [] then resultField wb = 1 ∧ subcauseField wb = 1 else resultField wb = 0

/-- Without a leaf symbol the code table is empty, and the trie sent is the trivial one (43_trie_codec.md R262). -/
theorem exists_sendsCode_of_nil {s : State} (hidle : s.task = .idle) (hready : s.sinkReady = .always)
    (hs : leafSymbols s = []) : ∃ t g, SendsCode s t g := by
  let b := finish .inputError .emptyInput (setTrie .empty 0 0 0 (clearTables s))
  let g := finish .ok .none { b with lut := [], lutValid := true }
  have hbuild : HostRuns (commandLine .build) s [statusWord b] b :=
    .command hidle rfl fun _ _ => exec_build_of_nil hs
  have hgenlut : HostRuns (commandLine .genlut) b [statusWord g] g :=
    .command_ok rfl fun _ _ => exec_genlut_of_empty rfl
  have htenc : HostRuns (commandLine .tenc) g [statusWord (finish .ok .none (sentBits (Trie.leaf 0).ser g))]
      (finish .ok .none (sentBits (Trie.leaf 0).ser g)) :=
    .command_ok rfl fun _ _ => exec_tenc_of_empty rfl (congrArg (Ready.allows · 9) hready)
  refine ⟨.leaf 0, g, ⟨Nat.le_max_left _ _, rfl, by simp [hs], rfl, rfl, rfl, rfl⟩, statusWord b, _,
    (hbuild.append hgenlut).append htenc, rfl, ?_, ?_⟩
  · exact List.forall_mem_cons.2 ⟨resultField_finish_ok _, List.forall_mem_singleton.2 (resultField_finish_ok _)⟩
  · rw [if_pos hs]
    exact ⟨resultField_statusWord b, subcauseField_statusWord b⟩

/-- A leaf symbol's entry is a path to a leaf of it. -/
theorem lutCode_mem_paths_of_lut {g : State} {t : Trie} (hlut : g.lut = lutWith [] t.paths) (hdepth : t.depth ≤ 255)
    {x : Symbol} (hx : x ∈ t.symbols) : (lutAt x g).present = true ∧ (x, lutCode g x) ∈ t.paths := by
  rw [← t.paths_symbols] at hx
  have hpresent : (lutAt x g).present = true := by
    rw [lutAt, hlut]
    exact (present_lutWith_iff t.paths x).2 hx
  obtain hnone | ⟨before, p, after, hpaths, hlast⟩ := last_pair t.paths x
  · obtain ⟨q, hq, hqx⟩ := List.mem_map.1 hx
    exact absurd hqx (hnone q hq)
  · have hmem : (x, p) ∈ t.paths := by simp [hpaths]
    have hentry : lutAt x g = LutEntry.ofPath p := by
      rw [lutAt, hlut, hpaths, lutWith_read_last before after [] x p hlast]
    have hlen : p.length ≤ 255 := (Trie.pathsFrom_bound hmem).trans ((Nat.zero_add _).trans_le hdepth)
    exact ⟨hpresent, by rwa [lutCode, hentry, code_ofPath p hlen]⟩

/-- With leaf symbols the code table and the trie sent are those of BUILD's trie. -/
theorem exists_sendsCode_of_ne_nil {s : State} (hidle : s.task = .idle) (hready : s.sinkReady = .always)
    (hs : leafSymbols s ≠ []) : ∃ t g, SendsCode s t g := by
  obtain ⟨nodes, t, hexec, ht, hsymbols⟩ := exec_build_trie hs
  obtain ⟨hsize, hdepth⟩ := Trie.size_depth_le hsymbols
  let b := builtState s nodes (leafSymbols s).length
  let g := finish .ok .none { b with lut := lutWith [] t.paths, lutValid := true }
  have hbuild : HostRuns (commandLine .build) s [statusWord b] b :=
    .command hidle rfl fun _ _ => exec_build_congr rfl rfl hs hexec
  have hgenlut : HostRuns (commandLine .genlut) b [statusWord g] g :=
    .command_ok rfl fun _ _ => exec_genlut_of_trieAt rfl ht.1 (hsize.trans_lt (by decide))
  have htenc : HostRuns (commandLine .tenc) g [statusWord (finish .ok .none (sentBits t.ser g))]
      (finish .ok .none (sentBits t.ser g)) :=
    .command_ok rfl fun _ _ => exec_tenc_of_holdsTrie rfl ht (congrArg (Ready.allows · _) hready)
  have hleaves : t.leaves = (leafSymbols s).length := by rw [← t.symbols_length, hsymbols.length_eq]
  refine ⟨t, g, ⟨hleaves.trans_le (Nat.le_max_right _ _), rfl, fun x hx =>
    lutCode_mem_paths_of_lut rfl hdepth (hsymbols.mem_iff.2 hx), rfl, rfl, rfl, rfl⟩, statusWord b, _,
    (hbuild.append hgenlut).append htenc, rfl, ?_, ?_⟩
  · exact List.forall_mem_cons.2 ⟨resultField_finish_ok _, List.forall_mem_singleton.2 (resultField_finish_ok _)⟩
  · rw [if_neg hs]
    exact resultField_statusWord b

theorem exists_sendsCode {s : State} (hidle : s.task = .idle) (hready : s.sinkReady = .always) :
    ∃ t g, SendsCode s t g := by
  by_cases hs : leafSymbols s = []
  · exact exists_sendsCode_of_nil hidle hready hs
  · exact exists_sendsCode_of_ne_nil hidle hready hs

end Sys2Proof.Machine
end

section
/-! PROOFS. The artifact of a compressed message, and its decompression (44_message_codec.md R325, R326;
70_reset_and_hazards.md R462). -/

namespace Sys2Proof.Machine

/-! ### CLOSE (45_control.md R351) -/

theorem exec_close {s : State} (hr : s.sinkReady.allows 1 = true) :
    exec .close s
      = .next (finish .ok .none { s with sink := s.sink ++ [.close], sinkReady := s.sinkReady.after 1 }) := by
  obtain ⟨r, htake, -, hafter⟩ := allows_succ hr
  rw [after_zero] at hafter
  refine exec_of_coreSteps (k := 1) (coreSteps_one ?_) (by decide) (coreStep_finish _ _ _)
  simp only [begin, beginClose, coreStep, closeStep, sinkClose, htake, hafter]
  rfl

/-! ### The length and the message (R300, R315) -/

theorem withHost_busy {s : State} (h : s.task = .idle) (agenda : List Turn) (reads : List Word) (cmd : Word) :
    (withHost agenda reads cmd s).busy = false := by
  simp only [State.busy, withHost, h]

theorem ofNat_length_nonneg {α : Type} {l : List α} (h : l.length < 2 ^ 31) :
    (BitVec.ofNat 32 l.length).toNat = l.length ∧ (BitVec.ofNat 32 l.length).getLsbD 31 = false := by
  have hnat : (BitVec.ofNat 32 l.length).toNat = l.length := Nat.mod_eq_of_lt (by omega)
  refine ⟨hnat, ?_⟩
  rw [← word_msb, BitVec.msb_eq_false_iff_two_mul_lt, hnat]
  omega

/-- The lines from the write of `MSGLEN` on send the length, the code words of `m` and a Close. -/
theorem exists_hostRuns_message {s : State} {m rest : List Symbol} (hidle : s.task = .idle)
    (hv : s.lutValid = true) (hpres : ∀ x ∈ m, (lutAt x s).present = true) (hready : s.sinkReady = .always)
    (hin : s.symIn = m ++ rest) (hlen : m.length < 2 ^ 31) :
    ∃ ws u, HostRuns ([⟨.write 0x014 (BitVec.ofNat 32 m.length), .full⟩] ++ commandLine .lenc ++ commandLine .menc
        ++ commandLine .close) s ws u
      ∧ ws.length = 3 ∧ (∀ w ∈ ws, resultField w = 0) ∧ u.task = .idle ∧ u.symIn = rest
      ∧ u.sink = s.sink ++ (bitsMsb (BitVec.ofNat 32 m.length) ++ codesOf s m).map .bit ++ [.close] := by
  obtain ⟨hnat, hneg⟩ := ofNat_length_nonneg hlen
  let s₁ : State := { s with msglen := BitVec.ofNat 32 m.length }
  let s₂ := finish .ok .none (sentBits (bitsMsb s₁.msglen) s₁)
  let s₃ := finish .ok .none { sentBits (codesOf s₂ m) s₂ with symIn := rest, symcnt := s₂.msglen }
  let s₄ := finish .ok .none { s₃ with sink := s₃.sink ++ [.close], sinkReady := s₃.sinkReady.after 1 }
  have hready₂ : s₂.sinkReady = .always := congrArg (Ready.after · _) hready
  have hready₃ : s₃.sinkReady = .always := congrArg (Ready.after · _) hready₂
  have hwrite : HostRuns [⟨.write 0x014 (BitVec.ofNat 32 m.length), .full⟩] s [] s₁ :=
    .event Event.noConfusion hidle fun agenda reads cmd =>
      hostWrite_idle regAt_msglen (withHost_busy hidle agenda reads cmd) _
  have hlenc : HostRuns (commandLine .lenc) s₁ [statusWord s₂] s₂ :=
    .command_ok hidle fun _ _ => exec_lenc (congrArg (Ready.allows · 32) hready)
  have hmenc : HostRuns (commandLine .menc) s₂ [statusWord s₃] s₃ :=
    .command_ok rfl fun _ _ => exec_menc_of_message hv hneg hin hpres (congrArg (Ready.allows · _) hready₂) hnat.symm
  have hclose : HostRuns (commandLine .close) s₃ [statusWord s₄] s₄ :=
    .command_ok rfl fun _ _ => exec_close (congrArg (Ready.allows · 1) hready₃)
  refine ⟨_, s₄, ((hwrite.append hlenc).append hmenc).append hclose, rfl, ?_, rfl, rfl, ?_⟩
  · exact List.forall_mem_cons.2 ⟨resultField_finish_ok _, List.forall_mem_cons.2
      ⟨resultField_finish_ok _, List.forall_mem_singleton.2 (resultField_finish_ok _)⟩⟩
  · rw [List.map_append, ← List.append_assoc]
    rfl

/-! ### The compression sequence -/

/-- The bits of the artifact of a trie and a message of its leaves (30_encoding.md R170). -/
def artifactBits (t : Trie) (msg : List (Symbol × List Bool)) : List Bool :=
  t.ser ++ bitsMsb (BitVec.ofNat 32 msg.length) ++ msg.flatMap Prod.snd

/-- Trie `t` codes message `m`: `msg` is its leaves, and the trie has one leaf if it has to code one symbol at most. -/
structure CodesMessage (m : List Symbol) (t : Trie) (msg : List (Symbol × List Bool)) : Prop where
  size_le : t.size ≤ 511
  paths : ∀ q ∈ msg, q ∈ t.paths
  symbols : msg.map Prod.fst = m
  leaves : ∀ x, (∀ y ∈ m, y = x) → t.leaves = 1

/-- A code of the leaf symbols codes every message of them. -/
theorem CodesLeaves.codesMessage {s g : State} {t : Trie} {m : List Symbol} (h : CodesLeaves s t g)
    (hm : ∀ x, x ∈ leafSymbols s ↔ x ∈ m) : CodesMessage m t (m.map fun x => (x, lutCode g x)) where
  size_le := h.size_le
  paths := by
    intro q hq
    obtain ⟨x, hx, rfl⟩ := List.mem_map.1 hq
    exact (h.codes x ((hm x).2 hx)).2
  symbols := by
    rw [List.map_map]
    exact List.map_id m
  leaves := by
    intro x hx
    have hsub : leafSymbols s ⊆ [x] := fun y hy => List.mem_singleton.2 (hx y ((hm y).1 hy))
    have hone : (leafSymbols s).length ≤ 1 := (List.subperm_of_subset (leafSymbols_nodup s) hsub).length_le
    have hpos := t.leaves_pos
    have hleaves := h.leaves
    omega

/-- The message field holds the code words of the leaves (R306). -/
theorem codesOf_eq_flatMap (g : State) (m : List Symbol) :
    codesOf g m = (m.map fun x => (x, lutCode g x)).flatMap Prod.snd := by
  rw [List.flatMap_map]
  rfl

/-- What the words read by the compression sequence of `m` say: `wb`, BUILD's, is EMPTY_INPUT if `m` is empty; every
other command, and BUILD too if `m` is not empty, completes OK. -/
structure CompressWords (m : List Symbol) (pre : List Word) (wb : Word) (post : List Word) : Prop where
  pre_length : pre.length = m.length + 1
  post_length : post.length = 5
  pre_ok : ∀ w ∈ pre, resultField w = 0
  build : if m = [] then resultField wb = 1 ∧ subcauseField wb = 1 else resultField wb = 0
  post_ok : ∀ w ∈ post, resultField w = 0

theorem CompressWords.length {m : List Symbol} {pre post : List Word} {wb : Word} (h : CompressWords m pre wb post) :
    (pre ++ wb :: post).length = m.length + 7 := by
  rw [List.length_append, List.length_cons, h.pre_length, h.post_length]

/-- The words by their index. -/
theorem CompressWords.getElem {m : List Symbol} {pre post : List Word} {wb : Word} (h : CompressWords m pre wb post)
    {k : Nat} (hk : k < (pre ++ wb :: post).length) :
    if k = m.length + 1 ∧ m = [] then
      resultField (pre ++ wb :: post)[k] = 1 ∧ subcauseField (pre ++ wb :: post)[k] = 1
    else resultField (pre ++ wb :: post)[k] = 0 := by
  rw [← h.pre_length]
  obtain hlt | rfl | hgt := Nat.lt_trichotomy k pre.length
  · rw [if_neg fun hmid => hlt.ne hmid.1, List.getElem_append_left hlt]
    exact h.pre_ok _ (List.getElem_mem hlt)
  · rw [List.getElem_append_right le_rfl]
    simpa using h.build
  · rw [if_neg fun hmid => hgt.ne' hmid.1, List.getElem_append_right hgt.le, List.getElem_cons, dif_neg (by omega)]
    exact h.post_ok _ (List.getElem_mem _)

/-- The whole sequence: the words read, the artifact sent and the symbols taken. -/
theorem exists_hostRuns_compressScript {s : State} {m rest : List Symbol} (hidle : s.task = .idle)
    (hlen : m.length < 2 ^ 31) (hallow : ∀ x ∈ m, allowed x s = true) (hready : s.sinkReady = .always)
    (hin : s.symIn = m ++ rest) :
    ∃ t msg pre wb post u, CodesMessage m t msg ∧ CompressWords m pre wb post
      ∧ HostRuns (compressScript m) s (pre ++ wb :: post) u ∧ u.task = .idle ∧ u.symIn = rest
      ∧ u.sink = s.sink ++ (artifactBits t msg).map .bit ++ [.close] := by
  obtain ⟨f, pre, hcount, hpre, hpreOk, hmem⟩ := exists_hostRuns_count hidle hlen hallow
  let s₁ := finish .ok .none { s with freq := f }
  have hleaf : ∀ x, x ∈ leafSymbols s₁ ↔ x ∈ m := hmem
  have hnil : leafSymbols s₁ = [] ↔ m = [] := by simp only [List.eq_nil_iff_forall_not_mem, hleaf]
  obtain ⟨t, g, hcodes, wb, ws, hcode, hws, hwsOk, hwb⟩ := exists_sendsCode (s := s₁) rfl hready
  rw [if_congr hnil rfl rfl] at hwb
  let s₂ := finish .ok .none (sentBits t.ser g)
  obtain ⟨ws', u, hmessage, hws', hwsOk', huidle, husym, husink⟩ := exists_hostRuns_message (s := s₂) rfl
    hcodes.lutValid (fun x hx => (hcodes.codes x ((hleaf x).2 hx)).1)
    (congrArg (Ready.after · _) (hcodes.sinkReady.trans hready)) (hcodes.symIn.trans hin) hlen
  refine ⟨t, _, pre, wb, ws ++ ws', u, hcodes.codesMessage hleaf, ⟨hpre, by simp [hws, hws'], hpreOk, hwb,
    List.forall_mem_append.2 ⟨hwsOk, hwsOk'⟩⟩, ?_, huidle, husym, ?_⟩
  · have hall := hcount.append (hcode.append hmessage)
    simpa only [compressScript, List.append_assoc, List.cons_append, List.nil_append] using hall
  · have hsink : s₂.sink = s.sink ++ t.ser.map .bit := congrArg (· ++ t.ser.map SinkEvent.bit) hcodes.sink
    have hbits : codesOf s₂ m = codesOf g m := rfl
    rw [husink, hsink, hbits, codesOf_eq_flatMap, artifactBits, List.length_map]
    simp only [List.map_append, List.append_assoc]

/-! ### The artifact's length -/

/-- One leaf has the empty path, so a one-leaf trie's artifact is 9 bits of trie and 32 of length. -/
theorem packBytes_artifactBits_length {t : Trie} {msg : List (Symbol × List Bool)} (ht : t.leaves = 1)
    (hmsg : ∀ q ∈ msg, q ∈ t.paths) : (packBytes (artifactBits t msg)).length = 6 := by
  have hdepth := t.depth_lt_leaves
  have hser := t.ser_length
  have hempty : msg.flatMap Prod.snd = [] := List.flatMap_eq_nil_iff.2 fun q hq =>
    List.length_eq_zero_iff.1 (Nat.le_zero.1 ((Trie.pathsFrom_bound (hmsg q hq)).trans (by
      rw [List.length_nil]
      omega)))
  rw [packBytes_length, artifactBits, hempty, List.append_nil, List.length_append, bitsMsb_length]
  omega

/-! ### The decompression sequence -/

/-- The sequence on the artifact of `t` and `msg`, whatever bits fill its last byte. -/
theorem exists_hostRuns_decompressScript {u : State} {t : Trie} {msg : List (Symbol × List Bool)} {pad : List Bool}
    {bytes : List Byte} (hidle : u.task = .idle) (hready : u.symOutReady = .always) (hsize : t.size ≤ 511)
    (hmsg : ∀ q ∈ msg, q ∈ t.paths) (hlen : msg.length < 2 ^ 31)
    (hbytes : bytesBits bytes = artifactBits t msg ++ pad) :
    ∃ vs v, HostRuns (⟨.srcStream bytes, .full⟩ :: decompressScript) u vs v ∧ vs.length = 3
      ∧ (∀ w ∈ vs, resultField w = 0) ∧ v.task = .idle ∧ v.symOut = u.symOut ++ msg.map Prod.fst := by
  obtain ⟨hnat, hneg⟩ := ofNat_length_nonneg hlen
  have hbits : bytesBits bytes
      = t.ser ++ (bitsMsb (BitVec.ofNat 32 msg.length) ++ (msg.flatMap Prod.snd ++ pad)) := by
    rw [hbytes, artifactBits]
    simp only [List.append_assoc]
  let u₁ := newStream (bytesBits bytes) true u
  let u₂ := decodedState t (bitsMsb (BitVec.ofNat 32 msg.length) ++ (msg.flatMap Prod.snd ++ pad)) u₁
  let u₃ := headerState t (BitVec.ofNat 32 msg.length) (msg.flatMap Prod.snd ++ pad) u₁
  let u₄ := finish .ok .none (deliveredState msg pad u₃)
  have hat : TrieAt u₃.nodes u₃.root t := headerState_trieAt hsize _ _ u₁
  have hstream : HostRuns [⟨.srcStream bytes, .full⟩] u [] u₁ := .event Event.noConfusion hidle fun _ _ _ => rfl
  have htdec : HostRuns (commandLine .tdec) u₁ [statusWord u₂] u₂ :=
    .command_ok hidle fun _ _ => exec_tdec_of_ser hbits hsize
  have hldec : HostRuns (commandLine .ldec) u₂ [statusWord u₃] u₃ :=
    .command_ok rfl fun _ _ => exec_ldec_of_nonneg rfl hneg
  have hmdec : HostRuns (commandLine .mdec) u₃ [statusWord u₄] u₄ :=
    .command_ok rfl fun _ _ => exec_mdec_of_message rfl hat (Trie.depth_le_of_size hsize) hneg hmsg rfl
      (congrArg (Ready.allows · _) hready) hnat.symm
  refine ⟨_, u₄, hstream.append ((htdec.append hldec).append hmdec), rfl, ?_, rfl, rfl⟩
  exact List.forall_mem_cons.2 ⟨resultField_finish_ok _, List.forall_mem_cons.2
    ⟨resultField_finish_ok _, List.forall_mem_singleton.2 (resultField_finish_ok _)⟩⟩

/-! ### There and back (R325, R326) -/

/-- A Close releases the bits since the Close before it, or since the start. -/
theorem artifacts_append_bits_close {es : List SinkEvent} (h : es = [] ∨ ∃ es', es = es' ++ [.close])
    (l : List Bool) : artifacts (es ++ l.map .bit ++ [.close]) = artifacts es ++ [packBytes l] := by
  obtain rfl | ⟨es', rfl⟩ := h
  · exact artifacts_bits_close l
  · exact artifacts_append_close_bits_close es' l

/-- Settles O60: the compression sequence sends the artifact of a trie and the message's leaves; the decompression
sequence delivers the leaves of any artifact, and the padding stays unread. -/
theorem compressThenDecompressGivesTheMessage : Obligations.CompressThenDecompressGivesTheMessage := by
  intro s m rest later hbusy hlen hallow hready hin hsink hagenda
  obtain ⟨t, msg, pre, wb, post, u, hcodes, hwords, hruns, huidle, husym, husink⟩ :=
    exists_hostRuns_compressScript (idle_of_busy hbusy) hlen hallow hready hin
  obtain ⟨cmd, hrun⟩ := hruns.run hagenda
  refine ⟨_, _, packBytes (artifactBits t msg), hrun, rfl, withHost_busy huidle _ _ _, husym, rfl, hwords.length,
    fun k hk => hwords.getElem hk, ?_, fun x hx => packBytes_artifactBits_length (hcodes.leaves x hx) hcodes.paths, ?_⟩
  · exact (congrArg artifacts husink).trans (artifacts_append_bits_close hsink _)
  · intro v later' hvbusy hvready hvagenda
    have hmlen : msg.length = m.length := by rw [← hcodes.symbols, List.length_map]
    obtain ⟨vs, w, hdec, hvs, hvsOk, hwidle, hwsym⟩ := exists_hostRuns_decompressScript (idle_of_busy hvbusy) hvready
      hcodes.size_le hcodes.paths (hmlen.trans_lt hlen) (bytesBits_packBytes (artifactBits t msg))
    obtain ⟨cmd', hrun'⟩ := hdec.run hvagenda
    refine ⟨_, vs, hrun', rfl, withHost_busy hwidle _ _ _, ?_, rfl, hvs, hvsOk⟩
    rw [← hcodes.symbols]
    exact hwsym

end Sys2Proof.Machine
end

section
/-! PROOFS. NOP and CLOSE, and who puts a Close event on the bit sink (45_control.md R350 to R352). -/

namespace Sys2Proof.Machine

/-! ### NOP and CLOSE (R350, R351) -/

theorem exec_nop (s : State) : exec .nop s = .next (finish .ok .none s) := complete_finish _ _ _

/-- Settles O24: NOP's first step completes it. -/
theorem nopOnlyCompletes : Obligations.NopOnlyCompletes :=
  ⟨rfl, fun s => by rw [exec_nop, finish_ok]⟩

/-- Settles O25: CLOSE makes one step, the transfer of its Close event. -/
theorem closeSendsOneCloseEvent : Obligations.CloseSendsOneCloseEvent :=
  ⟨rfl, fun s hr => by rw [exec_close hr, finish_ok]⟩

/-! ### Steps that only append bits to the sink (R352) -/

/-- From `s` to `t` the sink has taken bits and no Close event. -/
def AppendsBits (s t : State) : Prop := ∃ bits : List Bool, t.sink = s.sink ++ bits.map .bit

theorem AppendsBits.of_sink_eq {s t : State} (h : t.sink = s.sink) : AppendsBits s t := ⟨[], by simp [h]⟩

theorem AppendsBits.trans {s t u : State} (hst : AppendsBits s t) (htu : AppendsBits t u) : AppendsBits s u := by
  obtain ⟨l, hl⟩ := hst
  obtain ⟨m, hm⟩ := htu
  exact ⟨l ++ m, by rw [hm, hl, List.map_append, List.append_assoc]⟩

theorem offerBit_snk_ne_close (out : List Bool) : (offerBit out).snk ≠ some .close := by
  cases out <;> simp [offerBit, PortOutputs.inactive]

/-- Only CLOSE offers a Close event. -/
theorem portOutputs_snk_ne_close {s : State} (h : s.task ≠ .close) : (portOutputs s).snk ≠ some .close := by
  unfold portOutputs
  cases htask : s.task with
  | close => exact absurd htask h
  | tenc | lenc | senc | mencOut => exact offerBit_snk_ne_close _
  | _ => exact nofun

/-- A step makes on the sink the transfer it offers, which is a Close event at CLOSE's point only. -/
theorem coreStep_appendsBits {s t : State} (h : coreStep s = some t) (hs : s.task ≠ .close) : AppendsBits s t := by
  obtain ⟨hsink, -⟩ := (coreStep_portStep h).transfers
  have hne := portOutputs_snk_ne_close hs
  cases hsnk : (portOutputs s).snk with
  | none => exact .of_sink_eq (by rw [hsink, hsnk, Option.toList_none, List.append_nil])
  | some e =>
    cases e with
    | bit b => exact ⟨[b], by rw [hsink, hsnk]; rfl⟩
    | close => exact absurd hsnk hne

/-- No command but CLOSE reaches CLOSE's point. -/
theorem HasTask.ne_close {i : Instr} {k : Task} (h : HasTask i k) (hi : i ≠ .close) : k ≠ .close := by
  rintro rfl
  cases h
  exact hi rfl

theorem begin_appendsBits (i : Instr) (s : State) : AppendsBits s (begin i s) :=
  .of_sink_eq (streams_of_portState (begin_portState i s)).1

/-- A command other than CLOSE, however far it gets, appends only bits, because it never is at CLOSE's point. -/
theorem exec_appendsBits {i : Instr} {s t : State} (h : exec i s = .next t) (hi : i ≠ .close) : AppendsBits s t := by
  rw [exec_eq] at h
  obtain rfl := Host.Outcome.next.inj h
  refine (runCore_keeps (P := fun u => HasTask i u.task ∧ AppendsBits s u) ?_ _
    ⟨(begin_goesOn i s).task, begin_appendsBits i s⟩).2
  intro u v ⟨htask, hu⟩ hv
  exact ⟨(coreStep_goesOn htask hv).task, hu.trans (coreStep_appendsBits hv (htask.ne_close hi))⟩

/-! ### Events and the sink's sequence (R352) -/

theorem hostRead_sink (a : Address) (s : State) : (hostRead a s).sink = s.sink := by
  obtain ⟨v, n, h⟩ := hostRead_frame a s
  rw [h]

theorem writeCtrl_sink (v : Word) (s : State) : (writeCtrl v s).sink = s.sink := by
  unfold writeCtrl
  split
  · rfl
  · split <;> split <;> rfl

theorem idleWrite_sink (r : Reg) (v : Word) (s : State) : (idleWrite r v s).sink = s.sink := by
  cases r with
  | ctrl => exact writeCtrl_sink v s
  | freq x => simp only [idleWrite]; split <;> rfl
  | _ => rfl

theorem hostWrite_sink (a : Address) (v : Word) (s : State) : (hostWrite a v s).sink = s.sink := by
  cases hr : regAt a with
  | none => rw [hostWrite_none hr]
  | some r =>
    cases hb : s.busy with
    | false => rw [hostWrite_idle hr hb, idleWrite_sink]
    | true =>
      rw [hostWrite_busy hr hb]
      obtain he | he | he := busyWrite_cases r v s
      · rw [he, resetCore_sink]
      · rw [he]
      · rw [he]

theorem sourceBeat_sink (valid bit ended : Bool) (s : State) : (sourceBeat valid bit ended s).sink = s.sink := by
  unfold sourceBeat
  split
  · rfl
  · split <;> rfl

/-- No event, reset or not, changes what the sink has taken. -/
theorem perform_sink (e : Event) (s : State) : (perform e s).sink = s.sink := by
  cases e with
  | write a v => exact hostWrite_sink a v s
  | read a => exact hostRead_sink a s
  | wait => exact hostRead_sink 0x010 s
  | srcBeat valid bit ended => exact sourceBeat_sink valid bit ended s
  | resetPin | sinkReady | symOutReady | srcStream | srcOpen | symOffer => rfl

/-- Settles O54: a Close event is offered at CLOSE's point only, which no other command reaches. -/
theorem onlyCloseClosesTheSink : Obligations.OnlyCloseClosesTheSink :=
  ⟨fun _ _ _ => exec_appendsBits, fun _ _ => coreStep_appendsBits,
    fun i s hi => (begin_goesOn i s).task.ne_close hi, perform_sink⟩

end Sys2Proof.Machine
end

section
/-! PROOFS. How a command ends: every step of the core leaves RESULT, SUBCAUSE and ERR and the command running, or ends
it by `finish` with a pair its row lists (60_exceptions.md R401, R402, R404; 10_state.md R39, R40). -/

namespace Sys2Proof.Machine

/-! ### The completion fields (R39, R40) -/

/-- RESULT, SUBCAUSE, ERR and DROP. -/
def completionFields (s : State) := (s.result, s.subcause, s.err, s.drop)

/-- From `s` to `t` a command has gone on running and kept the completion fields, or has kept them until it ended by
`finish` with one of these pairs. -/
inductive RunsOrEnds (pairs : List (ResultCode × Subcause)) (s : State) : State → Prop
  | runs {t} (hbusy : t.busy = true) (ht : completionFields t = completionFields s) : RunsOrEnds pairs s t
  | ends {c v u} (hu : completionFields u = completionFields s) (hp : (c, v) ∈ pairs := by simp [completions]) :
    RunsOrEnds pairs s (finish c v u)

/-- R404: `finish` sets ERR on any code but OK and leaves it otherwise. -/
theorem finish_err_eq_or (c : ResultCode) (v : Subcause) (s : State) :
    (finish c v s).err = (s.err || decide (c ≠ .ok)) := by
  by_cases hc : c = .ok <;> simp [hc]

theorem RunsOrEnds.mono {pairs pairs' : List (ResultCode × Subcause)} {s t : State} (h : RunsOrEnds pairs s t)
    (hsub : pairs ⊆ pairs') : RunsOrEnds pairs' s t := by
  cases h with
  | runs hbusy ht => exact .runs hbusy ht
  | ends hu hp => exact .ends hu (hsub hp)

/-- What follows a step of the core: the command was still running then, so the completion fields were the first
state's. -/
theorem RunsOrEnds.step {pairs : List (ResultCode × Subcause)} {s t u : State} (h : RunsOrEnds pairs s t)
    (hstep : coreStep t = some u) (hu : RunsOrEnds pairs t u) : RunsOrEnds pairs s u := by
  cases h with
  | ends => rw [coreStep_finish] at hstep; cases hstep
  | runs _ ht =>
    cases hu with
    | runs hbusy hu => exact .runs hbusy (hu.trans ht)
    | ends hu hp => exact .ends (hu.trans ht) hp

/-- The completion fields field by field, by what BUSY is afterwards. -/
theorem RunsOrEnds.fields {pairs : List (ResultCode × Subcause)} {s t : State} (h : RunsOrEnds pairs s t) :
    (t.busy = false → (t.result, t.subcause) ∈ pairs ∧ t.err = (s.err || decide (t.result ≠ .ok)))
    ∧ (t.busy = true → t.result = s.result ∧ t.subcause = s.subcause ∧ t.err = s.err)
    ∧ t.drop = s.drop := by
  cases h with
  | runs hbusy ht =>
    simp only [completionFields, Prod.mk.injEq] at ht
    obtain ⟨hresult, hsub, herr, hdrop⟩ := ht
    exact ⟨fun hidle => absurd (hbusy.symm.trans hidle) nofun, fun _ => ⟨hresult, hsub, herr⟩, hdrop⟩
  | ends hu hp =>
    simp only [completionFields, Prod.mk.injEq] at hu
    obtain ⟨-, -, herr, hdrop⟩ := hu
    exact ⟨fun _ => ⟨hp, by rw [finish_err_eq_or, herr, finish_result]⟩, nofun, hdrop⟩

/-! ### Transfers keep the completion fields (00_scope.md R12) -/

theorem putBit_completionFields {b : Bool} {s t : State} (h : putBit b s = some t) :
    completionFields t = completionFields s := by
  obtain ⟨r, -, rfl⟩ := putBit_cases h
  rfl

theorem sinkClose_completionFields {s t : State} (h : sinkClose s = some t) :
    completionFields t = completionFields s := by
  obtain ⟨r, -, rfl⟩ := sinkClose_cases h
  rfl

theorem getBit_completionFields {r : Option Bool} {s t : State} (h : getBit s = some (r, t)) :
    completionFields t = completionFields s := by
  obtain ⟨-, rfl, -⟩ | ⟨b, rest, -, -, rfl⟩ := getBit_cases h <;> rfl

theorem walkStep_completionFields {i : NodeIndex} {r : Option NodeIndex} {s t : State}
    (h : walkStep i s = some (r, t)) : completionFields t = completionFields s := by
  obtain ⟨-, rfl⟩ | ⟨b, rest, -, rfl⟩ := walkStep_cases h <;> rfl

theorem takeSymbol_completionFields {x : Symbol} {s t : State} (h : takeSymbol s = some (x, t)) :
    completionFields t = completionFields s := by
  obtain ⟨rest, -, rfl⟩ := takeSymbol_cases h
  rfl

theorem sendSymbol_completionFields {x : Symbol} {s t : State} (h : sendSymbol x s = some t) :
    completionFields t = completionFields s := by
  obtain ⟨r, -, rfl⟩ := sendSymbol_cases h
  rfl

/-! ### The first step of a command -/

theorem begin_runsOrEnds (i : Instr) (s : State) : RunsOrEnds (completions i) s (begin i s) := by
  cases i with
  | nop | clrfreq | clrtrie => exact .ends rfl
  | cnt x => simp only [begin, beginCnt]; split <;> [exact .ends rfl; (split <;> exact .ends rfl)]
  | build => rw [begin, beginBuild_eq]; exact .runs rfl rfl
  | genlut => simp only [begin, beginGenlut]; split <;> [exact .ends rfl; exact .runs rfl rfl; exact .runs rfl rfl]
  | tenc => simp only [begin, beginTenc]; split <;> [exact .ends rfl; exact .runs rfl rfl; exact .runs rfl rfl]
  | tdec | lenc | ldec | close => exact .runs rfl rfl
  | senc x =>
    simp only [begin, beginSenc]
    split
    · exact .ends rfl
    · split <;> [exact .ends rfl; exact .runs rfl rfl]
  | sdec => simp only [begin, beginSdec]; split <;> [exact .ends rfl; exact .ends rfl; exact .runs rfl rfl]
  | menc =>
    simp only [begin, beginMenc]
    split
    · exact .ends rfl
    · split <;> [exact .ends rfl; exact .runs rfl rfl]
  | mdec =>
    simp only [begin, beginMdec]
    split
    · exact .ends rfl
    · split <;> exact .ends rfl
    · split <;> [exact .ends rfl; exact .runs rfl rfl]

/-! ### Steps inside the core -/

theorem buildStep_runsOrEnds (n seq leaves : Nat) (pq : List PqEntry) (s : State) :
    RunsOrEnds (completions .build) s (buildStep n seq leaves pq s) := by
  unfold buildStep
  split
  · exact .ends rfl
  · split <;> [exact .ends rfl; exact .runs rfl rfl]

theorem genlutStep_runsOrEnds (stack : List (NodeIndex × List Bool)) (s : State) :
    RunsOrEnds (completions .genlut) s (genlutStep stack s) := by
  unfold genlutStep
  split
  · exact .ends rfl
  · simp only
    split <;> exact .runs rfl rfl

theorem mdecNextStep_runsOrEnds (k : Nat) (s : State) : RunsOrEnds (completions .mdec) s (mdecNextStep k s) := by
  unfold mdecNextStep
  split <;> [exact .runs rfl rfl; exact .ends rfl]

/-! ### Steps that send bits (R105) -/

/-- A bit is sent, and the command runs on. -/
theorem RunsOrEnds.sent {pairs : List (ResultCode × Subcause)} {f : State → State} {b : Bool} {s t : State}
    (h : (putBit b s).map f = some t) (hbusy : ∀ u, (f u).busy = true)
    (hf : ∀ u, completionFields (f u) = completionFields u) : RunsOrEnds pairs s t := by
  obtain ⟨u, hu, rfl⟩ := Option.map_eq_some_iff.1 h
  exact .runs (hbusy u) ((hf u).trans (putBit_completionFields hu))

theorem tencStep_runsOrEnds {out : List Bool} {stack : List NodeIndex} {s t : State}
    (h : tencStep out stack s = some t) : RunsOrEnds (completions .tenc) s t := by
  cases out with
  | cons b out => exact .sent h (fun _ => rfl) fun _ => rfl
  | nil =>
    cases stack with
    | nil => cases h; exact .ends rfl
    | cons i rest =>
      simp only [tencStep] at h
      split at h <;> cases h <;> exact .runs rfl rfl

theorem lencStep_runsOrEnds {out : List Bool} {s t : State} (h : lencStep out s = some t) :
    RunsOrEnds (completions .lenc) s t := by
  cases out with
  | cons b out => exact .sent h (fun _ => rfl) fun _ => rfl
  | nil => cases h; exact .ends rfl

theorem sencStep_runsOrEnds {x : Symbol} {out : List Bool} {s t : State} (h : sencStep out s = some t) :
    RunsOrEnds (completions (.senc x)) s t := by
  cases out with
  | cons b out => exact .sent h (fun _ => rfl) fun _ => rfl
  | nil => cases h; exact .ends rfl

theorem mencOutStep_runsOrEnds {k : Nat} {out : List Bool} {s t : State} (h : mencOutStep k out s = some t) :
    RunsOrEnds (completions .menc) s t := by
  cases out with
  | cons b out => exact .sent h (fun _ => rfl) fun _ => rfl
  | nil => cases h; exact .runs rfl rfl

/-! ### Steps that ask the source (R108, R109) -/

theorem linkSlot_completionFields (slot : Slot) (i : NodeIndex) (s : State) :
    completionFields (linkSlot slot i s) = completionFields s := by
  cases slot <;> rfl

theorem tdecTagStep_runsOrEnds {pending : List Slot} {n leaves : Nat} {s t : State}
    (h : tdecTagStep pending n leaves s = some t) : RunsOrEnds (completions .tdec) s t := by
  cases pending with
  | nil => cases h; exact .ends rfl
  | cons slot rest =>
    simp only [tdecTagStep] at h
    split at h
    next => cases h
    next u hu => cases h; exact .ends (getBit_completionFields hu :)
    next b u hu =>
      have hkept := getBit_completionFields hu
      split at h
      · cases h; exact .ends hkept
      · have hlink := (linkSlot_completionFields slot (BitVec.ofNat 9 n) u).trans hkept
        split at h <;> cases h <;> exact .runs rfl hlink

theorem tdecSymStep_runsOrEnds {pending : List Slot} {n leaves : Nat} {i : NodeIndex} {got : List Bool} {s t : State}
    (h : tdecSymStep pending n leaves i got s = some t) : RunsOrEnds (completions .tdec) s t := by
  simp only [tdecSymStep] at h
  split at h
  next => cases h
  next u hu => cases h; exact .ends (getBit_completionFields hu :)
  next b u hu => split at h <;> cases h <;> exact .runs rfl (getBit_completionFields hu :)

theorem ldecEnd_runsOrEnds (v : Word) {s u : State} (h : completionFields u = completionFields s) :
    RunsOrEnds (completions .ldec) s (ldecEnd v u) := by
  unfold ldecEnd
  split <;> exact .ends h

theorem ldecStep_runsOrEnds {got : List Bool} {s t : State} (h : ldecStep got s = some t) :
    RunsOrEnds (completions .ldec) s t := by
  simp only [ldecStep] at h
  split at h
  next => cases h
  next u hu => cases h; exact .ends (getBit_completionFields hu)
  next b u hu =>
    split at h <;> cases h
    · exact .runs rfl (getBit_completionFields hu :)
    · exact ldecEnd_runsOrEnds _ (getBit_completionFields hu)

theorem sdecStep_runsOrEnds {i : NodeIndex} {s t : State} (h : sdecStep i s = some t) :
    RunsOrEnds (completions .sdec) s t := by
  unfold sdecStep at h
  split at h
  · cases h; exact .ends rfl
  · split at h
    next => cases h
    next u hu => cases h; exact .ends (walkStep_completionFields hu)
    next j u hu => cases h; exact .runs rfl (walkStep_completionFields hu :)

theorem mdecWalkStep_runsOrEnds {k : Nat} {i : NodeIndex} {s t : State} (h : mdecWalkStep k i s = some t) :
    RunsOrEnds (completions .mdec) s t := by
  unfold mdecWalkStep at h
  split at h
  · cases h; exact .runs rfl rfl
  · split at h
    next => cases h
    next u hu => cases h; exact .ends (walkStep_completionFields hu)
    next j u hu => cases h; exact .runs rfl (walkStep_completionFields hu :)

/-! ### Steps at the symbol ports and the Close event (R111, R112, R107) -/

theorem mencSymStep_runsOrEnds {k : Nat} {s t : State} (h : mencSymStep k s = some t) :
    RunsOrEnds (completions .menc) s t := by
  unfold mencSymStep at h
  split at h
  · split at h
    next => cases h
    next x u hu =>
      split at h <;> cases h
      · exact .ends (takeSymbol_completionFields hu)
      · exact .runs rfl (takeSymbol_completionFields hu :)
  · cases h; exact .ends rfl

theorem mdecOutStep_runsOrEnds {k : Nat} {x : Symbol} {s t : State} (h : mdecOutStep k x s = some t) :
    RunsOrEnds (completions .mdec) s t := by
  obtain ⟨u, hu, rfl⟩ := Option.map_eq_some_iff.1 h
  exact .runs rfl (sendSymbol_completionFields hu :)

theorem closeStep_runsOrEnds {s t : State} (h : closeStep s = some t) : RunsOrEnds (completions .close) s t := by
  obtain ⟨u, hu, rfl⟩ := Option.map_eq_some_iff.1 h
  exact .ends (sinkClose_completionFields hu)

/-! ### Every step, and a whole command -/

/-- Every step of the core, made at a point of command `i`. -/
theorem coreStep_runsOrEnds {i : Instr} {s t : State} (hi : HasTask i s.task) (h : coreStep s = some t) :
    RunsOrEnds (completions i) s t := by
  unfold coreStep at h
  generalize s.task = k at hi h
  cases hi with
  | idle => cases h
  | build => cases h; exact buildStep_runsOrEnds _ _ _ _ s
  | genlut => cases h; exact genlutStep_runsOrEnds _ s
  | tenc => exact tencStep_runsOrEnds h
  | tdecTag => exact tdecTagStep_runsOrEnds h
  | tdecSym => exact tdecSymStep_runsOrEnds h
  | lenc => exact lencStep_runsOrEnds h
  | ldec => exact ldecStep_runsOrEnds h
  | senc => exact sencStep_runsOrEnds h
  | sdec => exact sdecStep_runsOrEnds h
  | mencSym => exact mencSymStep_runsOrEnds h
  | mencOut => exact mencOutStep_runsOrEnds h
  | mdecNext => cases h; exact mdecNextStep_runsOrEnds _ s
  | mdecWalk => exact mdecWalkStep_runsOrEnds h
  | mdecOut => exact mdecOutStep_runsOrEnds h
  | close => exact closeStep_runsOrEnds h

/-- A command, however far it gets, has kept the completion fields or has ended with a pair of its row. -/
theorem exec_runsOrEnds {i : Instr} {s t : State} (h : exec i s = .next t) : RunsOrEnds (completions i) s t := by
  rw [exec_eq] at h
  obtain rfl := Host.Outcome.next.inj h
  refine (runCore_keeps (P := fun u => HasTask i u.task ∧ RunsOrEnds (completions i) s u) ?_ _
    ⟨(begin_goesOn i s).task, begin_runsOrEnds i s⟩).2
  intro u v ⟨htask, hu⟩ hv
  exact ⟨(coreStep_goesOn htask hv).task, hu.step hv (coreStep_runsOrEnds htask hv)⟩

/-- Settles O50: from its first step on a command runs or ends with a pair of its row. -/
theorem completionsAreThoseListed : Obligations.CompletionsAreThoseListed := by
  intro i s t hexec
  obtain ⟨hidle, hbusy, -⟩ := (exec_runsOrEnds hexec).fields
  exact ⟨hidle, hbusy⟩

/-! ### The pairs of all commands (R401, R402) -/

/-- Every row of R402 lists pairs of R401. -/
theorem completions_subset_legalPairs (i : Instr) : completions i ⊆ legalPairs := by
  cases i <;> simp [completions, legalPairs]

/-- Once its word is decoded, the core is at a point of some command. -/
theorem exists_hasTask {k : Task} (h : k ≠ .issued) : ∃ i, HasTask i k := by
  cases k with
  | issued => contradiction
  | idle => exact ⟨.nop, .idle⟩
  | build => exact ⟨_, .build⟩
  | genlut => exact ⟨_, .genlut⟩
  | tenc => exact ⟨_, .tenc⟩
  | tdecTag => exact ⟨_, .tdecTag⟩
  | tdecSym => exact ⟨_, .tdecSym⟩
  | lenc => exact ⟨_, .lenc⟩
  | ldec => exact ⟨_, .ldec⟩
  | senc => exact ⟨.senc 0, .senc⟩
  | sdec => exact ⟨_, .sdec⟩
  | mencSym => exact ⟨_, .mencSym⟩
  | mencOut => exact ⟨_, .mencOut⟩
  | mdecNext => exact ⟨_, .mdecNext⟩
  | mdecWalk => exact ⟨_, .mdecWalk⟩
  | mdecOut => exact ⟨_, .mdecOut⟩
  | close => exact ⟨_, .close⟩

/-- An issued word begins its command, or ends at once as illegal (30_encoding.md R156). -/
theorem issue_runsOrEnds (s : State) : RunsOrEnds legalPairs s (issue s) := by
  unfold issue
  split
  next i _ => exact (begin_runsOrEnds i s).mono (completions_subset_legalPairs i)
  next r _ => cases r <;> exact .ends rfl (by decide)

/-- Settles O9: a step decodes an issued word or is a step of some command, whose row lists pairs of R401. -/
theorem commandsEndOnlyByFinish : Obligations.CommandsEndOnlyByFinish := by
  intro s t hstep
  refine RunsOrEnds.fields ?_
  by_cases hissued : s.task = .issued
  · obtain rfl := Option.some.inj ((coreStep_issued hissued).symm.trans hstep)
    exact issue_runsOrEnds s
  · obtain ⟨i, hi⟩ := exists_hasTask hissued
    exact (coreStep_runsOrEnds hi hstep).mono (completions_subset_legalPairs i)

end Sys2Proof.Machine
end

section
/-! PROOFS. Reset, the ports a command uses, and what the bit counters count (10_state.md R42; 43_trie_codec.md R272;
70_reset_and_hazards.md R450 to R452, R471). -/

namespace Sys2Proof.Machine

/-! ### Reset acts on the core only (R450 to R452) -/

/-- A core just reset is idle and so drives nothing. -/
theorem portOutputs_resetCore (s : State) : portOutputs (resetCore s) = PortOutputs.inactive := rfl

/-- Settles O23: a write of SRST and the pin are both `resetCore`, which keeps the environments and the host's side. -/
theorem resetActsOnTheCoreOnly : Obligations.ResetActsOnTheCoreOnly := by
  intro s v hv
  rw [hostWrite_ctrl_reset hv]
  refine ⟨rfl, ?_⟩
  rintro t rfl
  exact ⟨portOutputs_resetCore s, coreStep_idle rfl, rfl, rfl, rfl, rfl, rfl, rfl, rfl, rfl, rfl, rfl⟩

/-! ### What a step keeps of the ports -/

/-- What only a transfer on the bit sink changes. -/
def sinkSide (s : State) : List SinkEvent × Ready × Word := (s.sink, s.sinkReady, s.bitcntOut)

/-- What only a transfer on the bit source changes. -/
def sourceSide (s : State) : List Bool × Nat × Word := (s.srcBits, s.srcTaken, s.bitcntIn)

/-- What only a transfer on symbol-out changes. -/
def symOutSide (s : State) : List Symbol × Ready := (s.symOut, s.symOutReady)

/-- From `s` to `t` each port that the outputs `o` offer nothing is left alone. -/
structure KeepsIdlePorts (o : PortOutputs) (s t : State) : Prop where
  sink : o.snk = none → sinkSide t = sinkSide s
  source : o.srcReq = false → sourceSide t = sourceSide s
  symIn : o.sinReady = false → t.symIn = s.symIn
  symOut : o.sout = none → symOutSide t = symOutSide s

theorem KeepsIdlePorts.of_portState {s t : State} (h : portState t = portState s) : KeepsIdlePorts .inactive s t := by
  simp only [portState, Prod.mk.injEq] at h
  constructor <;> simp [sinkSide, sourceSide, symOutSide, h]

theorem PortStep.keepsIdlePorts {s t : State} {o : PortOutputs} (h : PortStep s o t) : KeepsIdlePorts o s t := by
  cases h with
  | internal ht => exact .of_portState ht
  | sent hu ht =>
    have hkeep := KeepsIdlePorts.of_portState ht
    obtain ⟨r, -, rfl⟩ := putBit_cases hu
    exact ⟨nofun, hkeep.source, hkeep.symIn, hkeep.symOut⟩
  | closed hu ht =>
    have hkeep := KeepsIdlePorts.of_portState ht
    obtain ⟨r, -, rfl⟩ := sinkClose_cases hu
    exact ⟨nofun, hkeep.source, hkeep.symIn, hkeep.symOut⟩
  | answered hu ht =>
    have hkeep := KeepsIdlePorts.of_portState ht
    obtain ⟨-, rfl, -⟩ | ⟨b, rest, -, -, rfl⟩ := getBit_cases hu
    · exact ⟨hkeep.sink, nofun, hkeep.symIn, hkeep.symOut⟩
    · exact ⟨hkeep.sink, nofun, hkeep.symIn, hkeep.symOut⟩
  | received hu ht =>
    have hkeep := KeepsIdlePorts.of_portState ht
    obtain ⟨rest, -, rfl⟩ := takeSymbol_cases hu
    exact ⟨hkeep.sink, hkeep.source, nofun, hkeep.symOut⟩
  | delivered hu ht =>
    have hkeep := KeepsIdlePorts.of_portState ht
    obtain ⟨r, -, rfl⟩ := sendSymbol_cases hu
    exact ⟨hkeep.sink, hkeep.source, hkeep.symIn, nofun⟩

/-! ### The bits moved, and their counts (R42) -/

/-- From `s` to `t` the source has delivered its next bits, and `BITCNT_IN` has counted each. -/
def TakesBits (s t : State) : Prop :=
  ∃ n, s.srcTaken + n = t.srcTaken ∧ s.srcBits.drop n = t.srcBits ∧ n ≤ s.srcBits.length
    ∧ t.bitcntIn = s.bitcntIn + BitVec.ofNat 32 n

/-- From `s` to `t` the sink has taken bits and no Close event, and `BITCNT_OUT` has counted each. -/
def SendsBits (s t : State) : Prop :=
  ∃ bits : List Bool, t.sink = s.sink ++ bits.map .bit ∧ t.bitcntOut = s.bitcntOut + BitVec.ofNat 32 bits.length

theorem TakesBits.of_sourceSide_eq {s t : State} (h : sourceSide t = sourceSide s) : TakesBits s t := by
  simp only [sourceSide, Prod.mk.injEq] at h
  obtain ⟨hbits, htaken, hcount⟩ := h
  exact ⟨0, by simp [hbits, htaken, hcount]⟩

theorem SendsBits.of_sinkSide_eq {s t : State} (h : sinkSide t = sinkSide s) : SendsBits s t := by
  simp only [sinkSide, Prod.mk.injEq] at h
  obtain ⟨hsink, -, hcount⟩ := h
  exact ⟨[], by simp [hsink, hcount]⟩

theorem TakesBits.trans {s t u : State} (hst : TakesBits s t) (htu : TakesBits t u) : TakesBits s u := by
  obtain ⟨m, htaken, hbits, hlen, hcount⟩ := hst
  obtain ⟨n, htaken', hbits', hlen', hcount'⟩ := htu
  rw [← hbits, List.length_drop] at hlen'
  refine ⟨m + n, by omega, by rw [← hbits', ← hbits, List.drop_drop], by omega, ?_⟩
  rw [hcount', hcount, BitVec.ofNat_add, BitVec.add_assoc]

theorem SendsBits.trans {s t u : State} (hst : SendsBits s t) (htu : SendsBits t u) : SendsBits s u := by
  obtain ⟨l, hsink, hcount⟩ := hst
  obtain ⟨m, hsink', hcount'⟩ := htu
  refine ⟨l ++ m, by rw [hsink', hsink, List.map_append, List.append_assoc], ?_⟩
  rw [hcount', hcount, List.length_append, BitVec.ofNat_add, BitVec.add_assoc]

/-- A step takes from the source the bit it is answered, if any. -/
theorem PortStep.takesBits {s t : State} {o : PortOutputs} (h : PortStep s o t) : TakesBits s t := by
  cases hreq : o.srcReq with
  | false => exact .of_sourceSide_eq (h.keepsIdlePorts.source hreq)
  | true =>
    cases h with
    | answered hu ht =>
      have hsource := (KeepsIdlePorts.of_portState ht).source rfl
      obtain ⟨-, rfl, -⟩ | ⟨b, rest, -, hbits, rfl⟩ := getBit_cases hu
      · exact .of_sourceSide_eq hsource
      · simp only [sourceSide, tookBits, Prod.mk.injEq] at hsource
        obtain ⟨hrest, htaken, hcount⟩ := hsource
        exact ⟨1, by simp [hbits, hrest, htaken, hcount]⟩
    | internal | sent | closed | received | delivered => cases hreq

/-- A step that offers no Close event sends the bit it offers, if any. -/
theorem PortStep.sendsBits {s t : State} {o : PortOutputs} (h : PortStep s o t) (ho : o.snk ≠ some .close) :
    SendsBits s t := by
  cases hsnk : o.snk with
  | none => exact .of_sinkSide_eq (h.keepsIdlePorts.sink hsnk)
  | some e =>
    cases h with
    | sent hu ht =>
      have hsink := (KeepsIdlePorts.of_portState ht).sink rfl
      obtain ⟨r, -, rfl⟩ := putBit_cases hu
      simp only [sinkSide, Prod.mk.injEq] at hsink
      obtain ⟨hsink, -, hcount⟩ := hsink
      exact ⟨[_], hsink, hcount⟩
    | closed => exact absurd rfl ho
    | internal | answered | received | delivered => cases hsnk

/-! ### Which command offers on which port (R471) -/

@[simp] theorem offerBit_srcReq (out : List Bool) : (offerBit out).srcReq = false := by cases out <;> rfl
@[simp] theorem offerBit_sinReady (out : List Bool) : (offerBit out).sinReady = false := by cases out <;> rfl
@[simp] theorem offerBit_sout (out : List Bool) : (offerBit out).sout = none := by cases out <;> rfl

section
variable {i : Instr} {s : State} (h : HasTask i s.task)
include h

theorem HasTask.snk_eq_none (hsenc : ∀ x, i ≠ .senc x) (htenc : i ≠ .tenc) (hlenc : i ≠ .lenc) (hmenc : i ≠ .menc)
    (hclose : i ≠ .close) : (portOutputs s).snk = none := by
  unfold portOutputs
  generalize s.task = k at h
  cases h with
  | senc => exact absurd rfl (hsenc _)
  | tenc => exact absurd rfl htenc
  | lenc => exact absurd rfl hlenc
  | mencSym | mencOut => exact absurd rfl hmenc
  | close => exact absurd rfl hclose
  | _ => rfl

theorem HasTask.srcReq_eq_false (htdec : i ≠ .tdec) (hldec : i ≠ .ldec) (hsdec : i ≠ .sdec) (hmdec : i ≠ .mdec) :
    (portOutputs s).srcReq = false := by
  unfold portOutputs
  generalize s.task = k at h
  cases h with
  | tdecTag | tdecSym => exact absurd rfl htdec
  | ldec => exact absurd rfl hldec
  | sdec => exact absurd rfl hsdec
  | mdecNext | mdecWalk | mdecOut => exact absurd rfl hmdec
  | tenc | lenc | senc | mencOut => exact offerBit_srcReq _
  | _ => rfl

theorem HasTask.sinReady_eq_false (hmenc : i ≠ .menc) : (portOutputs s).sinReady = false := by
  unfold portOutputs
  generalize s.task = k at h
  cases h with
  | mencSym | mencOut => exact absurd rfl hmenc
  | tenc | lenc | senc => exact offerBit_sinReady _
  | _ => rfl

theorem HasTask.sout_eq_none (hmdec : i ≠ .mdec) : (portOutputs s).sout = none := by
  unfold portOutputs
  generalize s.task = k at h
  cases h with
  | mdecNext | mdecWalk | mdecOut => exact absurd rfl hmdec
  | tenc | lenc | senc | mencOut => exact offerBit_sout _
  | _ => rfl

end

/-! ### Whole commands -/

/-- What a command does at the ports, however far it gets: any relation that is transitive, that holds when
the ports are left alone, and that each of the command's steps satisfies. -/
theorem exec_ports {R : State → State → Prop} {i : Instr} {s t : State} (h : exec i s = .next t)
    (htrans : ∀ {u v}, R s u → R u v → R s v) (hrefl : ∀ {u}, portState u = portState s → R s u)
    (hstep : ∀ {u v}, HasTask i u.task → PortStep u (portOutputs u) v → R u v) : R s t := by
  rw [exec_eq] at h
  obtain rfl := Host.Outcome.next.inj h
  refine (runCore_keeps (P := fun u => HasTask i u.task ∧ R s u) ?_ _
    ⟨(begin_goesOn i s).task, hrefl (begin_portState i s)⟩).2
  intro u v ⟨htask, hu⟩ hv
  exact ⟨(coreStep_goesOn htask hv).task, htrans hu (hstep htask (coreStep_portStep hv))⟩

section
variable {i : Instr} {s t : State} (h : exec i s = .next t)
include h

theorem exec_sinkSide (hsenc : ∀ x, i ≠ .senc x) (htenc : i ≠ .tenc) (hlenc : i ≠ .lenc) (hmenc : i ≠ .menc)
    (hclose : i ≠ .close) : sinkSide t = sinkSide s :=
  exec_ports (R := fun u v => sinkSide v = sinkSide u) h (fun hu hv => hv.trans hu)
    (fun hu => (KeepsIdlePorts.of_portState hu).sink rfl)
    (fun htask hv => hv.keepsIdlePorts.sink (htask.snk_eq_none hsenc htenc hlenc hmenc hclose))

theorem exec_sourceSide (htdec : i ≠ .tdec) (hldec : i ≠ .ldec) (hsdec : i ≠ .sdec) (hmdec : i ≠ .mdec) :
    sourceSide t = sourceSide s :=
  exec_ports (R := fun u v => sourceSide v = sourceSide u) h (fun hu hv => hv.trans hu)
    (fun hu => (KeepsIdlePorts.of_portState hu).source rfl)
    (fun htask hv => hv.keepsIdlePorts.source (htask.srcReq_eq_false htdec hldec hsdec hmdec))

theorem exec_symIn (hmenc : i ≠ .menc) : t.symIn = s.symIn :=
  exec_ports (R := fun u v => v.symIn = u.symIn) h (fun hu hv => hv.trans hu)
    (fun hu => (KeepsIdlePorts.of_portState hu).symIn rfl)
    (fun htask hv => hv.keepsIdlePorts.symIn (htask.sinReady_eq_false hmenc))

theorem exec_symOutSide (hmdec : i ≠ .mdec) : symOutSide t = symOutSide s :=
  exec_ports (R := fun u v => symOutSide v = symOutSide u) h (fun hu hv => hv.trans hu)
    (fun hu => (KeepsIdlePorts.of_portState hu).symOut rfl)
    (fun htask hv => hv.keepsIdlePorts.symOut (htask.sout_eq_none hmdec))

theorem exec_takesBits : TakesBits s t :=
  exec_ports h .trans (fun hu => .of_sourceSide_eq ((KeepsIdlePorts.of_portState hu).source rfl))
    (fun _ hv => hv.takesBits)

theorem exec_sendsBits (hclose : i ≠ .close) : SendsBits s t :=
  exec_ports h .trans (fun hu => .of_sinkSide_eq ((KeepsIdlePorts.of_portState hu).sink rfl))
    (fun htask hv => hv.sendsBits (portOutputs_snk_ne_close (htask.ne_close hclose)))

end

/-- Settles O52: a port changes only by the transfers offered on it, a command offers only on its own ports, and each
transfer of a bit is counted. -/
theorem commandsUseOnlyTheirPorts : Obligations.CommandsUseOnlyTheirPorts := by
  intro i s t h
  refine ⟨fun hsenc htenc hlenc hmenc hclose => ?_, fun htdec hldec hsdec hmdec => ?_, exec_symIn h,
    fun hmdec => ?_, exec_takesBits h, exec_sendsBits h⟩
  · simpa only [sinkSide, Prod.mk.injEq] using exec_sinkSide h hsenc htenc hlenc hmenc hclose
  · simpa only [sourceSide, Prod.mk.injEq] using exec_sourceSide h htdec hldec hsdec hmdec
  · simpa only [symOutSide, Prod.mk.injEq] using exec_symOutSide h hmdec

end Sys2Proof.Machine
end

section
/-! PROOFS. A turn of the core ends at rest or at a port that does not answer (70_reset_and_hazards.md R471, R481): a
core that makes no step is at such a point, and from the invariant a turn is long enough to get there. -/

namespace Sys2Proof.Machine

/-! ### A core that makes no step rests, or waits for a port (R471) -/

theorem eq_count_zero_of_take {r : Ready} (h : r.take = none) : r = .count 0 := by
  cases r with
  | always => cases h
  | count n =>
    cases n with
    | zero => rfl
    | succ n => cases h

theorem sinkReady_of_putBit {b : Bool} {s : State} (h : putBit b s = none) : s.sinkReady = .count 0 := by
  unfold putBit at h
  split at h
  next hr => exact eq_count_zero_of_take hr
  next => cases h

theorem sinkReady_of_sinkClose {s : State} (h : sinkClose s = none) : s.sinkReady = .count 0 := by
  unfold sinkClose at h
  split at h
  next hr => exact eq_count_zero_of_take hr
  next => cases h

theorem symOutReady_of_sendSymbol {x : Symbol} {s : State} (h : sendSymbol x s = none) :
    s.symOutReady = .count 0 := by
  unfold sendSymbol at h
  split at h
  next hr => exact eq_count_zero_of_take hr
  next => cases h

theorem symIn_of_takeSymbol {s : State} (h : takeSymbol s = none) : s.symIn = [] := by
  unfold takeSymbol at h
  split at h
  next => cases h
  next hs => exact hs

theorem source_of_getBit {s : State} (h : getBit s = none) : s.srcBits = [] ∧ s.srcEnded = false := by
  unfold getBit at h
  split at h
  next => cases h
  next hs =>
    split at h
    next => cases h
    next he => exact ⟨hs, by simpa using he⟩

theorem source_of_walkStep {i : NodeIndex} {s : State} (h : walkStep i s = none) :
    s.srcBits = [] ∧ s.srcEnded = false := by
  unfold walkStep at h
  split at h
  next hg => exact source_of_getBit hg
  next => cases h
  next => cases h

/-- A bit that is next but not sent is offered to a sink that does not accept. -/
theorem offers_of_putBit_map {f : State → State} {b : Bool} {out : List Bool} {s : State}
    (h : (putBit b s).map f = none) : (offerBit (b :: out)).snk ≠ none ∧ s.sinkReady = .count 0 :=
  ⟨nofun, sinkReady_of_putBit (Option.map_eq_none_iff.1 h)⟩

theorem tencStep_waits {out : List Bool} {stack : List NodeIndex} {s : State} (h : tencStep out stack s = none) :
    (offerBit out).snk ≠ none ∧ s.sinkReady = .count 0 := by
  cases out with
  | cons b out => exact offers_of_putBit_map h
  | nil =>
    cases stack with
    | nil => cases h
    | cons i rest => simp only [tencStep] at h; split at h <;> cases h

theorem tdecTagStep_waits {pending : List Slot} {n leaves : Nat} {s : State}
    (h : tdecTagStep pending n leaves s = none) :
    (!pending.isEmpty) = true ∧ s.srcBits = [] ∧ s.srcEnded = false := by
  cases pending with
  | nil => cases h
  | cons slot rest =>
    simp only [tdecTagStep] at h
    split at h
    next hg => exact ⟨rfl, source_of_getBit hg⟩
    next => cases h
    next => split at h <;> [cases h; (split at h <;> cases h)]

theorem mencSymStep_waits {k : Nat} {s : State} (h : mencSymStep k s = none) :
    decide (k < s.msglen.toNat) = true ∧ s.symIn = [] := by
  unfold mencSymStep at h
  split at h
  next hk =>
    split at h
    next ht => exact ⟨decide_eq_true hk, symIn_of_takeSymbol ht⟩
    next => split at h <;> cases h
  next => cases h

/-- The core stops only where it is idle or where the other side of a port it drives does not answer. -/
theorem restsOrWaits_of_coreStep {s : State} (h : coreStep s = none) : RestsOrWaits s := by
  unfold coreStep at h
  unfold RestsOrWaits State.busy portOutputs
  cases htask : s.task <;> rw [htask] at h
  case idle => exact .inl rfl
  case issued | build | genlut | mdecNext => cases h
  case tenc => exact .inr (.inl (tencStep_waits h))
  case lenc out | senc out | mencOut _ out =>
    cases out with
    | cons b out => exact .inr (.inl (offers_of_putBit_map h))
    | nil => cases h
  case close => exact .inr (.inl ⟨nofun, sinkReady_of_sinkClose (Option.map_eq_none_iff.1 h)⟩)
  case tdecTag => exact .inr (.inr (.inl (tdecTagStep_waits h)))
  case tdecSym | ldec =>
    simp only [tdecSymStep, ldecStep] at h
    split at h
    next hg => exact .inr (.inr (.inl ⟨rfl, source_of_getBit hg⟩))
    next => cases h
    next => split at h <;> cases h
  case sdec | mdecWalk =>
    simp only [sdecStep, mdecWalkStep] at h
    split at h
    next => cases h
    next hleaf =>
      split at h
      next hw => exact .inr (.inr (.inl ⟨by simpa using hleaf, source_of_walkStep hw⟩))
      next => cases h
      next => cases h
  case mencSym => exact .inr (.inr (.inr (.inl (mencSymStep_waits h))))
  case mdecOut => exact .inr (.inr (.inr (.inr ⟨nofun, symOutReady_of_sendSymbol (Option.map_eq_none_iff.1 h)⟩)))

/-! ### How many steps a command has left (R481) -/

/-- The indices of this stack are roots of tries of `m` nodes in all. -/
inductive TriesOn (nodes : Table Node) : List NodeIndex → Nat → Prop
  | nil : TriesOn nodes [] 0
  | cons {i t stack m} (hat : TrieAt nodes i t) (hrest : TriesOn nodes stack m) :
    TriesOn nodes (i :: stack) (t.size + m)

/-- Popping a root and pushing its children, if it has any, leaves one node fewer. -/
theorem TriesOn.pop {s : State} {i : NodeIndex} {stack : List NodeIndex} {m : Nat}
    (h : TriesOn s.nodes (i :: stack) m) :
    ∃ k, m = k + 1 ∧ TriesOn s.nodes
      (if (nodeAt i s).leaf then stack else (nodeAt i s).left :: (nodeAt i s).right :: stack) k := by
  cases h with
  | @cons _ t _ m hat hrest =>
    cases t with
    | leaf x =>
      have hleaf : (nodeAt i s).leaf = true := hat.2.1
      exact ⟨m, Nat.add_comm 1 m, by rwa [if_pos hleaf]⟩
    | node l r =>
      obtain ⟨-, hleaf, hl, hr⟩ := hat
      have hnode : ¬ (nodeAt i s).leaf = true := Bool.not_eq_true _ ▸ hleaf
      refine ⟨l.size + (r.size + m), by rw [Trie.size]; omega, ?_⟩
      rw [if_neg hnode]
      exact .cons hl (.cons hr hrest)

/-- The invariant counts the leaves of a stack's tries; their nodes are fewer than twice as many. -/
theorem exists_triesOn {α : Type} {nodes : Table Node} {subs : List (α × Trie)} (index : α → NodeIndex)
    (hat : ∀ r ∈ subs, TrieAt nodes (index r.1) r.2) :
    ∃ m, TriesOn nodes (subs.map fun r => index r.1) m ∧ m ≤ 2 * (subs.map fun r => r.2.leaves).sum := by
  induction subs with
  | nil => exact ⟨0, .nil, Nat.le_refl 0⟩
  | cons r subs ih =>
    obtain ⟨m, hm, hle⟩ := ih fun q hq => hat q (List.mem_cons_of_mem r hq)
    have hsize := r.2.size_add_one
    refine ⟨r.2.size + m, .cons (hat r List.mem_cons_self) hm, ?_⟩
    rw [List.map_cons, List.sum_cons]
    omega

/-- A child of an internal node holds a trie less deep. -/
theorem TrieAt.exists_child_depth_lt {s : State} {i : NodeIndex} {t : Trie} (h : TrieAt s.nodes i t)
    (hleaf : ¬ (nodeAt i s).leaf = true) (b : Bool) :
    ∃ c, TrieAt s.nodes (if b then (nodeAt i s).right else (nodeAt i s).left) c ∧ c.depth < t.depth := by
  cases t with
  | leaf x => exact absurd h.2.1 hleaf
  | node l r =>
    obtain ⟨-, -, hl, hr⟩ := h
    cases b with
    | false => exact ⟨l, hl, Nat.lt_succ_of_le (Nat.le_max_left _ _)⟩
    | true => exact ⟨r, hr, Nat.lt_succ_of_le (Nat.le_max_right _ _)⟩

/-- A command that no port holds up completes within `n` steps. GENLUT makes one step for a node; TENC at most 10, a
pop and the bits of a leaf (43_trie_codec.md R261); TDEC at most 9 for each of at most 511 nodes, a tag and 8 symbol
bits (R265, R266, R267); MENC at most 257 for a symbol and MDEC 258, at most MAXCODE = 255 of them for the code word
(44_message_codec.md R315, R320). -/
def StepsLeft (n : Nat) (s : State) : Prop :=
  match s.task with
  | .idle => True
  | .issued => False
  | .build _ _ _ pq => pq.length < n
  | .genlut stack => ∃ m, TriesOn s.nodes (stack.map Prod.fst) m ∧ m < n
  | .tenc out stack => ∃ m, TriesOn s.nodes stack m ∧ out.length + 10 * m < n
  | .tdecTag _ k _ => 9 * (511 - k) < n
  | .tdecSym _ k _ _ got => 9 * (511 - k) + (8 - got.length) < n
  | .lenc out | .senc out => out.length < n
  | .ldec got => 32 - got.length < n
  | .sdec i => ∃ t, TrieAt s.nodes i t ∧ t.depth < n
  | .mencSym k => 257 * (s.msglen.toNat - k) < n
  | .mencOut k out => 257 * (s.msglen.toNat - (k + 1)) + out.length + 1 < n
  | .mdecNext k => 258 * (s.msglen.toNat - k) < n
  | .mdecWalk k i => ∃ t, TrieAt s.nodes i t ∧ 258 * (s.msglen.toNat - (k + 1)) + t.depth + 2 < n
  | .mdecOut k _ => 258 * (s.msglen.toNat - (k + 1)) + 1 < n
  | .close => 0 < n

/-- With no step left the core is idle. -/
theorem StepsLeft.idle {s : State} (h : StepsLeft 0 s) : s.task = .idle := by
  unfold StepsLeft at h
  generalize s.task = k at h ⊢
  cases k with
  | idle => rfl
  | issued => exact h.elim
  | genlut | tenc | sdec | mdecWalk => obtain ⟨_, -, hlt⟩ := h; exact absurd hlt (Nat.not_lt_zero _)
  | _ => exact absurd h (Nat.not_lt_zero _)

/-- A bit sent changes nothing that the count of steps depends on. -/
theorem StepsLeft.sent {n : Nat} {b : Bool} {k : Task} {s t : State}
    (h : ((putBit b s).map fun u => { u with task := k }) = some t) (hk : StepsLeft n { s with task := k }) :
    StepsLeft n t := by
  obtain ⟨u, hu, rfl⟩ := Option.map_eq_some_iff.1 h
  obtain ⟨r, -, rfl⟩ := putBit_cases hu
  exact hk

/-! ### Each step leaves one step fewer -/

section
variable {n : Nat} {s t : State}

theorem buildStep_stepsLeft {k seq leaves : Nat} {pq : List PqEntry} (hleft : pq.length < n + 1) :
    StepsLeft n (buildStep k seq leaves pq s) := by
  unfold buildStep
  split
  next => trivial
  next a q ha =>
    split
    next => trivial
    next b q' hb =>
      have hlen := extractMin_length ha
      have hlen' := extractMin_length hb
      show (q' ++ [_]).length < n
      rw [List.length_append, List.length_singleton]
      omega

theorem genlutStep_stepsLeft {stack : List (NodeIndex × List Bool)} {m : Nat}
    (hon : TriesOn s.nodes (stack.map Prod.fst) m) (hleft : m < n + 1) : StepsLeft n (genlutStep stack s) := by
  unfold genlutStep
  split
  next => trivial
  next i p rest =>
    obtain ⟨k, rfl, hk⟩ := TriesOn.pop hon
    dsimp only
    split
    next hleaf => rw [if_pos hleaf] at hk; exact ⟨k, hk, by omega⟩
    next hleaf => rw [if_neg hleaf] at hk; exact ⟨k, hk, by omega⟩

theorem tencStep_stepsLeft {out : List Bool} {stack : List NodeIndex} {m : Nat} (hon : TriesOn s.nodes stack m)
    (hleft : out.length + 10 * m < n + 1) (h : tencStep out stack s = some t) : StepsLeft n t := by
  cases out with
  | cons b out => exact .sent h ⟨m, hon, by rw [List.length_cons] at hleft; omega⟩
  | nil =>
    cases stack with
    | nil => cases h; trivial
    | cons i rest =>
      obtain ⟨k, rfl, hk⟩ := hon.pop
      simp only [tencStep] at h
      rw [List.length_nil] at hleft
      split at h <;> cases h
      next hleaf => rw [if_pos hleaf] at hk; exact ⟨k, hk, by rw [List.length_cons, bitsMsb_length]; omega⟩
      next hleaf => rw [if_neg hleaf] at hk; exact ⟨k, hk, by rw [List.length_singleton]; omega⟩

theorem tdecTagStep_stepsLeft {pending : List Slot} {k leaves : Nat} (hcap : k ≤ Config.nodeCap)
    (hleft : 9 * (511 - k) < n + 1) (h : tdecTagStep pending k leaves s = some t) : StepsLeft n t := by
  cases pending with
  | nil => cases h; trivial
  | cons slot rest =>
    simp only [tdecTagStep] at h
    split at h
    next => cases h
    next => cases h; trivial
    next =>
      split at h
      next => cases h; trivial
      next hk =>
        rw [Config.nodeCap] at hcap hk
        split at h <;> cases h
        · show 9 * (511 - (k + 1)) + (8 - 0) < n
          omega
        · show 9 * (511 - (k + 1)) < n
          omega

theorem tdecSymStep_stepsLeft {pending : List Slot} {k leaves : Nat} {i : NodeIndex} {got : List Bool}
    (hgot : got.length < 8) (hleft : 9 * (511 - k) + (8 - got.length) < n + 1)
    (h : tdecSymStep pending k leaves i got s = some t) : StepsLeft n t := by
  simp only [tdecSymStep] at h
  split at h
  next => cases h
  next => cases h; trivial
  next b u _ =>
    split at h <;> cases h
    · show 9 * (511 - k) + (8 - (got ++ [b]).length) < n
      rw [List.length_append, List.length_singleton]
      omega
    · show 9 * (511 - k) < n
      omega

theorem ldecStep_stepsLeft {got : List Bool} (hgot : got.length < 32) (hleft : 32 - got.length < n + 1)
    (h : ldecStep got s = some t) : StepsLeft n t := by
  simp only [ldecStep] at h
  split at h
  next => cases h
  next => cases h; trivial
  next b u _ =>
    split at h <;> cases h
    · show 32 - (got ++ [b]).length < n
      rw [List.length_append, List.length_singleton]
      omega
    · unfold ldecEnd
      split <;> trivial

/-- A step of a walk goes to a trie less deep, and leaves `MSGLEN` as it is. -/
theorem exists_child_of_walkStep {i j : NodeIndex} {c : Trie} (hat : TrieAt s.nodes i c)
    (hleaf : ¬ (nodeAt i s).leaf = true) (h : walkStep i s = some (some j, t)) :
    (∃ d, TrieAt t.nodes j d ∧ d.depth < c.depth) ∧ t.msglen = s.msglen := by
  obtain ⟨hj, -⟩ | ⟨b, rest, hj, rfl⟩ := walkStep_cases h
  · cases hj
  · cases hj
    exact ⟨hat.exists_child_depth_lt hleaf b, rfl⟩

theorem sdecStep_stepsLeft {i : NodeIndex} {c : Trie} (hat : TrieAt s.nodes i c) (hleft : c.depth < n + 1)
    (h : sdecStep i s = some t) : StepsLeft n t := by
  unfold sdecStep at h
  split at h
  next => cases h; trivial
  next hleaf =>
    split at h
    next => cases h
    next => cases h; trivial
    next j u hw =>
      cases h
      obtain ⟨⟨d, hd, hlt⟩, -⟩ := exists_child_of_walkStep hat hleaf hw
      exact ⟨d, hd, by omega⟩

theorem mdecWalkStep_stepsLeft {k : Nat} {i : NodeIndex} {c : Trie} (hat : TrieAt s.nodes i c)
    (hleft : 258 * (s.msglen.toNat - (k + 1)) + c.depth + 2 < n + 1) (h : mdecWalkStep k i s = some t) :
    StepsLeft n t := by
  unfold mdecWalkStep at h
  split at h
  next =>
    cases h
    show 258 * (s.msglen.toNat - (k + 1)) + 1 < n
    omega
  next hleaf =>
    split at h
    next => cases h
    next => cases h; trivial
    next j u hw =>
      cases h
      obtain ⟨⟨d, hd, hlt⟩, hlen⟩ := exists_child_of_walkStep hat hleaf hw
      exact ⟨d, hd, by rw [hlen]; omega⟩

theorem mdecNextStep_stepsLeft {k : Nat} {c : Trie} (hat : TrieAt s.nodes s.root c) (hdepth : c.depth ≤ 255)
    (hleft : 258 * (s.msglen.toNat - k) < n + 1) : StepsLeft n (mdecNextStep k s) := by
  unfold mdecNextStep
  split
  next hk => exact ⟨c, hat, by dsimp only; omega⟩
  next => trivial

theorem mdecOutStep_stepsLeft {k : Nat} {x : Symbol} (hleft : 258 * (s.msglen.toNat - (k + 1)) + 1 < n + 1)
    (h : mdecOutStep k x s = some t) : StepsLeft n t := by
  obtain ⟨u, hu, rfl⟩ := Option.map_eq_some_iff.1 h
  obtain ⟨r, -, rfl⟩ := sendSymbol_cases hu
  exact Nat.lt_of_succ_lt_succ hleft

theorem mencSymStep_stepsLeft {k : Nat} (hleft : 257 * (s.msglen.toNat - k) < n + 1)
    (h : mencSymStep k s = some t) : StepsLeft n t := by
  unfold mencSymStep at h
  split at h
  next hk =>
    split at h
    next => cases h
    next x u hu =>
      obtain ⟨rest, -, rfl⟩ := takeSymbol_cases hu
      split at h <;> cases h
      · trivial
      · have hcode := code_length_le (lutAt x s)
        show 257 * (s.msglen.toNat - (k + 1)) + (lutAt x s).code.length + 1 < n
        omega
  next => cases h; trivial

theorem mencOutStep_stepsLeft {k : Nat} {out : List Bool}
    (hleft : 257 * (s.msglen.toNat - (k + 1)) + out.length + 1 < n + 1) (h : mencOutStep k out s = some t) :
    StepsLeft n t := by
  cases out with
  | cons b out => exact .sent h (Nat.lt_of_succ_lt_succ hleft)
  | nil => cases h; exact Nat.lt_of_succ_lt_succ hleft

end

/-- While a VALID trie stands, the root holds a trie that a walk leaves within MAXCODE bits. -/
theorem Inv.exists_root {s : State} (h : Inv s) (hok : TrieStateOk s) (hv : s.trieState = .valid) :
    ∃ t, TrieAt s.nodes s.root t ∧ t.depth ≤ 255 := by
  unfold TrieStateOk at hok
  rw [hv] at hok
  obtain ⟨⟨t, hold⟩, -⟩ := hok
  obtain ⟨-, -, -, hdepth⟩ := hold.bounds h.tables
  exact ⟨t, hold.1, hdepth⟩

theorem coreStep_stepsLeft {n : Nat} {s t : State} (hinv : Inv s) (hleft : StepsLeft (n + 1) s)
    (h : coreStep s = some t) : StepsLeft n t := by
  have hok := hinv.task
  unfold TaskOk at hok
  unfold StepsLeft at hleft
  unfold coreStep at h
  cases htask : s.task <;> rw [htask] at hok hleft h
  case idle => cases h
  case issued => exact hleft.elim
  case build => cases h; exact buildStep_stepsLeft hleft
  case genlut => cases h; obtain ⟨m, hon, hm⟩ := hleft; exact genlutStep_stepsLeft hon hm
  case tenc => obtain ⟨m, hon, hm⟩ := hleft; exact tencStep_stepsLeft hon hm h
  case tdecTag => obtain ⟨-, hcap, -⟩ := hok; exact tdecTagStep_stepsLeft hcap hleft h
  case tdecSym => obtain ⟨-, hgot, -⟩ := hok; exact tdecSymStep_stepsLeft hgot hleft h
  case lenc out | senc out =>
    cases out with
    | cons b out => exact .sent h (Nat.lt_of_succ_lt_succ hleft)
    | nil => cases h; trivial
  case ldec => obtain ⟨-, -, hgot⟩ := hok; exact ldecStep_stepsLeft hgot hleft h
  case sdec => obtain ⟨c, hat, hc⟩ := hleft; exact sdecStep_stepsLeft hat hc h
  case mencSym => exact mencSymStep_stepsLeft hleft h
  case mencOut => exact mencOutStep_stepsLeft hleft h
  case mdecNext =>
    obtain ⟨hst, -, hv⟩ := hok
    obtain ⟨c, hat, hdepth⟩ := hinv.exists_root hst hv
    cases h
    exact mdecNextStep_stepsLeft hat hdepth hleft
  case mdecWalk => obtain ⟨c, hat, hc⟩ := hleft; exact mdecWalkStep_stepsLeft hat hc h
  case mdecOut => exact mdecOutStep_stepsLeft hleft h
  case close => obtain ⟨u, -, rfl⟩ := Option.map_eq_some_iff.1 h; trivial

/-! ### A turn is long enough -/

/-- A turn is longer than any command in a state of the invariant: MENC and MDEC have the most steps, at most 258
for each of at most 2^32 symbols. -/
theorem Inv.stepsLeft {s : State} (h : Inv s) (hne : s.task ≠ .issued) : StepsLeft Config.turnLength s := by
  have hok := h.task
  have hlen := s.msglen.isLt
  unfold TaskOk at hok
  unfold StepsLeft
  rw [Config.turnLength]
  cases htask : s.task <;> rw [htask] at hok
  case idle => trivial
  case issued => exact absurd htask hne
  case build =>
    obtain ⟨-, -, -, hleaves, hcount, -⟩ := hok
    dsimp only
    omega
  case genlut =>
    obtain ⟨-, ⟨-, rfl, -⟩ | ⟨-, subs, rfl, hat, hsum, -⟩⟩ := hok
    · exact ⟨0, .nil, by decide⟩
    · obtain ⟨m, hm, hle⟩ := exists_triesOn Prod.fst fun r hr => (hat r hr).1
      exact ⟨m, by rwa [List.map_map], by omega⟩
  case tenc =>
    obtain ⟨-, -, ⟨subs, rfl, hat, hsum⟩, hout⟩ := hok
    obtain ⟨m, hm, hle⟩ := exists_triesOn id hat
    exact ⟨m, hm, by omega⟩
  case tdecTag | tdecSym | ldec | mencSym | mdecNext | mdecOut | close => dsimp only; omega
  case lenc => obtain ⟨-, -, hout⟩ := hok; exact hout.trans_lt (by decide)
  case senc => obtain ⟨-, -, -, hout⟩ := hok; exact hout.trans_lt (by decide)
  case mencOut => obtain ⟨-, -, -, hout⟩ := hok; rw [Config.maxCode] at hout; dsimp only; omega
  case sdec => obtain ⟨-, -, -, t, hat, hdepth⟩ := hok; exact ⟨t, hat, hdepth.trans_lt (by decide)⟩
  case mdecWalk => obtain ⟨-, -, -, t, hat, hdepth⟩ := hok; exact ⟨t, hat, by rw [Config.maxCode] at hdepth; omega⟩

/-- A core with at most `n` steps left makes no step after `n` of them. -/
theorem coreStep_runCore_of_stepsLeft {n : Nat} {s : State} (hinv : Inv s) (hleft : StepsLeft n s) :
    coreStep (runCore n s) = none := by
  induction n generalizing s with
  | zero => exact coreStep_idle hleft.idle
  | succ n ih =>
    cases hstep : coreStep s with
    | none => rwa [runCore_stuck hstep]
    | some t => rw [runCore_succ hstep]; exact ih (coreStep_inv hinv hstep) (coreStep_stepsLeft hinv hleft hstep)

theorem runTurn_restsOrWaits {s : State} (h : Inv s) (hne : s.task ≠ .issued) : RestsOrWaits (runTurn s) :=
  restsOrWaits_of_coreStep (coreStep_runCore_of_stepsLeft h (h.stepsLeft hne))

/-! ### Commands and steps -/

theorem HasTask.ne_issued {i : Instr} {k : Task} (h : HasTask i k) : k ≠ .issued := by
  rintro rfl
  cases h

theorem exec_restsOrWaits (i : Instr) {s : State} (h : Inv s) (htask : s.task = .idle ∨ s.task = .issued) :
    ∃ t, exec i s = .next t ∧ RestsOrWaits t := by
  have hok := h.task
  unfold TaskOk at hok
  have hbegin : Inv (begin i s) := by
    obtain htask | htask := htask <;> rw [htask] at hok <;> obtain ⟨htrie, hlut⟩ := hok <;>
      exact begin_inv i h htrie hlut
  exact ⟨_, exec_eq i s, runTurn_restsOrWaits hbegin (begin_goesOn i s).task.ne_issued⟩

theorem coreTurn_restsOrWaits {s : State} (h : Inv s) : ∃ t, coreTurn .full s = .next t ∧ RestsOrWaits t := by
  by_cases htask : s.task = .issued
  · cases hd : decode s.cmd with
    | legal i => rw [coreTurn_legal htask hd]; exact exec_restsOrWaits i h (.inr htask)
    | illegal r => exact ⟨_, coreTurn_illegal htask hd, .inl rfl⟩
  · exact ⟨_, coreTurn_running htask, runTurn_restsOrWaits h htask⟩

/-- Settles O56: a turn from the invariant runs the core until it makes no step, and there it rests or waits. -/
theorem commandsCompleteOrWaitForAPort : Obligations.CommandsCompleteOrWaitForAPort := by
  refine ⟨fun i s h htask => exec_restsOrWaits i h htask, fun s h hpace => ?_⟩
  cases ha : s.agenda with
  | nil => rw [step_nil ha]; exact coreTurn_restsOrWaits h
  | cons e rest =>
    rw [step_cons ha, hpace e rest ha]
    exact coreTurn_restsOrWaits (serve_inv (h.with_agenda rest) e)

end Sys2Proof.Machine
end
